-- ==== Sys2Proof/Word.lean ====
section
/-! DEFINITION. The word types of the HB-24: bytes, half words, words, server addresses, hall clock readings, and the
numbers of cells and sites. -/

namespace Sys2Proof

/-- One byte of server memory or of a cell line. -/
abbrev Byte := BitVec 8

/-- A 16-bit field: a map cell, a site mask, a touchdown number, a coordinate. -/
abbrev Half := BitVec 16

/-- A 32-bit field: a register, a lot key, a count, a result word. -/
abbrev Word := BitVec 32

/-- A 64-bit byte address of server memory (00_scope, Conventions). -/
abbrev Addr := BitVec 64

/-- A reading of the 32-bit millisecond hall clock (R183). -/
abbrev Time := BitVec 32

/-- A cell, its line and its assembler: 0..23. -/
abbrev CellNo := Fin 24

/-- A socket of a cell: 0..15. -/
abbrev Site := Fin 16

/-- The millisecond sum of a time and a delay, modulo 2^32 (R183). -/
abbrev Time.plus (t : Time) (ms : Nat) : Time := t + BitVec.ofNat 32 ms

end Sys2Proof
end

