-- ==== Sys2Proof/Config.lean ====
section
/-! DEFINITION. The free values: what the manual leaves open and nothing in the model constrains. -/

namespace Sys2Proof

/-- How the n-th race is decided once State.races has run out (notes/assumptions/7.md). The manual says of each such
race that either may be taken first (R116, R158, R176, R179). No body: nothing can evaluate it. -/
opaque Config.race : Nat → Bool

/-- The required length that a BAD_LENGTH result word carries for an order of this kind whose list count was not read
(R147 states the word for a count that was read; notes/assumptions/10.md). No body. -/
opaque Config.unreadRequiredLength : Nat → Half

end Sys2Proof
end

