-- ==== Sys2Proof/Syntax.lean ====
section
/-! DEFINITION. The commands of the HB-24: one constructor for each row of spec/opcode_table.json, with the operands the
command brings from outside (notes/assumptions/2.md). -/

namespace Sys2Proof

/-- Which half of the setup address a register write names (R173). -/
inductive SetupHalf where
  | lo | hi
  deriving DecidableEq, Repr

/-- Which late response arrives: one to a transaction that a timeout or a reset has ended, or the one to the setup read
that a STOP in LOADING abandoned, which still holds the port (R178, R180; notes/assumptions/21.md). -/
inductive LateResponse where
  | ended | abandonedSetupRead
  deriving DecidableEq, Repr

/-- The commands. A CONTROL or STATUS row carries the word written (R171, R172); a read's completion carries the data
read; a line row carries its cell. -/
inductive Instr where
  /-- A CONTROL write whose INIT position is 1 (R171, R174). -/
  | init (w : Word)
  /-- A CONTROL write whose START position is 1 (R171, R176). -/
  | start (w : Word)
  /-- A CONTROL write whose STOP position is 1 (R171, R177, R178, R181). -/
  | stop (w : Word)
  /-- A CONTROL write whose RESET position is 1 (R171, R182). -/
  | reset (w : Word)
  /-- A CONTROL write whose NUDGE position is 1 (R171, R153, R164). -/
  | nudge (w : Word)
  /-- A CONTROL write with no action position at 1: its enables are stored (R171). -/
  | setEnables (w : Word)
  /-- A STATUS write with 1 in the LOAD_DONE position (R172). -/
  | clearLoadDone (w : Word)
  /-- A STATUS write with 1 in the NOTICE position (R168). -/
  | clearNotice (w : Word)
  /-- A write of SETUP_ADDR_LO or SETUP_ADDR_HI (R173). -/
  | setupAddrWrite (half : SetupHalf) (value : Word)
  /-- A write at a window offset that names no writable position: FAULT_INFO or an unnamed one (R173, R184). -/
  | registerWriteIgnored (offset value : Word)
  | powerOnReset
  | busReset
  /-- The 64 bytes of the setup block arrive (R175). -/
  | setupReadDone (data : List Byte)
  | transactionErrorResponse
  | responseTimerExpiry
  | lateResponse (which : LateResponse)
  /-- A character completes with these data bits, parity bit and stop bit, one of the last two wrong (R24). -/
  | characterError (c : CellNo) (data : Byte) (parity stop : Bool)
  /-- A character with a high stop bit and even parity completes; in TYPE it names no type (R27). -/
  | typeError (c : CellNo) (b : Byte)
  /-- The same in LENGTH, where it is not the type's length (R28). -/
  | lengthError (c : CellNo) (b : Byte)
  /-- The same in CHECK, where the sum is no multiple of 256 (R29). -/
  | checkError (c : CellNo) (b : Byte)
  | gapError (c : CellNo)
  | qualityWindowEnd (c : CellNo)
  /-- A good OPEN completes (R26, R29, R47). -/
  | openMsg (c : CellNo) (number declared : Half)
  /-- A good UNIT completes (R26, R29, R49). -/
  | unitMsg (c : CellNo) (site : Byte) (key : Word) (wafer : Byte) (x y : Half) (bin attempt : Byte)
  /-- A good CLOSE completes (R26, R29, R51). -/
  | closeMsg (c : CellNo) (number : Half)
  /-- A good HELLO completes (R26, R29, R52). -/
  | helloMsg (c : CellNo)
  | silenceTimerExpiry (c : CellNo)
  | holdStateSent (c : CellNo)
  | collationTakeWork
  /-- The map cell's 16 bits arrive (R71). -/
  | mapReadDone (v : Half)
  | mapWriteDone
  | tallyRecordWriteDone
  | graceTimerExpiry (key : Word)
  | scanReadDone (data : List Byte)
  | headerReadDone (data : List Byte)
  | bodyReadDone (data : List Byte)
  | cellRecordWriteDone
  | resultWordWriteDone
  | stateWriteDone
  /-- The 8-byte link arrives (R151). -/
  | linkReadDone (v : Addr)
  | chainPositionWriteDone
  | pollTimerExpiry
  | noticeRecordWriteDone
  | countWriteDone
  /-- The consumed word arrives (R164). -/
  | consumedReadDone (v : Word)
  | retryTimerExpiry
  | fallingEdge (c : CellNo)
  | startBitNoise (c : CellNo)
  /-- A character with a high stop bit and even parity completes (R24, R27). -/
  | byte (c : CellNo) (b : Byte)
  | takenWriteDone
  deriving DecidableEq, Repr

end Sys2Proof
end

