-- ==== Sys2Proof/Decode.lean ====
section
/-! DEFINITION. The decoder of table words. The HB-24 is a block: no row of spec/opcode_table.json gives bits, so no word
spells a command (notes/assumptions/29.md). -/

namespace Sys2Proof

/-- The command a word of `nbits` bits spells: none, since no row of the table gives bits. -/
def decodeTableWord (_nbits _w : Nat) : Option Instr := none

end Sys2Proof
end

