-- ==== Sys2Proof/Machine/State.lean ====
section
/-! DEFINITION. The state of the HB-24 as plain data: everything INVENTORY.md lists under State, the state after a
power-on reset, and the reasons a step can stop. -/

namespace Sys2Proof.Machine

/-! ## Engine control and the memory port (10_engine_control_registers_and_faults) -/

/-- R170. -/
inductive EngineState where
  | halted | loading | running | draining | faulted
  deriving DecidableEq, Repr

/-- The load error codes of R185, in code order. -/
inductive LoadError where
  | none | setupMisaligned | badBlockLength | badSlotCount | badInterval | badChainHead | badListAddress
  | badConsumedAddress | badStatusAddress | readError | readTimeout | abandoned
  deriving DecidableEq, Repr

/-- R170, R182. -/
inductive ResetCause where
  | powerOn | busReset | controlReset
  deriving DecidableEq, Repr

/-- The four requesters of the memory port (R179). -/
inductive Requester where
  | orderUnit | collation | scanner | noticeUnit
  deriving DecidableEq, Repr

/-- The kinds of memory fault (R180). -/
inductive FaultKind where
  | errorResponse | timeout
  deriving DecidableEq, Repr

/-- What a transaction is for. Its requester and its direction follow from it (R142, R174, R178, R179). -/
inductive Purpose where
  | setupRead
  /-- a setup read left at the port by a STOP in LOADING (R178) -/
  | abandonedSetupRead
  | headerRead | takenWrite | bodyRead | cellRecordWrite | resultWrite | stateWrite | linkRead | positionWrite
  | mapRead | mapWrite | tallyWrite
  | scanRead
  | noticeWrite | countWrite | consumedRead
  deriving DecidableEq, Repr

/-- A transaction of the memory port (R179). `data` holds the bytes of a write and is empty for a read. -/
structure Transaction where
  purpose : Purpose
  addr    : Addr
  length  : Nat
  data    : List Byte
  deriving DecidableEq, Repr

/-- The request waiting from each requester, at most one each (R179). -/
structure Waiting where
  orderUnit  : Option Transaction
  collation  : Option Transaction
  scanner    : Option Transaction
  noticeUnit : Option Transaction
  deriving DecidableEq, Repr

/-- The memory port (R179, R180). -/
structure Port where
  outstanding : Option Transaction
  timer       : Option Time
  waiting     : Waiting
  last        : Requester
  deriving DecidableEq, Repr

/-- The values of the last accepted setup block (R170, R186). -/
structure Setup where
  chainHead    : Addr
  listAddr     : Addr
  consumedAddr : Addr
  statusAddr   : Addr
  slots        : Nat
  interval     : Nat
  deriving DecidableEq, Repr

/-- Engine control (R170), with the NOTICE flag of STATUS (R168). -/
structure Engine where
  state       : EngineState
  loaded      : Bool
  loadError   : LoadError
  loadDone    : Bool
  notice      : Bool
  fault       : Bool
  faultRecord : Option (Requester × FaultKind)
  setupAddr   : Addr
  noticeIE    : Bool
  loadIE      : Bool
  faultIE     : Bool
  resetCause  : ResetCause
  setup       : Option Setup
  deriving DecidableEq, Repr

/-! ## Codes and order outcomes (12_formats, R188) -/

/-- The refusal codes of R188. -/
inductive Code where
  | notFresh | badKind | badLength | engineFault
  | badSlot | planInUse | badEntry | noPass | rankOrder
  | catalogueFull | duplicateKey | planEmpty | badGrid | badWaferList | badLimit | badPolicy | mapCorrupt
  | unknownLot | lotBusy | badAddress
  | emptySet | badRate | noSites | badWindow | badReason | badCell
  | unknownWafer | badCoord | binUndefined | offWafer | overLimit
  | emptyTouchdown | draining | noTouchdown | straySite | repeatSite
  deriving DecidableEq, Repr

/-- The outcome of an order: its final state, code and result word (R142, R150). -/
inductive OrderOutcome where
  | done (result : Word)
  | refused (code : Code) (result : Word)
  deriving DecidableEq, Repr

/-! ## Cell lines and holds (02_cell_lines, 06_holds_and_cell_control) -/

/-- R21. -/
inductive LineState where
  | offline | online | quarantined
  deriving DecidableEq, Repr

/-- R21, R23. -/
inductive Receiver where
  | idle | character
  deriving DecidableEq, Repr

/-- The message types a cell sends (R26). -/
inductive MsgType where
  | openMsg | unitMsg | closeMsg | helloMsg
  deriving DecidableEq, Repr

/-- The decoder's state together with its partial message: SYNC stamp, type, running sum and payload so far
(R21, R27 to R29). LEN, once kept, is the type's own length. -/
inductive Decoder where
  | hunt
  | type (sync : Time)
  | length (sync : Time) (ty : MsgType)
  | payload (sync : Time) (ty : MsgType) (sum : Byte) (bytes : List Byte)
  | check (sync : Time) (ty : MsgType) (sum : Byte) (bytes : List Byte)
  deriving DecidableEq, Repr

/-- The six error kinds of a line, in the order of their codes 1..6 (R189). -/
inductive LineError where
  | parity | framing | type | length | check | gap
  deriving DecidableEq, Repr

/-- The content of a HOLD_STATE: reason byte and held site mask (R40, R192). -/
structure Content where
  reasons : Byte
  held    : Half
  deriving DecidableEq, Repr

/-- The transmitter (R40 to R43). While SENDING it holds the message, the rate it goes out at (R38), and whether it is
the final message of a line gone OFFLINE (R42). -/
inductive Transmitter where
  | silent
  | idle
  | sending (final : Bool) (rate : Fin 8) (message : List Byte)
  deriving DecidableEq, Repr

/-- A cell line (R21). `rate` is its rate code, and `txRate` the rate its transmitter begins messages at: the rate code,
but on an OFFLINE line the one it left service with (R38; notes/assumptions/32.md). -/
structure Line where
  state     : LineState
  rate      : Fin 8
  txRate    : Fin 8
  q         : Nat
  rx        : Receiver
  decoder   : Decoder
  errors    : Nat
  windowEnd : Option Time
  clean     : Nat
  tx        : Transmitter
  lastSent  : Option Content
  forced    : Bool
  finalOwed : Bool
  deriving DecidableEq, Repr

/-- The stored items of a cell's holds (R110). -/
structure Holds where
  buffer     : Bool
  cellGuard  : Bool
  ordered    : Bool
  held       : Half
  currentLot : Option Word
  deriving DecidableEq, Repr

/-! ## Touchdown assembly (03_touchdown_assembly) -/

/-- R45: FIRST or RETEST. -/
inductive Attempt where
  | first | retest
  deriving DecidableEq, Repr

/-- The values of a stored UNIT (R45). -/
structure Report where
  site    : Site
  key     : Word
  wafer   : Byte
  x       : Half
  y       : Half
  bin     : Byte
  attempt : Attempt
  deriving DecidableEq, Repr

/-- The close kinds of R54, in the order of their codes 0..6 (R189). -/
inductive CloseKind where
  | normal | superseded | timedOut | cellRestart | quarantined | reconfigured | stopped
  deriving DecidableEq, Repr

/-- A touchdown record (R45). Close kind, missing set and close stamp are absent while it is open. -/
structure Touchdown where
  number     : Half
  declared   : Half
  reports    : List Report
  heard      : Half
  lost       : Nat
  mismatch   : Bool
  closeKind  : Option CloseKind
  missing    : Option Half
  closeStamp : Option Time
  mark       : Nat
  deriving DecidableEq, Repr

/-- A touchdown assembler (R44). Its state is OPEN exactly while `touchdown` is present; its slots in use are computed
(R56); its BUFFER is held with the holds (R111). -/
structure Assembler where
  touchdown : Option Touchdown
  silence   : Option Time
  timeout   : Nat
  enabled   : Half
  queue     : List Touchdown
  deriving DecidableEq, Repr

/-! ## Yield guards (05_yield_guards) -/

/-- An outcome, and the class a plan gives a tested bin (R7, R81, R89). -/
inductive Verdict where
  | pass | fail
  deriving DecidableEq, Repr

/-- The guard state of one site (R88, R89). -/
structure SiteGuard where
  window     : List Verdict
  failCount  : Nat
  run        : Nat
  runFlag    : Bool
  limitFlag  : Bool
  spreadFlag : Bool
  deriving DecidableEq, Repr

/-- The guard state of one cell (R88). -/
structure Guard where
  w  : Nat
  m  : Nat
  l  : Nat
  mc : Nat
  lc : Nat
  d  : Nat
  k  : Nat
  sites    : Vector SiteGuard 16
  cellFlag : Bool
  deriving DecidableEq, Repr

/-- One column of the part: a cell's line, holds, assembler and guard state. -/
structure CellState where
  line  : Line
  holds : Holds
  asm   : Assembler
  guard : Guard
  deriving DecidableEq, Repr

/-! ## Plans, lots and collation (01, 04_collation, 07_lots) -/

/-- What a plan says of a PASS or FAIL soft bin (R7). -/
structure BinInfo where
  cls   : Verdict
  rank  : Nat
  group : Fin 16
  deriving DecidableEq, Repr

/-- A bin plan: for each soft bin 0..239 its class, rank and group, or none for UNUSED (R7). -/
abbrev Plan := Vector (Option BinInfo) 240

/-- R125, R126. -/
inductive LotState where
  | opening | opened | closing
  deriving DecidableEq, Repr

/-- R73 to R75. -/
inductive Policy where
  | keepBest | keepLast
  deriving DecidableEq, Repr

/-- A lot's floor: figure 0..10000 and minimum 1..65535 (R125, R132). -/
structure Floor where
  figure  : Nat
  minimum : Nat
  deriving DecidableEq, Repr

/-- A wafer of a lot's wafer list (R125). -/
structure Wafer where
  number     : Nat
  map        : Addr
  candidates : Nat
  tested     : Nat
  passed     : Nat
  complete   : Bool
  deriving DecidableEq, Repr

/-- An entry of the lot catalogue (R125). `graceSpent` says that the grace timer has expired (R135). -/
structure Lot where
  key        : Word
  state      : LotState
  plan       : Fin 8
  columns    : Nat
  rows       : Nat
  policy     : Policy
  limit      : Nat
  floor      : Option Floor
  tripped    : Bool
  grace      : Option Time
  graceSpent : Bool
  finalAddr  : Option Addr
  clamps     : Option Nat
  wafers     : List Wafer
  tested     : Nat
  passed     : Nat
  duplicates : Nat
  refused    : Nat
  groups     : Vector Nat 16
  deriving DecidableEq, Repr

/-- The fault kinds of an invalid map cell, in the order of their codes 1..4 (R5, R188). -/
inductive MapFault where
  | badValue | badAttempts | unusedBin | overAttemptLimit
  deriving DecidableEq, Repr

/-- The body of an OPEN_LOT as read (R127, R187). -/
structure OpenLotBody where
  key     : Word
  plan    : Nat
  policy  : Nat
  limit   : Nat
  floor   : Option Floor
  columns : Nat
  rows    : Nat
  count   : Nat
  wafers  : List (Nat × Addr)
  deriving DecidableEq, Repr

/-- An entry of a LOAD_PLAN as read (R9, R187). -/
structure PlanEntry where
  bin   : Nat
  cls   : Nat
  rank  : Nat
  group : Nat
  deriving DecidableEq, Repr

/-- The three counts of a scanned wafer, with its number (R18). -/
structure WaferCounts where
  number     : Nat
  candidates : Nat
  tested     : Nat
  passed     : Nat
  deriving DecidableEq, Repr

/-- A catalogue request (R63). -/
inductive Request where
  | openLot (b : OpenLotBody)
  | closeLot (key : Word) (grace : Nat) (addr : Addr)
  | snapshot (key : Word) (addr : Addr)
  | releaseLot (key : Word) (floor : Option Floor)
  | loadPlan (slot : Nat) (entries : List PlanEntry)
  | scanSuccess (key : Word) (wafers : List WaferCounts) (groups : Vector Nat 16)
  | scanInvalid (key : Word) (wafer x y : Nat) (fault : MapFault)
  | scanAbandoned (key : Word)
  | finalize (key : Word)
  deriving DecidableEq, Repr

/-- A record being written to server memory: where its next byte goes, the bytes whose write has not completed, and its
whole length (R121, R140). -/
structure RecordWrite where
  next  : Addr
  rest  : List Byte
  total : Nat
  deriving DecidableEq, Repr

/-- The collation unit's work in service (R62, R66, R67). -/
inductive Work where
  | record (c : CellNo)
  | snapshot (key : Word) (w : RecordWrite)
  | finalize (key : Word) (w : RecordWrite)
  deriving DecidableEq, Repr

/-- The stage of the report in progress; from the decision on it holds the content read and the content decided
(R68, R84). -/
inductive ReportStage where
  | reading
  | writing (was now : Half)
  deriving DecidableEq, Repr

/-- The collation unit (R62). -/
structure Collation where
  lots       : List Lot
  plans      : Vector (Option Plan) 8
  requests   : List Request
  work       : Option Work
  inProgress : Option ReportStage
  pointer    : CellNo
  deriving DecidableEq, Repr

/-- A scan in progress (R13). `todo` starts with the wafer being read; `finished` holds the wafers read, in list order. -/
structure Scan where
  key      : Word
  plan     : Fin 8
  columns  : Nat
  rows     : Nat
  limit    : Nat
  todo     : List (Nat × Addr)
  index    : Nat
  finished : List WaferCounts
  candidates : Nat
  tested   : Nat
  passed   : Nat
  groups   : Vector Nat 16
  deriving DecidableEq, Repr

/-! ## The order unit (08_the_order_chain) -/

/-- R142. -/
inductive OrderPhase where
  | none | fetch | serving | answer | link
  deriving DecidableEq, Repr

/-- How far an order in service has gone (R146 to R150, R156). -/
inductive Stage where
  /-- the TAKEN write is issued and not completed -/
  | taken
  /-- the body prefix of a listed kind is being read, up to `want` body bytes -/
  | bodyPrefix (want : Nat)
  /-- the body is being read, up to `want` body bytes -/
  | body (want : Nat)
  /-- handed to the collation unit -/
  | waiting
  /-- a READ_CELL writing its record, with its number of site entries (R121) -/
  | cellRecord (w : RecordWrite) (entries : Nat)
  /-- the outcome is known -/
  | answering
  deriving DecidableEq, Repr

/-- The order in service: record address, tag-free header copy (bytes 00h..0Fh, then 14h..17h), body as read, stage, and
whether a load has moved the chain position since it was taken (R142, R157). -/
structure Service where
  record : Addr
  header : List Byte
  body   : List Byte
  stage  : Stage
  stale  : Bool
  deriving DecidableEq, Repr

/-- The order unit (R142). -/
structure OrderUnit where
  position     : Option Addr
  phase        : OrderPhase
  posWritten   : Bool
  gathered     : List Byte
  service      : Option Service
  outcome      : Option OrderOutcome
  pollTimer    : Option Time
  nudgePending : Bool
  deriving DecidableEq, Repr

/-! ## Notices (09_notices_and_the_interrupt) -/

/-- The notice kinds, in the order of their codes 01h..0Fh (12.4). -/
inductive NoticeKind where
  | waferComplete | lotClosed | lotFloor | duplicateDie | siteRun | siteLimit | siteSpread | cellLimit
  | lineQuarantined | lineRestored | shortTouchdown | touchdownLoss | reportRefused | cellRestart | overflow
  deriving DecidableEq, Repr

/-- R158. -/
inductive Subject where
  | lot (key : Word) (wafer : Nat)
  | site (c : CellNo) (s : Site)
  | cell (c : CellNo)
  deriving DecidableEq, Repr

/-- The detail of an occurrence, by kind (R83, R98, R189). -/
inductive Detail where
  | waferComplete (key : Word) (candidates tested passed : Nat)
  | lotClosed (key : Word) (tested passed figure wafers complete : Nat) (addr : Addr)
  | lotFloor (key : Word) (tested passed y figure minimum : Nat) (reporter : Option (CellNo × Site))
  | duplicateDie (key : Word) (c : CellNo) (site : Site) (number : Half) (stamp : Time) (x y : Half)
      (reported standing : Byte)
  | siteRun (site : Site) (run k n f w : Nat)
  | siteLimit (site : Site) (n f m fs l w : Nat)
  | siteSpread (site : Site) (n f m fs nOthers fOthers fo d : Nat)
  | cellLimit (site : Site) (enabled nc fcount fc mc lc : Nat)
  | lineQuarantined (errors : Nat) (kind : LineError)
  | lineRestored
  | shortTouchdown (number : Half) (kind : CloseKind) (missing : Half) (lost : Nat) (mismatch : Bool)
  | touchdownLoss (number : Half) (lost : Nat)
  /-- by the assembler: the code, the site byte as received (FFh for an OPEN), the open touchdown's number -/
  | messageRefused (code : Code) (site : Byte) (number : Half)
  /-- by the collation unit -/
  | reportRefused (code : Code) (r : Report) (number : Half) (stamp : Time) (fault : Option MapFault)
  | cellRestart
  deriving DecidableEq, Repr

/-- The key of an occurrence (R158). -/
structure NoticeKey where
  kind    : NoticeKind
  subject : Subject
  deriving DecidableEq, Repr

/-- An ordinary entry of the pending table (R159); `lostTotal` is the lost report total of a TOUCHDOWN_LOSS entry. -/
structure Entry where
  key       : NoticeKey
  count     : Nat
  first     : Time
  last      : Time
  detail    : Detail
  lostTotal : Nat
  deriving DecidableEq, Repr

/-- The OVERFLOW entry (R159, R161). -/
structure Overflow where
  count     : Nat
  first     : Time
  last      : Time
  firstKey  : NoticeKey
  latestKey : NoticeKey
  deriving DecidableEq, Repr

/-- A place in the pending table. -/
inductive Pending where
  | entry (e : Entry)
  | overflow (o : Overflow)
  deriving DecidableEq, Repr

/-- R159. -/
inductive NoticePhase where
  | idle | record | count | room | wait
  deriving DecidableEq, Repr

/-- The post in progress (R162). -/
structure Post where
  content : Pending
  seq     : Word
  deriving DecidableEq, Repr

/-- The notice unit (R159). -/
structure NoticeUnit where
  table        : List Pending
  post         : Option Post
  phase        : NoticePhase
  written      : Word
  consumed     : Word
  countOwed    : Bool
  retry        : Option Time
  nudgePending : Bool
  deriving DecidableEq, Repr

/-! ## The whole part -/

/-- The state of the part, with the queue of waiting commands and the two fields that decide open races
(notes/assumptions/7.md). -/
structure State where
  engine    : Engine
  irq       : Bool
  clock     : Time
  port      : Port
  order     : OrderUnit
  cells     : Vector CellState 24
  coll      : Collation
  scanner   : Option Scan
  notice    : NoticeUnit
  pending   : List Instr
  races     : List Bool
  raceCount : Nat
  deriving DecidableEq, Repr

/-- No command of this block stops the machine: the spec's memory faults are states of the part (R181). So there is no
fault reason, and nothing raises one. Safe. -/
inductive Fault where
  deriving DecidableEq, Repr

/-- Why a command is refused. -/
inductive Refusal where
  /-- A command of the table that has no meaning yet, by its mnemonic. Raised only by an arm of exec that says so; no
  arm does. Safe. -/
  | notModelled (mnemonic : String)
  deriving DecidableEq, Repr

/-! ## Reset values -/

/-- R21. -/
def Line.reset : Line where
  state := .offline
  rate := 3
  txRate := 3
  q := 8
  rx := .idle
  decoder := .hunt
  errors := 0
  windowEnd := none
  clean := 0
  tx := .silent
  lastSent := none
  forced := false
  finalOwed := false

/-- R110. -/
def Holds.reset : Holds where
  buffer := false
  cellGuard := false
  ordered := false
  held := 0
  currentLot := none

/-- R44. -/
def Assembler.reset : Assembler where
  touchdown := none
  silence := none
  timeout := 2000
  enabled := 0xFFFF
  queue := []

/-- R88. -/
def SiteGuard.reset : SiteGuard where
  window := []
  failCount := 0
  run := 0
  runFlag := false
  limitFlag := false
  spreadFlag := false

/-- R88, R109. -/
def Guard.reset : Guard where
  w := 32
  m := 16
  l := 1024
  mc := 64
  lc := 1024
  d := 1024
  k := 0
  sites := Vector.replicate 16 SiteGuard.reset
  cellFlag := false

def CellState.reset : CellState where
  line := Line.reset
  holds := Holds.reset
  asm := Assembler.reset
  guard := Guard.reset

/-- R170: all items but the setup address and the reset cause agree for the three resets. -/
def Engine.reset (cause : ResetCause) (setupAddr : Addr) : Engine where
  state := .halted
  loaded := false
  loadError := .none
  loadDone := false
  notice := false
  fault := false
  faultRecord := none
  setupAddr := setupAddr
  noticeIE := false
  loadIE := false
  faultIE := false
  resetCause := cause
  setup := none

/-- R179. -/
def Port.reset : Port where
  outstanding := none
  timer := none
  waiting := { orderUnit := none, collation := none, scanner := none, noticeUnit := none }
  last := .noticeUnit

/-- R142. -/
def OrderUnit.reset : OrderUnit where
  position := none
  phase := .none
  posWritten := false
  gathered := []
  service := none
  outcome := none
  pollTimer := none
  nudgePending := false

/-- R62, R87. -/
def Collation.reset : Collation where
  lots := []
  plans := Vector.replicate 8 none
  requests := []
  work := none
  inProgress := none
  pointer := 23

/-- R159. -/
def NoticeUnit.reset : NoticeUnit where
  table := []
  post := none
  phase := .idle
  written := 0
  consumed := 0
  countOwed := false
  retry := none
  nudgePending := false

/-- The part after a reset of the given cause that leaves the given setup address (R182). The queue of commands and the
race fields are the model's own: empty and 0. -/
def State.afterReset (cause : ResetCause) (setupAddr : Addr) : State where
  engine := Engine.reset cause setupAddr
  irq := false
  clock := 0
  port := Port.reset
  order := OrderUnit.reset
  cells := Vector.replicate 24 CellState.reset
  coll := Collation.reset
  scanner := none
  notice := NoticeUnit.reset
  pending := []
  races := []
  raceCount := 0

/-- The part right after a power-on reset, the setup address at 0 (R170, R182). -/
def State.reset : State := State.afterReset .powerOn 0

end Sys2Proof.Machine
end

