-- ==== Sys2Proof/Machine/Operands.lean ====
section
/-! DEFINITION. Operand forms: little-endian fields, transaction sizes, and the layouts the part reads: line messages,
map cells, the setup block, order headers and order bodies (12_formats). -/

namespace Sys2Proof.Machine

/-! ## Little-endian fields (00_scope, Conventions) -/

/-- The value of a byte list, low byte first. -/
def leNat : List Byte → Nat
  | [] => 0
  | b :: bs => b.toNat + 256 * leNat bs

/-- The low `n` bytes of a value, low byte first. -/
def leBytes : Nat → Nat → List Byte
  | 0, _ => []
  | n + 1, v => BitVec.ofNat 8 v :: leBytes n (v / 256)

/-- The field of `size` bytes at `off` in a record. -/
def field (bs : List Byte) (off size : Nat) : Nat := leNat ((bs.drop off).take size)

/-- A presence flag or option byte is judged by its bit 0 alone (R184). -/
def flagAt (bs : List Byte) (off : Nat) : Bool := field bs off 1 % 2 == 1

/-- A list of `n` bytes: `bs` cut or filled with zeros at its end (R184: unnamed bytes are written as 0). -/
def padTo (n : Nat) (bs : List Byte) : List Byte := (bs ++ List.replicate n 0).take n

/-! ## Sets as masks (00_scope, Conventions; R184) -/

/-- All cells, in ascending order. -/
def allCells : List CellNo := List.finRange 24

/-- All sites, in ascending order. -/
def allSites : List Site := List.finRange 16

/-- The site is in the mask. -/
abbrev hasSite (m : Half) (s : Site) : Bool := m.getLsbD s.val

/-- The cell is in the 32-bit cell mask; bits 24..31 name no cell (R184). -/
abbrev hasCell (m : Word) (c : CellNo) : Bool := m.getLsbD c.val

/-- The mask of one site. -/
def siteBit (s : Site) : Half := BitVec.twoPow 16 s.val

/-- The cells of a cell set, ascending (R184; notes/assumptions/9.md). -/
def cellsOf (m : Word) : List CellNo := allCells.filter (hasCell m)

/-- The sites of a site set, ascending. -/
def sitesOf (m : Half) : List Site := allSites.filter (hasSite m)

/-! ## Transactions never cross a multiple of 64 (R15, R144, R140, R179) -/

/-- How many of `n` bytes from an address one transaction takes. -/
def chunk (a : Addr) (n : Nat) : Nat := min n (64 - a.toNat % 64)

/-- An address some bytes on, modulo 2^64 (notes/assumptions/16.md). -/
abbrev addrPlus (a : Addr) (n : Nat) : Addr := a + BitVec.ofNat 64 n

/-- A multiple of `n` bytes. -/
def aligned (a : Addr) (n : Nat) : Bool := a.toNat % n == 0

/-! ## Who a transaction is of (R142, R174, R178, R179) -/

/-- The requester of a transaction; the setup read takes the order unit's place (R174). -/
def Purpose.requester : Purpose → Requester
  | .setupRead | .abandonedSetupRead | .headerRead | .takenWrite | .bodyRead | .cellRecordWrite | .resultWrite
  | .stateWrite | .linkRead | .positionWrite => .orderUnit
  | .mapRead | .mapWrite | .tallyWrite => .collation
  | .scanRead => .scanner
  | .noticeWrite | .countWrite | .consumedRead => .noticeUnit

/-- The direction of a transaction. -/
def Purpose.isWrite : Purpose → Bool
  | .takenWrite | .cellRecordWrite | .resultWrite | .stateWrite | .positionWrite | .mapWrite | .tallyWrite
  | .noticeWrite | .countWrite => true
  | .setupRead | .abandonedSetupRead | .headerRead | .bodyRead | .linkRead | .mapRead | .scanRead
  | .consumedRead => false

/-- A read transaction. -/
def readOf (p : Purpose) (a : Addr) (n : Nat) : Transaction := ⟨p, a, n, []⟩

/-- A write transaction. -/
def writeOf (p : Purpose) (a : Addr) (bs : List Byte) : Transaction := ⟨p, a, bs.length, bs⟩

/-! ## Line characters and messages (R22, R24, R26, R192) -/

/-- The number of high bits of a byte. -/
def ones (b : Byte) : Nat := ((List.range 8).filter fun i => b.getLsbD i).length

/-- The number of high bits among data and parity is even (R22). -/
def evenParity (data : Byte) (parity : Bool) : Bool := (ones data + parity.toNat) % 2 == 0

/-- The type codes 01h..04h (R26). -/
def MsgType.code : MsgType → Byte
  | .openMsg => 0x01
  | .unitMsg => 0x02
  | .closeMsg => 0x03
  | .helloMsg => 0x04

/-- The type a TYPE byte names (R27). -/
def MsgType.ofByte (b : Byte) : Option MsgType :=
  if b = 0x01 then some .openMsg
  else if b = 0x02 then some .unitMsg
  else if b = 0x03 then some .closeMsg
  else if b = 0x04 then some .helloMsg
  else none

/-- The LEN a type requires (R26). -/
def MsgType.len : MsgType → Nat
  | .openMsg => 4
  | .unitMsg => 12
  | .closeMsg => 2
  | .helloMsg => 0

/-- A message's fields (R26, R192). -/
inductive Message where
  | openMsg (number declared : Half)
  | unitMsg (site : Byte) (key : Word) (wafer : Byte) (x y : Half) (bin attempt : Byte)
  | closeMsg (number : Half)
  | helloMsg
  deriving DecidableEq, Repr

def Message.type : Message → MsgType
  | .openMsg .. => .openMsg
  | .unitMsg .. => .unitMsg
  | .closeMsg .. => .closeMsg
  | .helloMsg => .helloMsg

/-- The message of a payload, by the offsets of R192. -/
def Message.ofPayload (ty : MsgType) (bs : List Byte) : Message :=
  match ty with
  | .openMsg => .openMsg (BitVec.ofNat 16 (field bs 0 2)) (BitVec.ofNat 16 (field bs 2 2))
  | .unitMsg =>
    .unitMsg (BitVec.ofNat 8 (field bs 0 1)) (BitVec.ofNat 32 (field bs 1 4)) (BitVec.ofNat 8 (field bs 5 1))
      (BitVec.ofNat 16 (field bs 6 2)) (BitVec.ofNat 16 (field bs 8 2)) (BitVec.ofNat 8 (field bs 10 1))
      (BitVec.ofNat 8 (field bs 11 1))
  | .closeMsg => .closeMsg (BitVec.ofNat 16 (field bs 0 2))
  | .helloMsg => .helloMsg

/-- A HOLD_STATE as it goes out: A5h, 81h, 03h, the reason byte, the held site mask low byte first, and the check byte
(R43, R192). -/
def Content.message (k : Content) : List Byte :=
  let body : List Byte := [0x81, 0x03, k.reasons] ++ leBytes 2 k.held.toNat
  0xA5 :: body ++ [-(body.foldl (· + ·) 0)]

/-! ## Map cells (R3, R192) -/

/-- The bin value of a map cell. -/
def cellBin (w : Half) : Byte := w.extractLsb' 0 8

/-- The attempt count of a map cell. -/
def cellAttempts (w : Half) : Nat := (w.extractLsb' 8 4).toNat

/-- The bin value of NOT_A_DIE. -/
abbrev notADie : Byte := 254

/-- The bin value of UNTESTED. -/
abbrev untested : Byte := 255

abbrev duplicateFlag : Half := 0x1000
abbrev orphanFlag : Half := 0x2000
abbrev overLimitFlag : Half := 0x4000
abbrev changedFlag : Half := 0x8000

/-- A map cell of a bin and an attempt count, with the flags given in bits 12..15. -/
def mapCell (bin : Byte) (attempts : Nat) (flags : Half) : Half :=
  bin.zeroExtend 16 ||| BitVec.ofNat 16 (attempts % 16 * 256) ||| (flags &&& 0xF000)

/-- The 16-bit cells of a scan read's bytes, in address order. -/
def cellsOfBytes : List Byte → List Half
  | lo :: hi :: rest => (hi ++ lo : BitVec 16) :: cellsOfBytes rest
  | _ => []

/-! ## The setup block (R186) and its checks (R175) -/

/-- Powers of two in 16..4,096 (R175). -/
def goodSlotCount (n : Nat) : Bool := [16, 32, 64, 128, 256, 512, 1024, 2048, 4096].contains n

/-- The block's values, without its length field (R186). -/
def setupOf (bs : List Byte) : Setup where
  chainHead := BitVec.ofNat 64 (field bs 0x08 8)
  listAddr := BitVec.ofNat 64 (field bs 0x10 8)
  consumedAddr := BitVec.ofNat 64 (field bs 0x18 8)
  statusAddr := BitVec.ofNat 64 (field bs 0x20 8)
  slots := field bs 0x02 2
  interval := field bs 0x04 2

/-- The first check of R175 that the block fails, or NONE. -/
def setupError (bs : List Byte) : LoadError :=
  let p := setupOf bs
  if field bs 0x00 2 ≠ 64 then .badBlockLength
  else if !goodSlotCount p.slots then .badSlotCount
  else if p.interval = 0 ∨ 1000 < p.interval then .badInterval
  else if p.chainHead = 0 ∨ !aligned p.chainHead 8 then .badChainHead
  else if !aligned p.listAddr 32 then .badListAddress
  else if !aligned p.consumedAddr 4 then .badConsumedAddress
  else if !aligned p.statusAddr 8 then .badStatusAddress
  else .none

/-! ## Order headers and bodies (R143, R187) -/

/-- The order kinds (R146). -/
inductive OrderKind where
  | mark | loadPlan | openLot | closeLot | snapshot | releaseLot | configureCells | holdCells | releaseCells | readCell
  deriving DecidableEq, Repr

/-- The kind a header's kind field names (R146). -/
def OrderKind.ofCode : Nat → Option OrderKind
  | 0x0001 => some .mark
  | 0x0002 => some .loadPlan
  | 0x0003 => some .openLot
  | 0x0004 => some .closeLot
  | 0x0005 => some .snapshot
  | 0x0006 => some .releaseLot
  | 0x0007 => some .configureCells
  | 0x0008 => some .holdCells
  | 0x0009 => some .releaseCells
  | 0x000A => some .readCell
  | _ => none

/-- The length of a kind of fixed length, in 8-byte units (R146); none for the two listed kinds. -/
def OrderKind.fixedLength : OrderKind → Option Nat
  | .mark => some 3
  | .loadPlan | .openLot => none
  | .closeLot | .snapshot | .releaseLot | .readCell => some 5
  | .configureCells => some 7
  | .holdCells | .releaseCells => some 4

/-- The body prefix of a listed kind in bytes: 8 for LOAD_PLAN (R9), 24 for OPEN_LOT (R127). -/
def OrderKind.prefixBytes : OrderKind → Nat
  | .loadPlan => 8
  | .openLot => 24
  | _ => 0

/-- The tag-free copy of a header that the order unit keeps (R142): the tag at 10h is left out. -/
def headerCopy (bs : List Byte) : List Byte := bs.take 16 ++ (bs.drop 20).take 4

/-- The kind field of a header copy (R187). -/
def headerKind (h : List Byte) : Nat := field h 0x08 2

/-- The length field of a header copy (R187). -/
def headerLength (h : List Byte) : Nat := field h 0x0A 2

/-- The state field of a header (R187). -/
def headerState (h : List Byte) : Nat := field h 0x0C 2

/-- A floor group: absent where its presence flag is clear (R127, R133). -/
def floorGroup (present : Bool) (figure minimum : Nat) : Option Floor :=
  if present then some ⟨figure, minimum⟩ else none

/-- `n` entries of `size` bytes each. -/
def entriesOf (size : Nat) : Nat → List Byte → List (List Byte)
  | 0, _ => []
  | n + 1, bs => bs.take size :: entriesOf size n (bs.drop size)

/-- The entry count of a LOAD_PLAN body (body offset 0 is record offset 18h; R187). -/
def loadPlanCount (b : List Byte) : Nat := field b 2 2

/-- The entries of a LOAD_PLAN body. -/
def loadPlanEntries (b : List Byte) : List PlanEntry :=
  (entriesOf 4 (loadPlanCount b) (b.drop 8)).map fun e => ⟨field e 0 1, field e 1 1, field e 2 1, field e 3 1⟩

/-- The wafer count of an OPEN_LOT body. -/
def openLotCount (b : List Byte) : Nat := field b 0x10 1

/-- The OPEN_LOT a body carries (R127, R187). -/
def openLotBody (b : List Byte) : OpenLotBody where
  key := BitVec.ofNat 32 (field b 0 4)
  plan := field b 4 1
  policy := field b 5 1
  limit := field b 6 1
  floor := floorGroup (flagAt b 7) (field b 0x0C 2) (field b 0x0E 2)
  columns := field b 8 2
  rows := field b 0x0A 2
  count := openLotCount b
  wafers := (entriesOf 16 (openLotCount b) (b.drop 24)).map fun e => (field e 0 1, BitVec.ofNat 64 (field e 8 8))

/-- A guard group: W, M, L, Mc, Lc, D, K (R100). -/
structure GuardGroup where
  w  : Nat
  m  : Nat
  l  : Nat
  mc : Nat
  lc : Nat
  d  : Nat
  k  : Nat
  deriving DecidableEq, Repr

/-- A CONFIGURE_CELLS as read (R35, R187). -/
structure ConfigureBody where
  cells  : Word
  online : Bool
  rate   : Option Nat
  sites  : Option Half
  guard  : Option GuardGroup
  timing : Option (Nat × Nat)
  deriving DecidableEq, Repr

/-- The CONFIGURE_CELLS a body carries; a timing group is the silence timeout and Q. -/
def configureBody (b : List Byte) : ConfigureBody :=
  let groups : Byte := BitVec.ofNat 8 (field b 5 1)
  { cells := BitVec.ofNat 32 (field b 0 4)
    online := flagAt b 4
    rate := if groups.getLsbD 0 then some (field b 6 1) else none
    sites := if groups.getLsbD 1 then some (BitVec.ofNat 16 (field b 8 2)) else none
    guard :=
      if groups.getLsbD 2 then
        some { w := field b 0x0C 2, m := field b 0x0E 2, l := field b 0x10 2, mc := field b 0x12 2,
               lc := field b 0x14 2, d := field b 0x16 2, k := field b 0x18 1 }
      else none
    timing := if groups.getLsbD 3 then some (field b 0x0A 2, field b 7 1) else none }

/-- A RELEASE_CELLS as read (R118, R187). -/
structure ReleaseBody where
  cells   : Word
  sites   : Half
  reasons : Byte
  clear   : Bool
  deriving DecidableEq, Repr

def releaseBody (b : List Byte) : ReleaseBody where
  cells := BitVec.ofNat 32 (field b 0 4)
  sites := BitVec.ofNat 16 (field b 4 2)
  reasons := BitVec.ofNat 8 (field b 6 1)
  clear := flagAt b 7

/-! ## Result words (R188) -/

/-- Two values: the first in bits 0..15, the second in bits 16..31. -/
def twoValues (a b : Nat) : Word := BitVec.ofNat 32 (a % 65536 + 65536 * (b % 65536))

/-- One value in the whole word. -/
abbrev oneValue (a : Nat) : Word := BitVec.ofNat 32 a

def MapFault.code : MapFault → Nat
  | .badValue => 1
  | .badAttempts => 2
  | .unusedBin => 3
  | .overAttemptLimit => 4

/-- The result word of MAP_CORRUPT: x in bits 0..9, y in 10..19, wafer in 20..24, fault kind in 28..30. -/
def mapCorruptResult (wafer x y : Nat) (f : MapFault) : Word :=
  BitVec.ofNat 32 (x % 1024 + y % 1024 * 2 ^ 10 + wafer % 32 * 2 ^ 20 + f.code * 2 ^ 28)

def LotState.code : LotState → Nat
  | .opening => 1
  | .opened => 2
  | .closing => 3

/-- The code field's values (R188). -/
def Code.value : Code → Nat
  | .notFresh => 0x01
  | .badKind => 0x02
  | .badLength => 0x03
  | .engineFault => 0x04
  | .badSlot => 0x10
  | .planInUse => 0x11
  | .badEntry => 0x12
  | .noPass => 0x13
  | .rankOrder => 0x14
  | .catalogueFull => 0x20
  | .duplicateKey => 0x21
  | .planEmpty => 0x22
  | .badGrid => 0x23
  | .badWaferList => 0x24
  | .badLimit => 0x25
  | .badPolicy => 0x26
  | .mapCorrupt => 0x27
  | .unknownLot => 0x28
  | .lotBusy => 0x29
  | .badAddress => 0x2A
  | .emptySet => 0x30
  | .badRate => 0x31
  | .noSites => 0x32
  | .badWindow => 0x33
  | .badReason => 0x34
  | .badCell => 0x35
  | .unknownWafer => 0x40
  | .badCoord => 0x41
  | .binUndefined => 0x42
  | .offWafer => 0x43
  | .overLimit => 0x44
  | .emptyTouchdown => 0x48
  | .draining => 0x49
  | .noTouchdown => 0x4A
  | .straySite => 0x4B
  | .repeatSite => 0x4C

/-- The result word of an outcome. -/
def OrderOutcome.result : OrderOutcome → Word
  | .done r => r
  | .refused _ r => r

/-- The four bytes of state and code: 2 DONE with code 0, or 3 REFUSED with the code (R143, R144, R187). -/
def OrderOutcome.stateBytes : OrderOutcome → List Byte
  | .done _ => leBytes 2 2 ++ leBytes 2 0
  | .refused c _ => leBytes 2 3 ++ leBytes 2 c.value

end Sys2Proof.Machine
end

