-- ==== Sys2Proof/Machine/Flags.lean ====
section
/-! DEFINITION. Flags computed from the state: the interrupt level (R169), the five registers as they read
(R171 to R173, R185), and the hold content with its derived reasons (R110 to R115, R192). -/

namespace Sys2Proof.Machine

/-! ## The interrupt -/

/-- The interrupt is asserted while a flag is set with its enable (R169). -/
def Engine.interrupt (e : Engine) : Bool :=
  (e.notice && e.noticeIE) || (e.loadDone && e.loadIE) || (e.fault && e.faultIE)

/-! ## Register reads -/

/-- A one-bit field at a bit position. -/
def bitAt (b : Bool) (n : Nat) : Word := if b then BitVec.twoPow 32 n else 0

def EngineState.code : EngineState → Nat
  | .halted => 0
  | .loading => 1
  | .running => 2
  | .draining => 3
  | .faulted => 4

/-- The load error codes 0..11 (R185). -/
def LoadError.code : LoadError → Nat
  | .none => 0
  | .setupMisaligned => 1
  | .badBlockLength => 2
  | .badSlotCount => 3
  | .badInterval => 4
  | .badChainHead => 5
  | .badListAddress => 6
  | .badConsumedAddress => 7
  | .badStatusAddress => 8
  | .readError => 9
  | .readTimeout => 10
  | .abandoned => 11

def ResetCause.code : ResetCause → Nat
  | .powerOn => 0
  | .busReset => 1
  | .controlReset => 2

def Requester.code : Requester → Nat
  | .orderUnit => 1
  | .collation => 2
  | .scanner => 3
  | .noticeUnit => 4

def FaultKind.code : FaultKind → Nat
  | .errorResponse => 0
  | .timeout => 1

/-- CONTROL reads its enables; the action positions read 0 (R171, R185). -/
def Engine.controlWord (e : Engine) : Word := bitAt e.noticeIE 8 ||| bitAt e.loadIE 9 ||| bitAt e.faultIE 10

/-- STATUS (R172, R185). -/
def Engine.statusWord (e : Engine) : Word :=
  BitVec.ofNat 32 (e.state.code + e.loadError.code * 2 ^ 8 + e.resetCause.code * 2 ^ 16) |||
    bitAt e.loaded 4 ||| bitAt e.loadDone 12 ||| bitAt e.notice 13 ||| bitAt e.fault 14

/-- FAULT_INFO; the kind reads 0 while the requester is NONE (R173, R185). -/
def Engine.faultInfoWord (e : Engine) : Word :=
  match e.faultRecord with
  | none => 0
  | some (r, k) => BitVec.ofNat 32 (r.code + k.code * 2 ^ 8)

/-- What a read of the register window returns at an offset; unnamed positions read 0 (R184, R185). -/
def Engine.readRegister (e : Engine) (offset : Word) : Word :=
  if offset = 0x00 then e.controlWord
  else if offset = 0x04 then e.statusWord
  else if offset = 0x08 then e.setupAddr.extractLsb' 0 32
  else if offset = 0x0C then e.setupAddr.extractLsb' 32 32
  else if offset = 0x10 then e.faultInfoWord
  else 0

/-! ## Hold content -/

/-- The lot entry of a key (R125). -/
def findLot (lots : List Lot) (key : Word) : Option Lot := lots.find? fun l => l.key == key

/-- LOT_FLOOR: the current lot names a catalogue lot whose floor tripped flag is set (R114). -/
def lotFloorHeld (lots : List Lot) (currentLot : Option Word) : Bool :=
  match currentLot with
  | none => false
  | some key => (findLot lots key).any (·.tripped)

/-- The reason byte: BUFFER 0, CELL_GUARD 1, ORDERED 2, ENGINE 3, QUARANTINE 4, LOT_FLOOR 5, OFFLINE 6, bit 7 clear
(R110 to R114, R192). -/
def reasonByte (eng : EngineState) (lots : List Lot) (c : CellState) : Byte :=
  BitVec.ofFnLE fun i : Fin 8 =>
    match i.val with
    | 0 => c.holds.buffer
    | 1 => c.holds.cellGuard
    | 2 => c.holds.ordered
    | 3 => c.line.state != .offline && eng != .running
    | 4 => c.line.state == .quarantined
    | 5 => lotFloorHeld lots c.holds.currentLot
    | 6 => c.line.state == .offline
    | _ => false

/-- The cell's hold content (R40, R110). -/
def holdContent (eng : EngineState) (lots : List Lot) (c : CellState) : Content where
  reasons := reasonByte eng lots c
  held := c.holds.held

/-- The sites with any of the three flags set (R99, R115). -/
def Guard.heldSites (g : Guard) : Half :=
  BitVec.ofFnLE fun s : Fin 16 => (g.sites[s.val]).runFlag || (g.sites[s.val]).limitFlag || (g.sites[s.val]).spreadFlag

/-- Slots in use: the reports of the open touchdown and of every queued record (R56). -/
def Assembler.slots (a : Assembler) : Nat :=
  (match a.touchdown with | some t => t.reports.length | none => 0) + (a.queue.map fun t => t.reports.length).sum

/-- The receiver is active (R25). -/
def receiverActive (eng : EngineState) (l : Line) : Bool :=
  l.state != .offline && (eng == .running || eng == .draining || eng == .faulted)

/-- A timer set for `t` has expired by `now`, both modulo 2^32 (R183; notes/assumptions/14.md). -/
def reached (now t : Time) : Bool := (now - t).toNat < 2 ^ 31

/-- A present timer has expired. -/
def expired (now : Time) : Option Time → Bool
  | none => false
  | some t => reached now t

end Sys2Proof.Machine
end

