-- ==== Sys2Proof/Machine/Formats.lean ====
section
/-! DEFINITION. The records the part writes: the notice record (12.4, R189) and the snapshot and final tally record
(12.5, R190), with the yield figure they carry (R131). -/

namespace Sys2Proof.Machine

/-- The yield figure in hundredths of a percent, truncated (R131). -/
def yieldFigure (tested passed : Nat) : Nat := passed * 10000 / tested

/-- The figure as a record carries it: FFFFh where tested is 0 (R131). -/
def recordFigure (tested passed : Nat) : Nat := if tested = 0 then 0xFFFF else yieldFigure tested passed

/-! ## Notice records -/

/-- The kind codes 01h..0Fh of 12.4. -/
def NoticeKind.code : NoticeKind → Nat
  | .waferComplete => 0x01
  | .lotClosed => 0x02
  | .lotFloor => 0x03
  | .duplicateDie => 0x04
  | .siteRun => 0x05
  | .siteLimit => 0x06
  | .siteSpread => 0x07
  | .cellLimit => 0x08
  | .lineQuarantined => 0x09
  | .lineRestored => 0x0A
  | .shortTouchdown => 0x0B
  | .touchdownLoss => 0x0C
  | .reportRefused => 0x0D
  | .cellRestart => 0x0E
  | .overflow => 0x0F

/-- The kind of an occurrence with this detail. -/
def Detail.kind : Detail → NoticeKind
  | .waferComplete .. => .waferComplete
  | .lotClosed .. => .lotClosed
  | .lotFloor .. => .lotFloor
  | .duplicateDie .. => .duplicateDie
  | .siteRun .. => .siteRun
  | .siteLimit .. => .siteLimit
  | .siteSpread .. => .siteSpread
  | .cellLimit .. => .cellLimit
  | .lineQuarantined .. => .lineQuarantined
  | .lineRestored => .lineRestored
  | .shortTouchdown .. => .shortTouchdown
  | .touchdownLoss .. => .touchdownLoss
  | .messageRefused .. => .reportRefused
  | .reportRefused .. => .reportRefused
  | .cellRestart => .cellRestart

/-- The subject byte: the cell for cell and site kinds, the wafer number for lot kinds (12.4). -/
def Subject.byte : Subject → Nat
  | .lot _ wafer => wafer
  | .site c _ => c.val
  | .cell c => c.val

/-- The 4 bytes after a subject byte in the OVERFLOW detail: lot key, site, or 0 (R189). -/
def Subject.tail : Subject → Nat
  | .lot key _ => key.toNat
  | .site _ s => s.val
  | .cell _ => 0

/-- The close kind codes 0..6 (R189). -/
def CloseKind.code : CloseKind → Nat
  | .normal => 0
  | .superseded => 1
  | .timedOut => 2
  | .cellRestart => 3
  | .quarantined => 4
  | .reconfigured => 5
  | .stopped => 6

/-- The error kind codes 1..6 (R189). -/
def LineError.code : LineError → Nat
  | .parity => 1
  | .framing => 2
  | .type => 3
  | .length => 4
  | .check => 5
  | .gap => 6

/-- The attempt kind's code: 0 FIRST, 1 RETEST (R192). -/
def Attempt.code : Attempt → Nat
  | .first => 0
  | .retest => 1

/-- The detail fields from offset 0Eh (R189); `lostTotal` is the entry's lost report total. The fault kind of a refused
report whose code is not MAP_CORRUPT is written as 0, which the rules leave open (notes/assumptions/34.md). -/
def Detail.bytes (lostTotal : Nat) : Detail → List Byte
  | .waferComplete key candidates tested passed =>
    leBytes 4 key.toNat ++ leBytes 3 candidates ++ leBytes 3 tested ++ leBytes 3 passed
  | .lotClosed key tested passed figure wafers complete addr =>
    leBytes 4 key.toNat ++ leBytes 3 tested ++ leBytes 3 passed ++ leBytes 2 figure ++ leBytes 1 wafers ++
      leBytes 1 complete ++ leBytes 4 (addr.toNat / 8)
  | .lotFloor key tested passed y figure minimum reporter =>
    leBytes 4 key.toNat ++ leBytes 3 tested ++ leBytes 3 passed ++ leBytes 2 y ++ leBytes 2 figure ++
      leBytes 2 minimum ++
      (match reporter with
        | some (c, s) => leBytes 1 c.val ++ leBytes 1 s.val
        | none => [0xFF, 0xFF])
  | .duplicateDie key c site number stamp x y reported standing =>
    leBytes 4 key.toNat ++ leBytes 1 c.val ++ leBytes 1 site.val ++ leBytes 2 number.toNat ++ leBytes 4 stamp.toNat ++
      leBytes 2 x.toNat ++ leBytes 2 y.toNat ++ [reported, standing]
  | .siteRun site run k n f w =>
    leBytes 1 site.val ++ leBytes 1 run ++ leBytes 1 k ++ leBytes 1 n ++ leBytes 1 f ++ leBytes 1 w
  | .siteLimit site n f m fs l w =>
    leBytes 1 site.val ++ leBytes 1 n ++ leBytes 1 f ++ leBytes 1 m ++ leBytes 2 fs ++ leBytes 2 l ++ leBytes 1 w
  | .siteSpread site n f m fs nOthers fOthers fo d =>
    leBytes 1 site.val ++ leBytes 1 n ++ leBytes 1 f ++ leBytes 1 m ++ leBytes 2 fs ++ leBytes 2 nOthers ++
      leBytes 2 fOthers ++ leBytes 2 fo ++ leBytes 2 d
  | .cellLimit site enabled nc fcount fc mc lc =>
    leBytes 1 site.val ++ leBytes 1 enabled ++ leBytes 2 nc ++ leBytes 2 fcount ++ leBytes 2 fc ++ leBytes 2 mc ++
      leBytes 2 lc
  | .lineQuarantined errors kind => leBytes 1 errors ++ leBytes 1 kind.code
  | .lineRestored => []
  | .shortTouchdown number kind missing lost mismatch =>
    leBytes 2 number.toNat ++ leBytes 1 kind.code ++ leBytes 2 missing.toNat ++ leBytes 1 lost ++
      leBytes 1 mismatch.toNat
  | .touchdownLoss number lost => leBytes 2 number.toNat ++ leBytes 1 lost ++ leBytes 2 lostTotal
  | .messageRefused code site number =>
    leBytes 1 code.value ++ [site] ++ leBytes 1 0 ++ leBytes 1 0 ++ leBytes 4 0 ++ leBytes 2 0 ++ leBytes 2 0 ++
      leBytes 2 number.toNat ++ leBytes 4 0
  | .reportRefused code r number stamp fault =>
    leBytes 1 code.value ++
      leBytes 1 (r.site.val + 16 * r.attempt.code + 32 * (match fault with | some f => f.code | none => 0)) ++
      [r.wafer, r.bin] ++ leBytes 4 r.key.toNat ++ leBytes 2 r.x.toNat ++ leBytes 2 r.y.toNat ++
      leBytes 2 number.toNat ++ leBytes 4 stamp.toNat
  | .cellRestart => []

/-- A key in the OVERFLOW detail: kind, subject byte, lot key or site (R189). -/
def NoticeKey.bytes (k : NoticeKey) : List Byte :=
  leBytes 1 k.kind.code ++ leBytes 1 k.subject.byte ++ leBytes 4 k.subject.tail

/-- The 32-byte notice record of an entry posted with a sequence number (12.4, R162, R189). -/
def Post.record (p : Post) : List Byte :=
  padTo 32 <|
    match p.content with
    | .entry e =>
      leBytes 2 p.seq.toNat ++ leBytes 2 e.count ++ leBytes 4 e.first.toNat ++ leBytes 4 e.last.toNat ++
        leBytes 1 e.key.kind.code ++ leBytes 1 e.key.subject.byte ++ e.detail.bytes e.lostTotal
    | .overflow o =>
      leBytes 2 p.seq.toNat ++ leBytes 2 o.count ++ leBytes 4 o.first.toNat ++ leBytes 4 o.last.toNat ++
        leBytes 1 NoticeKind.overflow.code ++ leBytes 1 0 ++ o.firstKey.bytes ++ o.latestKey.bytes

/-! ## Tally records (R139, R190) -/

/-- The 16-byte wafer part. -/
def Wafer.part (w : Wafer) : List Byte :=
  leBytes 1 w.number ++ leBytes 1 w.complete.toNat ++ leBytes 2 (recordFigure w.tested w.passed) ++
    leBytes 4 w.tested ++ leBytes 4 w.passed ++ leBytes 4 w.candidates

/-- The snapshot or final tally record of a lot: the 96-byte fixed part and its wafer parts. `state` is 2 OPEN,
3 CLOSING or 4 CLOSED (R188). -/
def Lot.tallyRecord (l : Lot) (state : Nat) (stamp : Time) : List Byte :=
  leBytes 4 l.key.toNat ++ leBytes 1 state ++ leBytes 1 l.wafers.length ++ leBytes 2 0 ++ leBytes 4 stamp.toNat ++
    leBytes 4 l.tested ++ leBytes 4 l.passed ++ leBytes 2 (recordFigure l.tested l.passed) ++ leBytes 2 0 ++
    leBytes 4 l.duplicates ++ leBytes 4 l.refused ++ l.groups.toList.flatMap (leBytes 4) ++
    l.wafers.flatMap Wafer.part

end Sys2Proof.Machine
end

