-- ==== Sys2Proof/Machine/Ops.lean ====
section
/-! DEFINITION. The operations the meanings share: cells, races, the memory port (R179, R180), the transmitter rule
(R40 to R42, R116), notices (R160 to R164), touchdown closing (R54 to R57), the answer to an order (R150), and the
engine's transitions with the drain (R177, R181). -/

namespace Sys2Proof.Machine

/-! ## Cells -/

/-- The column of one cell. -/
def State.cell (s : State) (c : CellNo) : CellState := s.cells[c.val]

/-- One cell's column replaced. -/
def State.setCell (s : State) (c : CellNo) (v : CellState) : State := { s with cells := s.cells.set c.val v c.isLt }

/-- One cell's column changed. -/
def State.modCell (s : State) (c : CellNo) (f : CellState → CellState) : State := s.setCell c (f (s.cell c))

/-- Every column changed, each on its own. -/
@[irreducible] def eachColumn (f : CellState → CellState) (v : Vector CellState 24) : Vector CellState 24 :=
  Vector.ofFn fun c : Fin 24 => f v[c.val]

/-- Every cell's column changed. -/
def State.mapCells (s : State) (f : CellState → CellState) : State := { s with cells := eachColumn f s.cells }

/-- One cell's line changed. -/
def State.modLine (s : State) (c : CellNo) (f : Line → Line) : State := s.modCell c fun cs => { cs with line := f cs.line }

/-- One cell's assembler changed. -/
def State.modAsm (s : State) (c : CellNo) (f : Assembler → Assembler) : State :=
  s.modCell c fun cs => { cs with asm := f cs.asm }

/-- The loaded setup; zeros while there is none, which no running engine meets (R176; notes/assumptions/25.md). -/
def State.loadedSetup (s : State) : Setup :=
  s.engine.setup.getD { chainHead := 0, listAddr := 0, consumedAddr := 0, statusAddr := 0, slots := 0, interval := 0 }

/-! ## Races (notes/assumptions/7.md) -/

/-- Decide the next open race: by the state's list, or by the free value once the list has run out. -/
def takeRace (s : State) : Bool × State :=
  match s.races with
  | b :: bs => (b, { s with races := bs })
  | [] => (Config.race s.raceCount, { s with raceCount := s.raceCount + 1 })

/-! ## The memory port (R179, R180) -/

/-- The request waiting from a requester. -/
def Waiting.get (w : Waiting) : Requester → Option Transaction
  | .orderUnit => w.orderUnit
  | .collation => w.collation
  | .scanner => w.scanner
  | .noticeUnit => w.noticeUnit

/-- A requester's waiting request replaced. -/
def Waiting.put (w : Waiting) (r : Requester) (t : Option Transaction) : Waiting :=
  match r with
  | .orderUnit => { w with orderUnit := t }
  | .collation => { w with collation := t }
  | .scanner => { w with scanner := t }
  | .noticeUnit => { w with noticeUnit := t }

/-- No request waiting: after a reset, and where every requester has withdrawn (R179, R181). -/
def Waiting.none : Waiting := { orderUnit := .none, collation := .none, scanner := .none, noticeUnit := .none }

/-- A transaction is requested of the port by its requester. -/
def portRequest (t : Transaction) (s : State) : State :=
  { s with port := { s.port with waiting := s.port.waiting.put t.purpose.requester (some t) } }

/-- A requester withdraws its waiting request (R179). -/
def portWithdraw (r : Requester) (s : State) : State :=
  { s with port := { s.port with waiting := s.port.waiting.put r none } }

/-- The outstanding transaction has ended: the timer is cancelled and the port is free (R180). -/
def portFree (s : State) : State := { s with port := { s.port with outstanding := none, timer := none } }

/-- A write's acknowledgement: the port freed where the outstanding transaction is the one answered. Any other response
is one to a transaction that has ended, and is discarded (R180; notes/assumptions/3.md). -/
def acknowledged (p : Purpose) (s : State) : Option State :=
  match s.port.outstanding with
  | some t => if t.purpose = p then some (portFree s) else none
  | none => none

/-- A read's data: as `acknowledged`, and the data is as long as the read. -/
def returned (p : Purpose) (length : Nat) (s : State) : Option State :=
  match s.port.outstanding with
  | some t => if t.purpose = p ∧ t.length = length then some (portFree s) else none
  | none => none

/-- The four requesters in rotation order, the one after `r` first (R179). -/
def rotationAfter : Requester → List Requester
  | .orderUnit => [.collation, .scanner, .noticeUnit, .orderUnit]
  | .collation => [.scanner, .noticeUnit, .orderUnit, .collation]
  | .scanner => [.noticeUnit, .orderUnit, .collation, .scanner]
  | .noticeUnit => [.orderUnit, .collation, .scanner, .noticeUnit]

/-- The first waiting requester in rotation, where a request made in this very event may or may not have joined before
the grant: either is possible (R176, R179; notes/assumptions/7.md). Requests that waited already are there. -/
def pickRequester (old : Requester → Bool) : List Requester → State → Option Requester × State
  | [], s => (none, s)
  | [r], s => (some r, s)
  | r :: rs, s =>
    if old r then (some r, s)
    else
      match takeRace s with
      | (true, s') => (some r, s')
      | (false, s') => pickRequester old rs s'

/-- The port issues a requester's transaction: the response timer is set to the clock plus 2 (R179, R180). -/
def portIssue (r : Requester) (s : State) : State :=
  match s.port.waiting.get r with
  | none => s
  | some t =>
    { s with port :=
        { outstanding := some t
          timer := some (Time.plus s.clock 2)
          waiting := s.port.waiting.put r none
          last := r } }

/-- The free port grants in rotation (R179). `before` is the state the event met. -/
def portGrant (before s : State) : State :=
  match s.port.outstanding with
  | some _ => s
  | none =>
    match pickRequester (fun r => (before.port.waiting.get r).isSome)
        ((rotationAfter s.port.last).filter fun r => (s.port.waiting.get r).isSome) s with
    | (some r, s') => portIssue r s'
    | (none, s') => s'

/-- A requester has a transaction outstanding: at the link or waiting for the port (notes/assumptions/13.md). -/
def portBusy (r : Requester) (s : State) : Bool :=
  (s.port.waiting.get r).isSome || (s.port.outstanding.any fun t => t.purpose.requester == r)

/-! ## The transmitter rule (R40 to R43, R116) -/

/-- A HOLD_STATE is begun: the current content becomes the last sent content and the forced send is cleared; beginning
the final message clears the final owed (R40, R42). -/
def beginMessage (eng : EngineState) (lots : List Lot) (final : Bool) (cs : CellState) : CellState :=
  let k := holdContent eng lots cs
  { cs with line :=
      { cs.line with
        tx := .sending final cs.line.txRate k.message
        lastSent := some k
        forced := false
        finalOwed := cs.line.finalOwed && !final } }

/-- A HOLD_STATE is due on a line in service: forced, or its content not the last sent (R40). -/
def sendDue (eng : EngineState) (lots : List Lot) (cs : CellState) : Bool :=
  cs.line.state != .offline && (cs.line.forced || cs.line.lastSent != some (holdContent eng lots cs))

/-- What an IDLE transmitter does after a change (R40, R42, R116). -/
def transmit (eng : EngineState) (lots : List Lot) (cs : CellState) : CellState :=
  match cs.line.tx with
  | .idle =>
    if cs.line.finalOwed then beginMessage eng lots true cs
    else if sendDue eng lots cs then beginMessage eng lots false cs
    else cs
  | _ => cs

/-- One line takes a change of its hold content (R116). -/
def refresh (c : CellNo) (s : State) : State := s.modCell c (transmit s.engine.state s.coll.lots)

/-- Every line takes a change, as at an engine transition (R112). -/
def refreshAll (s : State) : State := s.mapCells (transmit s.engine.state s.coll.lots)

/-- Every line whose current lot is the key takes a change of that lot (R114). -/
def refreshLot (key : Word) (s : State) : State :=
  s.mapCells fun cs => if cs.holds.currentLot = some key then transmit s.engine.state s.coll.lots cs else cs

/-! ## Notices (R160 to R164) -/

/-- The number of ordinary entries (R159). -/
def ordinaryCount (table : List Pending) : Nat :=
  (table.filter fun p => match p with | .entry _ => true | .overflow _ => false).length

/-- The table holds an ordinary entry of the key. -/
def tableHasKey (table : List Pending) (k : NoticeKey) : Bool :=
  table.any fun p => match p with | .entry e => e.key == k | .overflow _ => false

/-- The table holds the OVERFLOW entry. -/
def tableHasOverflow (table : List Pending) : Bool :=
  table.any fun p => match p with | .entry _ => false | .overflow _ => true

/-- The lost report count an occurrence adds to its entry's total (R160). -/
def Detail.lost : Detail → Nat
  | .touchdownLoss _ n => n
  | _ => 0

/-- An occurrence coalesces into its entry (R160). -/
def Entry.coalesce (now : Time) (d : Detail) (e : Entry) : Entry :=
  { e with
    count := min (e.count + 1) 65535
    last := now
    detail := d
    lostTotal := min (e.lostTotal + d.lost) 65535 }

/-- An occurrence is counted in the OVERFLOW entry (R161). -/
def Overflow.add (now : Time) (k : NoticeKey) (o : Overflow) : Overflow :=
  { o with count := min (o.count + 1) 65535, last := now, latestKey := k }

/-- An arriving occurrence finds its place in the pending table (R160, R161). -/
def addOccurrence (now : Time) (k : NoticeKey) (d : Detail) (table : List Pending) : List Pending :=
  if tableHasKey table k then
    table.map fun p =>
      match p with
      | .entry e => if e.key = k then .entry (e.coalesce now d) else p
      | .overflow _ => p
  else if ordinaryCount table < 64 then
    table ++ [.entry { key := k, count := 1, first := now, last := now, detail := d, lostTotal := min d.lost 65535 }]
  else if tableHasOverflow table then
    table.map fun p =>
      match p with
      | .entry _ => p
      | .overflow o => .overflow (o.add now k)
  else table ++ [.overflow { count := 1, first := now, last := now, firstKey := k, latestKey := k }]

/-- The notice unit issues transactions (R165). -/
def noticeRuns (s : State) : Bool := s.engine.state == .running || s.engine.state == .draining

/-- There is room in the notice list (R162). -/
def noticeRoom (s : State) : Bool := (s.notice.written - s.notice.consumed).toNat < s.loadedSetup.slots

/-- The write of the post in progress into the slot its sequence number names (R162). -/
def postWrite (p : Post) (s : State) : Transaction :=
  writeOf .noticeWrite (addrPlus s.loadedSetup.listAddr (32 * (p.seq.toNat % s.loadedSetup.slots))) p.record

/-- The 4-byte write of the written count into the status area (R163, R186). -/
def countWrite (s : State) : Transaction :=
  writeOf .countWrite (addrPlus s.loadedSetup.statusAddr 8) (leBytes 4 s.notice.written.toNat)

/-- The consumed word is read: phase ROOM (R164). -/
def readConsumed (s : State) : State :=
  portRequest (readOf .consumedRead s.loadedSetup.consumedAddr 4)
    { s with notice := { s.notice with phase := .room, retry := none } }

/-- Phase IDLE judges room for the head entry: a post begins, or the consumed word is read (R162). -/
def judgeRoom (s : State) : State :=
  match s.notice.table with
  | [] => s
  | e :: rest =>
    if noticeRoom s then
      let p : Post := { content := e, seq := s.notice.written }
      portRequest (postWrite p s) { s with notice := { s.notice with table := rest, post := some p, phase := .record } }
    else readConsumed s

/-- The notice unit takes its next step where it rests in IDLE and may issue (R162, R165). -/
def noticePump (s : State) : State :=
  if s.notice.phase = .idle ∧ noticeRuns s then judgeRoom s else s

/-- A block raises a notice: the occurrence is stamped and placed, and an idle notice unit goes on at once
(R158, R160 to R162; notes/assumptions/17.md). -/
def raise (subject : Subject) (d : Detail) (s : State) : State :=
  noticePump { s with notice :=
    { s.notice with table := addOccurrence s.clock { kind := d.kind, subject := subject } d s.notice.table } }

/-! ## Touchdowns (R54 to R57) -/

/-- BUFFER judged by the bounds of R57. -/
def bufferAfter (held : Bool) (slots queued : Nat) : Bool :=
  if held then !(slots ≤ 16 && queued ≤ 4) else 48 ≤ slots || 12 ≤ queued

/-- BUFFER is judged when the slots in use or the queue's length has changed (R57, R111). -/
def judgeBuffer (cs : CellState) : CellState :=
  { cs with holds := { cs.holds with buffer := bufferAfter cs.holds.buffer cs.asm.slots cs.asm.queue.length } }

/-- The sites of a report list. -/
def reportSites (rs : List Report) : Half := rs.foldl (fun m r => m ||| siteBit r.site) 0

/-- A closed touchdown joins the queue, is dropped, or is discarded (R55). -/
def queueClosed (c : CellNo) (t : Touchdown) (s : State) : State :=
  if t.reports = [] then s
  else if (s.cell c).asm.queue.length < 15 then
    s.modCell c fun cs => judgeBuffer { cs with asm := { cs.asm with queue := cs.asm.queue ++ [t] } }
  else (raise (.cell c) (.touchdownLoss t.number t.reports.length) s).modCell c judgeBuffer

/-- The record as it stands when it is closed (R54). -/
def Touchdown.closed (t : Touchdown) (kind : CloseKind) (now : Time) : Touchdown :=
  { t with
    closeKind := some kind
    missing := some (t.declared &&& ~~~(reportSites t.reports))
    closeStamp := some now
    mark := 0 }

/-- A close that raises SHORT_TOUCHDOWN (R54). -/
def Touchdown.short (t : Touchdown) : Bool :=
  t.missing != some 0 || t.closeKind != some .normal || t.mismatch

/-- The open touchdown, if any, is closed (R54). -/
def closeTouchdown (kind : CloseKind) (c : CellNo) (s : State) : State :=
  match (s.cell c).asm.touchdown with
  | none => s
  | some t =>
    let t' := t.closed kind s.clock
    let s1 := s.modAsm c fun a => { a with touchdown := none, silence := none }
    let s2 :=
      if t'.short then
        raise (.cell c) (.shortTouchdown t.number kind (t'.missing.getD 0) t.lost t.mismatch) s1
      else s1
    queueClosed c t' s2

/-! ## The order unit's answer and requests (R144, R150) -/

/-- The record an answer is written to: the order in service's, or the current record's for NOT_FRESH. -/
def OrderUnit.answerRecord (o : OrderUnit) : Addr :=
  match o.service with
  | some v => v.record
  | none => o.position.getD 0

/-- The 4-byte write of the result word (R144). -/
def resultWrite (o : OrderUnit) (out : OrderOutcome) : Transaction :=
  writeOf .resultWrite (addrPlus o.answerRecord 0x14) (leBytes 4 out.result.toNat)

/-- The outcome is known: phase ANSWER, and the result word's write is issued (R150). -/
def answer (out : OrderOutcome) (s : State) : State :=
  portRequest (resultWrite s.order out)
    { s with order :=
      { s.order with
        phase := .answer
        outcome := some out
        service := s.order.service.map fun v => { v with stage := .answering } } }

/-- A serving block returns an outcome to the order unit, which holds the order in service (R66, R148). -/
def returnOutcome (out : OrderOutcome) (s : State) : State :=
  match s.order.service with
  | some _ => answer out s
  | none => s

/-- The order unit reads the current record's link (R151). -/
def readLink (s : State) : State := portRequest (readOf .linkRead (s.order.position.getD 0) 8) s

/-- The order unit writes the chain position into the status area (R151, R186). -/
def writePosition (s : State) : State :=
  portRequest
    (writeOf .positionWrite s.loadedSetup.statusAddr (leBytes 8 (s.order.position.getD 0).toNat)) s

/-- The order unit reads the next part of the current record's header (R144). -/
def readHeader (s : State) : State :=
  let a := addrPlus (s.order.position.getD 0) s.order.gathered.length
  portRequest (readOf .headerRead a (chunk a (24 - s.order.gathered.length))) s

/-- The next write of a record, by R121 and R140: at most 64 bytes, crossing no multiple of 64. -/
def RecordWrite.write (p : Purpose) (w : RecordWrite) : Transaction :=
  writeOf p w.next (w.rest.take (chunk w.next w.rest.length))

/-- What remains of a record after its write in flight has completed. -/
def RecordWrite.after (w : RecordWrite) : RecordWrite :=
  let n := chunk w.next w.rest.length
  { w with next := addrPlus w.next n, rest := w.rest.drop n }

/-! ## Lines and the engine (R25, R112, R177, R181) -/

/-- The receiver stops being active (R25): E and the clean count are kept. -/
def Line.stopReceiver (l : Line) : Line := { l with rx := .idle, decoder := .hunt, windowEnd := none }

/-- The receiver becomes active (R25). -/
def Line.startReceiver (now : Time) (l : Line) : Line :=
  { l with rx := .idle, decoder := .hunt, errors := 0, clean := 0, windowEnd := some (Time.plus now 1000) }

/-- The engine's state set. -/
def setEngineState (e : EngineState) (s : State) : State := { s with engine := { s.engine with state := e } }

/-- The engine becomes HALTED: the receivers stop (R25) and the notice unit's retry timer is cancelled (R165). Nudge pending
is kept here; `noticeNext` clears it where a completion of the notice unit ends the drain (notes/assumptions/36.md). -/
def enterHalted (s : State) : State :=
  { setEngineState .halted (s.mapCells fun cs => { cs with line := cs.line.stopReceiver }) with
    notice := { s.notice with retry := none } }

/-- The drain conditions of R177. -/
def drainReady (s : State) : Bool :=
  s.engine.state == .draining
    && s.cells.toList.all (fun cs => cs.asm.touchdown.isNone && cs.asm.queue.isEmpty)
    && s.coll.requests.isEmpty && s.coll.work.isNone && s.scanner.isNone
    && s.order.service.isNone && !portBusy .orderUnit s && !portBusy .noticeUnit s

/-- Engine control judges the drain (R177). -/
def judgeDrain (s : State) : State := if drainReady s then enterHalted s else s

/-- A memory fault in RUNNING or DRAINING (R181): FAULT and the fault record, every waiting request withdrawn; the
scanner abandons its scan (R20), a SNAPSHOT in service ends (R86), the order unit and the notice unit stop (R156, R166),
and every line takes ENGINE (R112). -/
def enterFaulted (r : Requester) (k : FaultKind) (s : State) : State :=
  refreshAll
    { s with
      engine := { s.engine with state := .faulted, fault := true, faultRecord := some (r, k) }
      port := { s.port with waiting := Waiting.none }
      coll :=
        { s.coll with
          requests :=
            match s.scanner with
            | some sc => s.coll.requests ++ [.scanAbandoned sc.key]
            | none => s.coll.requests
          work :=
            match s.coll.work with
            | some (.snapshot _ _) => none
            | w => w }
      scanner := none
      order := { s.order with pollTimer := none, nudgePending := false, gathered := [] }
      notice := { s.notice with retry := none, nudgePending := false } }

/-- The interrupt follows its flags and enables (R169). -/
def followInterrupt (s : State) : State := { s with irq := s.engine.interrupt }

/-- What ends every event: the drain is judged, the free port grants, the interrupt follows. -/
def settle (before s : State) : State := followInterrupt (portGrant before (judgeDrain s))

/-- The outcome of a command: its effect settled, or no change where the event does not arise
(notes/assumptions/3.md). -/
def conclude (s : State) (effect : Option State) : Host.Outcome State Fault Refusal :=
  match effect with
  | some s' => .next (settle s s')
  | none => .next s

/-- The part after a reset (R182): every item at its reset value; the queue of commands and the race fields are the
model's own and stay (notes/assumptions/23.md). -/
def resetPart (cause : ResetCause) (setupAddr : Addr) (s : State) : State :=
  { State.afterReset cause setupAddr with pending := s.pending, races := s.races, raceCount := s.raceCount }

end Sys2Proof.Machine
end

