-- ==== Sys2Proof/Machine/Touchdowns.lean ====
section
/-! DEFINITION. The touchdown assembler's handling of messages and of silence (03_touchdown_assembly, R46 to R53), and
the meaning of SILENCE_TIMER_EXPIRY. -/

namespace Sys2Proof.Machine

/-- The site byte of a refused OPEN, which carries no site (R189). -/
abbrev noSiteByte : Byte := 0xFF

/-- The assembler refuses a message: REPORT_REFUSED with the open touchdown's number, or 0 in IDLE (R46). -/
def refuseMessage (code : Code) (site : Byte) (c : CellNo) (s : State) : State :=
  let number : Half := match (s.cell c).asm.touchdown with | some t => t.number | none => 0
  raise (.cell c) (.messageRefused code site number) s

/-- A new open touchdown (R47). -/
def Touchdown.opened (number declared : Half) : Touchdown where
  number := number
  declared := declared
  reports := []
  heard := 0
  lost := 0
  mismatch := false
  closeKind := none
  missing := none
  closeStamp := none
  mark := 0

/-- An OPEN taken in IDLE (R47). -/
def openInIdle (c : CellNo) (number declared : Half) (s : State) : State :=
  let clamped := declared &&& (s.cell c).asm.enabled
  if s.engine.state = .draining then refuseMessage .draining noSiteByte c s
  else if clamped = 0 then refuseMessage .emptyTouchdown noSiteByte c s
  else
    s.modAsm c fun a =>
      { a with
        touchdown := some (Touchdown.opened number clamped)
        silence := some (Time.plus s.clock a.timeout) }

/-- An OPEN: an open touchdown is first closed SUPERSEDED (R48). -/
def takeOpen (c : CellNo) (number declared : Half) (s : State) : State :=
  openInIdle c number declared (closeTouchdown .superseded c s)

/-- A report in its site's place (R45, R50). -/
def insertReport (r : Report) : List Report → List Report
  | [] => [r]
  | q :: qs => if r.site < q.site then r :: q :: qs else q :: insertReport r qs

/-- A UNIT that passes the checks is stored, or lost where all 64 slots are in use (R50). -/
def storeUnit (c : CellNo) (t : Touchdown) (r : Report) (s : State) : State :=
  let heard := t.heard ||| siteBit r.site
  if (s.cell c).asm.slots < 64 then
    s.modCell c fun cs =>
      judgeBuffer { cs with asm :=
        { cs.asm with
          touchdown := some { t with reports := insertReport r t.reports, heard := heard }
          silence := some (Time.plus s.clock cs.asm.timeout) } }
  else
    raise (.cell c) (.touchdownLoss t.number 1)
      (s.modAsm c fun a => { a with touchdown := some { t with heard := heard, lost := t.lost + 1 } })

/-- The attempt kind of a UNIT: 0 FIRST, 1 RETEST, none above 1 (R49, R192). -/
def Attempt.ofByte (b : Byte) : Option Attempt :=
  if b = 0 then some .first else if b = 1 then some .retest else none

/-- The fields of a UNIT message (R26). -/
structure UnitFields where
  site    : Byte
  key     : Word
  wafer   : Byte
  x       : Half
  y       : Half
  bin     : Byte
  attempt : Byte
  deriving DecidableEq, Repr

/-- The checks of a UNIT in the order of R49: the refusal code, or the report to be stored. -/
def checkUnit (t : Touchdown) (u : UnitFields) : Except Code Report :=
  if h : u.site.toNat < 16 then
    let site : Site := ⟨u.site.toNat, h⟩
    if !hasSite t.declared site then .error .straySite
    else if hasSite t.heard site then .error .repeatSite
    else
      match Attempt.ofByte u.attempt with
      | none => .error .badKind
      | some k => .ok { site := site, key := u.key, wafer := u.wafer, x := u.x, y := u.y, bin := u.bin, attempt := k }
  else .error .straySite

/-- A UNIT (R49, R50). -/
def takeUnit (c : CellNo) (u : UnitFields) (s : State) : State :=
  match (s.cell c).asm.touchdown with
  | none => refuseMessage .noTouchdown u.site c s
  | some t =>
    match checkUnit t u with
    | .error code => refuseMessage code u.site c s
    | .ok r => storeUnit c t r s

/-- A CLOSE (R51). -/
def takeClose (c : CellNo) (number : Half) (s : State) : State :=
  closeTouchdown .normal c
    (s.modAsm c fun a =>
      { a with touchdown := a.touchdown.map fun t => { t with mismatch := t.mismatch || number != t.number } })

/-- A HELLO (R52). -/
def takeHello (c : CellNo) (s : State) : State :=
  raise (.cell c) .cellRestart (closeTouchdown .cellRestart c s)

/-- The assembler takes a message whole (R46). -/
def takeMessage (c : CellNo) (m : Message) (s : State) : State :=
  match m with
  | .openMsg number declared => takeOpen c number declared s
  | .unitMsg site key wafer x y bin attempt => takeUnit c ⟨site, key, wafer, x, y, bin, attempt⟩ s
  | .closeMsg number => takeClose c number s
  | .helloMsg => takeHello c s

/-- The silence timer of an open touchdown expires (R53). -/
def silenceExpires (c : CellNo) (s : State) : Option State :=
  if (s.cell c).asm.touchdown.isSome && expired s.clock (s.cell c).asm.silence then
    some (refresh c (closeTouchdown .timedOut c s))
  else none

/-- SILENCE_TIMER_EXPIRY (R53). -/
def execSilenceTimerExpiry (c : CellNo) (s : State) : Host.Outcome State Fault Refusal :=
  conclude s (silenceExpires c s)

end Sys2Proof.Machine
end

