-- ==== Sys2Proof/Machine/Lines.lean ====
section
/-! DEFINITION. The cell lines (02_cell_lines): characters, the decoder, line errors and quarantine, quality windows, the
transmitter; and the meanings of their commands. -/

namespace Sys2Proof.Machine

/-! ## Errors and quarantine (R32, R33) -/

/-- The line of a cell is withdrawn: QUARANTINED, its open touchdown closed, LINE_QUARANTINED raised (R33, R59); their
notices in this order (notes/assumptions/9.md). -/
def quarantine (kind : LineError) (c : CellNo) (s : State) : State :=
  raise (.cell c) (.lineQuarantined (s.cell c).line.errors kind)
    (closeTouchdown .quarantined c (s.modLine c fun l => { l with state := .quarantined, clean := 0 }))

/-- The error just counted reaches the threshold of an ONLINE line (R33). -/
def Line.reachesQ (l : Line) : Bool := l.state == .online && l.q != 0 && l.q ≤ l.errors

/-- An error event ends any partial message and is counted in E (R31 to R33). -/
def countError (kind : LineError) (c : CellNo) (s : State) : State :=
  let s' := s.modLine c fun l => { l with decoder := .hunt, errors := min (l.errors + 1) 255 }
  if (s'.cell c).line.reachesQ then quarantine kind c s' else s'

/-! ## Messages (R26 to R30) -/

/-- A good message is delivered: a HELLO sets the forced send, and on an ONLINE line the assembler takes the message;
on a QUARANTINED line it is discarded (R29). -/
def deliver (c : CellNo) (m : Message) (s : State) : State :=
  let s' := if m.type = .helloMsg then s.modLine c fun l => { l with forced := true } else s
  if (s.cell c).line.state = .online then takeMessage c m s' else s'

/-- The decoder's state set. -/
def setDecoder (c : CellNo) (d : Decoder) (s : State) : State := s.modLine c fun l => { l with decoder := d }

/-- The decoder takes a byte (R27 to R29). -/
def takeByte (c : CellNo) (b : Byte) (s : State) : State :=
  match (s.cell c).line.decoder with
  | .hunt => if b = 0xA5 then setDecoder c (.type s.clock) s else s
  | .type sync =>
    match MsgType.ofByte b with
    | some ty => setDecoder c (.length sync ty) s
    | none => countError .type c s
  | .length sync ty =>
    if b.toNat = ty.len then
      setDecoder c (if ty.len = 0 then .check sync ty (ty.code + b) [] else .payload sync ty (ty.code + b) []) s
    else countError .length c s
  | .payload sync ty sum bytes =>
    let bytes' := bytes ++ [b]
    setDecoder c (if bytes'.length < ty.len then .payload sync ty (sum + b) bytes' else .check sync ty (sum + b) bytes') s
  | .check _ ty sum bytes =>
    if sum + b = 0 then deliver c (Message.ofPayload ty bytes) (setDecoder c .hunt s) else countError .check c s

/-! ## Characters (R22 to R25, R31) -/

/-- A character completes: FRAMING for a low stop bit whatever the parity, PARITY for odd parity, else a byte (R24).
It arises only while an active receiver is timing a character (R23, R25). -/
def characterDone (c : CellNo) (data : Byte) (parity stop : Bool) (s : State) : Option State :=
  if receiverActive s.engine.state (s.cell c).line && (s.cell c).line.rx == .character then
    let s' := s.modLine c fun l => { l with rx := .idle }
    some (refresh c
      (if !stop then countError .framing c s'
       else if !evenParity data parity then countError .parity c s'
       else takeByte c data s'))
  else none

/-- A character with a high stop bit and even parity completes. -/
def byteDone (c : CellNo) (b : Byte) (s : State) : Option State := characterDone c b (!evenParity b false) true s

/-- A good message completes. It is the CHECK byte of the partial message that carries it; or, from an idle receiver in
HUNT, all its characters at this one hall clock reading; with the decoder elsewhere it does not arise
(notes/assumptions/4.md). -/
def messageDone (c : CellNo) (m : Message) (s : State) : Option State :=
  let l := (s.cell c).line
  if receiverActive s.engine.state l then
    match l.rx, l.decoder with
    | .character, .check _ ty _ bytes =>
      if ty = m.type ∧ Message.ofPayload ty bytes = m then
        some (refresh c (deliver c m (s.modLine c fun l => { l with rx := .idle, decoder := .hunt })))
      else none
    | .idle, .hunt => some (refresh c (deliver c m s))
    | _, _ => none
  else none

/-- A falling edge on an idle, active receiver (R23). -/
def edgeFalls (c : CellNo) (s : State) : Option State :=
  if receiverActive s.engine.state (s.cell c).line && (s.cell c).line.rx == .idle then
    some (s.modLine c fun l => { l with rx := .character })
  else none

/-- The start bit samples high: the receiver returns to IDLE (R23). -/
def startBitHigh (c : CellNo) (s : State) : Option State :=
  if receiverActive s.engine.state (s.cell c).line && (s.cell c).line.rx == .character then
    some (s.modLine c fun l => { l with rx := .idle })
  else none

/-! ## The gap timer and the quality window (R30, R32, R34) -/

/-- The SYNC stamp of the partial message, absent in HUNT (R27). -/
def Decoder.sync : Decoder → Option Time
  | .hunt => none
  | .type t => some t
  | .length t _ => some t
  | .payload t _ _ _ => some t
  | .check t _ _ _ => some t

/-- The gap timer: SYNC stamp + 50 ms, absent in HUNT (R30). -/
def Decoder.gapTimer (d : Decoder) : Option Time := d.sync.map fun t => Time.plus t 50

/-- The gap timer of a partial message expires (R30). -/
def gapExpires (c : CellNo) (s : State) : Option State :=
  if receiverActive s.engine.state (s.cell c).line && expired s.clock (s.cell c).line.decoder.gapTimer then
    some (refresh c (countError .gap c s))
  else none

/-- The ending window is judged: the clean count of a QUARANTINED line, and its restore (R34). -/
def judgeWindow (l : Line) : Line :=
  if l.state = .quarantined then
    if l.errors = 0 then
      if 2 ≤ l.clean + 1 then { l with state := .online, clean := 0, forced := true } else { l with clean := l.clean + 1 }
    else { l with clean := 0 }
  else l

/-- E returns to 0 and the next window begins at the end of this one (R32). -/
def nextWindow (l : Line) : Line := { l with errors := 0, windowEnd := l.windowEnd.map fun t => Time.plus t 1000 }

/-- A window ends: judged, LINE_RESTORED where it restores the line, and the next begins (R34). -/
def windowEnds (c : CellNo) (s : State) : Option State :=
  let l := (s.cell c).line
  if receiverActive s.engine.state l && expired s.clock l.windowEnd then
    let s' := s.modLine c fun l => nextWindow (judgeWindow l)
    some (refresh c
      (if l.state = .quarantined ∧ (judgeWindow l).state = .online then raise (.cell c) .lineRestored s' else s'))
  else none

/-! ## The transmitter (R41, R42) -/

/-- The last character of a HOLD_STATE has gone: the final message where owed, SILENT after the final message of a line
still OFFLINE, a further message where due, else IDLE (R41, R42). -/
def afterSent (eng : EngineState) (lots : List Lot) (final : Bool) (cs : CellState) : CellState :=
  if cs.line.finalOwed then beginMessage eng lots true cs
  else if final && cs.line.state == .offline then
    { cs with line := { cs.line with tx := .silent, lastSent := none } }
  else if sendDue eng lots cs then beginMessage eng lots false cs
  else { cs with line := { cs.line with tx := .idle } }

/-- A HOLD_STATE has been sent (R41). -/
def messageSent (c : CellNo) (s : State) : Option State :=
  match (s.cell c).line.tx with
  | .sending final _ _ => some (s.modCell c (afterSent s.engine.state s.coll.lots final))
  | _ => none

/-! ## The meanings -/

/-- CHARACTER_ERROR (R24, R31). -/
def execCharacterError (c : CellNo) (data : Byte) (parity stop : Bool) (s : State) : Host.Outcome State Fault Refusal :=
  conclude s (characterDone c data parity stop s)

/-- TYPE_ERROR: the byte is judged by the decoder, in TYPE as R27 says (notes/assumptions/5.md). -/
def execTypeError (c : CellNo) (b : Byte) (s : State) : Host.Outcome State Fault Refusal := conclude s (byteDone c b s)

/-- LENGTH_ERROR: as the decoder judges the byte, in LENGTH by R28. -/
def execLengthError (c : CellNo) (b : Byte) (s : State) : Host.Outcome State Fault Refusal := conclude s (byteDone c b s)

/-- CHECK_ERROR: as the decoder judges the byte, in CHECK by R29. -/
def execCheckError (c : CellNo) (b : Byte) (s : State) : Host.Outcome State Fault Refusal := conclude s (byteDone c b s)

/-- GAP_ERROR (R30). -/
def execGapError (c : CellNo) (s : State) : Host.Outcome State Fault Refusal := conclude s (gapExpires c s)

/-- QUALITY_WINDOW_END (R34). -/
def execQualityWindowEnd (c : CellNo) (s : State) : Host.Outcome State Fault Refusal := conclude s (windowEnds c s)

/-- OPEN (R47, R48). -/
def execOpenMsg (c : CellNo) (number declared : Half) (s : State) : Host.Outcome State Fault Refusal :=
  conclude s (messageDone c (.openMsg number declared) s)

/-- UNIT (R49, R50). -/
def execUnitMsg (c : CellNo) (site : Byte) (key : Word) (wafer : Byte) (x y : Half) (bin attempt : Byte) (s : State) :
    Host.Outcome State Fault Refusal :=
  conclude s (messageDone c (.unitMsg site key wafer x y bin attempt) s)

/-- CLOSE (R51). -/
def execCloseMsg (c : CellNo) (number : Half) (s : State) : Host.Outcome State Fault Refusal :=
  conclude s (messageDone c (.closeMsg number) s)

/-- HELLO (R29, R52). -/
def execHelloMsg (c : CellNo) (s : State) : Host.Outcome State Fault Refusal := conclude s (messageDone c .helloMsg s)

/-- HOLD_STATE_SENT (R41, R42). -/
def execHoldStateSent (c : CellNo) (s : State) : Host.Outcome State Fault Refusal := conclude s (messageSent c s)

/-- FALLING_EDGE (R23). -/
def execFallingEdge (c : CellNo) (s : State) : Host.Outcome State Fault Refusal := conclude s (edgeFalls c s)

/-- START_BIT_NOISE (R23). -/
def execStartBitNoise (c : CellNo) (s : State) : Host.Outcome State Fault Refusal := conclude s (startBitHigh c s)

/-- BYTE (R24, R27 to R29). -/
def execByte (c : CellNo) (b : Byte) (s : State) : Host.Outcome State Fault Refusal := conclude s (byteDone c b s)

end Sys2Proof.Machine
end

