-- ==== Sys2Proof/Machine/Notices.lean ====
section
/-! DEFINITION. The notice unit's phases (R162 to R167): completions of its transactions, its retry timer, NUDGE, the
resumption at START and the load; and the meanings of its commands. -/

namespace Sys2Proof.Machine

/-- The notice unit changed. -/
def State.setNotice (s : State) (n : NoticeUnit) : State := { s with notice := n }

/-- After a transaction of its own the drain is judged; the next step is taken only where the unit still runs, and where
the drain has completed the unit rests with Nudge pending cleared (R165). -/
def noticeNext (next : State → State) (s : State) : State :=
  let s' := judgeDrain s
  if noticeRuns s' then next s' else s'.setNotice { s'.notice with nudgePending := false }

/-- A record write completes: the written count rises and its own write is issued (R163). -/
def recordWritten (s : State) : Option State :=
  (acknowledged .noticeWrite s).map fun s1 =>
    noticeNext (fun s2 => portRequest (countWrite s2) s2)
      (s1.setNotice { s1.notice with written := s1.notice.written + 1, countOwed := true, phase := .count })

/-- A count write completes: NOTICE is set after a post, and room is judged for the next entry (R163, R168). -/
def countWritten (s : State) : Option State :=
  (acknowledged .countWrite s).map fun s1 =>
    noticeNext judgeRoom
      { s1 with
        engine := { s1.engine with notice := s1.engine.notice || s1.notice.post.isSome }
        notice := { s1.notice with countOwed := false, post := none, phase := .idle } }

/-- The consumed count after a value read: accepted where it is at most N behind the written count (R164). -/
def acceptConsumed (v : Word) (s : State) : State :=
  if (s.notice.written - v).toNat ≤ s.loadedSetup.slots then s.setNotice { s.notice with consumed := v } else s

/-- Without room: read again where a NUDGE is pending, else wait on the retry timer (R164). -/
def waitForRoom (s : State) : State :=
  if s.notice.nudgePending then readConsumed (s.setNotice { s.notice with nudgePending := false })
  else s.setNotice { s.notice with phase := .wait, retry := some (Time.plus s.clock s.loadedSetup.interval) }

/-- The consumed word is read (R164, R165). -/
def consumedRead (v : Word) (s : State) : Option State :=
  (returned .consumedRead 4 s).map fun s1 =>
    let s2 := acceptConsumed v s1
    if noticeRoom s2 then noticeNext judgeRoom (s2.setNotice { s2.notice with phase := .idle })
    else noticeNext waitForRoom (s2.setNotice { s2.notice with phase := .wait })

/-- The retry timer expires (R164). -/
def retryExpires (s : State) : Option State :=
  if s.notice.phase = .wait ∧ noticeRuns s ∧ expired s.clock s.notice.retry then some (readConsumed s) else none

/-- NUDGE at the notice unit (R164). One taken just after the retry timer's expiry finds ROOM and sets Nudge pending, by the
model's choice (notes/assumptions/35.md). -/
def nudgeNotice (s : State) : State :=
  if noticeRuns s then
    match s.notice.phase with
    | .wait => readConsumed s
    | .room => s.setNotice { s.notice with nudgePending := true }
    | _ => s
  else s

/-- The notice unit resumes from its phase at START (R165, R166). In IDLE it judges room only for an entry of the table
(R162): with an empty table and no room it issues no read, by the model's choice (notes/assumptions/37.md). -/
def resumeNotice (s : State) : State :=
  match s.notice.phase with
  | .record =>
    match s.notice.post with
    | some p => portRequest (postWrite p s) s
    | none => s
  | .count => portRequest (countWrite s) s
  | .room => readConsumed s
  | .wait => readConsumed s
  | .idle => noticePump s

/-- A successful load (R167). -/
def loadNotice (n : NoticeUnit) : NoticeUnit :=
  let n' := { n with written := 0, consumed := 0, countOwed := true, retry := none }
  match n.phase, n.post with
  | .record, some p => { n' with post := some { p with seq := 0 } }
  | _, _ => { n' with post := none, phase := .count }

/-! ## The meanings -/

/-- NOTICE_RECORD_WRITE_DONE (R163). -/
def execNoticeRecordWriteDone (s : State) : Host.Outcome State Fault Refusal := conclude s (recordWritten s)

/-- COUNT_WRITE_DONE (R163). -/
def execCountWriteDone (s : State) : Host.Outcome State Fault Refusal := conclude s (countWritten s)

/-- CONSUMED_READ_DONE (R164). -/
def execConsumedReadDone (v : Word) (s : State) : Host.Outcome State Fault Refusal := conclude s (consumedRead v s)

/-- RETRY_TIMER_EXPIRY (R164). -/
def execRetryTimerExpiry (s : State) : Host.Outcome State Fault Refusal := conclude s (retryExpires s)

end Sys2Proof.Machine
end

