-- ==== Sys2Proof/Machine/Guards.lean ====
section
/-! DEFINITION. The guard unit (05_yield_guards): windows and run counts, the four checks, trips and their notices, the
hand-off to the cell line, and the guard parts of CONFIGURE_CELLS and RELEASE_CELLS. -/

namespace Sys2Proof.Machine

/-! ## Windows and run counts (R89 to R91) -/

/-- What an outcome adds to a fail count. -/
def Verdict.fails : Verdict → Nat
  | .fail => 1
  | .pass => 0

/-- The oldest outcome leaves the window (R90). -/
def SiteGuard.dropOldest (g : SiteGuard) : SiteGuard :=
  match g.window with
  | [] => g
  | v :: rest => { g with window := rest, failCount := g.failCount - v.fails }

/-- The run count after an outcome: saturating at 255 on FAIL, 0 on PASS (R91). -/
def nextRun (run : Nat) : Verdict → Nat
  | .fail => min (run + 1) 255
  | .pass => 0

/-- An outcome joins a site's window of size W (R90, R91). -/
def SiteGuard.join (w : Nat) (v : Verdict) (g : SiteGuard) : SiteGuard :=
  let h := if w ≤ g.window.length then g.dropOldest else g
  { h with window := h.window ++ [v], failCount := h.failCount + v.fails, run := nextRun h.run v }

/-- A site's window emptied and its run count 0. -/
def SiteGuard.emptied (g : SiteGuard) : SiteGuard := { g with window := [], failCount := 0, run := 0 }

/-- A site's three flags clear. -/
def SiteGuard.unflagged (g : SiteGuard) : SiteGuard := { g with runFlag := false, limitFlag := false, spreadFlag := false }

/-- The guard state of one site. -/
def Guard.site (g : Guard) (s : Site) : SiteGuard := g.sites[s.val]

/-- One site's guard state replaced. -/
def Guard.setSite (g : Guard) (s : Site) (v : SiteGuard) : Guard := { g with sites := g.sites.set s.val v s.isLt }

/-- Every site's guard state changed, each by its number. -/
def Guard.mapSites (g : Guard) (f : Site → SiteGuard → SiteGuard) : Guard :=
  { g with sites := Vector.ofFn fun s : Fin 16 => f s (g.site s) }

/-! ## The checks (R93 to R97) -/

/-- Fail counts per 1024 outcomes, truncated (R93). -/
def fraction (fails filled : Nat) : Nat := fails * 1024 / filled

/-- The filled counts of some sites together. -/
def Guard.filled (g : Guard) (sites : List Site) : Nat := (sites.map fun s => (g.site s).window.length).sum

/-- The fail counts of some sites together. -/
def Guard.fails (g : Guard) (sites : List Site) : Nat := (sites.map fun s => (g.site s).failCount).sum

/-- The enabled sites of the cell other than s. -/
def othersOf (enabled : Half) (s : Site) : List Site := (sitesOf enabled).filter (· ≠ s)

/-- f_s (R93). -/
def Guard.siteFraction (g : Guard) (s : Site) : Nat := fraction (g.site s).failCount (g.site s).window.length

/-- f_o (R93). -/
def Guard.othersFraction (g : Guard) (enabled : Half) (s : Site) : Nat :=
  fraction (g.fails (othersOf enabled s)) (g.filled (othersOf enabled s))

/-- fc (R93). -/
def Guard.cellFraction (g : Guard) (enabled : Half) : Nat :=
  fraction (g.fails (sitesOf enabled)) (g.filled (sitesOf enabled))

/-- The run check (R94). -/
def Guard.runCheck (g : Guard) (s : Site) : Bool := 0 < g.k && g.k ≤ (g.site s).run

/-- The site limit check (R95). -/
def Guard.limitCheck (g : Guard) (s : Site) : Bool := g.m ≤ (g.site s).window.length && g.l < g.siteFraction s

/-- The spread check; the signed difference f_s − f_o is greater than D exactly when D + f_o is less than f_s (R96). -/
def Guard.spreadCheck (g : Guard) (enabled : Half) (s : Site) : Bool :=
  g.m ≤ (g.site s).window.length && g.m ≤ g.filled (othersOf enabled s)
    && g.d + g.othersFraction enabled s < g.siteFraction s

/-- The cell limit check (R97). -/
def Guard.cellCheck (g : Guard) (enabled : Half) : Bool :=
  g.mc ≤ g.filled (sitesOf enabled) && g.lc < g.cellFraction enabled

/-! ## Trips and their notices (R92, R98) -/

/-- The notice details of the checks that trip, in check order (R92, R98). -/
def Guard.trips (g : Guard) (enabled : Half) (s : Site) : List Detail :=
  let q := g.site s
  let n := q.window.length
  (if g.runCheck s && !q.runFlag then [.siteRun s q.run g.k n q.failCount g.w] else [])
    ++ (if g.limitCheck s && !q.limitFlag then [.siteLimit s n q.failCount g.m (g.siteFraction s) g.l g.w] else [])
    ++ (if g.spreadCheck enabled s && !q.spreadFlag then
          [.siteSpread s n q.failCount g.m (g.siteFraction s) (g.filled (othersOf enabled s))
            (g.fails (othersOf enabled s)) (g.othersFraction enabled s) g.d]
        else [])
    ++ (if g.cellCheck enabled && !g.cellFlag then
          [.cellLimit s (sitesOf enabled).length (g.filled (sitesOf enabled)) (g.fails (sitesOf enabled))
            (g.cellFraction enabled) g.mc g.lc]
        else [])

/-- The flags latched: set where the check is true, kept where it is false (R92). -/
def Guard.latch (g : Guard) (enabled : Half) (s : Site) : Guard :=
  let q := g.site s
  { g.setSite s
      { q with
        runFlag := q.runFlag || g.runCheck s
        limitFlag := q.limitFlag || g.limitCheck s
        spreadFlag := q.spreadFlag || g.spreadCheck enabled s } with
    cellFlag := g.cellFlag || g.cellCheck enabled }

/-- The subject of a trip's notice (R98). -/
def tripSubject (c : CellNo) (s : Site) : Detail → Subject
  | .cellLimit .. => .cell c
  | _ => .site c s

/-- The notices of one evaluation are raised in check order (R92). -/
def raiseTrips (c : CellNo) (s : Site) : List Detail → State → State
  | [], st => st
  | d :: ds, st => raiseTrips c s ds (raise (tripSubject c s d) d st)

/-- The notices of one evaluation in check order, and among them one notice of another block: which of two that come
together is taken first is open (R92, R158; notes/assumptions/7.md). -/
def raiseTripsWith (other : State → State) (c : CellNo) (s : Site) : List Detail → State → State
  | [], st => other st
  | d :: ds, st =>
    match takeRace st with
    | (true, st') => raiseTripsWith other c s ds (raise (tripSubject c s d) d st')
    | (false, st') => raiseTrips c s (d :: ds) (other st')

/-- The guard with an outcome joined to its site's window (R90, R91). -/
def Guard.joined (site : Site) (v : Verdict) (g : Guard) : Guard := g.setSite site ((g.site site).join g.w v)

/-- The details of the trips an outcome brings: none where its site is not enabled (R90, R92). -/
def CellState.tripsOn (site : Site) (v : Verdict) (cs : CellState) : List Detail :=
  if hasSite cs.asm.enabled site then (cs.guard.joined site v).trips cs.asm.enabled site else []

/-- A cell's guard takes an outcome: discarded where the site is not enabled; else it joins, is judged, and its flags are
latched (R90 to R92). The notices and the hand-off follow apart. -/
def CellState.takeOutcome (site : Site) (v : Verdict) (cs : CellState) : CellState :=
  if hasSite cs.asm.enabled site then
    { cs with guard := (cs.guard.joined site v).latch cs.asm.enabled site }
  else cs

/-! ## The hand-off (R99, R115) -/

/-- All the flags of a cell. -/
def Guard.flags (g : Guard) : List Bool :=
  g.sites.toList.flatMap (fun q => [q.runFlag, q.limitFlag, q.spreadFlag]) ++ [g.cellFlag]

/-- The cell line takes the new held site set and CELL_GUARD (R99). -/
def CellState.handOff (cs : CellState) : CellState :=
  { cs with holds := { cs.holds with cellGuard := cs.guard.cellFlag, held := cs.guard.heldSites } }

/-- The hand-off is made where any flag changed (R99). -/
def CellState.handOffFrom (before : Guard) (cs : CellState) : CellState :=
  if before.flags = cs.guard.flags then cs else cs.handOff

/-! ## The guard parts of orders (R100 to R107) -/

/-- The nearest value of a range (00_scope, Terms: clamp). -/
def clampTo (low high v : Nat) : Nat := max low (min v high)

/-- The clamped guard group (R101). -/
def GuardGroup.clamped (p : GuardGroup) : GuardGroup :=
  { p with m := clampTo 1 p.w p.m, mc := clampTo 1 2048 p.mc, l := min p.l 1024, lc := min p.lc 1024, d := min p.d 1024 }

/-- How many of M, Mc, L, Lc and D were clamped (R101). -/
def GuardGroup.clamps (p : GuardGroup) : Nat :=
  let q := p.clamped
  (q.m != p.m).toNat + (q.mc != p.mc).toNat + (q.l != p.l).toNat + (q.lc != p.lc).toNat + (q.d != p.d).toNat

/-- A W of 16, 32, 64 or 128 (R100). -/
def goodWindow (w : Nat) : Bool := [16, 32, 64, 128].contains w

/-- A cell takes an accepted, clamped guard group (R102). -/
def Guard.takeGroup (p : GuardGroup) (g : Guard) : Guard :=
  let g' : Guard := { g with w := p.w, m := p.m, l := p.l, mc := p.mc, lc := p.lc, d := p.d, k := p.k }
  if p.w = g.w then g' else { g'.mapSites (fun _ q => q.emptied.unflagged) with cellFlag := false }

/-- A cell's windows follow a new enabled site set: each site that leaves is emptied and cleared (R103). -/
def Guard.takeSites (old new : Half) (g : Guard) : Guard :=
  g.mapSites fun s q => if hasSite old s && !hasSite new s then q.emptied.unflagged else q

/-- SITE_GUARD in a reason set (12.3: bit 7). -/
abbrev namesSiteGuard (reasons : Byte) : Bool := reasons.getLsbD 7

/-- CELL_GUARD in a reason set (R192: bit 1). -/
abbrev namesCellGuard (reasons : Byte) : Bool := reasons.getLsbD 1

/-- ORDERED in a reason set (R192: bit 2). -/
abbrev namesOrdered (reasons : Byte) : Bool := reasons.getLsbD 2

/-- The sites whose windows an order empties (R107). -/
def clearScope (b : ReleaseBody) (s : Site) : Bool :=
  b.clear && (namesCellGuard b.reasons || (namesSiteGuard b.reasons && hasSite b.sites s))

/-- The guard part of a RELEASE_CELLS (R105 to R107). -/
def Guard.release (b : ReleaseBody) (g : Guard) : Guard :=
  let g' := g.mapSites fun s q =>
    let q' := if namesSiteGuard b.reasons && hasSite b.sites s then q.unflagged else q
    if clearScope b s then q'.emptied else q'
  { g' with cellFlag := g'.cellFlag && !namesCellGuard b.reasons }

end Sys2Proof.Machine
end

