-- ==== Sys2Proof/Machine/Cells.lean ====
section
/-! DEFINITION. The orders on cells: CONFIGURE_CELLS (R35 to R39, R58, R100 to R103), HOLD_CELLS (R117), RELEASE_CELLS
(R118, R119) and the capture of READ_CELL (R120 to R124, R191). -/

namespace Sys2Proof.Machine

/-! ## CONFIGURE_CELLS -/

/-- A silence timeout in range (R58). -/
def clampTimeout (t : Nat) : Nat := clampTo 10 10000 t

/-- The count of clamped values of an order (R58, R101). -/
def ConfigureBody.clamps (b : ConfigureBody) : Nat :=
  (match b.guard with | some g => g.clamps | none => 0)
    + (match b.timing with | some (t, _) => (clampTimeout t != t).toNat | none => 0)

/-- The checks of R35, R58 and R100 in order: the first that fails, with its result word. -/
def ConfigureBody.error (b : ConfigureBody) : Option (Code × Word) :=
  if cellsOf b.cells = [] then some (.emptySet, 0)
  else if b.rate.any (fun r => 7 < r) then some (.badRate, oneValue (b.rate.getD 0))
  else if b.sites = some 0 then some (.noSites, 0)
  else if b.guard.any (fun g => !goodWindow g.w) then some (.badWindow, oneValue ((b.guard.map (·.w)).getD 0))
  else none

/-- The order changes the cell's rate. -/
def ConfigureBody.changesRate (b : ConfigureBody) (l : Line) : Bool := b.rate.any fun r => r != l.rate.val

/-- The order changes the cell's enabled site set. -/
def ConfigureBody.changesSites (b : ConfigureBody) (a : Assembler) : Bool := b.sites.any fun m => m != a.enabled

/-- The open touchdown is closed RECONFIGURED first (R35). -/
def ConfigureBody.closes (b : ConfigureBody) (cs : CellState) : Bool :=
  b.changesRate cs.line || b.changesSites cs.asm || !b.online

/-- The line group (R38): on a line not OFFLINE a changed rate takes effect, ends the character and the partial message
without an error and sets the forced send; on an OFFLINE line it is only stored. -/
def takeRate (rate : Option Nat) (l : Line) : Line :=
  match rate with
  | none => l
  | some r =>
    if r = l.rate.val then l
    else
      let l' := { l with rate := Fin.ofNat 8 r }
      if l.state = .offline then l' else { l' with txRate := Fin.ofNat 8 r, rx := .idle, decoder := .hunt, forced := true }

/-- The site group and the guard group (R58, R102, R103). -/
def takeGuardGroups (b : ConfigureBody) (cs : CellState) : CellState :=
  let sites := b.sites.getD cs.asm.enabled
  let g := cs.guard.takeSites cs.asm.enabled sites
  { cs with
    asm := { cs.asm with enabled := sites }
    guard := match b.guard with | some p => g.takeGroup p.clamped | none => g }

/-- The timing group (R39, R58). -/
def takeTiming (timing : Option (Nat × Nat)) (cs : CellState) : CellState :=
  match timing with
  | none => cs
  | some (t, q) =>
    { cs with asm := { cs.asm with timeout := clampTimeout t }, line := { cs.line with q := q } }

/-- The line goes ONLINE: its rate code takes effect, forced send set, a final message not yet begun no longer owed, the
receiver active where the engine state lets it be (R25, R36, R38, R42). -/
def Line.goOnline (eng : EngineState) (now : Time) (l : Line) : Line :=
  let l' : Line :=
    { l with
      state := .online
      txRate := l.rate
      decoder := .hunt
      errors := 0
      clean := 0
      forced := true
      finalOwed := false
      tx := match l.tx with | .silent => .idle | t => t }
  if receiverActive eng l' then l'.startReceiver now else l'

/-- The line goes OFFLINE: the receiver stops and the final message is owed (R37, R42). -/
def Line.goOffline (l : Line) : Line := { l.stopReceiver with state := .offline, finalOwed := true }

/-- The mode takes effect (R36, R37). -/
def takeMode (online : Bool) (eng : EngineState) (now : Time) (l : Line) : Line :=
  match online, l.state with
  | true, .offline => l.goOnline eng now
  | true, _ => l
  | false, .offline => l
  | false, _ => l.goOffline

/-- A cell's settings, guard state, holds and mode after an accepted order (R35 to R39, R102, R103). -/
def CellState.configured (b : ConfigureBody) (eng : EngineState) (now : Time) (cs : CellState) : CellState :=
  let cs1 := { cs with line := takeRate b.rate cs.line }
  let cs2 := (takeTiming b.timing (takeGuardGroups b cs1)).handOffFrom cs.guard
  { cs2 with line := takeMode b.online eng now cs2.line }

/-- A cell takes an accepted CONFIGURE_CELLS as one event (R35). -/
def configureCell (b : ConfigureBody) (c : CellNo) (s : State) : State :=
  let s1 := if b.closes (s.cell c) then closeTouchdown .reconfigured c s else s
  refresh c (s1.modCell c (CellState.configured b s.engine.state s.clock))

/-- An effect on each cell of a list in turn (notes/assumptions/9.md). -/
def eachCell (f : CellNo → State → State) : List CellNo → State → State
  | [], s => s
  | c :: cs, s => eachCell f cs (f c s)

/-- CONFIGURE_CELLS: its outcome, and the cells as they take it. -/
def serveConfigure (b : ConfigureBody) (s : State) : OrderOutcome × State :=
  match b.error with
  | some (code, result) => (.refused code result, s)
  | none => (.done (oneValue b.clamps), eachCell (configureCell b) (cellsOf b.cells) s)

/-! ## HOLD_CELLS and RELEASE_CELLS -/

/-- A cell takes HOLD_CELLS (R117). -/
def holdCell (c : CellNo) (s : State) : State :=
  refresh c (s.modCell c fun cs => { cs with holds := { cs.holds with ordered := true } })

/-- HOLD_CELLS: its outcome, and the cells as they take it (R117). -/
def serveHold (cells : Word) (s : State) : OrderOutcome × State :=
  if cellsOf cells = [] then (.refused .emptySet 0, s)
  else
    (.done (oneValue ((cellsOf cells).filter fun c => !(s.cell c).holds.ordered).length),
      eachCell holdCell (cellsOf cells) s)

/-- The reasons a RELEASE_CELLS may name: CELL_GUARD, ORDERED and SITE_GUARD (R118). -/
abbrev releasable : Byte := 0x86

/-- A cell's holds and guard state after an accepted RELEASE_CELLS (R105 to R107, R119). -/
def CellState.released (b : ReleaseBody) (cs : CellState) : CellState :=
  let cs' := ({ cs with guard := cs.guard.release b }).handOffFrom cs.guard
  { cs' with holds := { cs'.holds with ordered := cs'.holds.ordered && !namesOrdered b.reasons } }

/-- A cell takes RELEASE_CELLS as one change (R119). -/
def releaseCell (b : ReleaseBody) (c : CellNo) (s : State) : State := refresh c (s.modCell c (CellState.released b))

/-- The cell's reason set or held site set differs after the order (R119). -/
def releaseChanges (b : ReleaseBody) (s : State) (c : CellNo) : Bool :=
  holdContent s.engine.state s.coll.lots (s.cell c)
    != holdContent s.engine.state s.coll.lots ((s.cell c).released b)

/-- RELEASE_CELLS: its outcome, and the cells as they take it (R118, R119). -/
def serveRelease (b : ReleaseBody) (s : State) : OrderOutcome × State :=
  if cellsOf b.cells = [] then (.refused .emptySet 0, s)
  else if b.reasons &&& ~~~releasable ≠ 0 then (.refused .badReason (oneValue b.reasons.toNat), s)
  else
    (.done (oneValue ((cellsOf b.cells).filter (releaseChanges b s)).length),
      eachCell (releaseCell b) (cellsOf b.cells) s)

/-! ## READ_CELL (R120 to R124, R191) -/

/-- R191: 0 OFFLINE, 1 ONLINE, 2 QUARANTINED. -/
def LineState.code : LineState → Nat
  | .offline => 0
  | .online => 1
  | .quarantined => 2

/-- R191: 0 HUNT to 4 CHECK. -/
def Decoder.code : Decoder → Nat
  | .hunt => 0
  | .type _ => 1
  | .length _ _ => 2
  | .payload _ _ _ _ => 3
  | .check _ _ _ _ => 4

/-- One site entry of 8 bytes (R124, R191). -/
def SiteGuard.entry (s : Site) (g : SiteGuard) : List Byte :=
  leBytes 1 s.val ++ leBytes 1 g.window.length ++ leBytes 1 g.failCount ++ leBytes 1 g.run
    ++ leBytes 1 (g.runFlag.toNat + 2 * g.limitFlag.toNat + 4 * g.spreadFlag.toNat) ++ leBytes 3 0

/-- The line part of the fixed part (R122). The current lot key of a cell without a current lot is written as 0, which the
rules leave open (notes/assumptions/33.md); the rate code of an OFFLINE line is the one stored
(notes/assumptions/32.md). -/
def CellState.lineRecord (c : CellNo) (stamp : Time) (k : Content) (cs : CellState) : List Byte :=
  leBytes 1 c.val ++ leBytes 1 cs.line.state.code ++ leBytes 1 cs.line.decoder.code ++ leBytes 1 cs.line.rate.val
    ++ leBytes 4 stamp.toNat
    ++ leBytes 1 cs.line.q ++ leBytes 1 cs.line.errors ++ leBytes 1 cs.line.clean ++ [k.reasons]
    ++ leBytes 2 k.held.toNat ++ leBytes 1 cs.holds.currentLot.isSome.toNat ++ leBytes 1 cs.asm.touchdown.isSome.toNat
    ++ leBytes 4 (cs.holds.currentLot.getD 0).toNat

/-- The assembler part (R123). -/
def Assembler.record (a : Assembler) : List Byte :=
  (match a.touchdown with
    | some t =>
      leBytes 2 t.number.toNat ++ leBytes 2 t.declared.toNat ++ leBytes 1 t.reports.length ++ leBytes 1 t.lost
    | none => leBytes 6 0)
    ++ leBytes 1 a.queue.length ++ leBytes 1 a.slots ++ leBytes 2 a.timeout ++ leBytes 2 a.enabled.toNat

/-- The guard part and the site entries (R124). -/
def CellState.guardRecord (cs : CellState) : List Byte :=
  let g := cs.guard
  leBytes 2 g.w ++ leBytes 2 g.m ++ leBytes 2 g.l ++ leBytes 2 g.mc ++ leBytes 2 g.lc ++ leBytes 2 g.d
    ++ leBytes 1 g.k ++ leBytes 1 g.cellFlag.toNat ++ leBytes 1 (sitesOf cs.asm.enabled).length ++ leBytes 1 0
    ++ (sitesOf cs.asm.enabled).flatMap fun s => (g.site s).entry s

/-- The cell status record, as captured (R120, R191). -/
def cellRecord (c : CellNo) (s : State) : List Byte :=
  let cs := s.cell c
  cs.lineRecord c s.clock (holdContent s.engine.state s.coll.lots cs) ++ cs.asm.record ++ cs.guardRecord

/-- The number of site entries of a capture (R121). -/
def cellRecordEntries (c : CellNo) (s : State) : Nat := (sitesOf (s.cell c).asm.enabled).length

end Sys2Proof.Machine
end

