-- ==== Sys2Proof/Machine/Plans.lean ====
section
/-! DEFINITION. Bin plans and map cells: what a plan says of a bin (R7), LOAD_PLAN (R10, R11), the validity of a map cell
(R5), and the decision of a report on the cell read (R72 to R75). -/

namespace Sys2Proof.Machine

/-- The plan in which every soft bin is UNUSED. -/
def Plan.unused : Plan := Vector.replicate 240 none

/-- What a plan says of a bin value; none for an UNUSED soft bin and for every value above 239 (R7). -/
def Plan.info (p : Plan) (bin : Byte) : Option BinInfo := if h : bin.toNat < 240 then p[bin.toNat] else none

/-- The plan in a slot; every bin UNUSED where the slot is EMPTY, which no catalogue lot's slot is (R125). -/
def Collation.plan (c : Collation) (slot : Fin 8) : Plan := (c.plans[slot.val]).getD Plan.unused

/-! ## Map cells (R2, R5) -/

/-- The address of the cell of die (x, y) in a wafer's map (R2). -/
def mapAddr (map : Addr) (columns x y : Nat) : Addr := addrPlus map (2 * (y * columns + x))

/-- The fault kind of a map cell, the first that applies; none for a valid cell (R5). -/
def mapFault (p : Plan) (limit : Nat) (w : Half) : Option MapFault :=
  let bin := (cellBin w).toNat
  let attempts := cellAttempts w
  if 240 ≤ bin ∧ bin ≤ 253 then some .badValue
  else if 254 ≤ bin then if attempts = 0 then none else some .badAttempts
  else if attempts = 0 then some .badAttempts
  else if p.info (cellBin w) = none then some .unusedBin
  else if limit < attempts then some .overAttemptLimit
  else none

/-! ## The decision (R72 to R75) -/

/-- What a decided report is to its die (R72 to R75, R77). -/
inductive Case where
  | firstResult | duplicate | overLimit | stands | changed
  deriving DecidableEq, Repr

/-- A rank, for comparing two bins of a plan; an UNUSED bin has none and is never compared (R8). -/
def Plan.rank (p : Plan) (bin : Byte) : Nat := match p.info bin with | some i => i.rank | none => 16

/-- A counted retest puts the reported bin in the cell and so changes the die's bin (R74, R75). -/
def replaces (p : Plan) (policy : Policy) (reported standing : Byte) : Bool :=
  match policy with
  | .keepLast => reported != standing
  | .keepBest => p.rank reported < p.rank standing

/-- The case of a report on the valid cell read (R72 to R75). -/
def caseOf (p : Plan) (policy : Policy) (limit : Nat) (r : Report) (was : Half) : Case :=
  if cellBin was = untested then .firstResult
  else
    match r.attempt with
    | .first => .duplicate
    | .retest =>
      if limit ≤ cellAttempts was then .overLimit
      else if replaces p policy r.bin (cellBin was) then .changed
      else .stands

/-- The new content of the cell (R72 to R75). -/
def contentOf (case : Case) (r : Report) (was : Half) : Half :=
  match case with
  | .firstResult => mapCell r.bin 1 (match r.attempt with | .first => 0 | .retest => orphanFlag)
  | .duplicate => was ||| duplicateFlag
  | .overLimit => was ||| overLimitFlag
  | .stands => mapCell (cellBin was) (cellAttempts was + 1) was
  | .changed => mapCell r.bin (cellAttempts was + 1) (was ||| changedFlag)

/-! ## LOAD_PLAN (R10, R11) -/

/-- The number of catalogue lots that name a slot (R10). -/
def lotsNaming (lots : List Lot) (slot : Nat) : Nat := (lots.filter fun l => l.plan.val == slot).length

/-- A class code of an entry: 1 PASS, 2 FAIL (R187). -/
def classOf : Nat → Option Verdict
  | 1 => some .pass
  | 2 => some .fail
  | _ => none

/-- An entry breaks check 3 of R10; `seen` holds the bins of the earlier entries. -/
def PlanEntry.bad (seen : List Nat) (e : PlanEntry) : Bool :=
  239 < e.bin || classOf e.cls == none || 15 < e.rank || 15 < e.group || seen.contains e.bin

/-- The index and soft bin of the first entry that breaks check 3 of R10. -/
def firstBadEntry (index : Nat) (seen : List Nat) : List PlanEntry → Option (Nat × Nat)
  | [] => none
  | e :: es => if e.bad seen then some (index, e.bin) else firstBadEntry (index + 1) (e.bin :: seen) es

/-- The ranks of the entries of a class. -/
def ranksOf (v : Verdict) (es : List PlanEntry) : List Nat :=
  (es.filter fun e => classOf e.cls == some v).map (·.rank)

/-- The highest of some ranks. -/
def highest (rs : List Nat) : Nat := rs.foldl max 0

/-- The lowest of some ranks 0..15. -/
def lowest (rs : List Nat) : Nat := rs.foldl min 15

/-- The first check of R10 that a LOAD_PLAN fails: its code and result word. -/
def loadPlanError (lots : List Lot) (slot : Nat) (es : List PlanEntry) : Option (Code × Word) :=
  if 7 < slot then some (.badSlot, 0)
  else if 0 < lotsNaming lots slot then some (.planInUse, oneValue (lotsNaming lots slot))
  else
    match firstBadEntry 0 [] es with
    | some (index, bin) => some (.badEntry, twoValues index bin)
    | none =>
      if ranksOf .pass es = [] then some (.noPass, oneValue (ranksOf .fail es).length)
      else if ranksOf .fail es ≠ [] ∧ lowest (ranksOf .fail es) ≤ highest (ranksOf .pass es) then
        some (.rankOrder, twoValues (highest (ranksOf .pass es)) (lowest (ranksOf .fail es)))
      else none

/-- What an entry gives its bin. -/
def PlanEntry.info (e : PlanEntry) : Option BinInfo :=
  (classOf e.cls).map fun v => { cls := v, rank := e.rank, group := Fin.ofNat 16 e.group }

/-- The plan an entry list describes (R11). -/
def planOf (es : List PlanEntry) : Plan :=
  Vector.ofFn fun i : Fin 240 => (es.find? fun e => e.bin == i.val).bind PlanEntry.info

/-- The collation unit serves a LOAD_PLAN (R10, R11). -/
def serveLoadPlan (slot : Nat) (es : List PlanEntry) (s : State) : State :=
  match loadPlanError s.coll.lots slot es with
  | some (code, result) => returnOutcome (.refused code result) s
  | none =>
    returnOutcome (.done (twoValues (ranksOf .pass es).length (ranksOf .fail es).length))
      { s with coll := { s.coll with plans := s.coll.plans.setIfInBounds slot (some (planOf es)) } }

end Sys2Proof.Machine
end

