-- ==== Sys2Proof/Machine/Scanner.lean ====
section
/-! DEFINITION. The map scanner (01, R13 to R18): reading the maps of a lot being opened and counting their cells; and the
meaning of SCAN_READ_DONE. -/

namespace Sys2Proof.Machine

/-- The next read of a scan: from the next cell to the end of the map or of the 64-byte block (R15). -/
def Scan.read (sc : Scan) : Option Transaction :=
  match sc.todo with
  | [] => none
  | (_, map) :: _ =>
    let a := addrPlus map (2 * sc.index)
    some (readOf .scanRead a (chunk a (2 * (sc.columns * sc.rows - sc.index))))

/-- A scan at its next read. -/
def continueScan (sc : Scan) (s : State) : State :=
  let s' := { s with scanner := some sc }
  match sc.read with
  | some t => portRequest t s'
  | none => s'

/-- A valid cell is counted (R16). -/
def Scan.count (p : Plan) (w : Half) (sc : Scan) : Scan :=
  if cellBin w = notADie then { sc with index := sc.index + 1 }
  else
    match p.info (cellBin w) with
    | none => { sc with index := sc.index + 1, candidates := sc.candidates + 1 }
    | some i =>
      { sc with
        index := sc.index + 1
        candidates := sc.candidates + 1
        tested := sc.tested + 1
        passed := sc.passed + (match i.cls with | .pass => 1 | .fail => 0)
        groups := sc.groups.set i.group.val (sc.groups[i.group.val] + 1) i.group.isLt }

/-- The cells of a read examined in address order, up to the first invalid one (R16, R17). -/
def Scan.examine (p : Plan) : List Half → Scan → Scan × Option MapFault
  | [], sc => (sc, none)
  | w :: ws, sc =>
    match mapFault p sc.limit w with
    | some f => (sc, some f)
    | none => Scan.examine p ws (sc.count p w)

/-- The wafer being read. -/
def Scan.wafer (sc : Scan) : Nat := match sc.todo with | (n, _) :: _ => n | [] => 0

/-- The scan after the last cell of a wafer: its counts join the results and the next wafer starts at 0 (R16). -/
def Scan.nextWafer (sc : Scan) : Scan :=
  { sc with
    todo := sc.todo.tail
    index := 0
    finished := sc.finished ++
      [{ number := sc.wafer, candidates := sc.candidates, tested := sc.tested, passed := sc.passed }]
    candidates := 0
    tested := 0
    passed := 0 }

/-- A scan completion joins the catalogue request queue and the scanner is IDLE (R17, R18). -/
def endScan (r : Request) (s : State) : State :=
  { s with scanner := none, coll := { s.coll with requests := s.coll.requests ++ [r] } }

/-- The INVALID completion of a scan (R17). -/
def Scan.invalid (sc : Scan) (f : MapFault) : Request :=
  .scanInvalid sc.key sc.wafer (sc.index % sc.columns) (sc.index / sc.columns) f

/-- A scanner read's data returns (R15 to R18). -/
def scanData (data : List Byte) (s : State) : Option State := do
  let s1 ← returned .scanRead data.length s
  let sc ← s1.scanner
  match sc.examine (s1.coll.plan sc.plan) (cellsOfBytes data) with
  | (sc', some f) => pure (endScan (sc'.invalid f) s1)
  | (sc', none) =>
    if sc'.index < sc'.columns * sc'.rows then pure (continueScan sc' s1)
    else
      let next := sc'.nextWafer
      if next.todo = [] then pure (endScan (.scanSuccess next.key next.finished next.groups) s1)
      else pure (continueScan next s1)

/-- SCAN_READ_DONE (R15). -/
def execScanReadDone (data : List Byte) (s : State) : Host.Outcome State Fault Refusal := conclude s (scanData data s)

end Sys2Proof.Machine
end

