-- ==== Sys2Proof/Machine/Lots.lean ====
section
/-! DEFINITION. Lots (07_lots): the catalogue requests OPEN_LOT, CLOSE_LOT, SNAPSHOT, RELEASE_LOT, scan completions and
finalize, the lot floor, and the meanings of TALLY_RECORD_WRITE_DONE and GRACE_TIMER_EXPIRY. -/

namespace Sys2Proof.Machine

/-! ## The catalogue -/

/-- The catalogue replaced. -/
def State.setLots (s : State) (lots : List Lot) : State := { s with coll := { s.coll with lots := lots } }

/-- The lot of a key changed. -/
def modLot (key : Word) (f : Lot → Lot) (s : State) : State :=
  s.setLots (s.coll.lots.map fun l => if l.key = key then f l else l)

/-- A lot leaves the catalogue, and every line whose current lot is the key recomputes LOT_FLOOR (R114, R136, R19). -/
def dropLot (key : Word) (s : State) : State :=
  refreshLot key (s.setLots (s.coll.lots.filter fun l => l.key != key))

/-- A request joins the tail of the catalogue request queue (R63). -/
def joinRequests (r : Request) (s : State) : State := { s with coll := { s.coll with requests := s.coll.requests ++ [r] } }

/-- The work in service set. -/
def setWork (w : Option Work) (s : State) : State := { s with coll := { s.coll with work := w } }

/-! ## The floor (R131 to R133) -/

/-- The floor condition is true and the flag clear (R132). -/
def Lot.floorTrips (l : Lot) : Bool :=
  match l.floor with
  | none => false
  | some f => f.minimum ≤ l.tested && yieldFigure l.tested l.passed < f.figure && !l.tripped

/-- LOT_FLOOR's detail for a lot, and the cell and site of the report that caused the trip, if one did (R132). -/
def Lot.floorDetail (l : Lot) (reporter : Option (CellNo × Site)) : Detail :=
  let f := l.floor.getD ⟨0, 0⟩
  .lotFloor l.key l.tested l.passed (yieldFigure l.tested l.passed) f.figure f.minimum reporter

/-- LOT_FLOOR is raised for a lot (R132). -/
def raiseFloor (key : Word) (reporter : Option (CellNo × Site)) (s : State) : State :=
  match findLot s.coll.lots key with
  | none => s
  | some l => raise (.lot key 0) (l.floorDetail reporter) s

/-- The floor tripped flag of a lot is latched, and reaches every line whose current lot it is (R114, R132). -/
def latchFloor (key : Word) (s : State) : State :=
  refreshLot key (modLot key (fun l => { l with tripped := true }) s)

/-- The floor of a lot trips as the state stands. -/
def floorDue (key : Word) (s : State) : Bool := (findLot s.coll.lots key).any Lot.floorTrips

/-- A floor group's values clamped (R129, R133). -/
def Floor.clamped (f : Floor) : Floor := { figure := min f.figure 10000, minimum := max f.minimum 1 }

/-- How many of a floor group's values were clamped (R129). -/
def floorClamps : Option Floor → Nat
  | none => 0
  | some f => (f.clamped.figure != f.figure).toNat + (f.clamped.minimum != f.minimum).toNat

/-! ## OPEN_LOT (R128, R129) -/

/-- The first wafer entry that fails check 6 of R128: its cause (2 NUMBER, 3 REPEAT, 4 ALIGN) and index. -/
def firstBadWafer (index : Nat) (seen : List Nat) : List (Nat × Addr) → Option (Nat × Nat)
  | [] => none
  | (n, map) :: rest =>
    if n = 0 ∨ 25 < n then some (2, index)
    else if seen.contains n then some (3, index)
    else if !aligned map 8 then some (4, index)
    else firstBadWafer (index + 1) (n :: seen) rest

/-- Check 6 of R128: cause and entry index. -/
def waferListError (b : OpenLotBody) : Option (Nat × Nat) :=
  if b.count = 0 ∨ 25 < b.count then some (1, 0) else firstBadWafer 0 [] b.wafers

/-- The policy a code names: 0 KEEP_BEST, 1 KEEP_LAST (R187). -/
def policyOf : Nat → Option Policy
  | 0 => some .keepBest
  | 1 => some .keepLast
  | _ => none

/-- The slot holds a plan. -/
def Collation.loaded (c : Collation) (slot : Fin 8) : Bool := (c.plans[slot.val]).isSome

/-- A grid side out of range (R128). -/
abbrev badSide (n : Nat) : Bool := n = 0 || 512 < n

/-- An accepted OPEN_LOT's new entry (R129). -/
def OpenLotBody.entry (b : OpenLotBody) (slot : Fin 8) (policy : Policy) : Lot where
  key := b.key
  state := .opening
  plan := slot
  columns := b.columns
  rows := b.rows
  policy := policy
  limit := b.limit
  floor := b.floor.map Floor.clamped
  tripped := false
  grace := none
  graceSpent := false
  finalAddr := none
  clamps := some (floorClamps b.floor)
  wafers := b.wafers.map fun w =>
    { number := w.1, map := w.2, candidates := 0, tested := 0, passed := 0, complete := false }
  tested := 0
  passed := 0
  duplicates := 0
  refused := 0
  groups := Vector.replicate 16 0

/-- An accepted OPEN_LOT's scan start (R14). -/
def OpenLotBody.scan (b : OpenLotBody) (slot : Fin 8) : Scan where
  key := b.key
  plan := slot
  columns := b.columns
  rows := b.rows
  limit := b.limit
  todo := b.wafers
  index := 0
  finished := []
  candidates := 0
  tested := 0
  passed := 0
  groups := Vector.replicate 16 0

/-- The checks of R128 in order: the first that fails with its result word, or the slot and the policy. -/
def checkOpenLot (b : OpenLotBody) (coll : Collation) : Except (Code × Word) (Fin 8 × Policy) :=
  if 32 ≤ coll.lots.length then .error (.catalogueFull, oneValue 32)
  else
    match findLot coll.lots b.key with
    | some l => .error (.duplicateKey, oneValue l.state.code)
    | none =>
      if h : b.plan < 8 then
        let slot : Fin 8 := ⟨b.plan, h⟩
        if !coll.loaded slot then .error (.planEmpty, oneValue b.plan)
        else if badSide b.columns || badSide b.rows then .error (.badGrid, twoValues b.columns b.rows)
        else
          match waferListError b with
          | some (cause, index) => .error (.badWaferList, twoValues cause index)
          | none =>
            if b.limit = 0 ∨ 15 < b.limit then .error (.badLimit, oneValue b.limit)
            else
              match policyOf b.policy with
              | none => .error (.badPolicy, oneValue b.policy)
              | some policy => .ok (slot, policy)
      else .error (.badSlot, oneValue b.plan)

/-- The collation unit serves an OPEN_LOT; an accepted one starts the scan and stays in service with the order unit
(R128, R129). -/
def serveOpenLot (b : OpenLotBody) (s : State) : State :=
  match checkOpenLot b s.coll with
  | .error (code, result) => returnOutcome (.refused code result) s
  | .ok (slot, policy) => continueScan (b.scan slot) (s.setLots (s.coll.lots ++ [b.entry slot policy]))

/-! ## Scan completions (R18 to R20, R130) -/

/-- A wafer with the counts its scan found; complete where every candidate is tested (R18). -/
def Wafer.scanned (counts : List WaferCounts) (w : Wafer) : Wafer :=
  match counts.find? fun n => n.number == w.number with
  | none => w
  | some n =>
    { w with candidates := n.candidates, tested := n.tested, passed := n.passed, complete := n.tested == n.candidates }

/-- A lot OPEN with its scanned counts (R18, R130). -/
def Lot.opened (counts : List WaferCounts) (groups : Vector Nat 16) (l : Lot) : Lot :=
  { l with
    state := .opened
    clamps := none
    wafers := l.wafers.map (Wafer.scanned counts)
    tested := (counts.map (·.tested)).sum
    passed := (counts.map (·.passed)).sum
    duplicates := 0
    refused := 0
    groups := groups }

/-- The number of complete wafers. -/
def Lot.completeWafers (l : Lot) : Nat := (l.wafers.filter (·.complete)).length

/-- A SUCCESS completion is served: the lot is OPEN, its floor evaluated once, the OPEN_LOT DONE (R18, R130). -/
def serveScanSuccess (key : Word) (counts : List WaferCounts) (groups : Vector Nat 16) (s : State) : State :=
  let clamps := ((findLot s.coll.lots key).bind (·.clamps)).getD 0
  let s1 := modLot key (Lot.opened counts groups) s
  let complete := ((findLot s1.coll.lots key).map Lot.completeWafers).getD 0
  let s2 := if floorDue key s1 then latchFloor key (raiseFloor key none s1) else s1
  returnOutcome (.done (twoValues clamps complete)) s2

/-- An INVALID completion is served: the lot leaves and the OPEN_LOT is refused (R19). -/
def serveScanInvalid (key : Word) (wafer x y : Nat) (f : MapFault) (s : State) : State :=
  returnOutcome (.refused .mapCorrupt (mapCorruptResult wafer x y f)) (dropLot key s)

/-- An ABANDONED completion is served: the lot leaves, and the order is not written again (R20). -/
def serveScanAbandoned (key : Word) (s : State) : State := dropLot key s

/-! ## CLOSE_LOT and RELEASE_LOT (R133, R134) -/

/-- The collation unit serves a CLOSE_LOT; with a grace of 0 the finalize joins the queue at once (R134, R135). -/
def serveCloseLot (key : Word) (grace : Nat) (addr : Addr) (s : State) : State :=
  match findLot s.coll.lots key with
  | none => returnOutcome (.refused .unknownLot 0) s
  | some l =>
    if l.state ≠ .opened then returnOutcome (.refused .lotBusy (oneValue l.state.code)) s
    else if !aligned addr 8 then returnOutcome (.refused .badAddress 0) s
    else
      let s1 := modLot key (fun l =>
        { l with
          state := .closing
          grace := some (Time.plus s.clock grace)
          graceSpent := grace == 0
          finalAddr := some addr }) s
      returnOutcome (.done (oneValue l.tested)) (if grace = 0 then joinRequests (.finalize key) s1 else s1)

/-- The result word of a DONE RELEASE_LOT: the flag before, a floor after, and the clamps (R133, R188). -/
def releaseLotResult (flag floor : Bool) (clamps : Nat) : Word :=
  BitVec.ofNat 32 (flag.toNat + 2 * floor.toNat + 65536 * clamps)

/-- The collation unit serves a RELEASE_LOT (R133). -/
def serveReleaseLot (key : Word) (floor : Option Floor) (s : State) : State :=
  match findLot s.coll.lots key with
  | none => returnOutcome (.refused .unknownLot 0) s
  | some l =>
    if l.state = .opening then returnOutcome (.refused .lotBusy 0) s
    else
      returnOutcome (.done (releaseLotResult l.tripped floor.isSome (floorClamps floor)))
        (refreshLot key
          (modLot key (fun l => { l with tripped := false, floor := floor.map Floor.clamped }) s))

/-! ## Tally records (R136 to R140) -/

/-- A tally record of a lot, about to be written. -/
def tallyWrite (l : Lot) (state : Nat) (addr : Addr) (now : Time) : RecordWrite :=
  { next := addr, rest := l.tallyRecord state now, total := (l.tallyRecord state now).length }

/-- The next write of the record in service is issued (R140). -/
def continueTally (work : RecordWrite → Work) (w : RecordWrite) (s : State) : State :=
  portRequest (w.write .tallyWrite) (setWork (some (work w)) s)

/-- The collation unit serves a SNAPSHOT (R138). -/
def serveSnapshot (key : Word) (addr : Addr) (s : State) : State :=
  match findLot s.coll.lots key with
  | none => returnOutcome (.refused .unknownLot 0) s
  | some l =>
    if l.state = .opening then returnOutcome (.refused .lotBusy (oneValue l.state.code)) s
    else if !aligned addr 8 then returnOutcome (.refused .badAddress 0) s
    else continueTally (.snapshot key) (tallyWrite l l.state.code addr s.clock) s

/-- The code of CLOSED in a final record (R188). -/
abbrev closedCode : Nat := 4

/-- A finalize is taken, or taken up again whole after a fault: the stamp is read and the final record's first write
issued (R136, R137). -/
def serveFinalize (key : Word) (s : State) : State :=
  match findLot s.coll.lots key with
  | none => setWork none s
  | some l => continueTally (.finalize key) (tallyWrite l closedCode (l.finalAddr.getD 0) s.clock) s

/-- The final record is written: LOT_CLOSED, the entry leaves, LOT_FLOOR is recomputed (R136). -/
def lotClosed (key : Word) (s : State) : State :=
  match findLot s.coll.lots key with
  | none => setWork none s
  | some l =>
    setWork none
      (dropLot key
        (raise (.lot key 0)
          (.lotClosed key l.tested l.passed (recordFigure l.tested l.passed) l.wafers.length l.completeWafers
            (l.finalAddr.getD 0)) s))

/-- A write of a snapshot or final record completes (R136, R138, R140). -/
def tallyWritten (s : State) : Option State := do
  let s1 ← acknowledged .tallyWrite s
  match s1.coll.work with
  | some (.snapshot key w) =>
    if w.after.rest = [] then pure (returnOutcome (.done (oneValue w.total)) (setWork none s1))
    else pure (continueTally (.snapshot key) w.after s1)
  | some (.finalize key w) =>
    if w.after.rest = [] then pure (lotClosed key s1) else pure (continueTally (.finalize key) w.after s1)
  | _ => pure s1

/-- TALLY_RECORD_WRITE_DONE (R136, R138, R140). -/
def execTallyRecordWriteDone (s : State) : Host.Outcome State Fault Refusal := conclude s (tallyWritten s)

/-! ## The grace timer (R135) -/

/-- The lot's grace timer has expired and is not spent. -/
def Lot.graceDue (now : Time) (l : Lot) : Bool := l.state == .closing && !l.graceSpent && expired now l.grace

/-- A grace timer expires: the finalize joins the queue and the timer is spent, in every engine state (R135). -/
def graceExpires (key : Word) (s : State) : Option State :=
  if (findLot s.coll.lots key).any (Lot.graceDue s.clock) then
    some (joinRequests (.finalize key) (modLot key (fun l => { l with graceSpent := true }) s))
  else none

/-- GRACE_TIMER_EXPIRY (R135). -/
def execGraceTimerExpiry (key : Word) (s : State) : Host.Outcome State Fault Refusal := conclude s (graceExpires key s)

end Sys2Proof.Machine
end

