-- ==== Sys2Proof/Machine/Collation.lean ====
section
/-! DEFINITION. The collation unit (04_collation): the application of a record's reports, the taking of work, and
resumption; and the meanings of COLLATION_TAKE_WORK, MAP_READ_DONE and MAP_WRITE_DONE. -/

namespace Sys2Proof.Machine

/-! ## Tallies (R77 to R79) -/

/-- A 24-bit saturating count raised by 1 (R78). -/
def countUp (n : Nat) : Nat := min (n + 1) 16777215

/-- A passed count after a bin of class `old` gives way to one of class `new` (R77). -/
def movePassed (old new : Verdict) (n : Nat) : Nat :=
  match old, new with
  | .fail, .pass => countUp n
  | .pass, .fail => n - 1
  | _, _ => n

/-- A count raised by 1 where the class is PASS (R77). -/
def countPass (v : Verdict) (n : Nat) : Nat := match v with | .pass => countUp n | .fail => n

/-- A group count changed. -/
def modGroup (g : Fin 16) (f : Nat → Nat) (groups : Vector Nat 16) : Vector Nat 16 :=
  groups.set g.val (f groups[g.val]) g.isLt

/-- One wafer of a lot changed. -/
def Lot.modWafer (n : Nat) (f : Wafer → Wafer) (l : Lot) : Lot :=
  { l with wafers := l.wafers.map fun w => if w.number = n then f w else w }

/-- The tally changes of a first result or orphan whose bin the plan describes so (R77). -/
def Lot.addFirst (r : Report) (i : BinInfo) (l : Lot) : Lot :=
  { l.modWafer r.wafer.toNat fun w => { w with tested := countUp w.tested, passed := countPass i.cls w.passed } with
    tested := countUp l.tested
    passed := countPass i.cls l.passed
    groups := modGroup i.group countUp l.groups }

/-- The tally changes of a changed bin (R77). -/
def Lot.changeBin (r : Report) (old new : BinInfo) (l : Lot) : Lot :=
  { l.modWafer r.wafer.toNat fun w => { w with passed := movePassed old.cls new.cls w.passed } with
    passed := movePassed old.cls new.cls l.passed
    groups := modGroup new.group countUp (modGroup old.group (· - 1) l.groups) }

/-- The tally changes of a written report (R77). -/
def Lot.tally (p : Plan) (r : Report) (was : Half) (case : Case) (l : Lot) : Lot :=
  match case, p.info r.bin, p.info (cellBin was) with
  | .firstResult, some i, _ => l.addFirst r i
  | .duplicate, _, _ => { l with duplicates := countUp l.duplicates }
  | .overLimit, _, _ => { l with refused := countUp l.refused }
  | .changed, some new, some old => l.changeBin r old new
  | _, _, _ => l

/-- The tested or the passed count of the lot has moved (R82). -/
def movesFigure (p : Plan) (r : Report) (was : Half) (case : Case) : Bool :=
  match case, p.info r.bin, p.info (cellBin was) with
  | .firstResult, _, _ => true
  | .changed, some new, some old => old.cls != new.cls
  | _, _, _ => false

/-- The wafer of a lot by its number. -/
def Lot.wafer (l : Lot) (n : Nat) : Option Wafer := l.wafers.find? fun w => w.number == n

/-- A first result completes its wafer: the flag is set and WAFER_COMPLETE raised, once (R79). -/
def completeWafer (key : Word) (n : Nat) (s : State) : State :=
  match (findLot s.coll.lots key).bind fun l => l.wafer n with
  | none => s
  | some w =>
    if w.tested = w.candidates ∧ !w.complete then
      raise (.lot key n) (.waferComplete key w.candidates w.tested w.passed)
        (modLot key (Lot.modWafer n fun w => { w with complete := true }) s)
    else s

/-! ## The finish of a report (R83) -/

/-- How a report ends (R68): by the notice it raises, the tally it makes, and what else its finish holds. -/
inductive Ending where
  /-- refused with UNKNOWN_LOT at lookup (R69) -/
  | unknownLot
  /-- refused by an identity check (R70) or at the map read (R71), with its fault kind and its outcome if it has one -/
  | refused (code : Code) (fault : Option MapFault) (outcome : Option Verdict)
  /-- written (R77) -/
  | written (was : Half) (case : Case)
  deriving DecidableEq, Repr

/-- The record a report stands in, as its notices name it (R83). -/
structure RecordId where
  number : Half
  stamp  : Time
  deriving DecidableEq, Repr

def Touchdown.id (t : Touchdown) : RecordId := { number := t.number, stamp := t.closeStamp.getD 0 }

/-- Steps 1 and 2 of R83: the tallies and the wafer's completion. -/
def finishTallies (r : Report) (e : Ending) (s : State) : State :=
  match e with
  | .unknownLot => s
  | .refused .. => modLot r.key (fun l => { l with refused := countUp l.refused }) s
  | .written was case =>
    let s1 := modLot r.key (fun l => l.tally (s.coll.plan l.plan) r was case) s
    match case with
    | .firstResult => completeWafer r.key r.wafer.toNat s1
    | _ => s1

/-- Step 3 of R83: the report's own notice. -/
def finishNotice (c : CellNo) (t : RecordId) (r : Report) (e : Ending) (s : State) : State :=
  match e with
  | .unknownLot => raise (.cell c) (.reportRefused .unknownLot r t.number t.stamp none) s
  | .refused code fault _ => raise (.cell c) (.reportRefused code r t.number t.stamp fault) s
  | .written _ .overLimit => raise (.cell c) (.reportRefused .overLimit r t.number t.stamp none) s
  | .written was .duplicate =>
    raise (.lot r.key r.wafer.toNat)
      (.duplicateDie r.key c r.site t.number t.stamp r.x r.y r.bin (cellBin was)) s
  | .written _ _ => s

/-- Step 4 of R83: the cell's current lot (R80). -/
def finishCurrentLot (c : CellNo) (r : Report) (e : Ending) (s : State) : State :=
  match e with
  | .unknownLot => s
  | _ => refresh c (s.modCell c fun cs => { cs with holds := { cs.holds with currentLot := some r.key } })

/-- The class a report's own bin has in its lot's plan (R81). -/
def reportClass (r : Report) (s : State) : Option Verdict :=
  (findLot s.coll.lots r.key).bind fun l => ((s.coll.plan l.plan).info r.bin).map (·.cls)

/-- The outcome a report hands to the guard unit (R81). -/
def finishOutcome (r : Report) (e : Ending) (s : State) : Option Verdict :=
  match e with
  | .unknownLot => none
  | .refused _ _ outcome => outcome
  | .written _ _ => reportClass r s

/-- Step 5 of R83 without its notices and its hand-off to the line: the guard unit takes the outcome, if there is one. -/
def finishGuard (c : CellNo) (r : Report) (outcome : Option Verdict) (s : State) : State :=
  match outcome with
  | none => s
  | some v => s.modCell c (CellState.takeOutcome r.site v)

/-- The trips that the outcome of a report brings, if there is one (R92). -/
def finishTrips (c : CellNo) (r : Report) (outcome : Option Verdict) (s : State) : List Detail :=
  match outcome with
  | none => []
  | some v => (s.cell c).tripsOn r.site v

/-- Step 6 of R83 is due: the floor is evaluated and trips (R82, R132). -/
def finishFloorDue (r : Report) (e : Ending) (s : State) : Bool :=
  match e with
  | .written was case =>
    (findLot s.coll.lots r.key).any fun l => movesFigure (s.coll.plan l.plan) r was case && l.floorTrips
  | _ => false

/-- The line takes the guard unit's hand-off (R99). -/
def takeHandOff (c : CellNo) (before : Guard) (s : State) : State := s.modCell c fun cs => cs.handOffFrom before

/-- The guard unit has something to hand off. -/
def handsOff (c : CellNo) (before : Guard) (s : State) : Bool := before.flags != (s.cell c).guard.flags

/-- Steps 5 and 6 of R83. The notices of the guard unit and LOT_FLOOR arrive in either order (R158;
notes/assumptions/7.md). The hand-off of the guard unit and the lot's flag change reach the line separately, either
first, or both before a message begins (R116; 11.3; notes/assumptions/8.md). -/
def finishHolds (c : CellNo) (r : Report) (e : Ending) (s : State) : State :=
  let before := (s.cell c).guard
  let outcome := finishOutcome r e s
  let trips := finishTrips c r outcome s
  let s1 := finishGuard c r outcome s
  if finishFloorDue r e s1 then
    let s2 := raiseTripsWith (raiseFloor r.key (some (c, r.site))) c r.site trips s1
    if handsOff c before s2 then
      match takeRace s2 with
      | (false, s3) => latchFloor r.key (takeHandOff c before s3)
      | (true, s3) =>
        match takeRace s3 with
        | (true, s4) => latchFloor r.key (refresh c (takeHandOff c before s4))
        | (false, s4) => refresh c (takeHandOff c before (latchFloor r.key s4))
    else latchFloor r.key s2
  else refresh c (takeHandOff c before (raiseTrips c r.site trips s1))

/-- The applied-report mark of the record in service advances (R67). -/
def advanceMark (c : CellNo) (s : State) : State :=
  s.modAsm c fun a =>
    { a with queue := match a.queue with | [] => [] | t :: ts => { t with mark := t.mark + 1 } :: ts }

/-- No report is in progress. -/
def setProgress (p : Option ReportStage) (s : State) : State := { s with coll := { s.coll with inProgress := p } }

/-- A report finishes: the changes of R83 in order, and the mark. -/
def finishReport (c : CellNo) (t : RecordId) (r : Report) (e : Ending) (s : State) : State :=
  advanceMark c
    (setProgress none
      (finishHolds c r e (finishCurrentLot c r e (finishNotice c t r e (finishTallies r e s)))))

/-! ## Reports in list order (R67 to R71) -/

/-- Lookup and identity checks (R69, R70): the refusal, or the address of the die's map cell. -/
def identify (r : Report) (s : State) : Except Ending Addr :=
  match findLot s.coll.lots r.key with
  | none => .error .unknownLot
  | some l =>
    match l.wafer r.wafer.toNat with
    | none => .error (.refused .unknownWafer none none)
    | some w =>
      if l.columns ≤ r.x.toNat ∨ l.rows ≤ r.y.toNat then .error (.refused .badCoord none none)
      else if (s.coll.plan l.plan).info r.bin = none then .error (.refused .binUndefined none none)
      else .ok (mapAddr w.map l.columns r.x.toNat r.y.toNat)

/-- The record is finished: it leaves the queue with its slots, and the unit has no work in service (R56, R67). -/
def finishRecord (c : CellNo) (s : State) : State :=
  setWork none
    (refresh c (s.modCell c fun cs => judgeBuffer { cs with asm := { cs.asm with queue := cs.asm.queue.tail } }))

/-- The reports still to apply are begun in list order, until one waits on its map read (R67 to R71). -/
def beginReports (c : CellNo) (t : RecordId) : List Report → State → State
  | [], s => finishRecord c s
  | r :: rest, s =>
    match identify r s with
    | .error e => beginReports c t rest (finishReport c t r e s)
    | .ok a => portRequest (readOf .mapRead a 2) (setProgress (some .reading) s)

/-- The head record of a cell's closed queue. -/
def headRecord (c : CellNo) (s : State) : Option Touchdown := (s.cell c).asm.queue.head?

/-- The unit goes on with the record in service from its mark (R67). -/
def continueRecord (c : CellNo) (s : State) : State :=
  match headRecord c s with
  | none => setWork none s
  | some t => beginReports c t.id (t.reports.drop t.mark) s

/-- The report in progress: its cell, its record and itself. -/
def currentReport (s : State) : Option (CellNo × Touchdown × Report) := do
  match s.coll.work with
  | some (.record c) =>
    let t ← headRecord c s
    let r ← t.reports[t.mark]?
    pure (c, t, r)
  | _ => none

/-- What the cell read makes of the report in progress (R71 to R76): its end, or the content to write. -/
def judgeRead (r : Report) (l : Lot) (p : Plan) (was : Half) : Except Ending Half :=
  let outcome := (p.info r.bin).map (·.cls)
  match mapFault p l.limit was with
  | some f => .error (.refused .mapCorrupt (some f) outcome)
  | none =>
    if cellBin was = notADie then .error (.refused .offWafer none outcome)
    else .ok (contentOf (caseOf p l.policy l.limit r was) r was)

/-- The write of the report in progress is issued with its retained content (R76, R85). -/
def writeCell (a : Addr) (was now : Half) (s : State) : State :=
  portRequest (writeOf .mapWrite a (leBytes 2 now.toNat)) (setProgress (some (.writing was now)) s)

/-- The map read of the report in progress completes (R71). -/
def mapRead (v : Half) (s : State) : Option State := do
  let s1 ← returned .mapRead 2 s
  let (c, t, r) ← currentReport s1
  let l ← findLot s1.coll.lots r.key
  match identify r s1, judgeRead r l (s1.coll.plan l.plan) v with
  | .ok a, .ok now => pure (writeCell a v now s1)
  | .ok _, .error e => pure (continueRecord c (finishReport c t.id r e s1))
  | .error _, _ => none

/-- The map write of the report in progress completes (R77). -/
def mapWritten (s : State) : Option State := do
  let s1 ← acknowledged .mapWrite s
  let (c, t, r) ← currentReport s1
  let l ← findLot s1.coll.lots r.key
  match s1.coll.inProgress with
  | some (.writing was _) =>
    let case := caseOf (s1.coll.plan l.plan) l.policy l.limit r was
    pure (continueRecord c (finishReport c t.id r (.written was case) s1))
  | _ => none

/-! ## Taking work (R64 to R66) -/

/-- The unit takes work in this engine state (R64). -/
def collationRuns (s : State) : Bool := s.engine.state == .running || s.engine.state == .draining

/-- A head record is eligible: none of its reports still to apply names an OPENING lot (R65). -/
def eligible (lots : List Lot) (t : Touchdown) : Bool :=
  (t.reports.drop t.mark).all fun r => !((findLot lots r.key).any fun l => l.state == .opening)

/-- The cells in rotation, from the one after the pointer to the pointer's own (R65). -/
def rotation (pointer : CellNo) : List CellNo :=
  allCells.filter (fun c => pointer < c) ++ allCells.filter (fun c => c ≤ pointer)

/-- The cell whose head record is taken next (R65). -/
def nextCell (s : State) : Option CellNo :=
  (rotation s.coll.pointer).find? fun c => (headRecord c s).any (eligible s.coll.lots)

/-- A catalogue request is served (R66). -/
def serve (r : Request) (s : State) : State :=
  match r with
  | .openLot b => serveOpenLot b s
  | .closeLot key grace addr => serveCloseLot key grace addr s
  | .snapshot key addr => serveSnapshot key addr s
  | .releaseLot key floor => serveReleaseLot key floor s
  | .loadPlan slot entries => serveLoadPlan slot entries s
  | .scanSuccess key wafers groups => serveScanSuccess key wafers groups s
  | .scanInvalid key wafer x y fault => serveScanInvalid key wafer x y fault s
  | .scanAbandoned key => serveScanAbandoned key s
  | .finalize key => serveFinalize key s

/-- A cell's head record is taken (R65, R67). -/
def takeRecord (c : CellNo) (s : State) : State :=
  continueRecord c { s with coll := { s.coll with work := some (.record c), pointer := c } }

/-- The unit takes work: the head request, else a touchdown; none where neither is there or it takes none now
(R64, R65). -/
def takeWork (s : State) : Option State :=
  if s.coll.work.isNone && collationRuns s then
    match s.coll.requests with
    | r :: rest => some (serve r { s with coll := { s.coll with requests := rest } })
    | [] => (nextCell s).map fun c => takeRecord c s
  else none

/-- The work in service is taken up again at START (R85, R86, R137). -/
def resumeCollation (s : State) : State :=
  match s.coll.work with
  | some (.record c) =>
    match s.coll.inProgress, currentReport s with
    | some .reading, some (_, _, r) =>
      match identify r s with
      | .ok a => portRequest (readOf .mapRead a 2) s
      | .error _ => continueRecord c s
    | some (.writing was now), some (_, _, r) =>
      match identify r s with
      | .ok a => writeCell a was now s
      | .error _ => continueRecord c s
    | _, _ => continueRecord c s
  | some (.finalize key _) => serveFinalize key s
  | _ => s

/-! ## The meanings -/

/-- COLLATION_TAKE_WORK (R64). -/
def execCollationTakeWork (s : State) : Host.Outcome State Fault Refusal := conclude s (takeWork s)

/-- MAP_READ_DONE (R71). -/
def execMapReadDone (v : Half) (s : State) : Host.Outcome State Fault Refusal := conclude s (mapRead v s)

/-- MAP_WRITE_DONE (R77). -/
def execMapWriteDone (s : State) : Host.Outcome State Fault Refusal := conclude s (mapWritten s)

end Sys2Proof.Machine
end

