-- ==== Sys2Proof/Machine/Orders.lean ====
section
/-! DEFINITION. The order unit (08_the_order_chain): taking an order, reading its body, handing it over, answering,
following the chain, NUDGE, resumption and load; and the meanings of its commands. -/

namespace Sys2Proof.Machine

/-! ## The order in service -/

/-- The order unit changed. -/
def State.setOrder (s : State) (o : OrderUnit) : State := { s with order := o }

/-- The order in service changed. -/
def modService (f : Service → Service) (s : State) : State :=
  s.setOrder { s.order with service := s.order.service.map f }

/-- The result word of BAD_LENGTH: the length found and the length required (R147). -/
def badLength (found required : Nat) : OrderOutcome := .refused .badLength (twoValues found required)

/-- The order unit reads the next part of the body (R144, R147). -/
def readBody (v : Service) (want : Nat) (s : State) : State :=
  let a := addrPlus v.record (24 + v.body.length)
  portRequest (readOf .bodyRead a (chunk a (want - v.body.length))) s

/-- The order in service is put in a stage that reads its body, and the next read is issued. -/
def readOn (v : Service) (stage : Stage) (want : Nat) (s : State) : State :=
  let v' := { v with stage := stage }
  readBody v' want (s.setOrder { s.order with service := some v' })

/-! ## Hand-over (R148) -/

/-- An order for the collation unit joins its requests, and the order unit waits (R63, R148). -/
def handToCollation (r : Request) (s : State) : State :=
  modService (fun v => { v with stage := .waiting }) (joinRequests r s)

/-- A READ_CELL's checks, capture and first write (R120, R121). -/
def serveReadCell (cell : Nat) (addr : Addr) (s : State) : State :=
  if h : cell < 24 then
    if !aligned addr 8 then answer (.refused .badAddress 0) s
    else
      let c : CellNo := ⟨cell, h⟩
      let bs := cellRecord c s
      let w : RecordWrite := { next := addr, rest := bs, total := bs.length }
      portRequest (w.write .cellRecordWrite)
        (modService (fun v => { v with stage := .cellRecord w (cellRecordEntries c s) }) s)
  else answer (.refused .badCell (oneValue cell)) s

/-- A served order's outcome is answered. -/
def answerServed (p : OrderOutcome × State) : State := answer p.1 p.2

/-- An order whose body is read and whose length has passed is handed to its serving block (R148). -/
def handOver (k : OrderKind) (b : List Byte) (s : State) : State :=
  match k with
  | .mark => answer (.done s.clock) s
  | .loadPlan => handToCollation (.loadPlan (field b 0 1) (loadPlanEntries b)) s
  | .openLot => handToCollation (.openLot (openLotBody b)) s
  | .closeLot => handToCollation (.closeLot (BitVec.ofNat 32 (field b 0 4)) (field b 4 2) (BitVec.ofNat 64 (field b 8 8))) s
  | .snapshot => handToCollation (.snapshot (BitVec.ofNat 32 (field b 0 4)) (BitVec.ofNat 64 (field b 8 8))) s
  | .releaseLot =>
    handToCollation
      (.releaseLot (BitVec.ofNat 32 (field b 0 4)) (floorGroup (flagAt b 4) (field b 6 2) (field b 8 2))) s
  | .configureCells => answerServed (serveConfigure (configureBody b) s)
  | .holdCells => answerServed (serveHold (BitVec.ofNat 32 (field b 0 4)) s)
  | .releaseCells => answerServed (serveRelease (releaseBody b) s)
  | .readCell => serveReadCell (field b 0 1) (BitVec.ofNat 64 (field b 8 8)) s

/-! ## Taking an order (R145 to R147, R149) -/

/-- A FRESH record is taken: the TAKEN write is issued and the order is in service (R146). -/
def takeOrder (header : List Byte) (s : State) : State :=
  let record := s.order.position.getD 0
  portRequest (writeOf .takenWrite (addrPlus record 0x0C) (leBytes 2 1))
    (s.setOrder
      { s.order with
        phase := .serving
        gathered := []
        service := some { record := record, header := headerCopy header, body := [], stage := .taken, stale := false } })

/-- The whole header is judged by the state found (R145). -/
def judgeHeader (header : List Byte) (s : State) : State :=
  if headerState header = 0 then takeOrder header s
  else answer (.refused .notFresh (oneValue (headerState header))) (s.setOrder { s.order with gathered := [] })

/-- A header read completes; its data is discarded where the engine no longer runs (R144, R145). -/
def headerRead (data : List Byte) (s : State) : Option State :=
  (returned .headerRead data.length s).map fun s1 =>
    if s1.engine.state ≠ .running then s1.setOrder { s1.order with gathered := [] }
    else
      let header := s1.order.gathered ++ data
      if header.length < 24 then readHeader (s1.setOrder { s1.order with gathered := header })
      else judgeHeader header s1

/-- Kind and length are checked, and a MARK is served or the body read (R146, R147, R149). -/
def checkKind (v : Service) (s : State) : State :=
  let found := headerLength v.header
  match OrderKind.ofCode (headerKind v.header) with
  | none => answer (.refused .badKind (oneValue (headerKind v.header))) s
  | some k =>
    match k.fixedLength with
    | some n =>
      if found ≠ n then answer (badLength found n) s
      else if k = .mark then handOver .mark [] s
      else readOn v (.body (8 * n - 24)) (8 * n - 24) s
    | none =>
      if 8 * found < 24 + k.prefixBytes then
        answer (badLength found (Config.unreadRequiredLength (headerKind v.header)).toNat) s
      else readOn v (.bodyPrefix k.prefixBytes) k.prefixBytes s

/-- The TAKEN write completes (R146). -/
def takenWritten (s : State) : Option State := do
  let s1 ← acknowledged .takenWrite s
  let v ← s1.order.service
  pure (checkKind v s1)

/-- The length a listed kind's count requires; 0 for a LOAD_PLAN count outside 1..240 (R146, R147). -/
def requiredLength (k : OrderKind) (body : List Byte) : Nat :=
  match k with
  | .loadPlan =>
    let n := loadPlanCount body
    if n = 0 ∨ 240 < n then 0 else 4 + (n + 1) / 2
  | .openLot => 6 + 2 * openLotCount body
  | _ => 0

/-- The body read so far is enough, or the next part is read (R147). -/
def bodySoFar (k : OrderKind) (v : Service) (want : Nat) (s : State) : State :=
  if v.body.length < want then readOn v (.body want) want s
  else handOver k v.body (s.setOrder { s.order with service := some v })

/-- A body or prefix read completes (R147). -/
def bodyRead (data : List Byte) (s : State) : Option State := do
  let s1 ← returned .bodyRead data.length s
  let v0 ← s1.order.service
  let k ← OrderKind.ofCode (headerKind v0.header)
  let v := { v0 with body := v0.body ++ data }
  match v.stage with
  | .bodyPrefix want =>
    if v.body.length < want then pure (readOn v (.bodyPrefix want) want s1)
    else
      let found := headerLength v.header
      let required := requiredLength k v.body
      if found ≠ required then pure (answer (badLength found required) (s1.setOrder { s1.order with service := some v }))
      else pure (bodySoFar k v (8 * found - 24) s1)
  | .body want => pure (bodySoFar k v want s1)
  | _ => none

/-- A write of a cell status record completes (R121). -/
def cellRecordWritten (s : State) : Option State := do
  let s1 ← acknowledged .cellRecordWrite s
  let v ← s1.order.service
  match v.stage with
  | .cellRecord w entries =>
    if w.after.rest = [] then pure (answer (.done (oneValue entries)) s1)
    else
      pure (portRequest (w.after.write .cellRecordWrite)
        (modService (fun v => { v with stage := .cellRecord w.after entries }) s1))
  | _ => none

/-! ## Answering and moving on (R150 to R153) -/

/-- The 4-byte write of state and code (R144). -/
def stateWrite (o : OrderUnit) (out : OrderOutcome) : Transaction :=
  writeOf .stateWrite (addrPlus o.answerRecord 0x0C) out.stateBytes

/-- The result word is written: the write of state and code is issued (R144). -/
def resultWritten (s : State) : Option State := do
  let s1 ← acknowledged .resultWrite s
  let out ← s1.order.outcome
  pure (portRequest (stateWrite s1.order out) s1)

/-- The engine is RUNNING, so the order unit goes on to further records and links (R145, R151, R155). -/
def orderRuns (s : State) : Bool := s.engine.state == .running

/-- State and code are written: the order is no longer in service. The link is read; or, where a load has moved the
chain, the new chain head comes next; in DRAINING neither (R150, R155, R157). -/
def stateWritten (s : State) : Option State :=
  (acknowledged .stateWrite s).map fun s1 =>
    let stale := s1.order.service.any (·.stale)
    let s2 := s1.setOrder
      { s1.order with service := none, outcome := none, phase := if stale then .fetch else .link }
    if orderRuns s2 then if stale then writePosition s2 else readLink s2 else s2

/-- A link to follow: nonzero and a multiple of 8 (R151). -/
def followable (link : Addr) : Bool := link != 0 && aligned link 8

/-- The chain moves to a link's target (R151). -/
def followLink (link : Addr) (s : State) : State :=
  writePosition
    (s.setOrder { s.order with position := some link, posWritten := false, phase := .fetch, nudgePending := false })

/-- A link that leads to polling (R152, R153). -/
def pollLink (s : State) : State :=
  if s.order.nudgePending then readLink (s.setOrder { s.order with nudgePending := false })
  else s.setOrder { s.order with pollTimer := some (Time.plus s.clock s.loadedSetup.interval) }

/-- A link read completes (R151 to R153, R155). -/
def linkRead (link : Addr) (s : State) : Option State :=
  (returned .linkRead 8 s).map fun s1 =>
    if !orderRuns s1 then s1.setOrder { s1.order with nudgePending := false }
    else if followable link then followLink link s1
    else pollLink s1

/-- The chain position write completes: the header is read while the engine runs (R151, R155). -/
def positionWritten (s : State) : Option State :=
  (acknowledged .positionWrite s).map fun s1 =>
    let s2 := s1.setOrder { s1.order with posWritten := true }
    if orderRuns s2 then readHeader s2 else s2

/-- The watched link is read at once, or the read outstanding is noted (R153). -/
def nudgeOrder (s : State) : State :=
  if s.order.phase = .link ∧ orderRuns s then
    if portBusy .orderUnit s then s.setOrder { s.order with nudgePending := true }
    else readLink (s.setOrder { s.order with pollTimer := none })
  else s

/-- The poll timer expires; one that comes together with a NUDGE finds the read outstanding (R152, R153;
notes/assumptions/20.md). -/
def pollExpires (s : State) : Option State :=
  if s.order.phase = .link ∧ orderRuns s
      ∧ (expired s.clock s.order.pollTimer ∨ (s.order.pollTimer = none ∧ portBusy .orderUnit s)) then
    some (nudgeOrder s)
  else none

/-! ## Resumption and load (R155 to R157) -/

/-- An outcome that is still to come from the collation unit: the order's request, its scan or its scan completion, or
its record being written (R156). -/
def outcomeToCome (s : State) : Bool :=
  s.scanner.isSome || (match s.coll.work with | some (.snapshot _ _) => true | _ => false)
    || s.coll.requests.any fun r => match r with | .scanAbandoned _ => false | .finalize _ => false | _ => true

/-- The order in service is brought to its end (R156). -/
def resumeService (v : Service) (s : State) : State :=
  match v.stage, s.order.outcome with
  | .answering, some out => answer out s
  | .waiting, _ =>
    if outcomeToCome s then s.setOrder { s.order with phase := .serving } else answer (.refused .engineFault 0) s
  | _, _ => answer (.refused .engineFault 0) s

/-- The order unit resumes at START (R155, R156). -/
def resumeOrder (s : State) : State :=
  match s.order.service, s.order.outcome with
  | some v, _ => resumeService v s
  | none, some out => answer out s
  | none, none =>
    match s.order.phase with
    | .fetch => if s.order.posWritten then readHeader s else writePosition s
    | .link => readLink s
    | _ => s

/-- A successful load: the chain head becomes the chain position; an order in service is kept with its outcome and its
record (R157; notes/assumptions/11.md). -/
def loadOrder (p : Setup) (o : OrderUnit) : OrderUnit :=
  { o with
    position := some p.chainHead
    phase := .fetch
    posWritten := false
    gathered := []
    service := o.service.map fun v => { v with stale := true }
    outcome := if o.service.isSome then o.outcome else none
    pollTimer := none }

/-! ## The meanings -/

/-- HEADER_READ_DONE (R145). -/
def execHeaderReadDone (data : List Byte) (s : State) : Host.Outcome State Fault Refusal := conclude s (headerRead data s)

/-- BODY_READ_DONE (R147). -/
def execBodyReadDone (data : List Byte) (s : State) : Host.Outcome State Fault Refusal := conclude s (bodyRead data s)

/-- CELL_RECORD_WRITE_DONE (R121). -/
def execCellRecordWriteDone (s : State) : Host.Outcome State Fault Refusal := conclude s (cellRecordWritten s)

/-- RESULT_WORD_WRITE_DONE (R144). -/
def execResultWordWriteDone (s : State) : Host.Outcome State Fault Refusal := conclude s (resultWritten s)

/-- STATE_WRITE_DONE (R150). -/
def execStateWriteDone (s : State) : Host.Outcome State Fault Refusal := conclude s (stateWritten s)

/-- LINK_READ_DONE (R151). -/
def execLinkReadDone (v : Addr) (s : State) : Host.Outcome State Fault Refusal := conclude s (linkRead v s)

/-- CHAIN_POSITION_WRITE_DONE (R151). -/
def execChainPositionWriteDone (s : State) : Host.Outcome State Fault Refusal := conclude s (positionWritten s)

/-- POLL_TIMER_EXPIRY (R152). -/
def execPollTimerExpiry (s : State) : Host.Outcome State Fault Refusal := conclude s (pollExpires s)

/-- TAKEN_WRITE_DONE (R146). -/
def execTakenWriteDone (s : State) : Host.Outcome State Fault Refusal := conclude s (takenWritten s)

end Sys2Proof.Machine
end

