-- ==== Sys2Proof/Machine/Registers.lean ====
section
/-! DEFINITION. Engine control, registers and faults (10): register writes, INIT, START, STOP, RESET, NUDGE, the load,
memory faults and resets; and the meanings of their commands. -/

namespace Sys2Proof.Machine

/-! ## The load (R174, R175) -/

/-- Engine control changed. -/
def State.setEngine (s : State) (e : Engine) : State := { s with engine := e }

/-- A load ends in failure with its code; every block is left as it was (R175). -/
def failLoad (code : LoadError) (s : State) : State :=
  s.setEngine { s.engine with state := .halted, loaded := false, loadError := code, loadDone := true }

/-- A load succeeds: the blocks take the loaded setup (R157, R167, R175). -/
def finishLoad (p : Setup) (s : State) : State :=
  { s with
    engine :=
      { s.engine with state := .halted, loaded := true, loadError := .none, loadDone := true, setup := some p }
    order := loadOrder p s.order
    notice := loadNotice s.notice }

/-- The setup block is judged (R175). -/
def judgeSetup (bs : List Byte) (s : State) : State :=
  if setupError bs = .none then finishLoad (setupOf bs) s else failLoad (setupError bs) s

/-- INIT: in HALTED it begins a load, and is else ignored (R174). -/
def performInit (s : State) : State :=
  if s.engine.state = .halted then
    let s1 := s.setEngine { s.engine with state := .loading, loaded := false, loadError := .none }
    if aligned s.engine.setupAddr 64 then portRequest (readOf .setupRead s.engine.setupAddr 64) s1
    else failLoad .setupMisaligned s1
  else s

/-- The setup block arrives: in LOADING it is judged; a block whose load a STOP has ended is discarded (R175, R178). -/
def setupRead (data : List Byte) (s : State) : Option State :=
  match returned .setupRead data.length s with
  | some s1 => some (if s.engine.state = .loading then judgeSetup data s1 else s1)
  | none => returned .abandonedSetupRead data.length s

/-! ## START and STOP (R176 to R178, R181) -/

/-- The receivers of the lines in service become active (R25). -/
def startReceivers (s : State) : State :=
  s.mapCells fun cs =>
    if cs.line.state = .offline then cs else { cs with line := cs.line.startReceiver s.clock }

/-- START: in HALTED with LOADED 1 every block resumes; else ignored (R176). -/
def performStart (s : State) : State :=
  if s.engine.state = .halted ∧ s.engine.loaded then
    resumeNotice (resumeOrder (resumeCollation (refreshAll (startReceivers (setEngineState .running s)))))
  else s

/-- STOP in RUNNING: DRAINING; the order unit's poll timer is cancelled (R155, R177). -/
def beginDrain (s : State) : State :=
  judgeDrain (refreshAll
    ((setEngineState .draining s).setOrder { s.order with pollTimer := none }))

/-- The port as a STOP in LOADING leaves it: a waiting setup read withdrawn, an issued one left to its end (R178). -/
def abandonSetupRead (p : Port) : Port :=
  { p with
    waiting := p.waiting.put .orderUnit none
    outstanding := p.outstanding.map fun t =>
      if t.purpose = .setupRead then { t with purpose := .abandonedSetupRead } else t }

/-- STOP in LOADING: the load ends ABANDONED (R178). -/
def abandonLoad (s : State) : State := failLoad .abandoned { s with port := abandonSetupRead s.port }

/-- Every open touchdown is closed STOPPED (R60). -/
def stopTouchdowns (s : State) : State := eachCell (closeTouchdown .stopped) allCells s

/-- STOP in FAULTED: recovery to HALTED; the fault record is kept (R181). -/
def recover (s : State) : State :=
  refreshAll (stopTouchdowns (enterHalted (s.setEngine { s.engine with fault := false })))

/-- STOP, as the engine state allows (R177, R178, R181). -/
def performStop (s : State) : State :=
  match s.engine.state with
  | .running => beginDrain s
  | .loading => abandonLoad s
  | .faulted => recover s
  | .halted | .draining => s

/-! ## Register writes (R171 to R173, R184, R185) -/

/-- The enables as a CONTROL write stores them (R171). -/
def storeEnables (w : Word) (s : State) : State :=
  s.setEngine { s.engine with noticeIE := w.getLsbD 8, loadIE := w.getLsbD 9, faultIE := w.getLsbD 10 }

/-- The one of INIT, START and STOP that a CONTROL write performs; none where more than one is written 1 (R171). -/
def performAction (w : Word) (s : State) : State :=
  match w.getLsbD 0, w.getLsbD 1, w.getLsbD 2 with
  | true, false, false => performInit s
  | false, true, false => performStart s
  | false, false, true => performStop s
  | _, _, _ => s

/-- A write of CONTROL (R171). -/
def controlWrite (w : Word) (s : State) : State :=
  if w.getLsbD 3 then resetPart .controlReset s.engine.setupAddr s
  else
    let s1 := performAction w (storeEnables w s)
    if w.getLsbD 4 then nudgeNotice (nudgeOrder s1) else s1

/-- A write of STATUS (R168, R172). -/
def statusWrite (w : Word) (s : State) : State :=
  s.setEngine
    { s.engine with
      loadDone := s.engine.loadDone && !w.getLsbD 12
      notice := s.engine.notice && !w.getLsbD 13 }

/-- A setup address with one half replaced. -/
def replaceHalf (half : SetupHalf) (value : Word) (a : Addr) : Addr :=
  match half with
  | .lo => a.extractLsb' 32 32 ++ value
  | .hi => value ++ a.extractLsb' 0 32

/-- A write of SETUP_ADDR_LO or SETUP_ADDR_HI: taken in HALTED, else ignored (R173). -/
def setupAddrWrite (half : SetupHalf) (value : Word) (s : State) : Option State :=
  if s.engine.state = .halted then
    some (s.setEngine { s.engine with setupAddr := replaceHalf half value s.engine.setupAddr })
  else none

/-- A write at an offset of the register window; FAULT_INFO and unnamed positions ignore it (R173, R184, R185). -/
def registerWrite (offset value : Word) (s : State) : Option State :=
  if offset = 0x00 then some (controlWrite value s)
  else if offset = 0x04 then some (statusWrite value s)
  else if offset = 0x08 then setupAddrWrite .lo value s
  else if offset = 0x0C then setupAddrWrite .hi value s
  else none

/-! ## Faults and late responses (R180, R181) -/

/-- The load error of a setup read that ends in a fault (R175). -/
def FaultKind.loadError : FaultKind → LoadError
  | .errorResponse => .readError
  | .timeout => .readTimeout

/-- The outstanding transaction ends in a fault, and engine control takes it by the engine state: in RUNNING and DRAINING
it enters FAULTED, in LOADING its own setup read fails the load, and the fault of a setup read left by a STOP is
discarded (R175, R178, R181). -/
def transactionFaults (t : Transaction) (k : FaultKind) (s : State) : State :=
  let s1 := portFree s
  match s.engine.state with
  | .running | .draining => if t.purpose = .abandonedSetupRead then s1 else enterFaulted t.purpose.requester k s1
  | .loading => if t.purpose = .setupRead then failLoad k.loadError s1 else s1
  | .halted | .faulted => s1

/-- The link returns an error response (R180). -/
def errorResponse (s : State) : Option State :=
  s.port.outstanding.map fun t => transactionFaults t .errorResponse s

/-- The response timer expires (R180). -/
def responseExpires (s : State) : Option State :=
  if expired s.clock s.port.timer then s.port.outstanding.map fun t => transactionFaults t .timeout s else none

/-- A response to a transaction that has ended is discarded; the response to an abandoned setup read frees the port
(R178, R180). -/
def lateResponse (which : LateResponse) (s : State) : Option State :=
  match which with
  | .ended => none
  | .abandonedSetupRead => returned .abandonedSetupRead 64 s

/-! ## The meanings -/

/-- INIT: a CONTROL write whose INIT position is 1 (R171, R174). -/
def execInit (w : Word) (s : State) : Host.Outcome State Fault Refusal := conclude s (some (controlWrite (w ||| 0x01) s))

/-- START: a CONTROL write whose START position is 1 (R171, R176). -/
def execStart (w : Word) (s : State) : Host.Outcome State Fault Refusal := conclude s (some (controlWrite (w ||| 0x02) s))

/-- STOP: a CONTROL write whose STOP position is 1 (R171, R177, R178, R181). -/
def execStop (w : Word) (s : State) : Host.Outcome State Fault Refusal := conclude s (some (controlWrite (w ||| 0x04) s))

/-- RESET: a CONTROL write whose RESET position is 1 (R171, R182). -/
def execReset (w : Word) (s : State) : Host.Outcome State Fault Refusal := conclude s (some (controlWrite (w ||| 0x08) s))

/-- NUDGE: a CONTROL write whose NUDGE position is 1 (R171, R153, R164). -/
def execNudge (w : Word) (s : State) : Host.Outcome State Fault Refusal := conclude s (some (controlWrite (w ||| 0x10) s))

/-- SET_ENABLES: a CONTROL write with no action position at 1 (R171). -/
def execSetEnables (w : Word) (s : State) : Host.Outcome State Fault Refusal :=
  conclude s (some (controlWrite (w &&& ~~~0x1F) s))

/-- CLEAR_LOAD_DONE (R172). -/
def execClearLoadDone (w : Word) (s : State) : Host.Outcome State Fault Refusal :=
  conclude s (some (statusWrite (w ||| 0x1000) s))

/-- CLEAR_NOTICE (R168, R172). -/
def execClearNotice (w : Word) (s : State) : Host.Outcome State Fault Refusal :=
  conclude s (some (statusWrite (w ||| 0x2000) s))

/-- SETUP_ADDR_WRITE (R173). -/
def execSetupAddrWrite (half : SetupHalf) (value : Word) (s : State) : Host.Outcome State Fault Refusal :=
  conclude s (setupAddrWrite half value s)

/-- REGISTER_WRITE_IGNORED: a register write, at an offset or with positions that are ignored (R173, R184). -/
def execRegisterWriteIgnored (offset value : Word) (s : State) : Host.Outcome State Fault Refusal :=
  conclude s (registerWrite offset value s)

/-- POWER_ON_RESET (R182). -/
def execPowerOnReset (s : State) : Host.Outcome State Fault Refusal := conclude s (some (resetPart .powerOn 0 s))

/-- BUS_RESET (R182). -/
def execBusReset (s : State) : Host.Outcome State Fault Refusal := conclude s (some (resetPart .busReset 0 s))

/-- SETUP_READ_DONE (R175). -/
def execSetupReadDone (data : List Byte) (s : State) : Host.Outcome State Fault Refusal := conclude s (setupRead data s)

/-- TRANSACTION_ERROR_RESPONSE (R180, R181). -/
def execTransactionErrorResponse (s : State) : Host.Outcome State Fault Refusal := conclude s (errorResponse s)

/-- RESPONSE_TIMER_EXPIRY (R180, R181). -/
def execResponseTimerExpiry (s : State) : Host.Outcome State Fault Refusal := conclude s (responseExpires s)

/-- LATE_RESPONSE (R180). -/
def execLateResponse (which : LateResponse) (s : State) : Host.Outcome State Fault Refusal :=
  conclude s (lateResponse which s)

end Sys2Proof.Machine
end

