-- ==== Sys2Proof/Machine/Dispatch.lean ====
section
/-! DEFINITION. The dispatch of commands: one arm for each constructor of Instr. -/

namespace Sys2Proof.Machine

def exec (i : Instr) (s : State) : Host.Outcome State Fault Refusal :=
  match i with
  | .init w => Sys2Proof.Machine.execInit w s
  | .start w => Sys2Proof.Machine.execStart w s
  | .stop w => Sys2Proof.Machine.execStop w s
  | .reset w => Sys2Proof.Machine.execReset w s
  | .nudge w => Sys2Proof.Machine.execNudge w s
  | .setEnables w => Sys2Proof.Machine.execSetEnables w s
  | .clearLoadDone w => Sys2Proof.Machine.execClearLoadDone w s
  | .clearNotice w => Sys2Proof.Machine.execClearNotice w s
  | .setupAddrWrite half value => Sys2Proof.Machine.execSetupAddrWrite half value s
  | .registerWriteIgnored offset value => Sys2Proof.Machine.execRegisterWriteIgnored offset value s
  | .powerOnReset => Sys2Proof.Machine.execPowerOnReset s
  | .busReset => Sys2Proof.Machine.execBusReset s
  | .setupReadDone data => Sys2Proof.Machine.execSetupReadDone data s
  | .transactionErrorResponse => Sys2Proof.Machine.execTransactionErrorResponse s
  | .responseTimerExpiry => Sys2Proof.Machine.execResponseTimerExpiry s
  | .lateResponse which => Sys2Proof.Machine.execLateResponse which s
  | .characterError c data parity stop => Sys2Proof.Machine.execCharacterError c data parity stop s
  | .typeError c b => Sys2Proof.Machine.execTypeError c b s
  | .lengthError c b => Sys2Proof.Machine.execLengthError c b s
  | .checkError c b => Sys2Proof.Machine.execCheckError c b s
  | .gapError c => Sys2Proof.Machine.execGapError c s
  | .qualityWindowEnd c => Sys2Proof.Machine.execQualityWindowEnd c s
  | .openMsg c number declared => Sys2Proof.Machine.execOpenMsg c number declared s
  | .unitMsg c site key wafer x y bin attempt => Sys2Proof.Machine.execUnitMsg c site key wafer x y bin attempt s
  | .closeMsg c number => Sys2Proof.Machine.execCloseMsg c number s
  | .helloMsg c => Sys2Proof.Machine.execHelloMsg c s
  | .silenceTimerExpiry c => Sys2Proof.Machine.execSilenceTimerExpiry c s
  | .holdStateSent c => Sys2Proof.Machine.execHoldStateSent c s
  | .collationTakeWork => Sys2Proof.Machine.execCollationTakeWork s
  | .mapReadDone v => Sys2Proof.Machine.execMapReadDone v s
  | .mapWriteDone => Sys2Proof.Machine.execMapWriteDone s
  | .tallyRecordWriteDone => Sys2Proof.Machine.execTallyRecordWriteDone s
  | .graceTimerExpiry key => Sys2Proof.Machine.execGraceTimerExpiry key s
  | .scanReadDone data => Sys2Proof.Machine.execScanReadDone data s
  | .headerReadDone data => Sys2Proof.Machine.execHeaderReadDone data s
  | .bodyReadDone data => Sys2Proof.Machine.execBodyReadDone data s
  | .cellRecordWriteDone => Sys2Proof.Machine.execCellRecordWriteDone s
  | .resultWordWriteDone => Sys2Proof.Machine.execResultWordWriteDone s
  | .stateWriteDone => Sys2Proof.Machine.execStateWriteDone s
  | .linkReadDone v => Sys2Proof.Machine.execLinkReadDone v s
  | .chainPositionWriteDone => Sys2Proof.Machine.execChainPositionWriteDone s
  | .pollTimerExpiry => Sys2Proof.Machine.execPollTimerExpiry s
  | .noticeRecordWriteDone => Sys2Proof.Machine.execNoticeRecordWriteDone s
  | .countWriteDone => Sys2Proof.Machine.execCountWriteDone s
  | .consumedReadDone v => Sys2Proof.Machine.execConsumedReadDone v s
  | .retryTimerExpiry => Sys2Proof.Machine.execRetryTimerExpiry s
  | .fallingEdge c => Sys2Proof.Machine.execFallingEdge c s
  | .startBitNoise c => Sys2Proof.Machine.execStartBitNoise c s
  | .byte c b => Sys2Proof.Machine.execByte c b s
  | .takenWriteDone => Sys2Proof.Machine.execTakenWriteDone s

end Sys2Proof.Machine
end

