-- ==== Sys2Proof/Machine/Step.lean ====
section
/-! DEFINITION. One step of the part: the command at the front of the queue; with an empty queue, an internal event that
is due, or else one millisecond of the hall clock (notes/assumptions/1.md). -/

namespace Sys2Proof.Machine

/-- The internal events that are due as the state stands: the collation unit's work (R64) and the timers the clock has
reached (R183). -/
def dueEvents (s : State) : List Instr :=
  (if (takeWork s).isSome then [.collationTakeWork] else [])
    ++ (if (responseExpires s).isSome then [.responseTimerExpiry] else [])
    ++ (allCells.filter fun c => (gapExpires c s).isSome).map .gapError
    ++ (allCells.filter fun c => (windowEnds c s).isSome).map .qualityWindowEnd
    ++ (allCells.filter fun c => (silenceExpires c s).isSome).map .silenceTimerExpiry
    ++ (s.coll.lots.filter (Lot.graceDue s.clock)).map (fun l => .graceTimerExpiry l.key)
    ++ (if expired s.clock s.order.pollTimer && (pollExpires s).isSome then [.pollTimerExpiry] else [])
    ++ (if (retryExpires s).isSome then [.retryTimerExpiry] else [])

/-- Which of the due events is taken first: any may be (notes/assumptions/7.md). -/
def pickEvent : List Instr → State → Option Instr × State
  | [], s => (none, s)
  | [i], s => (some i, s)
  | i :: is, s =>
    match takeRace s with
    | (true, s') => (some i, s')
    | (false, s') => pickEvent is s'

/-- One millisecond passes (R183). -/
def tick (s : State) : State := { s with clock := s.clock + 1 }

/-- What the part does while no command waits. -/
def idle (s : State) : Host.Outcome State Fault Refusal :=
  match pickEvent (dueEvents s) s with
  | (some i, s') => exec i s'
  | (none, s') => .next (tick s')

/-- One step. -/
def step (s : State) : Host.Outcome State Fault Refusal :=
  match s.pending with
  | c :: rest => exec c { s with pending := rest }
  | [] => idle s

/-- The state with the command a table word spells at the front of its queue; unchanged where the word spells none. -/
def State.withFetchWord (s : State) (nbits w : Nat) : State :=
  match decodeTableWord nbits w with
  | some c => { s with pending := c :: s.pending }
  | none => s

end Sys2Proof.Machine
end

