-- ==== Sys2Proof/Safety.lean ====
section
/-! DEFINITION. What statements about the part are made of: what a command leaves alone, what is requested of the port,
and the invariants of the part, each the conjunction of what the rules it cites say always holds. -/

namespace Sys2Proof.Machine

/-! ## What a command leaves alone -/

/-- The parts of the state. The queue of commands is kept by every command; the race fields, the model's own, may be
consumed wherever the port changes. -/
inductive Part where
  | engine | irq | clock | port | order | cells | coll | scanner | notice
  deriving DecidableEq, Repr

/-- Every part but the listed ones is the same, and so is the queue of commands. -/
abbrev Keeps (changed : List Part) (s t : State) : Prop :=
  (.engine ∉ changed → t.engine = s.engine) ∧ (.irq ∉ changed → t.irq = s.irq)
    ∧ (.clock ∉ changed → t.clock = s.clock) ∧ (.port ∉ changed → t.port = s.port)
    ∧ (.order ∉ changed → t.order = s.order) ∧ (.cells ∉ changed → t.cells = s.cells)
    ∧ (.coll ∉ changed → t.coll = s.coll) ∧ (.scanner ∉ changed → t.scanner = s.scanner)
    ∧ (.notice ∉ changed → t.notice = s.notice) ∧ t.pending = s.pending

/-- Every cell but one is the same. -/
abbrev KeepsCells (c : CellNo) (s t : State) : Prop := ∀ d, d ≠ c → t.cell d = s.cell d

/-! ## What a command answers -/

/-- The command answers a next state, and P holds of it. -/
def Answers (i : Instr) (s : State) (P : State → Prop) : Prop := ∃ t, exec i s = .next t ∧ P t

/-- A completion of a transaction: the link's response, or the end of the port's wait for it (R180). -/
def isResponse : Instr → Bool
  | .setupReadDone _ | .headerReadDone _ | .bodyReadDone _ | .scanReadDone _ | .mapReadDone _ | .linkReadDone _
  | .consumedReadDone _ | .takenWriteDone | .resultWordWriteDone | .stateWriteDone | .chainPositionWriteDone
  | .cellRecordWriteDone | .mapWriteDone | .tallyRecordWriteDone | .noticeRecordWriteDone | .countWriteDone
  | .transactionErrorResponse | .responseTimerExpiry | .lateResponse _ => true
  | _ => false

/-- A command that arises on a cell's line only while its receiver is active, with its cell (R25). -/
def lineEvent : Instr → Option CellNo
  | .fallingEdge c | .startBitNoise c | .byte c _ | .characterError c _ _ _ | .typeError c _ | .lengthError c _
  | .checkError c _ | .gapError c | .qualityWindowEnd c | .openMsg c _ _ | .unitMsg c _ _ _ _ _ _ _ | .closeMsg c _
  | .helloMsg c => some c
  | _ => none

/-! ## What a register write makes of the engine (R169, R171) -/

/-- The engine with the enables of a CONTROL write stored (R171). -/
abbrev storedEnables (w : Word) (e : Engine) : Engine :=
  { e with noticeIE := w.getLsbD 8, loadIE := w.getLsbD 9, faultIE := w.getLsbD 10 }

/-- The part with its engine replaced, the interrupt following (R169). -/
abbrev State.withEngine (s : State) (e : Engine) : State := { s with engine := e, irq := e.interrupt }

/-- The drain conditions that R177 lists, with the state of the engine left out. -/
abbrev NothingToDrain (s : State) : Prop :=
  (∀ c, (s.cell c).asm.touchdown = none ∧ (s.cell c).asm.queue = []) ∧ s.coll.requests = [] ∧ s.coll.work = none
    ∧ s.scanner = none ∧ s.order.service = none ∧ portBusy .orderUnit s = false ∧ portBusy .noticeUnit s = false

/-- The reason ENGINE of a cell's hold content (R112, R192). -/
abbrev engineReason (c : CellNo) (s : State) : Bool := (reasonByte s.engine.state s.coll.lots (s.cell c)).getLsbD 3

/-- The receiver of a cell's line is active: the line in service, the engine RUNNING, DRAINING or FAULTED (R25). -/
abbrev Active (c : CellNo) (s : State) : Prop :=
  (s.cell c).line.state ≠ .offline
    ∧ (s.engine.state = .running ∨ s.engine.state = .draining ∨ s.engine.state = .faulted)

/-- The collation unit takes the request r, with rest behind it, when it takes work (R64). -/
abbrev Serves (r : Request) (rest : List Request) (s : State) : Prop :=
  s.coll.work = none ∧ (s.engine.state = .running ∨ s.engine.state = .draining) ∧ s.coll.requests = r :: rest

/-- The code a report is refused with at lookup or by the first identity check it fails; none where it passes them
(R69, R70). -/
def refusalOf (r : Report) (s : State) : Option Code :=
  match findLot s.coll.lots r.key with
  | none => some .unknownLot
  | some l =>
    if l.wafers.all (fun w => w.number != r.wafer.toNat) then some .unknownWafer
    else if l.columns ≤ r.x.toNat ∨ l.rows ≤ r.y.toNat then some .badCoord
    else if (s.coll.plan l.plan).info r.bin = none then some .binUndefined
    else none

/-- The catalogue with the refused count of a lot raised by 1, saturating (R70, R78). -/
abbrev refusedCounted (key : Word) (lots : List Lot) : List Lot :=
  lots.map fun m => if m.key = key then { m with refused := min (m.refused + 1) 16777215 } else m

/-- The report in progress is report r of record td of cell c, for the catalogue lot l, its map cell at address a, in this
stage (R67 to R71, R84). -/
abbrev InProgress (c : CellNo) (td : Touchdown) (r : Report) (l : Lot) (a : Addr) (st : ReportStage) (s : State) : Prop :=
  s.coll.work = some (.record c) ∧ (s.cell c).asm.queue.head? = some td ∧ td.reports[td.mark]? = some r
    ∧ findLot s.coll.lots r.key = some l ∧ identify r s = .ok a ∧ s.coll.inProgress = some st

/-- A cell's closed queue after its open touchdown was closed (R54, R55). -/
abbrev queueAfterClose (kind : CloseKind) (now : Time) (a : Assembler) : List Touchdown :=
  match a.touchdown with
  | some td => if td.reports = [] ∨ 15 ≤ a.queue.length then a.queue else a.queue ++ [td.closed kind now]
  | none => a.queue

/-! ## Notices that have arrived (R158, R160, R161) -/

/-- A pending entry that shows an occurrence of this key and detail as its latest, or an OVERFLOW entry whose latest is
of this key, stamped now. -/
def isOccurrence (k : NoticeKey) (d : Detail) (now : Time) : Pending → Bool
  | .entry e => e.key == k && e.detail == d && e.last == now
  | .overflow o => o.latestKey == k && o.last == now

/-- An occurrence raised in state s stands in the pending table or the post of state t. -/
abbrev Raised (subject : Subject) (d : Detail) (s t : State) : Prop :=
  (t.notice.table.any (isOccurrence ⟨d.kind, subject⟩ d s.clock)
    || t.notice.post.any fun p => isOccurrence ⟨d.kind, subject⟩ d s.clock p.content) = true

/-- As `isOccurrence`, but any OVERFLOW entry stamped now: several occurrences of one event may be counted in it. -/
def isNoted (k : NoticeKey) (d : Detail) (now : Time) : Pending → Bool
  | .entry e => e.key == k && e.detail == d && e.last == now
  | .overflow o => o.last == now

/-- An occurrence raised in state s, perhaps among others of the same event, stands in the pending table or the post of
state t, or is counted in the OVERFLOW entry (R160, R161). -/
abbrev Noted (subject : Subject) (d : Detail) (s t : State) : Prop :=
  (t.notice.table.any (isNoted ⟨d.kind, subject⟩ d s.clock)
    || t.notice.post.any fun p => isNoted ⟨d.kind, subject⟩ d s.clock p.content) = true

/-- The notices of a close that is not NORMAL: an open touchdown of cell c, closed from state s with this kind, has raised
SHORT_TOUCHDOWN, and TOUCHDOWN_LOSS where the full closed queue discards it (R54, R55). -/
abbrev CloseNoted (kind : CloseKind) (c : CellNo) (s t : State) : Prop :=
  ∀ td ∈ (s.cell c).asm.touchdown,
    Noted (.cell c) (.shortTouchdown td.number kind ((td.closed kind s.clock).missing.getD 0) td.lost td.mismatch) s t
    ∧ (td.reports ≠ [] ∧ 15 ≤ (s.cell c).asm.queue.length →
        Noted (.cell c) (.touchdownLoss td.number td.reports.length) s t)

/-! ## What a transmitter has to send (R40 to R42) -/

/-- A transmitter that was sending goes on, with a HOLD_STATE forced or the final one owed after it; any other has begun
one with the content k at the rate in force. -/
abbrev HasToSend (final : Bool) (old : Line) (k : Content) (new : Line) : Prop :=
  match old.tx with
  | .sending f rate m =>
    new.tx = .sending f rate m ∧ if final then new.finalOwed = true else new.forced = true
  | .silent | .idle =>
    new.tx = .sending final new.txRate k.message ∧ new.lastSent = some k ∧ new.forced = false ∧ new.finalOwed = false

/-! ## Transactions (R179) -/

/-- The transaction is outstanding, or waits for the port. -/
abbrev Requested (tr : Transaction) (s : State) : Prop :=
  s.port.outstanding = some tr ∨ s.port.waiting.get tr.purpose.requester = some tr

/-- How many turns after the last requester granted another one's turn comes, 0 for the next in rotation: order unit,
collation unit, map scanner, notice unit (R179). -/
def turn (last r : Requester) : Nat :=
  let place : Requester → Nat | .orderUnit => 0 | .collation => 1 | .scanner => 2 | .noticeUnit => 3
  (place r + 3 - place last) % 4

/-- The notice unit, as u from state s, has judged room in IDLE: it rests where no entry is pending; with room the head
entry is posted into slot written mod N with the written count as its sequence number; without, the consumed word is read
(R162, R164). -/
abbrev Posts (u : NoticeUnit) (s t : State) : Prop :=
  (u.table = [] → t.notice = { u with phase := .idle })
    ∧ ∀ e rest, u.table = e :: rest →
      if (u.written - u.consumed).toNat < s.loadedSetup.slots then
        t.notice = { u with table := rest, post := some ⟨e, u.written⟩, phase := .record }
        ∧ Requested (writeOf .noticeWrite
            (addrPlus s.loadedSetup.listAddr (32 * (u.written.toNat % s.loadedSetup.slots))) (Post.record ⟨e, u.written⟩)) t
      else t.notice = { u with phase := .room, retry := none }
        ∧ Requested (readOf .consumedRead s.loadedSetup.consumedAddr 4) t

/-- A NUDGE has reached the notice unit of a running or draining engine (R164). -/
abbrev NoticeNudged (s t : State) : Prop :=
  if s.notice.phase = .wait then t.notice = { s.notice with phase := .room, retry := none }
    ∧ Requested (readOf .consumedRead s.loadedSetup.consumedAddr 4) t
  else if s.notice.phase = .room then t.notice = { s.notice with nudgePending := true }
  else t.notice = s.notice

/-! ## The layout of a notice record (12.4, R189) -/

/-- Fields, each a size in bytes and a value, stand one after another in a record from an offset on. -/
def FieldsAt (bs : List Byte) : Nat → List (Nat × Nat) → Prop
  | _, [] => True
  | off, (size, value) :: rest => field bs off size = value % 256 ^ size ∧ FieldsAt bs (off + size) rest

/-- The kind code of an occurrence with this detail, and its detail fields in offset order, each a size and a value; `lost`
is the entry's lost report total (12.4, R189). The fault kind of a refused report whose code is not MAP_CORRUPT is 0 by
notes/assumptions/34.md. -/
def noticeDetail (lost : Nat) : Detail → Nat × List (Nat × Nat)
  | .waferComplete key candidates tested passed => (0x01, [(4, key.toNat), (3, candidates), (3, tested), (3, passed)])
  | .lotClosed key tested passed figure wafers complete addr =>
    (0x02, [(4, key.toNat), (3, tested), (3, passed), (2, figure), (1, wafers), (1, complete), (4, addr.toNat / 8)])
  | .lotFloor key tested passed y figure minimum reporter =>
    (0x03, [(4, key.toNat), (3, tested), (3, passed), (2, y), (2, figure), (2, minimum),
      (1, (reporter.map (·.1.val)).getD 0xFF), (1, (reporter.map (·.2.val)).getD 0xFF)])
  | .duplicateDie key c site number stamp x y reported standing =>
    (0x04, [(4, key.toNat), (1, c.val), (1, site.val), (2, number.toNat), (4, stamp.toNat), (2, x.toNat), (2, y.toNat),
      (1, reported.toNat), (1, standing.toNat)])
  | .siteRun site run k n f w => (0x05, [(1, site.val), (1, run), (1, k), (1, n), (1, f), (1, w)])
  | .siteLimit site n f m fs l w => (0x06, [(1, site.val), (1, n), (1, f), (1, m), (2, fs), (2, l), (1, w)])
  | .siteSpread site n f m fs nOthers fOthers fo d =>
    (0x07, [(1, site.val), (1, n), (1, f), (1, m), (2, fs), (2, nOthers), (2, fOthers), (2, fo), (2, d)])
  | .cellLimit site enabled nc fcount fc mc lc =>
    (0x08, [(1, site.val), (1, enabled), (2, nc), (2, fcount), (2, fc), (2, mc), (2, lc)])
  | .lineQuarantined errors kind =>
    let code := match kind with
      | .parity => 1 | .framing => 2 | .type => 3 | .length => 4 | .check => 5 | .gap => 6
    (0x09, [(1, errors), (1, code)])
  | .lineRestored => (0x0A, [])
  | .shortTouchdown number kind missing lostReports mismatch =>
    let code := match kind with
      | .normal => 0 | .superseded => 1 | .timedOut => 2 | .cellRestart => 3 | .quarantined => 4 | .reconfigured => 5
      | .stopped => 6
    (0x0B, [(2, number.toNat), (1, code), (2, missing.toNat), (1, lostReports), (1, mismatch.toNat)])
  | .touchdownLoss number lostReports => (0x0C, [(2, number.toNat), (1, lostReports), (2, lost)])
  | .messageRefused code site number =>
    (0x0D, [(1, code.value), (1, site.toNat), (1, 0), (1, 0), (4, 0), (2, 0), (2, 0), (2, number.toNat), (4, 0)])
  | .reportRefused code r number stamp fault =>
    let attempt := match r.attempt with | .first => 0 | .retest => 1
    let kind := match fault with
      | none => 0 | some .badValue => 1 | some .badAttempts => 2 | some .unusedBin => 3 | some .overAttemptLimit => 4
    (0x0D, [(1, code.value), (1, r.site.val + 16 * attempt + 32 * kind), (1, r.wafer.toNat), (1, r.bin.toNat),
      (4, r.key.toNat), (2, r.x.toNat), (2, r.y.toNat), (2, number.toNat), (4, stamp.toNat)])
  | .cellRestart => (0x0E, [])

/-! ## Outcomes at the guard unit (R90, R92, R99) -/

/-- The guard unit has taken an outcome of a site of cell c: discarded where the site is not enabled; else joined, the
flags latched, every trip noticed, and the holds following the flags where one changed. Every other cell's guard and
holds are the same. -/
abbrev GuardTook (c : CellNo) (site : Site) (v : Verdict) (s t : State) : Prop :=
  let old := (s.cell c).guard
  let enabled := (s.cell c).asm.enabled
  let joined := old.setSite site ((old.site site).join old.w v)
  let new := if enabled.getLsbD site.val then joined.latch enabled site else old
  (t.cell c).guard = new
    ∧ (enabled.getLsbD site.val = true → ∀ d ∈ joined.trips enabled site, Noted (tripSubject c site d) d s t)
    ∧ (if new.flags = old.flags then
        (t.cell c).holds.cellGuard = (s.cell c).holds.cellGuard ∧ (t.cell c).holds.held = (s.cell c).holds.held
      else (t.cell c).holds.cellGuard = new.cellFlag ∧ (t.cell c).holds.held = new.heldSites)
    ∧ ∀ d, d ≠ c → (t.cell d).guard = (s.cell d).guard ∧ (t.cell d).holds = (s.cell d).holds

/-- The order in service is answered with this outcome: phase ANSWER, the outcome kept, the result word's write
requested (R144, R150). -/
abbrev Answered (v : Service) (out : OrderOutcome) (s t : State) : Prop :=
  t.order = { s.order with
      phase := .answer, outcome := some out, service := some { v with stage := .answering } }
    ∧ Requested (writeOf .resultWrite (addrPlus v.record 0x14) (leBytes 4 out.result.toNat)) t

/-- The transaction is at the port, outstanding or waiting in any place. -/
abbrev InFlight (tr : Transaction) (s : State) : Prop :=
  s.port.outstanding = some tr ∨ ∃ r, s.port.waiting.get r = some tr

/-- The port's outstanding transaction is of this purpose and length. -/
abbrev Outstanding (p : Purpose) (n : Nat) (s : State) : Prop :=
  (s.port.outstanding.map fun t => (t.purpose, t.length)) = some (p, n)

/-- The port's outstanding transaction is of this purpose. -/
abbrev OutstandingFor (p : Purpose) (s : State) : Prop := (s.port.outstanding.map (·.purpose)) = some p

/-- A good message completes on the line: by its CHECK byte, or as a whole from an idle receiver in HUNT
(notes/assumptions/4.md). -/
abbrev Completes (c : CellNo) (m : Message) (s : State) : Prop :=
  (messageDone c m s).isSome

/-- The notice unit's table, post, phase and counts are the same. -/
abbrev SameNotices (s t : State) : Prop :=
  t.notice.table = s.notice.table ∧ t.notice.post = s.notice.post ∧ t.notice.phase = s.notice.phase
    ∧ t.notice.written = s.notice.written ∧ t.notice.consumed = s.notice.consumed
    ∧ t.notice.countOwed = s.notice.countOwed

/-- The line error a command is on a cell's line as the state stands, if it is one (R24, R27 to R31). -/
def lineErrorOf (c : CellNo) (s : State) : Instr → Option LineError
  | .characterError d data parity stopBit =>
    if d = c ∧ receiverActive s.engine.state (s.cell c).line ∧ (s.cell c).line.rx = .character then
      if stopBit = false then some .framing else if evenParity data parity then none else some .parity
    else none
  | .typeError d b =>
    if d = c ∧ receiverActive s.engine.state (s.cell c).line ∧ (s.cell c).line.rx = .character then
      match (s.cell c).line.decoder with
      | .type _ => if MsgType.ofByte b = none then some .type else none
      | _ => none
    else none
  | .lengthError d b =>
    if d = c ∧ receiverActive s.engine.state (s.cell c).line ∧ (s.cell c).line.rx = .character then
      match (s.cell c).line.decoder with
      | .length _ ty => if b.toNat = ty.len then none else some .length
      | _ => none
    else none
  | .checkError d b =>
    if d = c ∧ receiverActive s.engine.state (s.cell c).line ∧ (s.cell c).line.rx = .character then
      match (s.cell c).line.decoder with
      | .check _ _ sum _ => if sum + b = 0 then none else some .check
      | _ => none
    else none
  | .gapError d =>
    if d = c ∧ receiverActive s.engine.state (s.cell c).line
        ∧ expired s.clock (s.cell c).line.decoder.gapTimer then some .gap
    else none
  | _ => none

/-- The line as an error event leaves it, before its threshold is judged: any partial message ended, the error counted
in E, and the character that carried it complete (R31, R32). -/
def errorCounted (kind : LineError) (l : Line) : Line :=
  { l with
    rx := if kind = .gap then l.rx else .idle
    decoder := .hunt
    errors := min (l.errors + 1) 255 }

/-! ## Between two commands -/

/-- The drain is judged, a free port has granted what waited, and the interrupt follows its flags
(R177, R179, R169). -/
abbrev Settled (s : State) : Prop :=
  drainReady s = false ∧ (s.port.outstanding = none → s.port.waiting = Waiting.none) ∧ s.irq = s.engine.interrupt

/-- Every waiting request waits in its own requester's place (R179). -/
abbrev Placed (s : State) : Prop :=
  ∀ r, ((s.port.waiting.get r).map fun t => t.purpose.requester) ∈ [none, some r]

/-- The transmitter of a line has nothing to begin (R40). -/
abbrev LineQuiet (c : CellNo) (s : State) : Prop :=
  transmit s.engine.state s.coll.lots (s.cell c) = s.cell c

/-! ## Invariants -/

/-- FAULT is set exactly in FAULTED; a running, draining or faulted engine has been loaded; a loaded engine holds its
setup (R170, R174, R176, R181). -/
abbrev EngineOk (e : Engine) : Prop :=
  (e.fault = true ↔ e.state = .faulted)
    ∧ (e.state = .running ∨ e.state = .draining ∨ e.state = .faulted → e.loaded = true)
    ∧ (e.state = .loading → e.loaded = false)
    ∧ (e.loaded = true → e.setup.isSome)

/-- At most 32 lots, no two with one key, and every lot's plan slot LOADED (R125). -/
abbrev CatalogueOk (c : Collation) : Prop :=
  c.lots.length ≤ 32 ∧ (c.lots.map (·.key)).Nodup ∧ ∀ l ∈ c.lots, c.loaded l.plan = true

/-- The keys of a pending table; none for the OVERFLOW entry. -/
def tableKeys (table : List Pending) : List (Option NoticeKey) :=
  table.map fun p => match p with | .entry e => some e.key | .overflow _ => none

/-- At most 64 ordinary entries and one OVERFLOW entry, no two of one kind and subject (R159). -/
abbrev TableOk (table : List Pending) : Prop := ordinaryCount table ≤ 64 ∧ (tableKeys table).Nodup

/-- The guard parameters are in their ranges (R88, R101). -/
abbrev ParametersOk (g : Guard) : Prop :=
  goodWindow g.w = true ∧ 1 ≤ g.m ∧ g.m ≤ g.w ∧ g.l ≤ 1024 ∧ 1 ≤ g.mc ∧ g.mc ≤ 2048 ∧ g.lc ≤ 1024 ∧ g.d ≤ 1024
    ∧ g.k ≤ 255

/-- A site's window is at most W long, its fail count is the number of its FAIL outcomes, its run count at most 255; a
site not enabled is empty and clear (R89). -/
abbrev SiteOk (w : Nat) (isEnabled : Bool) (q : SiteGuard) : Prop :=
  q.window.length ≤ w ∧ q.failCount = q.window.count .fail ∧ q.run ≤ 255
    ∧ (isEnabled = false →
        q.window = [] ∧ q.run = 0 ∧ q.runFlag = false ∧ q.limitFlag = false ∧ q.spreadFlag = false)

/-- The guard state of a cell (R88, R89), and the holds that follow it (R99, R115). -/
abbrev GuardOk (cs : CellState) : Prop :=
  ParametersOk cs.guard ∧ (∀ s : Site, SiteOk cs.guard.w (hasSite cs.asm.enabled s) (cs.guard.site s))
    ∧ cs.holds.cellGuard = cs.guard.cellFlag ∧ cs.holds.held = cs.guard.heldSites

/-- At most 15 closed records and 64 slots in use; the silence timer runs exactly while a touchdown is open; the
settings are in their ranges (R44, R53, R55, R56, R58). -/
abbrev AssemblerOk (a : Assembler) : Prop :=
  a.queue.length ≤ 15 ∧ a.slots ≤ 64 ∧ a.touchdown.isSome = a.silence.isSome
    ∧ 10 ≤ a.timeout ∧ a.timeout ≤ 10000 ∧ a.enabled ≠ 0

/-- BUFFER is as R57's bounds leave it for the slots in use and the queue's length. -/
abbrev BufferOk (cs : CellState) : Prop :=
  cs.holds.buffer = bufferAfter cs.holds.buffer cs.asm.slots cs.asm.queue.length

/-- An active receiver has a quality window; one not active is IDLE, in HUNT, with no window (R25). -/
abbrev ReceiverOk (eng : EngineState) (l : Line) : Prop :=
  if receiverActive eng l then l.windowEnd.isSome = true else l.rx = .idle ∧ l.decoder = .hunt ∧ l.windowEnd = none

/-- A line in service has its rate code in force (R36, R38). -/
abbrev RateOk (l : Line) : Prop := l.state ≠ .offline → l.txRate = l.rate

/-- A SILENT transmitter belongs to an OFFLINE line; an IDLE one to a line in service that has nothing to send and last
sent its current content; a message on a line gone OFFLINE is final or to be followed by the final one
(R40 to R42). -/
abbrev TransmitterOk (eng : EngineState) (lots : List Lot) (cs : CellState) : Prop :=
  match cs.line.tx with
  | .silent => cs.line.state = .offline
  | .idle =>
    cs.line.state ≠ .offline ∧ cs.line.forced = false ∧ cs.line.finalOwed = false
      ∧ cs.line.lastSent = some (holdContent eng lots cs)
  | .sending final _ _ => cs.line.state = .offline → final = true ∨ cs.line.finalOwed = true

/-- A transaction is at most 64 bytes and crosses no multiple of 64 (R179). -/
abbrev TransactionOk (t : Transaction) : Prop := t.length ≤ 64 ∧ t.addr.toNat % 64 + t.length ≤ 64

/-- The addresses the part holds are aligned as their rules say (R143, R151, R175, R186; R2). -/
abbrev AddressesOk (s : State) : Prop :=
  aligned s.loadedSetup.chainHead 8 = true ∧ aligned s.loadedSetup.listAddr 32 = true
    ∧ aligned s.loadedSetup.consumedAddr 4 = true ∧ aligned s.loadedSetup.statusAddr 8 = true
    ∧ aligned (s.order.position.getD 0) 8 = true
    ∧ (∀ v ∈ s.order.service, aligned v.record 8 = true)
    ∧ ∀ l ∈ s.coll.lots, ∀ w ∈ l.wafers, aligned w.map 8 = true

/-- Every transaction at the port is well placed in memory, and so will those to come be (R144, R179). -/
abbrev PortOk (s : State) : Prop :=
  AddressesOk s ∧ (∀ t ∈ s.port.outstanding, TransactionOk t)
    ∧ ∀ r, ∀ t ∈ s.port.waiting.get r, TransactionOk t

/-- The written count is at most N past the consumed count, and less than N past it while a record is being posted; the
notice unit's transaction at the port is the one its phase calls for; outside RUNNING and DRAINING it has none
(R162 to R166). -/
abbrev NoticeOk (s : State) : Prop :=
  (s.notice.written - s.notice.consumed).toNat ≤ s.loadedSetup.slots
    ∧ (s.notice.phase = .record → (s.notice.written - s.notice.consumed).toNat < s.loadedSetup.slots)
    ∧ ∀ t, InFlight t s → t.purpose.requester = .noticeUnit →
        noticeRuns s = true
          ∧ (t.purpose = .noticeWrite → s.notice.phase = .record)
          ∧ (t.purpose = .countWrite → s.notice.phase = .count)
          ∧ (t.purpose = .consumedRead → s.notice.phase = .room)

end Sys2Proof.Machine
end

