-- ==== Sys2Proof/WellFormed.lean ====
section
/-! DEFINITION. Which commands are well formed: a command whose operands are what its row of the table says. A command
that is not well formed still has a meaning; the check is for statements and for whoever fills the queue. -/

namespace Sys2Proof

open Sys2Proof.Machine

/-- The offset names no position that a write changes: FAULT_INFO or an unnamed offset (R173, R184, R185). -/
def ignoredOffset (offset : Word) : Bool :=
  offset != 0x00 && offset != 0x04 && offset != 0x08 && offset != 0x0C

/-- A command's operands fit its row. -/
def Instr.wellFormed : Instr → Bool
  | .init w => w.getLsbD 0
  | .start w => w.getLsbD 1
  | .stop w => w.getLsbD 2
  | .reset w => w.getLsbD 3
  | .nudge w => w.getLsbD 4
  | .setEnables w => w &&& 0x1F == 0
  | .clearLoadDone w => w.getLsbD 12
  | .clearNotice w => w.getLsbD 13
  | .registerWriteIgnored offset _ => ignoredOffset offset
  | .setupReadDone data => data.length == 64
  | .characterError _ data parity stopBit => !stopBit || !evenParity data parity
  | .typeError _ b => (MsgType.ofByte b).isNone
  | .scanReadDone data => data.length != 0 && data.length ≤ 64 && data.length % 2 == 0
  | .headerReadDone data => data.length != 0 && data.length ≤ 24
  | .bodyReadDone data => data.length != 0 && data.length ≤ 64
  | _ => true

end Sys2Proof
end

