-- ==== Sys2Proof/Certificates/Slice0/Obligations.lean ====
section
/-! DEFINITION. The statements for the provers: the step, resets and registers, the load, the engine's transitions and
memory faults, the lines, touchdowns, guards, collation, lots, orders, notices, and the invariants that every step
keeps. -/

open Sys2Proof Sys2Proof.Machine

/-! ## The step -/

/-- A step takes the command at the front of the queue and runs it on the part with the queue's rest. -/
def Obligations.StepRunsFrontCommand : Prop :=
  ∀ (c : Instr) (rest : List Instr) (s : State),
    s.pending = c :: rest → step s = exec c { s with pending := rest }

/-- With no command waiting, a due internal event is taken, and with none due the hall clock rises by 1 (the model's
choice: notes/assumptions/1.md). Rests on the model's choices notes/assumptions/7.md. -/
def Obligations.EmptyQueueRunsDueEventOrTicks : Prop :=
  ∀ s : State, s.pending = [] →
    (dueEvents s = [] → step s = .next { s with clock := s.clock + 1 })
      ∧ (dueEvents s ≠ [] →
          ∃ i ∈ dueEvents s, ∃ rs n, step s = exec i { s with races := rs, raceCount := n })

/-- Every command answers a next state, and none touches the queue of commands. Rests on the model's choices
notes/assumptions/3.md. -/
def Obligations.EveryCommandAnswers : Prop :=
  ∀ (i : Instr) (s : State), Answers i s fun t =>
      t.pending = s.pending

/-! ## Resets and registers (10) -/

/-- Each of the three resets gives every item of the part its reset value, CONTROL RESET keeps the setup address, and
each records its own kind as the reset cause (R182); the values, item by item (R21, R44, R62, R88, R110, R142, R159,
R170, R179, R183). The queue of commands and the race fields are the model's own and stay (notes/assumptions/23.md).
Rests on the model's choices notes/assumptions/22.md. -/
def Obligations.ResetsRestoreEveryItem : Prop :=
  (∀ (w : Word) (s : State),
    exec .powerOnReset s = .next { State.afterReset .powerOn 0 with
        pending := s.pending, races := s.races, raceCount := s.raceCount }
    ∧ exec .busReset s = .next { State.afterReset .busReset 0 with
        pending := s.pending, races := s.races, raceCount := s.raceCount }
    ∧ exec (.reset w) s = .next { State.afterReset .controlReset s.engine.setupAddr with
        pending := s.pending, races := s.races, raceCount := s.raceCount })
  ∧ ∀ (cause : ResetCause) (a : Addr),
    let s := State.afterReset cause a
    (s.engine.state = .halted ∧ s.engine.loaded = false ∧ s.engine.loadError = .none ∧ s.engine.loadDone = false
      ∧ s.engine.notice = false ∧ s.engine.fault = false ∧ s.engine.faultRecord = none ∧ s.engine.setupAddr = a
      ∧ s.engine.controlWord = 0 ∧ s.engine.resetCause = cause ∧ s.engine.setup = none ∧ s.irq = false ∧ s.clock = 0)
    ∧ (s.port.outstanding = none ∧ s.port.timer = none ∧ s.port.waiting = Waiting.none ∧ s.port.last = .noticeUnit)
    ∧ (s.order.position = none ∧ s.order.phase = .none ∧ s.order.posWritten = false ∧ s.order.service = none
      ∧ s.order.outcome = none ∧ s.order.pollTimer = none ∧ s.order.nudgePending = false)
    ∧ (s.coll.lots = [] ∧ (∀ p : Fin 8, s.coll.loaded p = false) ∧ s.coll.requests = [] ∧ s.coll.work = none
      ∧ s.coll.inProgress = none ∧ s.coll.pointer = 23 ∧ s.scanner = none)
    ∧ (s.notice.table = [] ∧ s.notice.post = none ∧ s.notice.phase = .idle ∧ s.notice.written = 0
      ∧ s.notice.consumed = 0 ∧ s.notice.countOwed = false ∧ s.notice.retry = none ∧ s.notice.nudgePending = false)
    ∧ ∀ c, (let l := (s.cell c).line
        l.state = .offline ∧ l.rate = 3 ∧ l.txRate = 3 ∧ l.q = 8 ∧ l.rx = .idle ∧ l.decoder = .hunt ∧ l.errors = 0
          ∧ l.windowEnd = none ∧ l.clean = 0 ∧ l.tx = .silent ∧ l.lastSent = none ∧ l.forced = false
          ∧ l.finalOwed = false)
      ∧ (let h := (s.cell c).holds
        h.buffer = false ∧ h.cellGuard = false ∧ h.ordered = false ∧ h.held = 0 ∧ h.currentLot = none)
      ∧ (let m := (s.cell c).asm
        m.touchdown = none ∧ m.silence = none ∧ m.timeout = 2000 ∧ m.enabled = 0xFFFF ∧ m.queue = [] ∧ m.slots = 0)
      ∧ (let g := (s.cell c).guard
        g.w = 32 ∧ g.m = 16 ∧ g.l = 1024 ∧ g.mc = 64 ∧ g.lc = 1024 ∧ g.d = 1024 ∧ g.k = 0 ∧ g.cellFlag = false
          ∧ ∀ q : Site, g.site q = SiteGuard.reset)

/-- Every invariant stated below holds in the state after a reset, by the reset values of every block (R182). That a free
port has nothing waiting is the model's reading of one event (notes/assumptions/24.md), and that the addresses held are
aligned rests on the loaded setup that reads as zeros (notes/assumptions/25.md). -/
def Obligations.InvariantsHoldAfterReset : Prop :=
  ∀ (cause : ResetCause) (a : Addr),
    let s := State.afterReset cause a
    Placed s ∧ Settled s ∧ EngineOk s.engine ∧ CatalogueOk s.coll ∧ TableOk s.notice.table ∧ PortOk s ∧ NoticeOk s
      ∧ ∀ c, GuardOk (s.cell c) ∧ AssemblerOk (s.cell c).asm ∧ BufferOk (s.cell c)
        ∧ ReceiverOk s.engine.state (s.cell c).line ∧ RateOk (s.cell c).line
        ∧ TransmitterOk s.engine.state s.coll.lots (s.cell c)

/-- A CONTROL write with no action stores the three enables and the interrupt follows; nothing else changes (R169,
R171). Rests on the model's choices notes/assumptions/2.md. -/
def Obligations.EnablesStoredAsWritten : Prop :=
  ∀ (w : Word) (s : State), Settled s →
    exec (.setEnables w) s = .next (s.withEngine (storedEnables w s.engine))

/-- A STATUS write clears the flags whose positions are 1 and nothing else; the interrupt follows (R168, R169, R172).
Rests on the model's choices notes/assumptions/2.md. -/
def Obligations.StatusWriteClearsFlags : Prop :=
  ∀ (w : Word) (s : State), Settled s →
    exec (.clearLoadDone w) s = .next (s.withEngine
      { s.engine with loadDone := false, notice := s.engine.notice && !w.getLsbD 13 })
    ∧ exec (.clearNotice w) s = .next (s.withEngine
      { s.engine with loadDone := s.engine.loadDone && !w.getLsbD 12, notice := false })

/-- The five registers read as their positions and codes are laid out, and unnamed offsets read 0. A write of half of
the setup address replaces those 32 bits in HALTED, and is ignored in every other engine state (R171 to R173, R184,
R185). Rests on the model's choices notes/assumptions/2.md. -/
def Obligations.SetupAddressWrittenInHalted : Prop :=
  (∀ e : Engine,
    let state := match e.state with | .halted => 0 | .loading => 1 | .running => 2 | .draining => 3 | .faulted => 4
    let loadError := match e.loadError with
      | .none => 0 | .setupMisaligned => 1 | .badBlockLength => 2 | .badSlotCount => 3 | .badInterval => 4
      | .badChainHead => 5 | .badListAddress => 6 | .badConsumedAddress => 7 | .badStatusAddress => 8 | .readError => 9
      | .readTimeout => 10 | .abandoned => 11
    let cause := match e.resetCause with | .powerOn => 0 | .busReset => 1 | .controlReset => 2
    let requester : Requester → Nat | .orderUnit => 1 | .collation => 2 | .scanner => 3 | .noticeUnit => 4
    let kind : FaultKind → Nat | .errorResponse => 0 | .timeout => 1
    (e.readRegister 0x00).toNat = 2 ^ 8 * e.noticeIE.toNat + 2 ^ 9 * e.loadIE.toNat + 2 ^ 10 * e.faultIE.toNat
    ∧ (e.readRegister 0x04).toNat = state + 2 ^ 4 * e.loaded.toNat + 2 ^ 8 * loadError + 2 ^ 12 * e.loadDone.toNat
        + 2 ^ 13 * e.notice.toNat + 2 ^ 14 * e.fault.toNat + 2 ^ 16 * cause
    ∧ (e.readRegister 0x08).toNat = e.setupAddr.toNat % 2 ^ 32
    ∧ (e.readRegister 0x0C).toNat = e.setupAddr.toNat / 2 ^ 32
    ∧ (e.readRegister 0x10).toNat = ((e.faultRecord.map fun x => requester x.1 + 2 ^ 8 * kind x.2).getD 0)
    ∧ ∀ offset : Word, offset ∉ [0x00, 0x04, 0x08, 0x0C, 0x10] → e.readRegister offset = 0)
  ∧ ∀ (half : SetupHalf) (v : Word) (s : State),
    (s.engine.state = .halted → Settled s → Answers (.setupAddrWrite half v) s fun t =>
      t.engine.readRegister (match half with | .lo => 0x08 | .hi => 0x0C) = v
      ∧ t.engine.readRegister (match half with | .lo => 0x0C | .hi => 0x08)
          = s.engine.readRegister (match half with | .lo => 0x0C | .hi => 0x08)
      ∧ t = { s with engine := { s.engine with setupAddr := t.engine.setupAddr } })
    ∧ (s.engine.state ≠ .halted → exec (.setupAddrWrite half v) s = .next s)

/-- A write to FAULT_INFO or an unnamed offset changes nothing, and a response to a transaction that has ended is
discarded (R173, R180, R184). Rests on the model's choices notes/assumptions/2.md, notes/assumptions/21.md. -/
def Obligations.IgnoredEventsChangeNothing : Prop :=
  ∀ (i : Instr) (offset v : Word) (s : State),
    (ignoredOffset offset = true → exec (.registerWriteIgnored offset v) s = .next s)
      ∧ exec (.lateResponse .ended) s = .next s
      ∧ (s.port.outstanding = none → isResponse i = true → exec i s = .next s)

/-- Where more than one of INIT, START and STOP is written 1, none of the three is performed: the enables are stored
and nothing else changes; with NUDGE at 1 beside them the write is that of the NUDGE without them (R171). Rests on the
model's choices notes/assumptions/2.md. -/
def Obligations.ConflictingActionsNotPerformed : Prop :=
  (∀ (w : Word) (s : State), Settled s → w.getLsbD 3 = false → w.getLsbD 4 = false →
    (w.getLsbD 1 = true ∨ w.getLsbD 2 = true →
      exec (.init w) s = .next (s.withEngine (storedEnables w s.engine)))
    ∧ (w.getLsbD 0 = true ∨ w.getLsbD 2 = true →
      exec (.start w) s = .next (s.withEngine (storedEnables w s.engine)))
    ∧ (w.getLsbD 0 = true ∨ w.getLsbD 1 = true →
      exec (.stop w) s = .next (s.withEngine (storedEnables w s.engine))))
  ∧ ∀ (w : Word) (s : State), w.getLsbD 3 = false → w.getLsbD 4 = true →
    let nudge := exec (.nudge (w &&& ~~~0x07)) s
    (w.getLsbD 1 = true ∨ w.getLsbD 2 = true → exec (.init w) s = nudge)
    ∧ (w.getLsbD 0 = true ∨ w.getLsbD 2 = true → exec (.start w) s = nudge)
    ∧ (w.getLsbD 0 = true ∨ w.getLsbD 1 = true → exec (.stop w) s = nudge)

/-- The interrupt is asserted exactly while a flag is set with its enable, through every step, and is deasserted after
every reset (R169). -/
def Obligations.InterruptFollowsFlags : Prop :=
  (∀ s t : State,
    (s.irq = true ↔ (s.engine.notice = true ∧ s.engine.noticeIE = true)
      ∨ (s.engine.loadDone = true ∧ s.engine.loadIE = true) ∨ (s.engine.fault = true ∧ s.engine.faultIE = true)) →
    step s = .next t →
    (t.irq = true ↔ (t.engine.notice = true ∧ t.engine.noticeIE = true)
      ∨ (t.engine.loadDone = true ∧ t.engine.loadIE = true) ∨ (t.engine.fault = true ∧ t.engine.faultIE = true)))
  ∧ ∀ (cause : ResetCause) (a : Addr),
    (State.afterReset cause a).irq = false ∧ (State.afterReset cause a).engine.noticeIE = false
      ∧ (State.afterReset cause a).engine.loadIE = false ∧ (State.afterReset cause a).engine.faultIE = false

/-! ## The load (R174, R175, R178) -/

/-- INIT in HALTED with an aligned setup address: LOADING, with the setup read requested. With a misaligned one the
load ends at once in failure. In any other engine state INIT is ignored (R174). Rests on the model's choices
notes/assumptions/2.md, notes/assumptions/12.md. -/
def Obligations.InitBeginsLoad : Prop :=
  ∀ (w : Word) (s : State), w &&& 0x1F = 0x01 → Settled s →
    (s.engine.state = .halted → s.engine.setupAddr.toNat % 64 = 0 → Answers (.init w) s fun t =>
      t.engine = { storedEnables w s.engine with state := .loading, loaded := false, loadError := .none }
      ∧ Requested (readOf .setupRead s.engine.setupAddr 64) t ∧ t.irq = t.engine.interrupt
      ∧ Keeps [.engine, .irq, .port] s t)
    ∧ (s.engine.state = .halted → s.engine.setupAddr.toNat % 64 ≠ 0 →
      exec (.init w) s = .next (s.withEngine { storedEnables w s.engine with
        state := .halted, loaded := false, loadError := .setupMisaligned, loadDone := true }))
    ∧ (s.engine.state ≠ .halted → exec (.init w) s = .next (s.withEngine (storedEnables w s.engine)))

/-- The setup block in LOADING: the engine becomes HALTED with LOAD_DONE set; a block that passes every check is
loaded, the order unit is positioned at its chain head and the notice unit starts again from 0; a block that fails
leaves every block as it was (R157, R167, R175). Rests on the model's choices notes/assumptions/11.md,
notes/assumptions/26.md. -/
def Obligations.SetupBlockJudged : Prop :=
  ∀ (data : List Byte) (s : State), s.engine.state = .loading → Outstanding .setupRead data.length s →
    (setupError data = .none → Answers (.setupReadDone data) s fun t =>
      t.engine = { s.engine with
          state := .halted, loaded := true, loadError := .none, loadDone := true, setup := some (setupOf data) }
      ∧ t.order.position = some (setupOf data).chainHead ∧ t.order.phase = .fetch ∧ t.order.posWritten = false
      ∧ t.order.pollTimer = none ∧ t.order.service.map (·.record) = s.order.service.map (·.record)
      ∧ t.notice.table = s.notice.table ∧ t.notice.written = 0 ∧ t.notice.consumed = 0 ∧ t.notice.countOwed = true
      ∧ (s.notice.phase = .record → s.notice.post.isSome → t.notice.phase = .record
          ∧ t.notice.post = s.notice.post.map fun p => { p with seq := 0 })
      ∧ (s.notice.phase ≠ .record → t.notice.phase = .count ∧ t.notice.post = none)
      ∧ t.irq = t.engine.interrupt ∧ Keeps [.engine, .irq, .port, .order, .notice] s t)
    ∧ (setupError data ≠ .none → Answers (.setupReadDone data) s fun t =>
      t.engine = { s.engine with
          state := .halted, loaded := false, loadError := setupError data, loadDone := true }
      ∧ t.irq = t.engine.interrupt ∧ Keeps [.engine, .irq, .port] s t)

/-- The checks of the setup block, in order: the first that fails gives the load error, and a block that passes all seven
has none (R175, R186). -/
def Obligations.SetupChecksInOrder : Prop :=
  ∀ bs : List Byte,
    let n := field bs 0x02 2
    let head := field bs 0x08 8
    let bad : List (Prop × LoadError) :=
      [(field bs 0x00 2 ≠ 64, .badBlockLength),
       (¬∃ k, 4 ≤ k ∧ k ≤ 12 ∧ n = 2 ^ k, .badSlotCount),
       (field bs 0x04 2 < 1 ∨ 1000 < field bs 0x04 2, .badInterval),
       (head = 0 ∨ head % 8 ≠ 0, .badChainHead),
       (field bs 0x10 8 % 32 ≠ 0, .badListAddress),
       (field bs 0x18 8 % 4 ≠ 0, .badConsumedAddress),
       (field bs 0x20 8 % 8 ≠ 0, .badStatusAddress)]
    (∀ (i : Fin bad.length), (∀ j : Fin bad.length, j < i → ¬bad[j].1) → bad[i].1 → setupError bs = bad[i].2)
      ∧ ((∀ i : Fin bad.length, ¬bad[i].1) → setupError bs = .none)

/-- In LOADING a memory fault of the setup read fails the load with READ_ERROR or READ_TIMEOUT, and FAULT and the
fault record stay (R175, R180). A setup read that a STOP in LOADING abandoned ends at the port without effect on
engine control, whether by its response, by an error or by a timeout, and a new load's read that waits goes on (R178).
Rests on the model's choices notes/assumptions/21.md. -/
def Obligations.SetupReadFaults : Prop :=
  ∀ s : State,
    (s.engine.state = .loading → OutstandingFor .setupRead s → Answers .transactionErrorResponse s fun t =>
      t.engine = { s.engine with state := .halted, loaded := false, loadError := .readError, loadDone := true }
      ∧ Keeps [.engine, .irq, .port] s t)
    ∧ (s.engine.state = .loading → OutstandingFor .setupRead s → expired s.clock s.port.timer = true →
      Answers .responseTimerExpiry s fun t =>
      t.engine = { s.engine with state := .halted, loaded := false, loadError := .readTimeout, loadDone := true }
      ∧ Keeps [.engine, .irq, .port] s t)
    ∧ (∀ i : Instr, Outstanding .abandonedSetupRead 64 s → s.engine.state = .halted ∨ s.engine.state = .loading →
      (i = .lateResponse .abandonedSetupRead ∨ i = .transactionErrorResponse
        ∨ (i = .responseTimerExpiry ∧ expired s.clock s.port.timer = true)) →
      s.irq = s.engine.interrupt →
      Answers i s fun t => Keeps [.port] s t
        ∧ t.port.outstanding ∈ [none, s.port.waiting.orderUnit, s.port.waiting.collation, s.port.waiting.scanner,
            s.port.waiting.noticeUnit]
        ∧ ∀ tr ∈ s.port.waiting.orderUnit, tr.purpose.requester = .orderUnit → Requested tr t)

/-! ## Running, stopping and memory faults (R176, R177, R178, R181) -/

/-- START in HALTED with LOADED 1: RUNNING, the receivers of the lines in service active with fresh windows, ENGINE
gone from every reason set, and each unit goes on: the collation unit's owed map read, map write or finalize, the
order in service brought to its end, else the chain position, header or link requested again, the notice unit's
record, count or consumed word, or in IDLE its next post (R25, R85, R112, R137, R155, R156, R165, R166, R176). Else
START is ignored. Rests on the model's choices notes/assumptions/2.md, notes/assumptions/11.md,
notes/assumptions/12.md, notes/assumptions/26.md, notes/assumptions/37.md. -/
def Obligations.StartResumesEveryBlock : Prop :=
  ∀ (w : Word) (s : State), w &&& 0x1F = 0x02 →
    (s.engine.state = .halted → s.engine.loaded = true → Answers (.start w) s fun t =>
      let n := s.loadedSetup.slots
      let readWord := readOf .consumedRead s.loadedSetup.consumedAddr 4
      let ordersOnly (r : Request) : Bool := match r with | .scanAbandoned _ | .finalize _ => false | _ => true
      t.engine = { storedEnables w s.engine with state := .running } ∧ t.irq = t.engine.interrupt
      ∧ t.clock = s.clock ∧ t.pending = s.pending
      ∧ (∀ c, (t.cell c).line.state = (s.cell c).line.state ∧ engineReason c t = false
          ∧ ((s.cell c).line.state ≠ .offline →
              (t.cell c).line.rx = .idle ∧ (t.cell c).line.decoder = .hunt ∧ (t.cell c).line.errors = 0
                ∧ (t.cell c).line.clean = 0 ∧ (t.cell c).line.windowEnd = some (Time.plus s.clock 1000)))
      ∧ (s.coll.work = none → t.coll = s.coll)
      ∧ (∀ c td r l a, InProgress c td r l a .reading s →
          t.coll = s.coll ∧ Requested (readOf .mapRead a 2) t)
      ∧ (∀ c td r l a was now, InProgress c td r l a (.writing was now) s →
          t.coll = s.coll ∧ Requested (writeOf .mapWrite a (leBytes 2 now.toNat)) t)
      ∧ (∀ key w l, s.coll.work = some (.finalize key w) → findLot s.coll.lots key = some l →
          let bs := l.tallyRecord 4 s.clock
          let a := l.finalAddr.getD 0
          t.coll = { s.coll with work := some (.finalize key ⟨a, bs, bs.length⟩) }
          ∧ Requested (writeOf .tallyWrite a (bs.take (min bs.length (64 - a.toNat % 64)))) t)
      ∧ (∀ v ∈ s.order.service,
          (∀ out ∈ s.order.outcome, v.stage = .answering → Answered v out s t)
          ∧ (v.stage = .waiting → s.coll.requests.any ordersOnly = true →
              t.order = { s.order with phase := .serving })
          ∧ (v.stage = .waiting → s.coll.requests.any ordersOnly = false → s.scanner = none →
              (∀ key w, s.coll.work ≠ some (.snapshot key w)) → Answered v (.refused .engineFault 0) s t)
          ∧ (v.stage ≠ .waiting → v.stage ≠ .answering → Answered v (.refused .engineFault 0) s t))
      ∧ (s.order.service = none → ∀ out ∈ s.order.outcome, t.order = { s.order with phase := .answer } ∧ Requested
          (writeOf .resultWrite (addrPlus (s.order.position.getD 0) 0x14) (leBytes 4 out.result.toNat)) t)
      ∧ (s.order.service = none → s.order.outcome = none → t.order = s.order
          ∧ (s.order.phase = .fetch → s.order.posWritten = false → Requested
            (writeOf .positionWrite s.loadedSetup.statusAddr (leBytes 8 (s.order.position.getD 0).toNat)) t)
          ∧ (s.order.phase = .fetch → s.order.posWritten = true → s.order.gathered = [] → Requested
            (readOf .headerRead (s.order.position.getD 0) (chunk (s.order.position.getD 0) 24)) t)
          ∧ (s.order.phase = .link → Requested (readOf .linkRead (s.order.position.getD 0) 8) t))
      ∧ (∀ p ∈ s.notice.post, s.notice.phase = .record → Requested
          (writeOf .noticeWrite (addrPlus s.loadedSetup.listAddr (32 * (p.seq.toNat % n))) p.record) t)
      ∧ (s.notice.phase = .count → Requested
          (writeOf .countWrite (addrPlus s.loadedSetup.statusAddr 8) (leBytes 4 s.notice.written.toNat)) t)
      ∧ (s.notice.phase = .room ∨ s.notice.phase = .wait → Requested readWord t)
      ∧ (s.notice.phase = .idle →
          (∀ c, s.coll.work ≠ some (.record c)) ∨ (∃ c td r l a st, InProgress c td r l a st s) →
          Posts s.notice s t))
    ∧ (s.engine.state ≠ .halted ∨ s.engine.loaded = false → Settled s →
      exec (.start w) s = .next (s.withEngine (storedEnables w s.engine)))

/-- STOP in RUNNING begins a drain, which completes at once where nothing is left to drain; in LOADING it ends the
load with ABANDONED; in HALTED and DRAINING it is ignored (R155, R177, R178). Rests on the model's choices
notes/assumptions/2.md, notes/assumptions/13.md. -/
def Obligations.StopByEngineState : Prop :=
  ∀ (w : Word) (s : State), w &&& 0x1F = 0x04 →
    (s.engine.state = .running → Answers (.stop w) s fun t =>
      t.engine = { storedEnables w s.engine with state := if NothingToDrain s then .halted else .draining }
      ∧ t.irq = t.engine.interrupt ∧ t.order = { s.order with pollTimer := none } ∧ SameNotices s t
      ∧ t.coll = s.coll ∧ t.scanner = s.scanner ∧ t.clock = s.clock ∧ t.pending = s.pending
      ∧ ∀ c, (t.cell c).asm = (s.cell c).asm ∧ (t.cell c).holds = (s.cell c).holds
        ∧ (t.cell c).guard = (s.cell c).guard ∧ (t.cell c).line.state = (s.cell c).line.state
        ∧ ((s.cell c).line.state ≠ .offline → engineReason c t = true))
    ∧ (s.engine.state = .loading → Answers (.stop w) s fun t =>
      t.engine = { storedEnables w s.engine with
        state := .halted, loaded := false, loadError := .abandoned, loadDone := true }
      ∧ t.irq = t.engine.interrupt ∧ Keeps [.engine, .irq, .port] s t ∧ t.port.waiting.orderUnit = none
      ∧ (s.port.outstanding ≠ none → t.port.outstanding = s.port.outstanding.map fun tr =>
          if tr.purpose = .setupRead then { tr with purpose := .abandonedSetupRead } else tr))
    ∧ (s.engine.state = .halted ∨ s.engine.state = .draining → Settled s →
      exec (.stop w) s = .next (s.withEngine (storedEnables w s.engine)))

/-- STOP in FAULTED recovers: HALTED with FAULT clear and the fault record kept, every open touchdown closed STOPPED
with its reports kept and its notices raised, the receivers stopped, and the order unit, the collation unit and the
notice unit's post and counts as they were (R25, R54, R55, R60, R156, R166, R181). The premise on the assemblers is an
invariant (AssemblersStayLegal). Rests on the model's choices notes/assumptions/2.md, notes/assumptions/9.md. -/
def Obligations.StopInFaultedRecovers : Prop :=
  ∀ (w : Word) (s : State), w &&& 0x1F = 0x04 → s.engine.state = .faulted → (∀ c, AssemblerOk (s.cell c).asm) →
    Answers (.stop w) s fun t =>
    t.engine = { storedEnables w s.engine with state := .halted, fault := false } ∧ t.irq = t.engine.interrupt
    ∧ t.order = s.order ∧ t.coll = s.coll ∧ t.scanner = s.scanner ∧ t.clock = s.clock ∧ t.pending = s.pending
    ∧ t.notice.post = s.notice.post ∧ t.notice.phase = s.notice.phase ∧ t.notice.written = s.notice.written
    ∧ t.notice.consumed = s.notice.consumed
    ∧ ∀ c, (t.cell c).asm.touchdown = none ∧ (t.cell c).asm.silence = none
      ∧ (t.cell c).asm.queue = queueAfterClose .stopped s.clock (s.cell c).asm ∧ CloseNoted .stopped c s t
      ∧ (t.cell c).line.rx = .idle ∧ (t.cell c).line.decoder = .hunt ∧ (t.cell c).line.windowEnd = none
      ∧ (t.cell c).line.state = (s.cell c).line.state

/-- NUDGE: a watched link is read at once, or the read outstanding is noted, and in every other phase or engine state
the order unit is as it was; a waiting notice unit reads the consumed word at once, or notes the read outstanding, and
is else as it was. A NUDGE beside one of INIT, START and STOP is an event after that action, whether or not the action
was performed (R153, R164, R171). Rests on the model's choices notes/assumptions/2.md, notes/assumptions/12.md,
notes/assumptions/13.md, notes/assumptions/35.md. -/
def Obligations.NudgeReadsAtOnce : Prop :=
  (∀ (w : Word) (s : State), w &&& 0x1F = 0x10 → Settled s → Answers (.nudge w) s fun t =>
    t.engine = storedEnables w s.engine ∧ t.irq = t.engine.interrupt ∧ Keeps [.engine, .irq, .port, .order, .notice] s t
    ∧ (if s.order.phase = .link ∧ s.engine.state = .running then
        if portBusy .orderUnit s then t.order = { s.order with nudgePending := true }
        else t.order = { s.order with pollTimer := none }
          ∧ Requested (readOf .linkRead (s.order.position.getD 0) 8) t
      else t.order = s.order)
    ∧ (s.engine.state = .running ∨ s.engine.state = .draining → NoticeNudged s t)
    ∧ (s.engine.state ≠ .running → s.engine.state ≠ .draining → t.notice = s.notice))
  ∧ ∀ (w : Word) (s : State),
    let alone : Word := w &&& ~~~0x10
    let nudge := exec (.nudge (w &&& ~~~0x07)) s
    (w &&& 0x1F = 0x11 →
      (s.engine.state = .halted → exec (.init w) s = exec (.init alone) s)
      ∧ (s.engine.state ≠ .halted → exec (.init w) s = nudge))
    ∧ (w &&& 0x1F = 0x12 →
      (s.engine.state = .halted → s.engine.loaded = true → ∃ u, exec (.start alone) s = .next u
        ∧ exec (.start w) s = .next { u with
            order := { u.order with nudgePending := u.order.nudgePending || u.order.phase == .link }
            notice := { u.notice with nudgePending := u.notice.nudgePending || u.notice.phase == .room } })
      ∧ (s.engine.state ≠ .halted ∨ s.engine.loaded = false → exec (.start w) s = nudge))
    ∧ (w &&& 0x1F = 0x14 →
      (s.engine.state = .running → ¬NothingToDrain s → Answers (.stop w) s fun t =>
        t.engine = { storedEnables w s.engine with state := .draining } ∧ t.irq = t.engine.interrupt
        ∧ t.order = { s.order with pollTimer := none } ∧ NoticeNudged s t
        ∧ Keeps [.engine, .irq, .port, .order, .cells, .notice] s t)
      ∧ ((s.engine.state = .running ∧ NothingToDrain s) ∨ s.engine.state = .loading ∨ s.engine.state = .faulted →
        exec (.stop w) s = exec (.stop alone) s)
      ∧ (s.engine.state = .halted ∨ s.engine.state = .draining → exec (.stop w) s = nudge))

/-- A memory fault in RUNNING or DRAINING: FAULTED, FAULT set, the fault record naming the requester and the kind; every
waiting request withdrawn; the scan abandoned; a SNAPSHOT in service ended; the order in service, its outcome, the chain
position, the report in progress, the notice unit's post and the counts kept; ENGINE on every line in service
(R20, R84, R86, R112, R156, R166, R180, R181). -/
def Obligations.MemoryFaultEntersFaulted : Prop :=
  ∀ (i : Instr) (k : FaultKind) (tr : Transaction) (s : State),
    s.engine.state = .running ∨ s.engine.state = .draining →
    s.port.outstanding = some tr → tr.purpose ≠ .abandonedSetupRead →
    (i = .transactionErrorResponse ∧ k = .errorResponse
      ∨ i = .responseTimerExpiry ∧ k = .timeout ∧ expired s.clock s.port.timer = true) →
    Answers i s fun t =>
      t.engine = { s.engine with state := .faulted, fault := true, faultRecord := some (tr.purpose.requester, k) }
      ∧ t.irq = t.engine.interrupt ∧ t.clock = s.clock ∧ t.pending = s.pending
      ∧ t.port.outstanding = none ∧ t.port.timer = none ∧ t.port.waiting = Waiting.none
      ∧ t.scanner = none
      ∧ t.coll.requests = s.coll.requests ++ (s.scanner.map fun sc => Request.scanAbandoned sc.key).toList
      ∧ t.coll.work = (match s.coll.work with | some (.snapshot _ _) => none | v => v)
      ∧ t.coll.lots = s.coll.lots ∧ t.coll.plans = s.coll.plans ∧ t.coll.inProgress = s.coll.inProgress
      ∧ t.order = { s.order with pollTimer := none, nudgePending := false, gathered := [] }
      ∧ SameNotices s t ∧ t.notice.retry = none ∧ t.notice.nudgePending = false
      ∧ ∀ c, (t.cell c).asm = (s.cell c).asm ∧ (t.cell c).holds = (s.cell c).holds
        ∧ (t.cell c).guard = (s.cell c).guard ∧ (t.cell c).line.state = (s.cell c).line.state
        ∧ (t.cell c).line.rx = (s.cell c).line.rx ∧ (t.cell c).line.decoder = (s.cell c).line.decoder
        ∧ ((s.cell c).line.state ≠ .offline → engineReason c t = true)

/-! ## Cell lines (02) -/

/-- A line whose receiver is not active hears nothing. On an active one a falling edge in IDLE begins a character, and
a start bit that samples high ends it without a character or an error (R23, R25). Rests on the model's choices
notes/assumptions/30.md. -/
def Obligations.EdgesBeginCharacters : Prop :=
  ∀ (c : CellNo) (s : State),
    (¬Active c s → ∀ i : Instr, lineEvent i = some c → exec i s = .next s)
    ∧ (Active c s → (s.cell c).line.rx = .idle → Settled s →
      exec (.fallingEdge c) s = .next (s.modLine c fun l => { l with rx := .character }))
    ∧ (Active c s → (s.cell c).line.rx = .character → Settled s →
      exec (.startBitNoise c) s = .next (s.modLine c fun l => { l with rx := .idle }))

/-- A byte moves the decoder: SYNC in HUNT, a type in TYPE, the type's length in LENGTH, a payload byte in PAYLOAD,
with the running sum; any other byte in HUNT is discarded (R27, R28). Rests on the model's choices
notes/assumptions/5.md. -/
def Obligations.BytesMoveDecoder : Prop :=
  ∀ (c : CellNo) (b : Byte) (s : State), Active c s → (s.cell c).line.rx = .character → Settled s → LineQuiet c s →
    let moves (d : Decoder) := exec (.byte c b) s = .next (s.modLine c fun l => { l with rx := .idle, decoder := d })
    ((s.cell c).line.decoder = .hunt → moves (if b = 0xA5 then .type s.clock else .hunt))
    ∧ (∀ y, (s.cell c).line.decoder = .type y → ∀ ty : MsgType, b = ty.code → moves (.length y ty))
    ∧ (∀ y ty, (s.cell c).line.decoder = .length y ty → b.toNat = ty.len →
        moves (if ty = .helloMsg then .check y ty (ty.code + b) [] else .payload y ty (ty.code + b) []))
    ∧ ∀ y ty sum bs, (s.cell c).line.decoder = .payload y ty sum bs →
        moves (if bs.length + 1 < ty.len then .payload y ty (sum + b) (bs ++ [b]) else .check y ty (sum + b) (bs ++ [b]))

/-- Each error event adds one to E, saturating at 255, ends any partial message and changes nothing else, while its
line is not to be quarantined by it (R24, R27 to R32). Rests on the model's choices notes/assumptions/3.md,
notes/assumptions/5.md. -/
def Obligations.LineErrorsCounted : Prop :=
  ∀ (i : Instr) (c : CellNo) (kind : LineError) (s : State), lineErrorOf c s i = some kind → Settled s → LineQuiet c s →
    (s.cell c).line.state = .quarantined ∨ (s.cell c).line.q = 0
      ∨ min ((s.cell c).line.errors + 1) 255 < (s.cell c).line.q →
    exec i s = .next (s.modLine c (errorCounted kind))

/-- An error event that brings E of an ONLINE line to its nonzero Q quarantines it: the open touchdown is closed
QUARANTINED with its notices, the clean count is 0, LINE_QUARANTINED is raised with E and the kind, and QUARANTINE is
in the reason set (R33, R54, R55, R59, R113). The premise on the assembler is an invariant (AssemblersStayLegal).
Rests on the model's choices notes/assumptions/5.md. -/
def Obligations.QuarantineAtThreshold : Prop :=
  ∀ (i : Instr) (c : CellNo) (kind : LineError) (s : State), lineErrorOf c s i = some kind →
    (s.cell c).line.state = .online → (s.cell c).line.q ≠ 0 → (s.cell c).line.q ≤ min ((s.cell c).line.errors + 1) 255 →
    AssemblerOk (s.cell c).asm → Answers i s fun t =>
      (t.cell c).line.state = .quarantined ∧ (t.cell c).line.errors = min ((s.cell c).line.errors + 1) 255
      ∧ (t.cell c).line.clean = 0 ∧ (t.cell c).line.decoder = .hunt
      ∧ (t.cell c).asm.touchdown = none ∧ (t.cell c).asm.silence = none
      ∧ (t.cell c).asm.queue = queueAfterClose .quarantined s.clock (s.cell c).asm ∧ CloseNoted .quarantined c s t
      ∧ Raised (.cell c) (.lineQuarantined (min ((s.cell c).line.errors + 1) 255) kind) s t
      ∧ (reasonByte t.engine.state t.coll.lots (t.cell c)).getLsbD 4 = true
      ∧ (s.engine.state ≠ .draining → Keeps [.port, .cells, .notice, .irq] s t ∧ KeepsCells c s t
          ∧ (t.cell c).line.windowEnd = (s.cell c).line.windowEnd)

/-- A window end: E returns to 0 and the next window ends 1,000 ms later. On a QUARANTINED line the window is judged
first: an error clears the clean count, a first clean window counts, a second restores the line with LINE_RESTORED and a
HOLD_STATE owed or begun (R32, R34). -/
def Obligations.WindowEndJudged : Prop :=
  ∀ (c : CellNo) (s : State), Active c s → expired s.clock (s.cell c).line.windowEnd = true →
    let l := (s.cell c).line
    let next := l.windowEnd.map fun w => Time.plus w 1000
    (l.state = .online → Settled s → LineQuiet c s →
      exec (.qualityWindowEnd c) s = .next (s.modLine c fun l => { l with errors := 0, windowEnd := next }))
    ∧ (l.state = .quarantined → l.errors ≠ 0 → Settled s → LineQuiet c s →
      exec (.qualityWindowEnd c) s = .next (s.modLine c fun l => { l with errors := 0, windowEnd := next, clean := 0 }))
    ∧ (l.state = .quarantined → l.errors = 0 → l.clean = 0 → Settled s → LineQuiet c s →
      exec (.qualityWindowEnd c) s = .next (s.modLine c fun l => { l with errors := 0, windowEnd := next, clean := 1 }))
    ∧ (l.state = .quarantined → l.errors = 0 → 1 ≤ l.clean → Settled s → Answers (.qualityWindowEnd c) s fun t =>
      (t.cell c).line.state = .online ∧ (t.cell c).line.clean = 0 ∧ (t.cell c).line.errors = 0
      ∧ (t.cell c).line.windowEnd = next ∧ Raised (.cell c) .lineRestored s t
      ∧ ((t.cell c).line.forced = true
          ∨ (t.cell c).line.lastSent = some (holdContent t.engine.state t.coll.lots (t.cell c)))
      ∧ (t.cell c).asm = (s.cell c).asm ∧ (t.cell c).holds = (s.cell c).holds ∧ (t.cell c).guard = (s.cell c).guard
      ∧ Keeps [.port, .cells, .notice] s t ∧ KeepsCells c s t)

/-- When the last character of a HOLD_STATE has gone, the transmitter looks again: the final message where it is owed,
SILENT after a final message of a line still OFFLINE, a further message where the forced send is set or the content is
not the last sent, else IDLE (R41, R42). An IDLE transmitter begins a message on the same conditions (R40). A
HOLD_STATE is seven bytes, the content's reason byte and held site set under TYPE 81h with their check (R43, R192),
and the reason byte holds each reason at its bit (R110 to R114, R192). Rests on the model's choices
notes/assumptions/15.md, notes/assumptions/32.md. -/
def Obligations.TransmitterSendsLatestContent : Prop :=
  (∀ k : Content, ∃ check : Byte,
    k.message = [0xA5, 0x81, 0x03, k.reasons, BitVec.ofNat 8 k.held.toNat, BitVec.ofNat 8 (k.held.toNat / 256), check]
    ∧ (0x81 + 0x03 + k.reasons.toNat + k.held.toNat % 256 + k.held.toNat / 256 + check.toNat) % 256 = 0)
  ∧ (∀ (eng : EngineState) (lots : List Lot) (cs : CellState),
    let k := holdContent eng lots cs
    let bit (n : Nat) := k.reasons.getLsbD n
    k.held = cs.holds.held ∧ bit 0 = cs.holds.buffer ∧ bit 1 = cs.holds.cellGuard ∧ bit 2 = cs.holds.ordered
    ∧ (bit 3 = true ↔ cs.line.state ≠ .offline ∧ eng ≠ .running) ∧ (bit 4 = true ↔ cs.line.state = .quarantined)
    ∧ (bit 5 = true ↔ ∃ key ∈ cs.holds.currentLot, ∃ l ∈ findLot lots key, l.tripped = true)
    ∧ (bit 6 = true ↔ cs.line.state = .offline) ∧ bit 7 = false)
  ∧ (∀ (c : CellNo) (final : Bool) (rate : Fin 8) (m : List Byte) (s : State), Settled s →
    (s.cell c).line.tx = .sending final rate m → final = true ∨ (s.cell c).line.state ≠ .offline ∨
      (s.cell c).line.finalOwed = true →
    let l := (s.cell c).line
    let k := holdContent s.engine.state s.coll.lots (s.cell c)
    exec (.holdStateSent c) s = .next (s.modLine c fun l' =>
      if l.finalOwed then
        { l' with tx := .sending true l.txRate k.message, lastSent := some k, forced := false, finalOwed := false }
      else if l.state = .offline then { l' with tx := .silent, lastSent := none }
      else if l.forced ∨ l.lastSent ≠ some k then
        { l' with tx := .sending false l.txRate k.message, lastSent := some k, forced := false }
      else { l' with tx := .idle }))
  ∧ ∀ (eng : EngineState) (lots : List Lot) (cs : CellState),
    let k := holdContent eng lots cs
    (cs.line.tx ≠ .idle → transmit eng lots cs = cs)
    ∧ (cs.line.tx = .idle → transmit eng lots cs = { cs with line :=
        if cs.line.finalOwed then
          { cs.line with tx := .sending true cs.line.txRate k.message, lastSent := some k, forced := false, finalOwed := false }
        else if cs.line.state ≠ .offline ∧ (cs.line.forced ∨ cs.line.lastSent ≠ some k) then
          { cs.line with tx := .sending false cs.line.txRate k.message, lastSent := some k, forced := false }
        else cs.line })

/-! ## Touchdowns (03) -/

/-- An OPEN: discarded on a QUARANTINED line; in IDLE it opens a touchdown with its number and its declared set
clamped to the enabled set, the silence timer set, or is refused DRAINING or EMPTY_TOUCHDOWN; in OPEN the open
touchdown is first closed SUPERSEDED with its notices (R29, R47, R48, R54, R55, R60). Rests on the model's choices
notes/assumptions/4.md. -/
def Obligations.OpenTaken : Prop :=
  ∀ (c : CellNo) (number declared : Half) (s : State), Completes c (.openMsg number declared) s →
    let a := (s.cell c).asm
    let clamped := declared &&& a.enabled
    Answers (.openMsg c number declared) s fun t =>
      (t.cell c).line.rx = .idle ∧ (t.cell c).line.decoder = .hunt ∧ (t.cell c).line.errors = (s.cell c).line.errors
      ∧ t.order = s.order ∧ t.coll = s.coll ∧ t.scanner = s.scanner ∧ t.clock = s.clock ∧ t.pending = s.pending
      ∧ (s.engine.state ≠ .draining → Keeps [.port, .cells, .notice, .irq] s t ∧ KeepsCells c s t)
      ∧ (t.cell c).guard = (s.cell c).guard
      ∧ ((s.cell c).line.state = .quarantined → (t.cell c).asm = a ∧ SameNotices s t)
      ∧ ((s.cell c).line.state = .online →
          (t.cell c).asm.queue = queueAfterClose .superseded s.clock a ∧ CloseNoted .superseded c s t
          ∧ (s.engine.state ≠ .draining → clamped ≠ 0 →
              (t.cell c).asm.touchdown = some (Touchdown.opened number clamped)
              ∧ (t.cell c).asm.silence = some (Time.plus s.clock a.timeout)
              ∧ (a.touchdown = none → SameNotices s t))
          ∧ (s.engine.state ≠ .draining → clamped = 0 → (t.cell c).asm.touchdown = none
              ∧ Raised (.cell c) (.messageRefused .emptyTouchdown 0xFF 0) s t)
          ∧ (s.engine.state = .draining → (t.cell c).asm.touchdown = none
              ∧ Raised (.cell c) (.messageRefused .draining 0xFF 0) s t))

/-- A UNIT: discarded on a QUARANTINED line; refused NO_TOUCHDOWN in IDLE; in OPEN refused STRAY_SITE, REPEAT_SITE or
BAD_KIND with the assembler as it was; else stored in its site's place with the silence timer set afresh, or lost with
TOUCHDOWN_LOSS where all 64 slots are in use (R29, R46, R49, R50). Rests on the model's choices
notes/assumptions/4.md. -/
def Obligations.UnitTaken : Prop :=
  ∀ (c : CellNo) (site : Byte) (key : Word) (wafer : Byte) (x y : Half) (bin attempt : Byte) (s : State),
    Completes c (.unitMsg site key wafer x y bin attempt) s → Settled s →
    let a := (s.cell c).asm
    Answers (.unitMsg c site key wafer x y bin attempt) s fun t =>
      (t.cell c).line.rx = .idle ∧ (t.cell c).line.decoder = .hunt ∧ (t.cell c).line.errors = (s.cell c).line.errors
      ∧ Keeps [.port, .cells, .notice] s t ∧ KeepsCells c s t ∧ (t.cell c).guard = (s.cell c).guard
      ∧ ((s.cell c).line.state = .quarantined → (t.cell c).asm = a ∧ SameNotices s t)
      ∧ ((s.cell c).line.state = .online →
        (a.touchdown = none → (t.cell c).asm = a ∧ Raised (.cell c) (.messageRefused .noTouchdown site 0) s t)
        ∧ ∀ td, a.touchdown = some td →
          if 15 < site.toNat ∨ td.declared.getLsbD site.toNat = false then
            (t.cell c).asm = a ∧ Raised (.cell c) (.messageRefused .straySite site td.number) s t
          else if td.heard.getLsbD site.toNat = true then
            (t.cell c).asm = a ∧ Raised (.cell c) (.messageRefused .repeatSite site td.number) s t
          else if 1 < attempt.toNat then
            (t.cell c).asm = a ∧ Raised (.cell c) (.messageRefused .badKind site td.number) s t
          else
            let n : Site := Fin.ofNat 16 site.toNat
            let r : Report := ⟨n, key, wafer, x, y, bin, if attempt = 0 then .first else .retest⟩
            if a.slots < 64 then
              (t.cell c).asm = { a with
                touchdown := some { td with reports := insertReport r td.reports, heard := td.heard ||| siteBit n }
                silence := some (Time.plus s.clock a.timeout) }
              ∧ (t.cell c).asm.slots = a.slots + 1 ∧ SameNotices s t
            else
              (t.cell c).asm = { a with
                touchdown := some { td with heard := td.heard ||| siteBit n, lost := td.lost + 1 } }
              ∧ Raised (.cell c) (.touchdownLoss td.number 1) s t)

/-- A CLOSE taken in IDLE is discarded without effect; taken in OPEN it closes the touchdown NORMAL, with
NUMBER_MISMATCH set in the record where the numbers differ, and the record joins the closed queue, or is discarded
with TOUCHDOWN_LOSS where the queue is full. A close of any kind sets the missing site set to the declared sites
without a report, and is short where a site is missing, the kind is not NORMAL or the numbers differ. On a QUARANTINED
line it does not reach the assembler (R29, R51, R54, R55). Rests on the model's choices notes/assumptions/4.md. -/
def Obligations.CloseTaken : Prop :=
  (∀ (td : Touchdown) (kind : CloseKind) (now : Time),
    let td' := td.closed kind now
    let missing (q : Site) : Bool := td.declared.getLsbD q.val && !td.reports.any fun r => r.site == q
    (∃ m : Half, td' = { td with closeKind := some kind, closeStamp := some now, missing := some m, mark := 0 }
      ∧ ∀ q : Site, m.getLsbD q.val = missing q)
    ∧ (td'.short = true ↔ (∃ q, missing q = true) ∨ kind ≠ .normal ∨ td.mismatch = true))
  ∧ ∀ (c : CellNo) (number : Half) (s : State), Completes c (.closeMsg number) s →
    let a := (s.cell c).asm
    ((s.cell c).line.state = .quarantined ∨ a.touchdown = none → Answers (.closeMsg c number) s fun t =>
      (t.cell c).asm = a ∧ SameNotices s t ∧ (t.cell c).line.errors = (s.cell c).line.errors
      ∧ (t.cell c).holds = (s.cell c).holds ∧ (t.cell c).guard = (s.cell c).guard)
    ∧ ∀ td ∈ a.touchdown, (s.cell c).line.state = .online → Answers (.closeMsg c number) s fun t =>
      (t.cell c).asm.touchdown = none ∧ (t.cell c).asm.silence = none
      ∧ (let td' := ({ td with mismatch := td.mismatch || number != td.number } : Touchdown).closed .normal s.clock
        let lost := td.reports ≠ [] ∧ 15 ≤ a.queue.length
        td'.closeKind = some .normal ∧ td'.closeStamp = some s.clock ∧ td'.mark = 0 ∧ td'.reports = td.reports
        ∧ (number ≠ td.number → td'.mismatch = true)
        ∧ (td.reports ≠ [] → a.queue.length < 15 → (t.cell c).asm.queue = a.queue ++ [td'])
        ∧ (td.reports = [] ∨ lost → (t.cell c).asm.queue = a.queue)
        ∧ (lost → Raised (.cell c) (.touchdownLoss td.number td.reports.length) s t)
        ∧ (td'.short → Noted (.cell c) (.shortTouchdown td.number .normal (td'.missing.getD 0) td.lost td'.mismatch) s t)
        ∧ (¬lost →
            if td'.short then
              Raised (.cell c) (.shortTouchdown td.number .normal (td'.missing.getD 0) td.lost td'.mismatch) s t
            else SameNotices s t))

/-- A HELLO on an ONLINE line closes an open touchdown CELL_RESTART and raises CELL_RESTART; on a QUARANTINED line it
does not reach the assembler; on either it has a HOLD_STATE sent (R29, R40, R52). The silence timer's expiry closes
the open touchdown TIMED_OUT. Either close raises SHORT_TOUCHDOWN, and TOUCHDOWN_LOSS too where the closed queue is
full and discards the record (R53 to R55). Rests on the model's choices notes/assumptions/4.md. -/
def Obligations.HelloAndSilenceTaken : Prop :=
  ∀ (c : CellNo) (s : State),
    let a := (s.cell c).asm
    let short (td : Touchdown) : Detail :=
      .shortTouchdown td.number .timedOut ((td.closed .timedOut s.clock).missing.getD 0) td.lost td.mismatch
    let lost (td : Touchdown) : Prop := td.reports ≠ [] ∧ 15 ≤ a.queue.length
    (Completes c .helloMsg s → Answers (.helloMsg c) s fun t =>
      (if (s.cell c).line.state = .online then
        (t.cell c).asm.touchdown = none ∧ (t.cell c).asm.queue = queueAfterClose .cellRestart s.clock a
        ∧ Raised (.cell c) .cellRestart s t
        ∧ CloseNoted .cellRestart c s t
      else (t.cell c).asm = a ∧ SameNotices s t)
      ∧ (if (s.cell c).line.tx = .idle then (t.cell c).line.tx ≠ .idle
          ∧ (t.cell c).line.lastSent = some (holdContent t.engine.state t.coll.lots (t.cell c))
        else (t.cell c).line.forced = true))
    ∧ (∀ td ∈ a.touchdown, expired s.clock a.silence = true → Answers (.silenceTimerExpiry c) s fun t =>
      (t.cell c).asm.touchdown = none ∧ (t.cell c).asm.silence = none
      ∧ (t.cell c).asm.queue = queueAfterClose .timedOut s.clock a
      ∧ (¬lost td → Raised (.cell c) (short td) s t)
      ∧ (lost td → Noted (.cell c) (short td) s t
          ∧ Raised (.cell c) (.touchdownLoss td.number td.reports.length) s t))

/-! ## Yield guards (05) -/

/-- The run count: a FAIL adds 1 and saturates at 255, a PASS sets it to 0; it is independent of the window; it returns to
0 when the window is emptied by a change of W, by removal from the enabled set, or by clear-windows (R91). -/
def Obligations.RunCountFollowsOutcomes : Prop :=
  (∀ (w : Nat) (q : SiteGuard),
    (q.join w .fail).run = min (q.run + 1) 255 ∧ (q.join w .pass).run = 0 ∧ q.dropOldest.run = q.run)
  ∧ (let q := (List.replicate 40 Verdict.fail).foldl (fun q v => q.join 16 v) SiteGuard.reset
    q.window.length = 16 ∧ q.failCount = 16 ∧ q.run = 40)
  ∧ (∀ (p : GuardGroup) (g : Guard) (s : Site),
    ((g.takeGroup p).site s).run = if p.w = g.w then (g.site s).run else 0)
  ∧ (∀ (old new : Half) (g : Guard) (s : Site),
    ((g.takeSites old new).site s).run = if hasSite old s = true ∧ hasSite new s = false then 0 else (g.site s).run)
  ∧ ∀ (b : ReleaseBody) (g : Guard) (s : Site),
    ((g.release b).site s).run = if clearScope b s then 0 else (g.site s).run

/-- The run check is true when K is greater than 0 and the run count is K or more; its flag is the site run flag and its
notice SITE_RUN; K = 255 trips at the 255th consecutive FAIL and stays satisfiable, and with K = 1 the first FAIL
trips (R94). -/
def Obligations.RunCheckTrips : Prop :=
  (∀ (g : Guard) (enabled : Half) (s : Site),
    (g.runCheck s = true ↔ 0 < g.k ∧ g.k ≤ (g.site s).run)
    ∧ ((g.latch enabled s).site s).runFlag = ((g.site s).runFlag || g.runCheck s)
    ∧ ((∃ d ∈ g.trips enabled s, d.kind = .siteRun) ↔ g.runCheck s = true ∧ (g.site s).runFlag = false))
  ∧ ∀ (g : Guard) (s : Site) (n : Nat),
    let g' := g.setSite s ((List.replicate n Verdict.fail).foldl (fun q v => q.join g.w v) SiteGuard.reset)
    (g.k = 255 → (g'.runCheck s = true ↔ 255 ≤ n)) ∧ (g.k = 1 → (g'.runCheck s = true ↔ 1 ≤ n))

/-- The three fraction checks, in exact integers per 1024 outcomes, the spread as a signed difference; each is false with
its limit at 1024 where no fail count exceeds its filled count; a check's flag is latched, only the site of the outcome
is judged by the site checks, and the notices stand in check order (R92, R93, R95 to R97). -/
def Obligations.FractionChecksAndLatches : Prop :=
  ∀ (g : Guard) (enabled : Half) (s : Site),
    let n := (g.site s).window.length
    let f := (g.site s).failCount
    let others := allSites.filter fun o => enabled.getLsbD o.val && o != s
    let no := (others.map fun o => (g.site o).window.length).sum
    let fo := (others.map fun o => (g.site o).failCount).sum
    let all := allSites.filter fun o => enabled.getLsbD o.val
    let nc := (all.map fun o => (g.site o).window.length).sum
    let fc := (all.map fun o => (g.site o).failCount).sum
    (g.limitCheck s = true ↔ g.m ≤ n ∧ g.l < f * 1024 / n)
    ∧ (g.spreadCheck enabled s = true ↔
        g.m ≤ n ∧ g.m ≤ no ∧ (g.d : Int) < ((f * 1024 / n : Nat) : Int) - ((fo * 1024 / no : Nat) : Int))
    ∧ (g.cellCheck enabled = true ↔ g.mc ≤ nc ∧ g.lc < fc * 1024 / nc)
    ∧ (f ≤ n → g.l = 1024 → g.limitCheck s = false) ∧ (f ≤ n → g.d = 1024 → g.spreadCheck enabled s = false)
    ∧ (fc ≤ nc → g.lc = 1024 → g.cellCheck enabled = false)
    ∧ (g.latch enabled s).cellFlag = (g.cellFlag || g.cellCheck enabled)
    ∧ ((g.latch enabled s).site s).limitFlag = ((g.site s).limitFlag || g.limitCheck s)
    ∧ ((g.latch enabled s).site s).spreadFlag = ((g.site s).spreadFlag || g.spreadCheck enabled s)
    ∧ (∀ o, o ≠ s → (g.latch enabled s).site o = g.site o)
    ∧ (g.trips enabled s).map Detail.kind =
        (if g.runCheck s = true ∧ (g.site s).runFlag = false then [NoticeKind.siteRun] else [])
          ++ (if g.limitCheck s = true ∧ (g.site s).limitFlag = false then [NoticeKind.siteLimit] else [])
          ++ (if g.spreadCheck enabled s = true ∧ (g.site s).spreadFlag = false then [NoticeKind.siteSpread] else [])
          ++ (if g.cellCheck enabled = true ∧ g.cellFlag = false then [NoticeKind.cellLimit] else [])

/-! ## Collation (04) and maps (01) -/

/-- The cell taken for a touchdown is the first in rotation after the pointer whose head record is eligible: none of its
reports still to apply names an OPENING lot (R65). -/
def Obligations.NextCellInRotation : Prop :=
  ∀ (c : CellNo) (s : State),
    let distance (d : CellNo) := (d.val + 23 - s.coll.pointer.val) % 24
    let candidate (d : CellNo) : Prop := ∃ td, (s.cell d).asm.queue.head? = some td
      ∧ ∀ r ∈ td.reports.drop td.mark, ∀ l, findLot s.coll.lots r.key = some l → l.state ≠ .opening
    nextCell s = some c ↔ candidate c ∧ ∀ d, distance d < distance c → ¬candidate d

/-- With no request waiting the collation unit takes the next cell's head record: it becomes the work in service, the
pointer becomes the cell, and for a first report that passes lookup and the identity checks the die's map cell is read
at map + 2 × (y × columns + x). A first report refused at lookup or by an identity check is refused with its code,
counted by its lot where it has one, noticed, and gives no outcome; it ends its record, or the next report that passes
has its map cell read (R2, R64, R65, R67 to R71, R80, R81). Rests on the model's choices notes/assumptions/12.md. -/
def Obligations.RecordTakenReadsMapCell : Prop :=
  ∀ (c : CellNo) (td : Touchdown) (r : Report) (s : State),
    s.coll.work = none → s.coll.requests = [] → s.engine.state = .running ∨ s.engine.state = .draining →
    nextCell s = some c → (s.cell c).asm.queue.head? = some td → td.reports[td.mark]? = some r →
    (∀ l, findLot s.coll.lots r.key = some l → ∀ w, l.wafers.find? (fun w => w.number == r.wafer.toNat) = some w →
      r.x.toNat < l.columns → r.y.toNat < l.rows → ((s.coll.plan l.plan).info r.bin).isSome →
      Answers .collationTakeWork s fun t =>
        t.coll = { s.coll with work := some (.record c), pointer := c, inProgress := some .reading }
        ∧ Requested (readOf .mapRead (w.map + BitVec.ofNat 64 (2 * (r.y.toNat * l.columns + r.x.toNat))) 2) t
        ∧ Keeps [.coll, .port, .irq] s t)
    ∧ ∀ code, refusalOf r s = some code →
      let lots := if code = .unknownLot then s.coll.lots else refusedCounted r.key s.coll.lots
      let refused (t : State) := (t.cell c).guard = (s.cell c).guard
        ∧ (t.cell c).holds.currentLot = (if code = .unknownLot then (s.cell c).holds.currentLot else some r.key)
        ∧ Noted (.cell c) (.reportRefused code r td.number (td.closeStamp.getD 0) none) s t
      (td.mark + 1 = td.reports.length → Answers .collationTakeWork s fun t =>
        refused t ∧ t.coll = { s.coll with pointer := c, lots := lots, work := none, inProgress := none }
        ∧ (t.cell c).asm.queue = (s.cell c).asm.queue.tail)
      ∧ ∀ r' a', td.reports[td.mark + 1]? = some r' → identify r' s = .ok a' → Answers .collationTakeWork s fun t =>
        refused t
        ∧ t.coll = { s.coll with pointer := c, lots := lots, work := some (.record c), inProgress := some .reading }
        ∧ (t.cell c).asm.queue = { td with mark := td.mark + 1 } :: (s.cell c).asm.queue.tail
        ∧ Requested (readOf .mapRead a' 2) t

/-- The fault kind of a map cell is the first of the four that applies, and a cell none applies to is valid (R3, R5, R192).
What a decided report writes into its valid map cell: a first result, a duplicate, an orphan, a report over the limit, or
a counted retest under KEEP_LAST or KEEP_BEST (R72 to R75). -/
def Obligations.MapCellContentDecided : Prop :=
  (∀ (p : Plan) (limit : Nat) (w : Half),
    let bin := w.toNat % 256
    let attempts := w.toNat / 256 % 16
    (cellBin w).toNat = bin ∧ cellAttempts w = attempts
    ∧ mapFault p limit w =
        if 240 ≤ bin ∧ bin ≤ 253 then some .badValue
        else if 254 ≤ bin ∧ attempts ≠ 0 ∨ bin ≤ 239 ∧ attempts = 0 then some .badAttempts
        else if bin ≤ 239 ∧ p.info (BitVec.ofNat 8 bin) = none then some .unusedBin
        else if bin ≤ 239 ∧ limit < attempts then some .overAttemptLimit
        else none)
  ∧ ∀ (p : Plan) (policy : Policy) (limit : Nat) (r : Report) (was : Half) (i j : BinInfo),
    mapFault p limit was = none → cellBin was ≠ notADie → limit ≤ 15 →
    p.info r.bin = some i → (cellBin was ≠ untested → p.info (cellBin was) = some j) →
    let now := contentOf (caseOf p policy limit r was) r was
    let flags (v : Half) := v &&& 0xF000
    (cellBin was = untested → cellBin now = r.bin ∧ cellAttempts now = 1
      ∧ flags now = match r.attempt with | .first => 0 | .retest => orphanFlag)
    ∧ (cellBin was ≠ untested → r.attempt = .first → now = was ||| duplicateFlag)
    ∧ (cellBin was ≠ untested → r.attempt = .retest → cellAttempts was = limit → now = was ||| overLimitFlag)
    ∧ (cellBin was ≠ untested → r.attempt = .retest → cellAttempts was < limit →
        cellAttempts now = cellAttempts was + 1
        ∧ (policy = .keepLast → cellBin now = r.bin
            ∧ flags now = if r.bin = cellBin was then flags was else flags was ||| changedFlag)
        ∧ (policy = .keepBest → i.rank < j.rank → cellBin now = r.bin ∧ flags now = flags was ||| changedFlag)
        ∧ (policy = .keepBest → j.rank ≤ i.rank → cellBin now = cellBin was ∧ flags now = flags was))

/-- The map read of the report in progress: a valid cell that holds a die brings one 2-byte write of the decided
content to the address read, with no tally moved yet (R71, R76); an invalid cell, or NOT_A_DIE, refuses the report
with MAP_CORRUPT or OFF_WAFER: its lot's refused count rises, REPORT_REFUSED is raised, the guard unit takes its
outcome, and its record ends or goes on with the next report (R5, R67, R70, R71, R78, R81, R83, R90, R92, R99). Rests
on the model's choices notes/assumptions/7.md, notes/assumptions/12.md. -/
def Obligations.MapReadDecides : Prop :=
  ∀ (c : CellNo) (td : Touchdown) (r : Report) (l : Lot) (a : Addr) (v : Half) (s : State),
    InProgress c td r l a .reading s → Outstanding .mapRead 2 s →
    let p := s.coll.plan l.plan
    (mapFault p l.limit v = none → cellBin v ≠ notADie → Answers (.mapReadDone v) s fun t =>
      let now := contentOf (caseOf p l.policy l.limit r v) r v
      t.coll = { s.coll with inProgress := some (.writing v now) }
      ∧ Requested (writeOf .mapWrite a (leBytes 2 now.toNat)) t ∧ Keeps [.coll, .port, .irq] s t)
    ∧ ∀ i, p.info r.bin = some i → mapFault p l.limit v ≠ none ∨ cellBin v = notADie →
      let code : Code := if mapFault p l.limit v = none then .offWafer else .mapCorrupt
      let refused (t : State) := t.coll.lots = refusedCounted r.key s.coll.lots ∧ t.coll.requests = s.coll.requests
        ∧ (t.cell c).holds.currentLot = some r.key ∧ GuardTook c r.site i.cls s t
        ∧ Noted (.cell c) (.reportRefused code r td.number (td.closeStamp.getD 0) (mapFault p l.limit v)) s t
      (td.mark + 1 = td.reports.length → Answers (.mapReadDone v) s fun t =>
        refused t ∧ t.coll.work = none ∧ t.coll.inProgress = none
        ∧ (t.cell c).asm.queue = (s.cell c).asm.queue.tail)
      ∧ ∀ r' a', td.reports[td.mark + 1]? = some r' → identify r' s = .ok a' → Answers (.mapReadDone v) s fun t =>
        refused t ∧ t.coll.work = some (.record c) ∧ t.coll.inProgress = some .reading
        ∧ (t.cell c).asm.queue = { td with mark := td.mark + 1 } :: (s.cell c).asm.queue.tail
        ∧ Requested (readOf .mapRead a' 2) t

/-- The map write of the report in progress: the lot's and the wafer's counts move as the table of R77 gives,
saturating at 16,777,215; a wafer whose tested count reaches its candidates becomes complete with WAFER_COMPLETE; a
duplicate and a report over the limit raise their notice; the cell's current lot is the report's; the guard unit takes
the outcome; the lot floor is evaluated where tested or passed moves, and a trip latches the flag with LOT_FLOOR. The
last report of a record finishes it, and another that passes its checks has its map cell read (R67, R77 to R83, R90,
R92, R99, R132). Rests on the model's choices notes/assumptions/7.md, notes/assumptions/8.md, notes/assumptions/12.md.
-/
def Obligations.MapWriteMovesTallies : Prop :=
  ∀ (c : CellNo) (td : Touchdown) (r : Report) (l : Lot) (a : Addr) (was now : Half) (i j : BinInfo) (s : State),
    InProgress c td r l a (.writing was now) s → OutstandingFor .mapWrite s →
    (s.coll.plan l.plan).info r.bin = some i →
    (cellBin was ≠ untested → (s.coll.plan l.plan).info (cellBin was) = some j) →
    let case := caseOf (s.coll.plan l.plan) l.policy l.limit r was
    let stamp := td.closeStamp.getD 0
    let up (b : Bool) (n : Nat) := if b then min (n + 1) 16777215 else n
    let passed (n : Nat) :=
      match case with
      | .firstResult => up (i.cls == .pass) n
      | .changed => if j.cls = .pass ∧ i.cls = .fail then n - 1 else up (j.cls == .fail && i.cls == .pass) n
      | _ => n
    let completed := (l.wafers.find? fun w => w.number == r.wafer.toNat).filter fun w =>
      case == .firstResult && !w.complete && min (w.tested + 1) 16777215 == w.candidates
    let moved (l' : Lot) : Prop :=
      l'.tested = up (case == .firstResult) l.tested ∧ l'.passed = passed l.passed
      ∧ l'.duplicates = up (case == .duplicate) l.duplicates ∧ l'.refused = up (case == .overLimit) l.refused
      ∧ (∀ g : Fin 16, l'.groups[g] =
          match case with
          | .firstResult => up (g == i.group) l.groups[g]
          | .changed => up (g == i.group) (l.groups[g] - if g = j.group then 1 else 0)
          | _ => l.groups[g])
      ∧ l'.wafers.map (fun w => (w.number, w.tested, w.passed, w.complete)) = l.wafers.map fun w =>
          if w.number = r.wafer.toNat then
            (w.number, up (case == .firstResult) w.tested, passed w.passed, w.complete || completed.isSome)
          else (w.number, w.tested, w.passed, w.complete)
    let floor (l' : Lot) (t : State) : Prop :=
      (l.floor = none → l'.tripped = l.tripped)
      ∧ ∀ f ∈ l.floor,
        let y := l'.passed * 10000 / l'.tested
        if (case = .firstResult ∨ case = .changed ∧ i.cls ≠ j.cls) ∧ f.minimum ≤ l'.tested ∧ y < f.figure
            ∧ l.tripped = false then
          l'.tripped = true
            ∧ Noted (.lot r.key 0) (.lotFloor r.key l'.tested l'.passed y f.figure f.minimum (some (c, r.site))) s t
        else l'.tripped = l.tripped
    let finished (t : State) : Prop :=
      (∃ l', findLot t.coll.lots r.key = some l' ∧ moved l' ∧ floor l' t)
      ∧ (∀ w ∈ completed, Noted (.lot r.key w.number)
          (.waferComplete r.key w.candidates (min (w.tested + 1) 16777215) (passed w.passed)) s t)
      ∧ (case = .duplicate → Noted (.lot r.key r.wafer.toNat)
          (.duplicateDie r.key c r.site td.number stamp r.x r.y r.bin (cellBin was)) s t)
      ∧ (case = .overLimit → Noted (.cell c) (.reportRefused .overLimit r td.number stamp none) s t)
      ∧ (t.cell c).holds.currentLot = some r.key ∧ GuardTook c r.site i.cls s t
    (td.mark + 1 = td.reports.length → Answers .mapWriteDone s fun t =>
      finished t ∧ t.coll.work = none ∧ t.coll.inProgress = none
      ∧ (t.cell c).asm.queue = (s.cell c).asm.queue.tail)
    ∧ ∀ r' a', td.reports[td.mark + 1]? = some r' → identify r' s = .ok a' → Answers .mapWriteDone s fun t =>
      finished t ∧ t.coll.work = some (.record c) ∧ t.coll.inProgress = some .reading
      ∧ (t.cell c).asm.queue = { td with mark := td.mark + 1 } :: (s.cell c).asm.queue.tail
      ∧ Requested (readOf .mapRead a' 2) t

/-- The scanner: the cells of a read are examined in address order, each valid one counted by its bin value, up to the
first invalid one; a read with cells left in its map brings the next read; the first invalid cell ends the scan with
an INVALID completion that names its wafer, x, y and fault kind; after the last cell of a wafer its counts join the
results and the next wafer's map is read at its own address; the last cell of the last wafer ends the scan with
SUCCESS and the counts (R15 to R18). Rests on the model's choices notes/assumptions/12.md. -/
def Obligations.ScanCountsAndCompletes : Prop :=
  (∀ ws : List Half, cellsOfBytes (ws.flatMap fun w => leBytes 2 w.toNat) = ws)
  ∧ (∀ (p : Plan) (sc : Scan) (pre : List Half), (∀ w ∈ pre, mapFault p sc.limit w = none) →
    let counted := pre.foldl (fun sc w => sc.count p w) sc
    sc.examine p pre = (counted, none)
    ∧ ∀ (w : Half) (post : List Half) (f : MapFault), mapFault p sc.limit w = some f →
        sc.examine p (pre ++ w :: post) = (counted, some f))
  ∧ (∀ (p : Plan) (w : Half) (sc : Scan), mapFault p sc.limit w = none →
    (∃ n k m j g, sc.count p w = { sc with index := n, candidates := k, tested := m, passed := j, groups := g })
    ∧ (sc.count p w).index = sc.index + 1
    ∧ (sc.count p w).candidates = sc.candidates + (if cellBin w = notADie then 0 else 1)
    ∧ (sc.count p w).tested = sc.tested + (if (cellBin w).toNat < 240 then 1 else 0)
    ∧ (sc.count p w).passed = sc.passed + (if (p.info (cellBin w)).map (·.cls) = some .pass then 1 else 0)
    ∧ ∀ g : Fin 16, (sc.count p w).groups[g] =
        sc.groups[g] + if (p.info (cellBin w)).map (·.group) = some g then 1 else 0)
  ∧ ∀ (data : List Byte) (sc sc' : Scan) (s : State), Outstanding .scanRead data.length s → s.scanner = some sc →
    (∀ f, sc.examine (s.coll.plan sc.plan) (cellsOfBytes data) = (sc', some f) → Answers (.scanReadDone data) s fun t =>
      t.scanner = none ∧ t.coll = { s.coll with requests := s.coll.requests ++
        [.scanInvalid sc'.key sc'.wafer (sc'.index % sc'.columns) (sc'.index / sc'.columns) f] }
      ∧ Keeps [.scanner, .coll, .port, .irq] s t)
    ∧ (sc.examine (s.coll.plan sc.plan) (cellsOfBytes data) = (sc', none) →
      (∀ n map rest, sc'.todo = (n, map) :: rest → sc'.index < sc'.columns * sc'.rows →
        Answers (.scanReadDone data) s fun t =>
          t.scanner = some sc' ∧ Keeps [.scanner, .port, .irq] s t
          ∧ let b := map + BitVec.ofNat 64 (2 * sc'.index)
            Requested (readOf .scanRead b (min (2 * (sc'.columns * sc'.rows - sc'.index)) (64 - b.toNat % 64))) t)
      ∧ (∀ n map n' map' rest, sc'.todo = (n, map) :: (n', map') :: rest → sc'.columns * sc'.rows ≤ sc'.index →
        Answers (.scanReadDone data) s fun t =>
          t.scanner = some { sc' with
            todo := (n', map') :: rest, index := 0, candidates := 0, tested := 0, passed := 0
            finished := sc'.finished ++ [⟨n, sc'.candidates, sc'.tested, sc'.passed⟩] }
          ∧ Keeps [.scanner, .port, .irq] s t
          ∧ Requested (readOf .scanRead map' (min (2 * (sc'.columns * sc'.rows)) (64 - map'.toNat % 64))) t)
      ∧ (∀ n map, sc'.todo = [(n, map)] → sc'.columns * sc'.rows ≤ sc'.index →
        Answers (.scanReadDone data) s fun t =>
          t.scanner = none ∧ t.coll = { s.coll with requests := s.coll.requests ++
            [.scanSuccess sc'.key (sc'.finished ++ [⟨n, sc'.candidates, sc'.tested, sc'.passed⟩]) sc'.groups] }
          ∧ Keeps [.scanner, .coll, .port, .irq] s t))

/-! ## Plans and lots (01, 07) -/

/-- A LOAD_PLAN: accepted exactly where its slot is 0..7 and named by no catalogue lot, every entry is in range with a
named class and a bin no other entry names, some bin is PASS, and every PASS rank is lower than every FAIL rank; then the
slot holds the list's plan and the order is DONE; else the slot is as it was and the order is refused with the code and
result word of the first check that fails (R10, R11, R188). -/
def Obligations.LoadPlanServed : Prop :=
  (∀ (lots : List Lot) (slot : Nat) (es : List PlanEntry),
    loadPlanError lots slot es = none ↔
      slot ≤ 7 ∧ (∀ l ∈ lots, l.plan.val ≠ slot)
      ∧ (∀ e ∈ es, e.bin ≤ 239 ∧ (e.cls = 1 ∨ e.cls = 2) ∧ e.rank ≤ 15 ∧ e.group ≤ 15) ∧ (es.map (·.bin)).Nodup
      ∧ (∃ e ∈ es, e.cls = 1) ∧ ∀ e ∈ es, ∀ f ∈ es, e.cls = 1 → f.cls = 2 → e.rank < f.rank)
  ∧ (∀ (lots : List Lot) (slot : Nat) (es : List PlanEntry),
    let naming := (lots.filter fun l => l.plan.val == slot).length
    let first := (List.range es.length).find? fun i => es[i]?.any fun e =>
      239 < e.bin || (e.cls != 1 && e.cls != 2) || 15 < e.rank || 15 < e.group || ((es.take i).map (·.bin)).contains e.bin
    let ranks (cls : Nat) := (es.filter fun e => e.cls == cls).map (·.rank)
    let high := (ranks 1).max?.getD 0
    let low := (ranks 2).min?.getD 0
    let bad : List (Prop × Code × Nat) :=
      [(7 < slot, .badSlot, 0),
       (naming ≠ 0, .planInUse, naming),
       (first.isSome, .badEntry, first.getD 0 % 65536 + 65536 * ((es[first.getD 0]?.map (·.bin)).getD 0 % 65536)),
       (ranks 1 = [], .noPass, (ranks 2).length),
       (ranks 2 ≠ [] ∧ low ≤ high, .rankOrder, high % 65536 + 65536 * (low % 65536))]
    ∀ i : Fin bad.length, (∀ j : Fin bad.length, j < i → ¬bad[j].1) → bad[i].1 →
      loadPlanError lots slot es = some (bad[i].2.1, BitVec.ofNat 32 bad[i].2.2))
  ∧ ∀ (slot : Nat) (es : List PlanEntry) (rest : List Request) (v : Service) (s : State),
    Serves (.loadPlan slot es) rest s → s.order.service = some v →
    (loadPlanError s.coll.lots slot es = none → Answers .collationTakeWork s fun t =>
      t.coll.requests = rest ∧ t.coll.work = none ∧ t.coll.lots = s.coll.lots
      ∧ (∀ p : Fin 8, (t.coll.plans[p]).isSome = (p.val == slot || (s.coll.plans[p]).isSome))
      ∧ (∀ p : Fin 8, p.val ≠ slot → t.coll.plans[p] = s.coll.plans[p])
      ∧ (∀ p : Fin 8, p.val = slot → ∀ b : Byte, (t.coll.plan p).info b =
          (es.find? fun e => e.bin == b.toNat).bind PlanEntry.info)
      ∧ Answered v (.done (BitVec.ofNat 32
          ((es.filter fun e => e.cls == 1).length % 65536 + 65536 * ((es.filter fun e => e.cls == 2).length % 65536)))) s t
      ∧ Keeps [.coll, .order, .port, .irq] s t)
    ∧ ∀ code result, loadPlanError s.coll.lots slot es = some (code, result) → Answers .collationTakeWork s fun t =>
      t.coll = { s.coll with requests := rest } ∧ Answered v (.refused code result) s t
      ∧ Keeps [.coll, .order, .port, .irq] s t

/-- An OPEN_LOT: an accepted one creates the lot's entry in OPENING with the order's values, the clamped floor and the
clamp count, and every count 0, and the scanner begins to read the first wafer's map; a refused one leaves the
catalogue as it was; acceptance is by the checks of R128, and the first that fails gives the code and result word
(R14, R15, R128, R129, R188). Rests on the model's choices notes/assumptions/12.md. -/
def Obligations.OpenLotServed : Prop :=
  (∀ (b : OpenLotBody) (coll : Collation) (slot : Fin 8) (policy : Policy),
    checkOpenLot b coll = .ok (slot, policy) ↔
      coll.lots.length < 32 ∧ (∀ l ∈ coll.lots, l.key ≠ b.key) ∧ b.plan = slot.val ∧ (coll.plans[slot]).isSome
      ∧ (1 ≤ b.columns ∧ b.columns ≤ 512) ∧ (1 ≤ b.rows ∧ b.rows ≤ 512)
      ∧ (1 ≤ b.count ∧ b.count ≤ 25) ∧ (∀ w ∈ b.wafers, (1 ≤ w.1 ∧ w.1 ≤ 25) ∧ w.2.toNat % 8 = 0)
      ∧ (b.wafers.map (·.1)).Nodup ∧ (1 ≤ b.limit ∧ b.limit ≤ 15)
      ∧ (b.policy = 0 ∧ policy = .keepBest ∨ b.policy = 1 ∧ policy = .keepLast))
  ∧ (∀ (b : OpenLotBody) (coll : Collation),
    let badCount := b.count < 1 ∨ 25 < b.count
    let cause (i : Nat) : Nat :=
      match b.wafers[i]? with
      | some (n, map) =>
        if n < 1 ∨ 25 < n then 2
        else if ((b.wafers.take i).map (·.1)).contains n then 3
        else if map.toNat % 8 ≠ 0 then 4 else 0
      | none => 0
    let first := (List.range b.wafers.length).find? fun i => cause i != 0
    let bad : List (Prop × Code × Nat) :=
      [(32 ≤ coll.lots.length, .catalogueFull, 32),
       ((findLot coll.lots b.key).isSome, .duplicateKey, ((findLot coll.lots b.key).map (·.state.code)).getD 0),
       (7 < b.plan, .badSlot, b.plan),
       (∃ slot : Fin 8, slot.val = b.plan ∧ coll.plans[slot] = none, .planEmpty, b.plan),
       (b.columns < 1 ∨ 512 < b.columns ∨ b.rows < 1 ∨ 512 < b.rows, .badGrid,
          b.columns % 65536 + 65536 * (b.rows % 65536)),
       (badCount ∨ first.isSome, .badWaferList, if badCount then 1 else cause (first.getD 0) + 65536 * (first.getD 0 % 65536)),
       (b.limit < 1 ∨ 15 < b.limit, .badLimit, b.limit),
       (1 < b.policy, .badPolicy, b.policy)]
    ∀ i : Fin bad.length, (∀ j : Fin bad.length, j < i → ¬bad[j].1) → bad[i].1 →
      checkOpenLot b coll = .error (bad[i].2.1, BitVec.ofNat 32 bad[i].2.2))
  ∧ ∀ (b : OpenLotBody) (rest : List Request) (v : Service) (s : State),
    Serves (.openLot b) rest s → s.order.service = some v →
    (∀ slot policy n map ws, checkOpenLot b s.coll = .ok (slot, policy) → b.wafers = (n, map) :: ws →
      Answers .collationTakeWork s fun t =>
        (∃ l, findLot t.coll.lots b.key = some l
          ∧ t.coll = { s.coll with requests := rest, lots := s.coll.lots ++ [l] }
          ∧ l.key = b.key ∧ l.state = .opening ∧ l.plan = slot ∧ l.columns = b.columns ∧ l.rows = b.rows
          ∧ l.policy = policy ∧ l.limit = b.limit ∧ l.tripped = false ∧ l.tested = 0 ∧ l.passed = 0
          ∧ l.floor = b.floor.map (fun f => ⟨min f.figure 10000, max f.minimum 1⟩)
          ∧ l.clamps = some ((b.floor.map fun f =>
              (if 10000 < f.figure then 1 else 0) + if f.minimum = 0 then 1 else 0).getD 0)
          ∧ l.duplicates = 0 ∧ l.refused = 0 ∧ (∀ g : Fin 16, l.groups[g] = 0)
          ∧ l.grace = none ∧ l.graceSpent = false ∧ l.finalAddr = none
          ∧ l.wafers = b.wafers.map (fun w => ⟨w.1, w.2, 0, 0, 0, false⟩))
        ∧ t.scanner = some (b.scan slot)
        ∧ Requested (readOf .scanRead map (min (2 * (b.columns * b.rows)) (64 - map.toNat % 64))) t
        ∧ Keeps [.coll, .scanner, .port, .irq] s t)
    ∧ ∀ code result, checkOpenLot b s.coll = .error (code, result) → Answers .collationTakeWork s fun t =>
      t.coll = { s.coll with requests := rest } ∧ Answered v (.refused code result) s t
      ∧ Keeps [.coll, .order, .port, .irq] s t

/-- Scan completions: SUCCESS opens the lot with the counts scanned, evaluates its floor once on them, a trip latching the
flag with LOT_FLOOR and no reporting cell, and answers DONE with the clamps and the wafers complete at opening; INVALID
removes the lot and answers MAP_CORRUPT; ABANDONED removes it and writes no order (R18 to R20, R130, R132). -/
def Obligations.ScanCompletionsServed : Prop :=
  (∀ (key : Word) (counts : List WaferCounts) (groups : Vector Nat 16) (rest : List Request) (v : Service) (l : Lot)
      (s : State),
    Serves (.scanSuccess key counts groups) rest s → s.order.service = some v → findLot s.coll.lots key = some l →
    Answers .collationTakeWork s fun t =>
      (∃ l', findLot t.coll.lots key = some l' ∧ l'.state = .opened ∧ l'.groups = groups
        ∧ l'.tested = (counts.map (·.tested)).sum ∧ l'.passed = (counts.map (·.passed)).sum
        ∧ l'.duplicates = 0 ∧ l'.refused = 0 ∧ l'.floor = l.floor
        ∧ (l.floor = none → l'.tripped = l.tripped ∧ SameNotices s t)
        ∧ (∀ f ∈ l.floor,
            let y := l'.passed * 10000 / l'.tested
            if f.minimum ≤ l'.tested ∧ y < f.figure ∧ l.tripped = false then
              l'.tripped = true
                ∧ Raised (.lot key 0) (.lotFloor key l'.tested l'.passed y f.figure f.minimum none) s t
            else l'.tripped = l.tripped ∧ SameNotices s t)
        ∧ l'.wafers = l.wafers.map (fun w =>
            match counts.find? fun n => n.number == w.number with
            | some n => { w with
                candidates := n.candidates, tested := n.tested, passed := n.passed, complete := n.tested == n.candidates }
            | none => w)
        ∧ Answered v (.done (BitVec.ofNat 32
            (l.clamps.getD 0 % 65536 + 65536 * ((l'.wafers.filter (·.complete)).length % 65536)))) s t)
      ∧ t.coll.requests = rest ∧ t.coll.work = none)
  ∧ (∀ (key : Word) (wafer x y : Nat) (f : MapFault) (rest : List Request) (v : Service) (s : State),
    Serves (.scanInvalid key wafer x y f) rest s → s.order.service = some v → Answers .collationTakeWork s fun t =>
      t.coll = { s.coll with requests := rest, lots := s.coll.lots.filter (fun l => l.key != key) }
      ∧ Answered v (.refused .mapCorrupt (mapCorruptResult wafer x y f)) s t ∧ SameNotices s t)
  ∧ ∀ (key : Word) (rest : List Request) (s : State),
    Serves (.scanAbandoned key) rest s → Answers .collationTakeWork s fun t =>
      t.coll = { s.coll with requests := rest, lots := s.coll.lots.filter (fun l => l.key != key) }
      ∧ t.order = s.order ∧ SameNotices s t

/-- CLOSE_LOT, SNAPSHOT and RELEASE_LOT: their refusals in order, and what each does where it passes: the lot CLOSING
with its grace expiry and final record address, the finalize joining at once for a grace of 0; the snapshot the work
in service with its record and its first write, with no answer yet; the flag cleared and the floor replaced and
clamped (R133 to R135, R138, R140). Rests on the model's choices notes/assumptions/12.md. -/
def Obligations.LotOrdersServed : Prop :=
  ∀ (r : Request) (key : Word) (rest : List Request) (v : Service) (s : State),
    Serves r rest s → s.order.service = some v →
    let refusal (code : Code) (result : Nat) := Answers .collationTakeWork s fun t =>
      t.coll = { s.coll with requests := rest } ∧ Answered v (.refused code (BitVec.ofNat 32 result)) s t
    ((∃ grace addr, r = .closeLot key grace addr) ∨ (∃ addr, r = .snapshot key addr) ∨ (∃ f, r = .releaseLot key f) →
      findLot s.coll.lots key = none → refusal .unknownLot 0)
    ∧ ∀ l, findLot s.coll.lots key = some l →
      (∀ grace addr, r = .closeLot key grace addr →
        (l.state ≠ .opened → refusal .lotBusy l.state.code)
        ∧ (l.state = .opened → addr.toNat % 8 ≠ 0 → refusal .badAddress 0)
        ∧ (l.state = .opened → addr.toNat % 8 = 0 → Answers .collationTakeWork s fun t =>
          (∃ l', findLot t.coll.lots key = some l' ∧ l' = { l with
            state := .closing, grace := some (Time.plus s.clock grace), graceSpent := grace == 0
            finalAddr := some addr })
          ∧ t.coll.requests = (if grace = 0 then rest ++ [.finalize key] else rest)
          ∧ Answered v (.done (BitVec.ofNat 32 l.tested)) s t))
      ∧ (∀ addr, r = .snapshot key addr →
        (l.state = .opening → refusal .lotBusy 1)
        ∧ (l.state ≠ .opening → addr.toNat % 8 ≠ 0 → refusal .badAddress 0)
        ∧ (l.state ≠ .opening → addr.toNat % 8 = 0 → Answers .collationTakeWork s fun t =>
          let bs := l.tallyRecord (if l.state = .opened then 2 else 3) s.clock
          t.coll = { s.coll with requests := rest, work := some (.snapshot key ⟨addr, bs, bs.length⟩) }
          ∧ Requested (writeOf .tallyWrite addr (bs.take (min (96 + 16 * l.wafers.length) (64 - addr.toNat % 64)))) t
          ∧ Keeps [.coll, .port, .irq] s t))
      ∧ ∀ f, r = .releaseLot key f →
        (l.state = .opening → refusal .lotBusy 0)
        ∧ (l.state ≠ .opening → Answers .collationTakeWork s fun t =>
          (∃ l', findLot t.coll.lots key = some l' ∧ l' = { l with
            tripped := false, floor := f.map (fun g => ⟨min g.figure 10000, max g.minimum 1⟩) })
          ∧ (let clamps := (f.map fun g => (if 10000 < g.figure then 1 else 0) + if g.minimum = 0 then 1 else 0).getD 0
            Answered v (.done (BitVec.ofNat 32 (l.tripped.toNat + 2 * f.isSome.toNat + 65536 * clamps))) s t))

/-- A tally record has the layout of R190. A finalize taken from the queue becomes the work in service, with state
CLOSED and the stamp read, and its record's first write is requested. A tally record's write: with bytes left the next
write is requested, else a SNAPSHOT is DONE with the record's length and a finalized lot leaves the catalogue with
LOT_CLOSED raised. A grace timer's expiry has the finalize join the queue, once (R64, R135, R136, R138 to R140, R190).
Rests on the model's choices notes/assumptions/12.md, notes/assumptions/19.md, notes/assumptions/22.md. -/
def Obligations.TallyRecordsAndGrace : Prop :=
  (∀ (l : Lot) (state : Nat) (stamp : Time),
    let bs := l.tallyRecord state stamp
    let figure (tested passed : Nat) := if tested = 0 then 0xFFFF else passed * 10000 / tested
    bs.length = 96 + 16 * l.wafers.length
    ∧ (∀ x ∈ [(0x00, 4, l.key.toNat), (0x04, 1, state), (0x05, 1, l.wafers.length), (0x06, 2, 0), (0x08, 4, stamp.toNat),
          (0x0C, 4, l.tested), (0x10, 4, l.passed), (0x14, 2, figure l.tested l.passed), (0x16, 2, 0),
          (0x18, 4, l.duplicates), (0x1C, 4, l.refused)],
        field bs x.1 x.2.1 = x.2.2 % 256 ^ x.2.1)
    ∧ (∀ g : Fin 16, field bs (0x20 + 4 * g.val) 4 = l.groups[g] % 256 ^ 4)
    ∧ ∀ n, ∀ w ∈ l.wafers[n]?, ∀ x ∈ [(0x00, 1, w.number), (0x01, 1, w.complete.toNat),
          (0x02, 2, figure w.tested w.passed), (0x04, 4, w.tested), (0x08, 4, w.passed), (0x0C, 4, w.candidates)],
        field bs (0x60 + 16 * n + x.1) x.2.1 = x.2.2 % 256 ^ x.2.1)
  ∧ (∀ (key : Word) (rest : List Request) (l : Lot) (s : State),
    Serves (.finalize key) rest s → findLot s.coll.lots key = some l → Answers .collationTakeWork s fun t =>
      let bs := l.tallyRecord 4 s.clock
      let a := l.finalAddr.getD 0
      t.coll = { s.coll with requests := rest, work := some (.finalize key ⟨a, bs, bs.length⟩) }
      ∧ Requested (writeOf .tallyWrite a (bs.take (min bs.length (64 - a.toNat % 64)))) t
      ∧ Keeps [.coll, .port, .irq] s t)
  ∧ (∀ (key : Word) (w : RecordWrite) (s : State), OutstandingFor .tallyWrite s →
    s.coll.work = some (.snapshot key w) ∨ s.coll.work = some (.finalize key w) →
    w.after.rest ≠ [] → Answers .tallyRecordWriteDone s fun t =>
      Requested (writeOf .tallyWrite w.after.next (w.after.rest.take (chunk w.after.next w.after.rest.length))) t
      ∧ t.coll.lots = s.coll.lots ∧ t.order = s.order ∧ Keeps [.coll, .port, .irq] s t)
  ∧ (∀ (key : Word) (w : RecordWrite) (v : Service) (s : State), OutstandingFor .tallyWrite s →
    s.coll.work = some (.snapshot key w) → w.after.rest = [] → s.order.service = some v →
    Answers .tallyRecordWriteDone s fun t =>
      t.coll = { s.coll with work := none } ∧ Answered v (.done (BitVec.ofNat 32 w.total)) s t)
  ∧ (∀ (key : Word) (w : RecordWrite) (l : Lot) (s : State), OutstandingFor .tallyWrite s →
    s.coll.work = some (.finalize key w) → w.after.rest = [] → findLot s.coll.lots key = some l →
    Answers .tallyRecordWriteDone s fun t =>
      t.coll = { s.coll with work := none, lots := s.coll.lots.filter (fun m => m.key != key) }
      ∧ Raised (.lot key 0) (.lotClosed key l.tested l.passed
          (if l.tested = 0 then 0xFFFF else l.passed * 10000 / l.tested) l.wafers.length
          (l.wafers.filter (·.complete)).length (l.finalAddr.getD 0)) s t
      ∧ ∀ c, (s.cell c).holds.currentLot = some key →
          (reasonByte t.engine.state t.coll.lots (t.cell c)).getLsbD 5 = false)
  ∧ ∀ (key : Word) (l : Lot) (s : State), findLot s.coll.lots key = some l → l.state = .closing →
    (l.graceSpent = false → expired s.clock l.grace = true → Answers (.graceTimerExpiry key) s fun t =>
      t.coll.requests = s.coll.requests ++ [.finalize key] ∧ Keeps [.coll, .port, .irq] s t
      ∧ ∃ l', findLot t.coll.lots key = some l' ∧ l' = { l with graceSpent := true })
    ∧ (l.graceSpent = true → exec (.graceTimerExpiry key) s = .next s)

/-! ## The order chain (08) and the orders on cells (06) -/

/-- HEADER_READ_DONE in FETCH: a FRESH record is taken, its tag-free header kept and its TAKEN write requested;
another state is answered NOT_FRESH with no TAKEN write; half a header brings the read of its rest; in DRAINING the
data is discarded (R142, R144 to R146). Rests on the model's choices notes/assumptions/12.md, notes/assumptions/22.md.
-/
def Obligations.HeaderTaken : Prop :=
  ∀ (data : List Byte) (s : State), s.order.service = none → Outstanding .headerRead data.length s →
    let record := s.order.position.getD 0
    let header := s.order.gathered ++ data
    let found := field header 0x0C 2
    (s.engine.state = .running → 24 ≤ header.length → found = 0 → Answers (.headerReadDone data) s fun t =>
      t.order = { s.order with
          phase := .serving, gathered := []
          service := some ⟨record, header.take 16 ++ (header.drop 20).take 4, [], .taken, false⟩ }
      ∧ Requested (writeOf .takenWrite (addrPlus record 0x0C) [0x01, 0x00]) t ∧ Keeps [.order, .port, .irq] s t)
    ∧ (s.engine.state = .running → 24 ≤ header.length → found ≠ 0 → Answers (.headerReadDone data) s fun t =>
      t.order = { s.order with
          phase := .answer, gathered := [], outcome := some (.refused .notFresh (BitVec.ofNat 32 found)) }
      ∧ Requested (writeOf .resultWrite (addrPlus record 0x14) (leBytes 4 found)) t ∧ Keeps [.order, .port, .irq] s t)
    ∧ (s.engine.state = .running → header.length < 24 → Answers (.headerReadDone data) s fun t =>
      t.order = { s.order with gathered := header } ∧ Keeps [.order, .port, .irq] s t
      ∧ let a := addrPlus record header.length
        Requested (readOf .headerRead a (min (24 - header.length) (64 - a.toNat % 64))) t)
    ∧ (s.engine.state = .draining → Answers (.headerReadDone data) s fun t =>
      t.order = { s.order with gathered := [] } ∧ t.coll = s.coll ∧ t.scanner = s.scanner ∧ SameNotices s t)

/-- TAKEN_WRITE_DONE: an unknown kind is BAD_KIND, before any length; a MARK is DONE with the hall clock; a kind of
fixed length is BAD_LENGTH or has its body read; a listed kind too short for its prefix is BAD_LENGTH (the required
length it carries is a free value: notes/assumptions/10.md), else its prefix is read (R146, R147, R149). Rests on the
model's choices notes/assumptions/12.md. -/
def Obligations.TakenOrderChecked : Prop :=
  ∀ (v : Service) (s : State), OutstandingFor .takenWrite s → s.order.service = some v → v.body = [] →
    let kind := field v.header 0x08 2
    let found := field v.header 0x0A 2
    let fixed : Option Nat :=
      match kind with
      | 1 => some 3
      | 4 | 5 | 6 | 10 => some 5
      | 7 => some 7
      | 8 | 9 => some 4
      | _ => none
    let reads (stage : Stage) (n : Nat) := Answers .takenWriteDone s fun t =>
      t.order = { s.order with service := some { v with stage := stage } } ∧ Keeps [.order, .port, .irq] s t
      ∧ let a := addrPlus v.record 24
        Requested (readOf .bodyRead a (min n (64 - a.toNat % 64))) t
    let answers (out : OrderOutcome) := Answers .takenWriteDone s fun t =>
      Answered v out s t ∧ Keeps [.order, .port, .irq] s t
    (kind = 0 ∨ 10 < kind → answers (.refused .badKind (BitVec.ofNat 32 kind)))
    ∧ (∀ n, fixed = some n → found ≠ n → answers (.refused .badLength (BitVec.ofNat 32 (found + 65536 * n))))
    ∧ (kind = 1 → found = 3 → answers (.done s.clock))
    ∧ (∀ n, fixed = some n → kind ≠ 1 → found = n → reads (.body (8 * n - 24)) (8 * n - 24))
    ∧ (kind = 2 ∧ found < 4 ∨ kind = 3 ∧ found < 6 →
        ∃ required, required < 65536 ∧ answers (.refused .badLength (BitVec.ofNat 32 (found + 65536 * required))))
    ∧ (kind = 2 → 4 ≤ found → reads (.bodyPrefix 8) 8)
    ∧ (kind = 3 → 6 ≤ found → reads (.bodyPrefix 24) 24)

/-- BODY_READ_DONE: part of a prefix or body brings the read of the next part; a listed kind's prefix gives its count,
and a length other than the count's is BAD_LENGTH; the whole body of an order for the collation unit, which for an
OPEN_LOT of count 0 is its prefix, joins the catalogue request queue with its fields as read (R63, R147, R148, R187).
Rests on the model's choices notes/assumptions/12.md. -/
def Obligations.BodyReadAndHandedOver : Prop :=
  ∀ (data : List Byte) (v : Service) (s : State), Outstanding .bodyRead data.length s → s.order.service = some v →
    let kind := field v.header 0x08 2
    let found := field v.header 0x0A 2
    let body := v.body ++ data
    let goesOn (stage : Stage) (want : Nat) := Answers (.bodyReadDone data) s fun t =>
      t.order = { s.order with service := some { v with body := body, stage := stage } }
      ∧ Keeps [.order, .port, .irq] s t
      ∧ let a := addrPlus v.record (24 + body.length)
        Requested (readOf .bodyRead a (min (want - body.length) (64 - a.toNat % 64))) t
    let joins (r : Request) := Answers (.bodyReadDone data) s fun t =>
      t.coll = { s.coll with requests := s.coll.requests ++ [r] }
      ∧ t.order = { s.order with service := some { v with body := body, stage := .waiting } }
      ∧ Keeps [.order, .coll, .port, .irq] s t
    let count := if kind = 2 then field body 2 2 else field body 0x10 1
    let badCount := kind = 2 ∧ (count < 1 ∨ 240 < count)
    let required := if badCount then 0 else if kind = 2 then 4 + (count + 1) / 2 else 6 + 2 * count
    let whole := (∃ want ≤ body.length, v.stage = .body want)
      ∨ (∃ want ≤ body.length, v.stage = .bodyPrefix want) ∧ (kind = 2 ∨ kind = 3) ∧ ¬badCount ∧ found = required
        ∧ 8 * found - 24 ≤ body.length
    (∀ want, v.stage = .body want → 1 ≤ kind → kind ≤ 10 → body.length < want → goesOn (.body want) want)
    ∧ (∀ want, v.stage = .bodyPrefix want → kind = 2 ∨ kind = 3 →
        (body.length < want → goesOn (.bodyPrefix want) want)
        ∧ (want ≤ body.length →
            (found ≠ required → Answers (.bodyReadDone data) s fun t =>
              Answered { v with body := body } (.refused .badLength (BitVec.ofNat 32 (found + 65536 * required))) s t
              ∧ Keeps [.order, .port, .irq] s t)
            ∧ (¬badCount → found = required → body.length < 8 * found - 24 →
                goesOn (.body (8 * found - 24)) (8 * found - 24))))
    ∧ (whole →
        (kind = 2 → ∃ es : List PlanEntry, joins (.loadPlan (field body 0 1) es) ∧ es.length = field body 2 2
          ∧ ∀ i, i < es.length → es[i]? = some ⟨field body (8 + 4 * i) 1, field body (9 + 4 * i) 1,
              field body (10 + 4 * i) 1, field body (11 + 4 * i) 1⟩)
        ∧ (kind = 3 → ∃ b : OpenLotBody, joins (.openLot b) ∧ b.key.toNat = field body 0 4 ∧ b.plan = field body 4 1
          ∧ b.policy = field body 5 1 ∧ b.limit = field body 6 1 ∧ b.columns = field body 8 2
          ∧ b.rows = field body 0x0A 2 ∧ b.count = field body 0x10 1 ∧ b.wafers.length = b.count
          ∧ b.floor = (if field body 7 1 % 2 = 1 then some ⟨field body 0x0C 2, field body 0x0E 2⟩ else none)
          ∧ ∀ i, i < b.count → b.wafers[i]? =
              some (field body (24 + 16 * i) 1, BitVec.ofNat 64 (field body (32 + 16 * i) 8)))
        ∧ (kind = 4 → joins (.closeLot (BitVec.ofNat 32 (field body 0 4)) (field body 4 2)
            (BitVec.ofNat 64 (field body 8 8))))
        ∧ (kind = 5 → joins (.snapshot (BitVec.ofNat 32 (field body 0 4)) (BitVec.ofNat 64 (field body 8 8))))
        ∧ (kind = 6 → joins (.releaseLot (BitVec.ofNat 32 (field body 0 4))
            (if field body 4 1 % 2 = 1 then some ⟨field body 6 2, field body 8 2⟩ else none))))

/-- The body of a HOLD_CELLS or RELEASE_CELLS, read whole: the refusals in order; HOLD_CELLS sets ORDERED in every
cell of its set and answers DONE with the number that lacked it; RELEASE_CELLS clears the reasons, flags and windows
named and answers DONE with the number of cells whose hold content changed (R105 to R107, R117 to R119). Rests on the
model's choices notes/assumptions/9.md. -/
def Obligations.HoldAndReleaseServed : Prop :=
  ∀ (data : List Byte) (v : Service) (want : Nat) (s : State),
    Outstanding .bodyRead data.length s → s.order.service = some v → v.stage = .body want →
    want ≤ (v.body ++ data).length →
    let body := v.body ++ data
    let kind := field v.header 0x08 2
    let cells : Word := BitVec.ofNat 32 (field body 0 4)
    let answers (out : OrderOutcome) (t : State) := Answered { v with body := body } out s t
    let content (u : State) (c : CellNo) := holdContent u.engine.state u.coll.lots (u.cell c)
    let sites : Half := BitVec.ofNat 16 (field body 4 2)
    let reasons : Byte := BitVec.ofNat 8 (field body 6 1)
    let clears := field body 7 1 % 2 = 1
    (kind = 8 ∨ kind = 9 → (∀ c : CellNo, cells.getLsbD c.val = false) → Answers (.bodyReadDone data) s fun t =>
      answers (.refused .emptySet 0) t ∧ Keeps [.order, .port, .irq] s t)
    ∧ (kind = 8 → (∃ c : CellNo, cells.getLsbD c.val = true) → Answers (.bodyReadDone data) s fun t =>
      answers (.done (BitVec.ofNat 32
        (allCells.filter fun c => cells.getLsbD c.val && !(s.cell c).holds.ordered).length)) t
      ∧ (∀ c, (t.cell c).holds = { (s.cell c).holds with
          ordered := (s.cell c).holds.ordered || cells.getLsbD c.val }
        ∧ (t.cell c).asm = (s.cell c).asm ∧ (t.cell c).guard = (s.cell c).guard)
      ∧ Keeps [.order, .cells, .port, .irq] s t)
    ∧ (kind = 9 → (∃ c : CellNo, cells.getLsbD c.val = true) → reasons &&& 0x79 ≠ 0 →
      Answers (.bodyReadDone data) s fun t =>
        answers (.refused .badReason (BitVec.ofNat 32 reasons.toNat)) t ∧ Keeps [.order, .port, .irq] s t)
    ∧ (kind = 9 → (∃ c : CellNo, cells.getLsbD c.val = true) → reasons &&& 0x79 = 0 → (∀ c, GuardOk (s.cell c)) →
      Answers (.bodyReadDone data) s fun t =>
        answers (.done (BitVec.ofNat 32 (allCells.filter fun c => content s c != content t c).length)) t
        ∧ Keeps [.order, .cells, .port, .irq] s t
        ∧ ∀ c, (t.cell c).asm = (s.cell c).asm
          ∧ (if cells.getLsbD c.val = true then
            (t.cell c).holds.ordered = ((s.cell c).holds.ordered && !reasons.getLsbD 2)
            ∧ (t.cell c).holds.cellGuard = ((s.cell c).holds.cellGuard && !reasons.getLsbD 1)
            ∧ (t.cell c).guard.cellFlag = ((s.cell c).guard.cellFlag && !reasons.getLsbD 1)
            ∧ (t.cell c).holds.held =
                (if reasons.getLsbD 7 = true then (s.cell c).holds.held &&& ~~~sites else (s.cell c).holds.held)
            ∧ ∀ q : Site,
              (((t.cell c).guard.site q).runFlag = (((s.cell c).guard.site q).runFlag
                && !(reasons.getLsbD 7 && sites.getLsbD q.val)))
              ∧ (((t.cell c).guard.site q).limitFlag = (((s.cell c).guard.site q).limitFlag
                && !(reasons.getLsbD 7 && sites.getLsbD q.val)))
              ∧ (((t.cell c).guard.site q).spreadFlag = (((s.cell c).guard.site q).spreadFlag
                && !(reasons.getLsbD 7 && sites.getLsbD q.val)))
              ∧ (if clears ∧ (reasons.getLsbD 1 = true ∨ reasons.getLsbD 7 = true ∧ sites.getLsbD q.val = true) then
                  ((t.cell c).guard.site q).window = [] ∧ ((t.cell c).guard.site q).failCount = 0
                    ∧ ((t.cell c).guard.site q).run = 0
                else ((t.cell c).guard.site q).window = ((s.cell c).guard.site q).window)
          else (t.cell c).holds = (s.cell c).holds ∧ (t.cell c).guard = (s.cell c).guard))

/-- The body of a CONFIGURE_CELLS, read whole: the refusals in order; accepted, every cell of the set takes the mode
and the present groups as one event, an open touchdown first closed RECONFIGURED with its notices where the rate or
the enabled set changes or the line goes OFFLINE. A line that goes ONLINE starts afresh with a HOLD_STATE to send, one
that goes OFFLINE stops its receiver and has the final message to send, and a changed rate ends the partial message;
the guard keeps windows, run counts and flags where W and the site stay. The answer is DONE with the count of clamped
values (R25, R35 to R39, R42, R54, R55, R58, R60, R100 to R104). Rests on the model's choices notes/assumptions/9.md,
notes/assumptions/32.md. -/
def Obligations.ConfigureCellsServed : Prop :=
  ∀ (data : List Byte) (v : Service) (want : Nat) (s : State),
    Outstanding .bodyRead data.length s → s.order.service = some v → v.stage = .body want →
    want ≤ (v.body ++ data).length → field v.header 0x08 2 = 7 →
    let body := v.body ++ data
    let cells : Word := BitVec.ofNat 32 (field body 0 4)
    let online := field body 4 1 % 2 = 1
    let group (n : Nat) := field body 5 1 / 2 ^ n % 2 = 1
    let rate := field body 6 1
    let sites : Half := BitVec.ofNat 16 (field body 8 2)
    let timeout := field body 0x0A 2
    let w := field body 0x0C 2
    let badW := ¬(w = 16 ∨ w = 32 ∨ w = 64 ∨ w = 128)
    let named := ∃ c : CellNo, cells.getLsbD c.val = true
    let refused (code : Code) (result : Nat) := Answers (.bodyReadDone data) s fun t =>
      Answered { v with body := body } (.refused code (BitVec.ofNat 32 result)) s t ∧ Keeps [.order, .port, .irq] s t
    let changed (low high off : Nat) :=
      if field body off 2 < low ∨ high < field body off 2 then 1 else 0
    (¬named → refused .emptySet 0)
    ∧ (named → group 0 → 7 < rate → refused .badRate rate)
    ∧ (named → ¬(group 0 ∧ 7 < rate) → group 1 → sites = 0 → refused .noSites 0)
    ∧ (named → ¬(group 0 ∧ 7 < rate) → ¬(group 1 ∧ sites = 0) → group 2 → badW → refused .badWindow w)
    ∧ (named → ¬(group 0 ∧ 7 < rate) → ¬(group 1 ∧ sites = 0) → ¬(group 2 ∧ badW) →
      Answers (.bodyReadDone data) s fun t =>
        Answered { v with body := body } (.done (BitVec.ofNat 32
          ((if group 2 then changed 1 w 0x0E + changed 0 1024 0x10 + changed 1 2048 0x12 + changed 0 1024 0x14
              + changed 0 1024 0x16 else 0)
            + (if group 3 then changed 10 10000 0x0A else 0)))) s t
        ∧ Keeps [.order, .cells, .notice, .port, .irq] s t
        ∧ ∀ c, if cells.getLsbD c.val = true then
            let l := (s.cell c).line
            let a := (s.cell c).asm
            let g := (s.cell c).guard
            let l' := (t.cell c).line
            let newRate := group 0 ∧ rate ≠ l.rate.val
            let closes := newRate ∨ group 1 ∧ sites ≠ a.enabled ∨ ¬online
            let content := holdContent s.engine.state s.coll.lots (t.cell c)
            let heard := s.engine.state = .running ∨ s.engine.state = .draining ∨ s.engine.state = .faulted
            (t.cell c).line.state = (if online then if l.state = .offline then .online else l.state else .offline)
            ∧ (t.cell c).line.rate.val = (if group 0 then rate else l.rate.val)
            ∧ (t.cell c).line.txRate.val =
                (if l.state = .offline then (if online then (t.cell c).line.rate else l.txRate).val
                else if group 0 ∧ rate ≠ l.rate.val then rate else l.txRate.val)
            ∧ (t.cell c).line.q = (if group 3 then field body 7 1 else l.q)
            ∧ (t.cell c).asm.enabled = (if group 1 then sites else a.enabled)
            ∧ (t.cell c).asm.timeout = (if group 3 then max 10 (min timeout 10000) else a.timeout)
            ∧ (t.cell c).asm.touchdown = (if closes then none else a.touchdown)
            ∧ (t.cell c).asm.queue = (if closes then queueAfterClose .reconfigured s.clock a else a.queue)
            ∧ (t.cell c).holds.ordered = (s.cell c).holds.ordered
            ∧ (closes → CloseNoted .reconfigured c s t)
            ∧ (l.state = .offline → online → l'.decoder = .hunt ∧ l'.errors = 0 ∧ l'.clean = 0 ∧ l'.finalOwed = false
                ∧ (if heard then l'.rx = .idle ∧ l'.windowEnd = some (Time.plus s.clock 1000)
                  else l'.rx = l.rx ∧ l'.windowEnd = l.windowEnd)
                ∧ HasToSend false l content l')
            ∧ (l.state ≠ .offline → ¬online → l'.rx = .idle ∧ l'.decoder = .hunt ∧ l'.windowEnd = none
                ∧ l'.errors = l.errors ∧ l'.clean = l.clean ∧ (l.tx ≠ .silent → HasToSend true l content l'))
            ∧ (l.state ≠ .offline → online → l'.errors = l.errors ∧ l'.clean = l.clean ∧ l'.windowEnd = l.windowEnd
                ∧ if newRate then l'.rx = .idle ∧ l'.decoder = .hunt
                    ∧ (l.tx ≠ .silent → l.finalOwed = false → HasToSend false l content l')
                  else l'.rx = l.rx ∧ l'.decoder = l.decoder)
            ∧ (l.state = .offline → ¬online → l'.rx = l.rx ∧ l'.decoder = l.decoder ∧ l'.errors = l.errors
                ∧ l'.clean = l.clean ∧ l'.windowEnd = l.windowEnd ∧ (l.tx ≠ .idle → l'.tx = l.tx))
            ∧ ((group 2 → w = g.w) → (t.cell c).guard.cellFlag = g.cellFlag
                ∧ ∀ q : Site, (group 1 → a.enabled.getLsbD q.val = true → sites.getLsbD q.val = true) →
                    (t.cell c).guard.site q = g.site q)
            ∧ (if group 2 then
                (t.cell c).guard.w = w ∧ (t.cell c).guard.m = max 1 (min (field body 0x0E 2) w)
                ∧ (t.cell c).guard.l = min (field body 0x10 2) 1024
                ∧ (t.cell c).guard.mc = max 1 (min (field body 0x12 2) 2048)
                ∧ (t.cell c).guard.lc = min (field body 0x14 2) 1024 ∧ (t.cell c).guard.d = min (field body 0x16 2) 1024
                ∧ (t.cell c).guard.k = field body 0x18 1
                ∧ (w ≠ g.w → (t.cell c).guard.cellFlag = false
                    ∧ ∀ q : Site, (t.cell c).guard.site q = SiteGuard.reset)
              else (t.cell c).guard = { g with sites := (t.cell c).guard.sites })
            ∧ (∀ q : Site, group 1 → a.enabled.getLsbD q.val = true → sites.getLsbD q.val = false →
                (t.cell c).guard.site q = SiteGuard.reset)
          else t.cell c = s.cell c)

/-- A READ_CELL's body, read whole: BAD_CELL, BAD_ADDRESS, or the first write of its captured record, 48 bytes and 8
for each enabled site, in the layout of R191; each completed write brings the next, and the last answers DONE with the
number of site entries. The result word's completion brings the write of state and code, and that write's the link,
the new chain head where a load has moved the chain, or in DRAINING neither (R120 to R124, R144, R150, R155, R157,
R191). Rests on the model's choices notes/assumptions/12.md, notes/assumptions/32.md. -/
def Obligations.RecordsAndAnswersWritten : Prop :=
  (∀ (data : List Byte) (v : Service) (want : Nat) (s : State),
    Outstanding .bodyRead data.length s → s.order.service = some v → v.stage = .body want →
    want ≤ (v.body ++ data).length → field v.header 0x08 2 = 10 →
    let body := v.body ++ data
    let cell := field body 0 1
    let addr : Addr := BitVec.ofNat 64 (field body 8 8)
    let refused (code : Code) (result : Nat) := Answers (.bodyReadDone data) s fun t =>
      Answered { v with body := body } (.refused code (BitVec.ofNat 32 result)) s t ∧ Keeps [.order, .port, .irq] s t
    (24 ≤ cell → refused .badCell cell)
    ∧ (cell < 24 → addr.toNat % 8 ≠ 0 → refused .badAddress 0)
    ∧ ∀ c : CellNo, c.val = cell → addr.toNat % 8 = 0 → Answers (.bodyReadDone data) s fun t =>
        let n := (allSites.filter fun q => (s.cell c).asm.enabled.getLsbD q.val).length
        let bs := cellRecord c s
        t.order = { s.order with
            service := some { v with body := body, stage := .cellRecord ⟨addr, bs, bs.length⟩ n } }
        ∧ Requested (writeOf .cellRecordWrite addr (bs.take (64 - addr.toNat % 64))) t
        ∧ Keeps [.order, .port, .irq] s t)
  ∧ (∀ (c : CellNo) (s : State),
    let l := (s.cell c).line
    let a := (s.cell c).asm
    let g := (s.cell c).guard
    let content := holdContent s.engine.state s.coll.lots (s.cell c)
    let sites := allSites.filter fun q => a.enabled.getLsbD q.val
    let lineState := match l.state with | .offline => 0 | .online => 1 | .quarantined => 2
    let decoder := match l.decoder with
      | .hunt => 0 | .type _ => 1 | .length _ _ => 2 | .payload _ _ _ _ => 3 | .check _ _ _ _ => 4
    let ofOpen (f : Touchdown → Nat) := (a.touchdown.map f).getD 0
    let bs := cellRecord c s
    bs.length = 48 + 8 * sites.length
    ∧ (∀ x ∈ [(0x00, 1, c.val), (0x01, 1, lineState), (0x02, 1, decoder), (0x03, 1, l.rate.val), (0x04, 4, s.clock.toNat),
          (0x08, 1, l.q), (0x09, 1, l.errors), (0x0A, 1, l.clean), (0x0B, 1, content.reasons.toNat),
          (0x0C, 2, content.held.toNat), (0x0E, 1, (s.cell c).holds.currentLot.isSome.toNat),
          (0x0F, 1, a.touchdown.isSome.toNat), (0x14, 2, ofOpen fun td => td.number.toNat),
          (0x16, 2, ofOpen fun td => td.declared.toNat), (0x18, 1, ofOpen fun td => td.reports.length),
          (0x19, 1, ofOpen fun td => td.lost), (0x1A, 1, a.queue.length), (0x1B, 1, a.slots), (0x1C, 2, a.timeout),
          (0x1E, 2, a.enabled.toNat), (0x20, 2, g.w), (0x22, 2, g.m), (0x24, 2, g.l), (0x26, 2, g.mc), (0x28, 2, g.lc),
          (0x2A, 2, g.d), (0x2C, 1, g.k), (0x2D, 1, g.cellFlag.toNat), (0x2E, 1, sites.length), (0x2F, 1, 0)],
        field bs x.1 x.2.1 = x.2.2 % 256 ^ x.2.1)
    ∧ (∀ key ∈ (s.cell c).holds.currentLot, field bs 0x10 4 = key.toNat)
    ∧ ∀ (n : Fin 16), ∀ q ∈ sites[n.val]?, ∀ x ∈ [(0, 1, q.val), (1, 1, (g.site q).window.length),
          (2, 1, (g.site q).failCount), (3, 1, (g.site q).run),
          (4, 1, (g.site q).runFlag.toNat + 2 * (g.site q).limitFlag.toNat + 4 * (g.site q).spreadFlag.toNat), (5, 3, 0)],
        field bs (0x30 + 8 * n.val + x.1) x.2.1 = x.2.2 % 256 ^ x.2.1)
  ∧ (∀ (v : Service) (w : RecordWrite) (n : Nat) (s : State), OutstandingFor .cellRecordWrite s →
    s.order.service = some v → v.stage = .cellRecord w n →
    (w.after.rest = [] → Answers .cellRecordWriteDone s fun t =>
      Answered v (.done (BitVec.ofNat 32 n)) s t ∧ Keeps [.order, .port, .irq] s t)
    ∧ (w.after.rest ≠ [] → Answers .cellRecordWriteDone s fun t =>
      t.order = { s.order with service := some { v with stage := .cellRecord w.after n } }
      ∧ Requested (writeOf .cellRecordWrite w.after.next
          (w.after.rest.take (chunk w.after.next w.after.rest.length))) t
      ∧ Keeps [.order, .port, .irq] s t))
  ∧ (∀ (out : OrderOutcome) (s : State), OutstandingFor .resultWrite s → s.order.outcome = some out →
    Answers .resultWordWriteDone s fun t =>
      Requested (writeOf .stateWrite
        (addrPlus ((s.order.service.map (·.record)).getD (s.order.position.getD 0)) 0x0C)
        (match out with
          | .done _ => [0x02, 0x00, 0x00, 0x00]
          | .refused code _ => [0x03, 0x00, BitVec.ofNat 8 code.value, 0x00])) t
      ∧ Keeps [.port, .irq] s t)
  ∧ ∀ s : State, OutstandingFor .stateWrite s → Answers .stateWriteDone s fun t =>
      let stale := s.order.service.any (·.stale)
      t.order = { s.order with service := none, outcome := none, phase := if stale then .fetch else .link }
      ∧ t.coll = s.coll ∧ t.scanner = s.scanner ∧ SameNotices s t
      ∧ (s.engine.state = .draining → Placed s → portBusy .orderUnit t = (s.port.waiting.get .orderUnit).isSome)
      ∧ (s.engine.state = .running → Keeps [.order, .port, .irq] s t
        ∧ (stale = false → Requested (readOf .linkRead (s.order.position.getD 0) 8) t)
        ∧ (stale = true → Requested
            (writeOf .positionWrite s.loadedSetup.statusAddr (leBytes 8 (s.order.position.getD 0).toNat)) t))

/-- In RUNNING a link of 0 or not a multiple of 8 is polled: read again at once where a NUDGE is pending, else after
the chain poll interval; another is followed, its position written and then its header read. In DRAINING the value is
discarded. The poll timer's expiry reads the link again (R151 to R153, R155). Rests on the model's choices
notes/assumptions/12.md, notes/assumptions/13.md, notes/assumptions/20.md. -/
def Obligations.LinkFollowedOrPolled : Prop :=
  ∀ s : State,
    let position := s.order.position.getD 0
    (∀ v : Addr, Outstanding .linkRead 8 s →
      (s.engine.state = .running → v ≠ 0 → v.toNat % 8 = 0 → Answers (.linkReadDone v) s fun t =>
        t.order = { s.order with position := some v, posWritten := false, phase := .fetch, nudgePending := false }
        ∧ Requested (writeOf .positionWrite s.loadedSetup.statusAddr (leBytes 8 v.toNat)) t
        ∧ Keeps [.order, .port, .irq] s t)
      ∧ (s.engine.state = .running → v = 0 ∨ v.toNat % 8 ≠ 0 → Answers (.linkReadDone v) s fun t =>
        Keeps [.order, .port, .irq] s t
        ∧ if s.order.nudgePending then
            t.order = { s.order with nudgePending := false } ∧ Requested (readOf .linkRead position 8) t
          else t.order = { s.order with pollTimer := some (Time.plus s.clock s.loadedSetup.interval) })
      ∧ (s.engine.state = .draining → Answers (.linkReadDone v) s fun t =>
        t.order = { s.order with nudgePending := false } ∧ t.coll = s.coll ∧ SameNotices s t))
    ∧ (OutstandingFor .positionWrite s → Answers .chainPositionWriteDone s fun t =>
      t.order = { s.order with posWritten := true }
      ∧ (s.engine.state = .running → Keeps [.order, .port, .irq] s t
        ∧ (s.order.gathered = [] → Requested (readOf .headerRead position (min 24 (64 - position.toNat % 64))) t)))
    ∧ (s.order.phase = .link → s.engine.state = .running → expired s.clock s.order.pollTimer = true →
      portBusy .orderUnit s = false → Answers .pollTimerExpiry s fun t =>
        t.order = { s.order with pollTimer := none } ∧ Requested (readOf .linkRead position 8) t
        ∧ Keeps [.order, .port, .irq] s t)

/-! ## Notices (09) -/

/-- The pending table takes an occurrence: coalesced into the entry of its key; else a new entry at the tail while fewer
than 64 ordinary ones are there; else counted in the OVERFLOW entry, made at the tail where it is absent (R160, R161). -/
def Obligations.OccurrencesPlaced : Prop :=
  ∀ (now : Time) (k : NoticeKey) (d : Detail) (table : List Pending), TableOk table →
    let lost := match d with | .touchdownLoss _ n => n | _ => 0
    (∀ pre e post, table = pre ++ .entry e :: post → e.key = k → addOccurrence now k d table =
      pre ++ .entry { e with
        count := min (e.count + 1) 65535, last := now, detail := d, lostTotal := min (e.lostTotal + lost) 65535 } :: post)
    ∧ (some k ∉ tableKeys table → ordinaryCount table < 64 → addOccurrence now k d table =
      table ++ [.entry ⟨k, 1, now, now, d, min lost 65535⟩])
    ∧ (some k ∉ tableKeys table → ordinaryCount table = 64 → none ∉ tableKeys table → addOccurrence now k d table =
      table ++ [.overflow ⟨1, now, now, k, k⟩])
    ∧ ∀ pre o post, table = pre ++ .overflow o :: post → some k ∉ tableKeys table → ordinaryCount table = 64 →
      addOccurrence now k d table =
        pre ++ .overflow { o with count := min (o.count + 1) 65535, last := now, latestKey := k } :: post

/-- In RUNNING, and in DRAINING where something is left to drain: a record write's completion raises the written count
and brings its write; the count write's sets NOTICE after a post; a consumed value at most N behind is accepted; with
room the head entry is posted with the written count as its sequence number into slot written mod N, without room the
consumed word is read, again at once where a NUDGE is pending, else after the retry timer. In DRAINING a completion
that leaves nothing to drain ends the drain and issues nothing; the unit rests in the phase it leads to with Nudge
pending cleared (R162 to R165, R168). A record posted has the layout of 12.4, its detail by its kind (R189); the fault
kind bits of a refusal other than MAP_CORRUPT are 0 by the model's choice (notes/assumptions/34.md). Rests on the
model's choices notes/assumptions/12.md, notes/assumptions/17.md, notes/assumptions/18.md. -/
def Obligations.NoticesPosted : Prop :=
  (∀ (k : NoticeKey) (count lost : Nat) (first last : Time) (d : Detail) (seq : Word), d.kind = k.kind →
    let subject := match k.subject with | .lot _ wafer => wafer | .site c _ => c.val | .cell c => c.val
    let bs := Post.record ⟨.entry ⟨k, count, first, last, d, lost⟩, seq⟩
    let shown := noticeDetail lost d
    bs.length = 32 ∧ FieldsAt bs 0 ([(2, seq.toNat), (2, count), (4, first.toNat), (4, last.toNat), (1, shown.1), (1, subject)]
      ++ shown.2 ++ [(18 - (shown.2.map (·.1)).sum, 0)]))
  ∧ (∀ (o : Overflow) (seq : Word),
    let bs := Post.record ⟨.overflow o, seq⟩
    let shown (k : NoticeKey) : List (Nat × Nat) :=
      match k.subject with
      | .lot key wafer => [(1, k.kind.code), (1, wafer), (4, key.toNat)]
      | .site c q => [(1, k.kind.code), (1, c.val), (4, q.val)]
      | .cell c => [(1, k.kind.code), (1, c.val), (4, 0)]
    bs.length = 32 ∧ FieldsAt bs 0 ([(2, seq.toNat), (2, o.count), (4, o.first.toNat), (4, o.last.toNat), (1, 0x0F), (1, 0)]
      ++ shown o.firstKey ++ shown o.latestKey ++ [(6, 0)]))
  ∧ ∀ s : State,
    let n := s.loadedSetup.slots
    let readWord := readOf .consumedRead s.loadedSetup.consumedAddr 4
    let goesOn := s.engine.state = .running ∨ s.engine.state = .draining ∧ ¬NothingToDrain (portFree s)
    let accepted (v : Word) : NoticeUnit :=
      { s.notice with consumed := if (s.notice.written - v).toNat ≤ n then v else s.notice.consumed }
    (goesOn → OutstandingFor .noticeWrite s → Answers .noticeRecordWriteDone s fun t =>
      t.notice = { s.notice with written := s.notice.written + 1, countOwed := true, phase := .count }
      ∧ Requested (writeOf .countWrite (addrPlus s.loadedSetup.statusAddr 8)
          (leBytes 4 (s.notice.written + 1).toNat)) t
      ∧ Keeps [.notice, .port, .irq] s t)
    ∧ (goesOn → OutstandingFor .countWrite s → Answers .countWriteDone s fun t =>
      t.engine = { s.engine with notice := s.engine.notice || s.notice.post.isSome } ∧ t.irq = t.engine.interrupt
      ∧ Posts { s.notice with countOwed := false, post := none } s t ∧ Keeps [.engine, .notice, .port, .irq] s t)
    ∧ (∀ v : Word, goesOn → Outstanding .consumedRead 4 s → Answers (.consumedReadDone v) s fun t =>
      Keeps [.notice, .port, .irq] s t
      ∧ let u := accepted v
        if (u.written - u.consumed).toNat < n then Posts u s t
        else if u.nudgePending then t.notice = { u with phase := .room, retry := none, nudgePending := false }
          ∧ Requested readWord t
        else t.notice = { u with phase := .wait, retry := some (Time.plus s.clock s.loadedSetup.interval) })
    ∧ (s.notice.phase = .wait → s.engine.state = .running ∨ s.engine.state = .draining →
      expired s.clock s.notice.retry = true → Answers .retryTimerExpiry s fun t =>
        t.notice = { s.notice with phase := .room, retry := none } ∧ Requested readWord t
        ∧ Keeps [.notice, .port, .irq] s t)
    ∧ (s.engine.state = .draining → Placed s → NothingToDrain (portFree s) →
      let rests (i : Instr) (u : NoticeUnit) := Answers i s fun t => t.engine.state = .halted
        ∧ portBusy .noticeUnit t = false ∧ t.notice = { u with nudgePending := false, retry := none }
      (OutstandingFor .noticeWrite s → rests .noticeRecordWriteDone
        { s.notice with written := s.notice.written + 1, countOwed := true, phase := .count })
      ∧ (OutstandingFor .countWrite s → rests .countWriteDone
        { s.notice with countOwed := false, post := none, phase := .idle })
      ∧ ∀ v : Word, Outstanding .consumedRead 4 s → rests (.consumedReadDone v) { accepted v with
          phase := if ((accepted v).written - (accepted v).consumed).toNat < n then .idle else .wait })

/-! ## Invariants that every step keeps -/

/-- Engine control keeps its form, the drain is judged, a free port has nothing waiting, the interrupt follows its
flags, and every request waits in its own requester's place. A transaction outstanding after a step is the one before
it, or has been issued in it: its timer at the clock plus 2, its requester the last granted, and no requester that
waited before and waits still comes sooner in the rotation after the one granted before it. A port freed grants the
first waiting requester after the last granted (R169, R170, R176, R177, R179 to R181). Rests on the model's choices
notes/assumptions/7.md, notes/assumptions/21.md, notes/assumptions/24.md. -/
def Obligations.EngineAndPortStaySettled : Prop :=
  (∀ s t : State, EngineOk s.engine → Placed s → Settled s → step s = .next t →
    EngineOk t.engine ∧ Placed t ∧ Settled t
    ∧ ∀ tr ∈ t.port.outstanding,
      (t.port.timer = s.port.timer ∧ t.port.last = s.port.last
        ∧ ∃ old ∈ s.port.outstanding, (tr.addr, tr.length, tr.data) = (old.addr, old.length, old.data))
      ∨ (t.port.timer = some (Time.plus s.clock 2) ∧ t.port.last = tr.purpose.requester
        ∧ t.port.waiting.get t.port.last = none
        ∧ ∀ q, turn s.port.last q < turn s.port.last t.port.last → (s.port.waiting.get q).isSome →
            t.port.waiting.get q = none))
  ∧ ∀ s : State, Outstanding .abandonedSetupRead 64 s → s.engine.state = .halted ∨ s.engine.state = .loading →
    s.irq = s.engine.interrupt →
    (s.port.waiting = Waiting.none → exec (.lateResponse .abandonedSetupRead) s =
      .next { s with port := { s.port with outstanding := none, timer := none } })
    ∧ ∀ r, ∀ tr ∈ s.port.waiting.get r,
      (∀ q, turn s.port.last q < turn s.port.last r → s.port.waiting.get q = none) →
      exec (.lateResponse .abandonedSetupRead) s = .next { s with
        port := ⟨some tr, some (Time.plus s.clock 2), s.port.waiting.put r none, r⟩ }

/-- The catalogue keeps at most 32 lots of distinct keys, each on a LOADED plan slot (R10, R125, R128). -/
def Obligations.CatalogueStaysLegal : Prop :=
  ∀ s t : State, CatalogueOk s.coll → step s = .next t → CatalogueOk t.coll

/-- The guard parameters stay in range, windows no longer than W with their fail counts, and the holds follow the guard
flags (R88, R89, R99, R101 to R103). -/
def Obligations.GuardsStayLegal : Prop :=
  ∀ s t : State, (∀ c, GuardOk (s.cell c)) → step s = .next t → ∀ c, GuardOk (t.cell c)

/-- Every assembler keeps at most 15 queued records and 64 slots in use, its silence timer runs exactly while a
touchdown is open, and BUFFER is as its bounds give it (R44, R50, R53, R55 to R58). Rests on the model's choices
notes/assumptions/27.md. -/
def Obligations.AssemblersStayLegal : Prop :=
  ∀ s t : State, (∀ c, AssemblerOk (s.cell c).asm ∧ BufferOk (s.cell c)) → step s = .next t →
    ∀ c, AssemblerOk (t.cell c).asm ∧ BufferOk (t.cell c)

/-- Receivers are active exactly where a line is in service and the engine state allows it, a line in service has its
rate code in force, and a transmitter is IDLE only when its current hold content is the last sent (R25, R38, R40 to
R42, R112 to R116). Rests on the model's choices notes/assumptions/32.md. -/
def Obligations.LinesFollowTheirContent : Prop :=
  ∀ s t : State,
    (∀ c, ReceiverOk s.engine.state (s.cell c).line ∧ RateOk (s.cell c).line
      ∧ TransmitterOk s.engine.state s.coll.lots (s.cell c)) →
    step s = .next t →
    ∀ c, ReceiverOk t.engine.state (t.cell c).line ∧ RateOk (t.cell c).line
      ∧ TransmitterOk t.engine.state t.coll.lots (t.cell c)

/-- Every transaction at the port is at most 64 bytes and crosses no multiple of 64, and the addresses held stay
aligned (R140, R143, R144, R179). Rests on the model's choices notes/assumptions/25.md. -/
def Obligations.TransactionsStayPlaced : Prop :=
  ∀ s t : State, PortOk s → step s = .next t → PortOk t

/-- The pending table keeps its bound with no key twice; the written count is never more than N past the consumed count,
and the notice unit's transaction is the one its phase calls for (R159, R162 to R167). -/
def Obligations.NoticeListNeverOverrun : Prop :=
  ∀ s t : State, TableOk s.notice.table → NoticeOk s → Placed s → step s = .next t →
    TableOk t.notice.table ∧ NoticeOk t
end

