-- ==== Sys2Proof/Laws/State.lean ====
section
/-! SUPPORT. What each update of the state leaves alone, field by field, and what a cell reads after it. -/

namespace Sys2Proof.Machine

/-! ## Cells -/

@[simp] theorem cell_setCell (s : State) (c : CellNo) (v : CellState) : (s.setCell c v).cell c = v := by
  simp [State.cell, State.setCell]

theorem cell_setCell_ne (s : State) {c d : CellNo} (v : CellState) (h : d ≠ c) : (s.setCell c v).cell d = s.cell d := by
  have h' : c.val ≠ d.val := fun e => h (Fin.ext e.symm)
  simp [State.cell, State.setCell, h']

@[simp] theorem cell_modCell (s : State) (c : CellNo) (f : CellState → CellState) : (s.modCell c f).cell c = f (s.cell c) :=
  cell_setCell _ _ _

theorem cell_modCell_ne (s : State) {c d : CellNo} (f : CellState → CellState) (h : d ≠ c) :
    (s.modCell c f).cell d = s.cell d := cell_setCell_ne _ _ h

@[simp] theorem cell_modLine (s : State) (c : CellNo) (f : Line → Line) :
    (s.modLine c f).cell c = { s.cell c with line := f (s.cell c).line } := cell_modCell _ _ _

theorem cell_modLine_ne (s : State) {c d : CellNo} (f : Line → Line) (h : d ≠ c) : (s.modLine c f).cell d = s.cell d :=
  cell_modCell_ne _ _ h

@[simp] theorem cell_modAsm (s : State) (c : CellNo) (f : Assembler → Assembler) :
    (s.modAsm c f).cell c = { s.cell c with asm := f (s.cell c).asm } := cell_modCell _ _ _

theorem cell_modAsm_ne (s : State) {c d : CellNo} (f : Assembler → Assembler) (h : d ≠ c) :
    (s.modAsm c f).cell d = s.cell d := cell_modCell_ne _ _ h

@[simp] theorem cell_mapCells (s : State) (f : CellState → CellState) (c : CellNo) :
    (s.mapCells f).cell c = f (s.cell c) := by
  simp [State.cell, State.mapCells, eachColumn]

@[simp] theorem cell_refresh (c : CellNo) (s : State) :
    (refresh c s).cell c = transmit s.engine.state s.coll.lots (s.cell c) := cell_modCell _ _ _

theorem cell_refresh_ne {c d : CellNo} (s : State) (h : d ≠ c) : (refresh c s).cell d = s.cell d :=
  cell_modCell_ne _ _ h

@[simp] theorem cell_refreshAll (s : State) (c : CellNo) :
    (refreshAll s).cell c = transmit s.engine.state s.coll.lots (s.cell c) := cell_mapCells _ _ _

/-- A state that differs elsewhere reads the same cells. -/
theorem cell_eq_of_cells {s t : State} (h : t.cells = s.cells) (c : CellNo) : t.cell c = s.cell c := by
  simp [State.cell, h]

/-! ## The port's waiting requests -/

@[simp] theorem waiting_put_get (w : Waiting) (r : Requester) (t : Option Transaction) : (w.put r t).get r = t := by
  cases r <;> rfl

theorem waiting_put_get_ne (w : Waiting) {r q : Requester} (t : Option Transaction) (h : q ≠ r) :
    (w.put r t).get q = w.get q := by
  cases r <;> cases q <;> first | rfl | exact absurd rfl h

@[simp] theorem portRequest_waiting (t : Transaction) (s : State) :
    (portRequest t s).port.waiting.get t.purpose.requester = some t := waiting_put_get _ _ _

@[simp] theorem portRequest_outstanding (t : Transaction) (s : State) :
    (portRequest t s).port.outstanding = s.port.outstanding := rfl

@[simp] theorem portRequest_timer (t : Transaction) (s : State) : (portRequest t s).port.timer = s.port.timer := rfl

@[simp] theorem portRequest_last (t : Transaction) (s : State) : (portRequest t s).port.last = s.port.last := rfl

@[simp] theorem portFree_outstanding (s : State) : (portFree s).port.outstanding = none := rfl

@[simp] theorem portFree_timer (s : State) : (portFree s).port.timer = none := rfl

@[simp] theorem portFree_waiting (s : State) : (portFree s).port.waiting = s.port.waiting := rfl

@[simp] theorem portFree_last (s : State) : (portFree s).port.last = s.port.last := rfl

/-! ## The fields an update leaves alone -/

@[simp] theorem setCell_engine (s : State) (c : CellNo) (v : CellState) : (s.setCell c v).engine = s.engine := rfl
@[simp] theorem setCell_irq (s : State) (c : CellNo) (v : CellState) : (s.setCell c v).irq = s.irq := rfl
@[simp] theorem setCell_clock (s : State) (c : CellNo) (v : CellState) : (s.setCell c v).clock = s.clock := rfl
@[simp] theorem setCell_port (s : State) (c : CellNo) (v : CellState) : (s.setCell c v).port = s.port := rfl
@[simp] theorem setCell_order (s : State) (c : CellNo) (v : CellState) : (s.setCell c v).order = s.order := rfl
@[simp] theorem setCell_coll (s : State) (c : CellNo) (v : CellState) : (s.setCell c v).coll = s.coll := rfl
@[simp] theorem setCell_scanner (s : State) (c : CellNo) (v : CellState) : (s.setCell c v).scanner = s.scanner := rfl
@[simp] theorem setCell_notice (s : State) (c : CellNo) (v : CellState) : (s.setCell c v).notice = s.notice := rfl
@[simp] theorem setCell_pending (s : State) (c : CellNo) (v : CellState) : (s.setCell c v).pending = s.pending := rfl
@[simp] theorem setCell_races (s : State) (c : CellNo) (v : CellState) : (s.setCell c v).races = s.races := rfl
@[simp] theorem setCell_raceCount (s : State) (c : CellNo) (v : CellState) : (s.setCell c v).raceCount = s.raceCount := rfl

@[simp] theorem modCell_engine (s : State) (c : CellNo) (f : CellState → CellState) : (s.modCell c f).engine = s.engine := rfl
@[simp] theorem modCell_irq (s : State) (c : CellNo) (f : CellState → CellState) : (s.modCell c f).irq = s.irq := rfl
@[simp] theorem modCell_clock (s : State) (c : CellNo) (f : CellState → CellState) : (s.modCell c f).clock = s.clock := rfl
@[simp] theorem modCell_port (s : State) (c : CellNo) (f : CellState → CellState) : (s.modCell c f).port = s.port := rfl
@[simp] theorem modCell_order (s : State) (c : CellNo) (f : CellState → CellState) : (s.modCell c f).order = s.order := rfl
@[simp] theorem modCell_coll (s : State) (c : CellNo) (f : CellState → CellState) : (s.modCell c f).coll = s.coll := rfl
@[simp] theorem modCell_scanner (s : State) (c : CellNo) (f : CellState → CellState) : (s.modCell c f).scanner = s.scanner := rfl
@[simp] theorem modCell_notice (s : State) (c : CellNo) (f : CellState → CellState) : (s.modCell c f).notice = s.notice := rfl
@[simp] theorem modCell_pending (s : State) (c : CellNo) (f : CellState → CellState) : (s.modCell c f).pending = s.pending := rfl
@[simp] theorem modCell_races (s : State) (c : CellNo) (f : CellState → CellState) : (s.modCell c f).races = s.races := rfl
@[simp] theorem modCell_raceCount (s : State) (c : CellNo) (f : CellState → CellState) : (s.modCell c f).raceCount = s.raceCount := rfl

@[simp] theorem mapCells_engine (s : State) (f : CellState → CellState) : (s.mapCells f).engine = s.engine := rfl
@[simp] theorem mapCells_irq (s : State) (f : CellState → CellState) : (s.mapCells f).irq = s.irq := rfl
@[simp] theorem mapCells_clock (s : State) (f : CellState → CellState) : (s.mapCells f).clock = s.clock := rfl
@[simp] theorem mapCells_port (s : State) (f : CellState → CellState) : (s.mapCells f).port = s.port := rfl
@[simp] theorem mapCells_order (s : State) (f : CellState → CellState) : (s.mapCells f).order = s.order := rfl
@[simp] theorem mapCells_coll (s : State) (f : CellState → CellState) : (s.mapCells f).coll = s.coll := rfl
@[simp] theorem mapCells_scanner (s : State) (f : CellState → CellState) : (s.mapCells f).scanner = s.scanner := rfl
@[simp] theorem mapCells_notice (s : State) (f : CellState → CellState) : (s.mapCells f).notice = s.notice := rfl
@[simp] theorem mapCells_pending (s : State) (f : CellState → CellState) : (s.mapCells f).pending = s.pending := rfl
@[simp] theorem mapCells_races (s : State) (f : CellState → CellState) : (s.mapCells f).races = s.races := rfl
@[simp] theorem mapCells_raceCount (s : State) (f : CellState → CellState) : (s.mapCells f).raceCount = s.raceCount := rfl

@[simp] theorem modLine_engine (s : State) (c : CellNo) (f : Line → Line) : (s.modLine c f).engine = s.engine := rfl
@[simp] theorem modLine_irq (s : State) (c : CellNo) (f : Line → Line) : (s.modLine c f).irq = s.irq := rfl
@[simp] theorem modLine_clock (s : State) (c : CellNo) (f : Line → Line) : (s.modLine c f).clock = s.clock := rfl
@[simp] theorem modLine_port (s : State) (c : CellNo) (f : Line → Line) : (s.modLine c f).port = s.port := rfl
@[simp] theorem modLine_order (s : State) (c : CellNo) (f : Line → Line) : (s.modLine c f).order = s.order := rfl
@[simp] theorem modLine_coll (s : State) (c : CellNo) (f : Line → Line) : (s.modLine c f).coll = s.coll := rfl
@[simp] theorem modLine_scanner (s : State) (c : CellNo) (f : Line → Line) : (s.modLine c f).scanner = s.scanner := rfl
@[simp] theorem modLine_notice (s : State) (c : CellNo) (f : Line → Line) : (s.modLine c f).notice = s.notice := rfl
@[simp] theorem modLine_pending (s : State) (c : CellNo) (f : Line → Line) : (s.modLine c f).pending = s.pending := rfl
@[simp] theorem modLine_races (s : State) (c : CellNo) (f : Line → Line) : (s.modLine c f).races = s.races := rfl
@[simp] theorem modLine_raceCount (s : State) (c : CellNo) (f : Line → Line) : (s.modLine c f).raceCount = s.raceCount := rfl

@[simp] theorem modAsm_engine (s : State) (c : CellNo) (f : Assembler → Assembler) : (s.modAsm c f).engine = s.engine := rfl
@[simp] theorem modAsm_irq (s : State) (c : CellNo) (f : Assembler → Assembler) : (s.modAsm c f).irq = s.irq := rfl
@[simp] theorem modAsm_clock (s : State) (c : CellNo) (f : Assembler → Assembler) : (s.modAsm c f).clock = s.clock := rfl
@[simp] theorem modAsm_port (s : State) (c : CellNo) (f : Assembler → Assembler) : (s.modAsm c f).port = s.port := rfl
@[simp] theorem modAsm_order (s : State) (c : CellNo) (f : Assembler → Assembler) : (s.modAsm c f).order = s.order := rfl
@[simp] theorem modAsm_coll (s : State) (c : CellNo) (f : Assembler → Assembler) : (s.modAsm c f).coll = s.coll := rfl
@[simp] theorem modAsm_scanner (s : State) (c : CellNo) (f : Assembler → Assembler) : (s.modAsm c f).scanner = s.scanner := rfl
@[simp] theorem modAsm_notice (s : State) (c : CellNo) (f : Assembler → Assembler) : (s.modAsm c f).notice = s.notice := rfl
@[simp] theorem modAsm_pending (s : State) (c : CellNo) (f : Assembler → Assembler) : (s.modAsm c f).pending = s.pending := rfl
@[simp] theorem modAsm_races (s : State) (c : CellNo) (f : Assembler → Assembler) : (s.modAsm c f).races = s.races := rfl
@[simp] theorem modAsm_raceCount (s : State) (c : CellNo) (f : Assembler → Assembler) : (s.modAsm c f).raceCount = s.raceCount := rfl

@[simp] theorem portRequest_engine (t : Transaction) (s : State) : (portRequest t s).engine = s.engine := rfl
@[simp] theorem portRequest_irq (t : Transaction) (s : State) : (portRequest t s).irq = s.irq := rfl
@[simp] theorem portRequest_clock (t : Transaction) (s : State) : (portRequest t s).clock = s.clock := rfl
@[simp] theorem portRequest_order (t : Transaction) (s : State) : (portRequest t s).order = s.order := rfl
@[simp] theorem portRequest_cells (t : Transaction) (s : State) : (portRequest t s).cells = s.cells := rfl
@[simp] theorem portRequest_coll (t : Transaction) (s : State) : (portRequest t s).coll = s.coll := rfl
@[simp] theorem portRequest_scanner (t : Transaction) (s : State) : (portRequest t s).scanner = s.scanner := rfl
@[simp] theorem portRequest_notice (t : Transaction) (s : State) : (portRequest t s).notice = s.notice := rfl
@[simp] theorem portRequest_pending (t : Transaction) (s : State) : (portRequest t s).pending = s.pending := rfl
@[simp] theorem portRequest_races (t : Transaction) (s : State) : (portRequest t s).races = s.races := rfl
@[simp] theorem portRequest_raceCount (t : Transaction) (s : State) : (portRequest t s).raceCount = s.raceCount := rfl

@[simp] theorem portWithdraw_engine (r : Requester) (s : State) : (portWithdraw r s).engine = s.engine := rfl
@[simp] theorem portWithdraw_irq (r : Requester) (s : State) : (portWithdraw r s).irq = s.irq := rfl
@[simp] theorem portWithdraw_clock (r : Requester) (s : State) : (portWithdraw r s).clock = s.clock := rfl
@[simp] theorem portWithdraw_order (r : Requester) (s : State) : (portWithdraw r s).order = s.order := rfl
@[simp] theorem portWithdraw_cells (r : Requester) (s : State) : (portWithdraw r s).cells = s.cells := rfl
@[simp] theorem portWithdraw_coll (r : Requester) (s : State) : (portWithdraw r s).coll = s.coll := rfl
@[simp] theorem portWithdraw_scanner (r : Requester) (s : State) : (portWithdraw r s).scanner = s.scanner := rfl
@[simp] theorem portWithdraw_notice (r : Requester) (s : State) : (portWithdraw r s).notice = s.notice := rfl
@[simp] theorem portWithdraw_pending (r : Requester) (s : State) : (portWithdraw r s).pending = s.pending := rfl
@[simp] theorem portWithdraw_races (r : Requester) (s : State) : (portWithdraw r s).races = s.races := rfl
@[simp] theorem portWithdraw_raceCount (r : Requester) (s : State) : (portWithdraw r s).raceCount = s.raceCount := rfl

@[simp] theorem portFree_engine (s : State) : (portFree s).engine = s.engine := rfl
@[simp] theorem portFree_irq (s : State) : (portFree s).irq = s.irq := rfl
@[simp] theorem portFree_clock (s : State) : (portFree s).clock = s.clock := rfl
@[simp] theorem portFree_order (s : State) : (portFree s).order = s.order := rfl
@[simp] theorem portFree_cells (s : State) : (portFree s).cells = s.cells := rfl
@[simp] theorem portFree_coll (s : State) : (portFree s).coll = s.coll := rfl
@[simp] theorem portFree_scanner (s : State) : (portFree s).scanner = s.scanner := rfl
@[simp] theorem portFree_notice (s : State) : (portFree s).notice = s.notice := rfl
@[simp] theorem portFree_pending (s : State) : (portFree s).pending = s.pending := rfl
@[simp] theorem portFree_races (s : State) : (portFree s).races = s.races := rfl
@[simp] theorem portFree_raceCount (s : State) : (portFree s).raceCount = s.raceCount := rfl

@[simp] theorem refresh_engine (c : CellNo) (s : State) : (refresh c s).engine = s.engine := rfl
@[simp] theorem refresh_irq (c : CellNo) (s : State) : (refresh c s).irq = s.irq := rfl
@[simp] theorem refresh_clock (c : CellNo) (s : State) : (refresh c s).clock = s.clock := rfl
@[simp] theorem refresh_port (c : CellNo) (s : State) : (refresh c s).port = s.port := rfl
@[simp] theorem refresh_order (c : CellNo) (s : State) : (refresh c s).order = s.order := rfl
@[simp] theorem refresh_coll (c : CellNo) (s : State) : (refresh c s).coll = s.coll := rfl
@[simp] theorem refresh_scanner (c : CellNo) (s : State) : (refresh c s).scanner = s.scanner := rfl
@[simp] theorem refresh_notice (c : CellNo) (s : State) : (refresh c s).notice = s.notice := rfl
@[simp] theorem refresh_pending (c : CellNo) (s : State) : (refresh c s).pending = s.pending := rfl
@[simp] theorem refresh_races (c : CellNo) (s : State) : (refresh c s).races = s.races := rfl
@[simp] theorem refresh_raceCount (c : CellNo) (s : State) : (refresh c s).raceCount = s.raceCount := rfl

@[simp] theorem refreshAll_engine (s : State) : (refreshAll s).engine = s.engine := rfl
@[simp] theorem refreshAll_irq (s : State) : (refreshAll s).irq = s.irq := rfl
@[simp] theorem refreshAll_clock (s : State) : (refreshAll s).clock = s.clock := rfl
@[simp] theorem refreshAll_port (s : State) : (refreshAll s).port = s.port := rfl
@[simp] theorem refreshAll_order (s : State) : (refreshAll s).order = s.order := rfl
@[simp] theorem refreshAll_coll (s : State) : (refreshAll s).coll = s.coll := rfl
@[simp] theorem refreshAll_scanner (s : State) : (refreshAll s).scanner = s.scanner := rfl
@[simp] theorem refreshAll_notice (s : State) : (refreshAll s).notice = s.notice := rfl
@[simp] theorem refreshAll_pending (s : State) : (refreshAll s).pending = s.pending := rfl
@[simp] theorem refreshAll_races (s : State) : (refreshAll s).races = s.races := rfl
@[simp] theorem refreshAll_raceCount (s : State) : (refreshAll s).raceCount = s.raceCount := rfl

@[simp] theorem refreshLot_engine (key : Word) (s : State) : (refreshLot key s).engine = s.engine := rfl
@[simp] theorem refreshLot_irq (key : Word) (s : State) : (refreshLot key s).irq = s.irq := rfl
@[simp] theorem refreshLot_clock (key : Word) (s : State) : (refreshLot key s).clock = s.clock := rfl
@[simp] theorem refreshLot_port (key : Word) (s : State) : (refreshLot key s).port = s.port := rfl
@[simp] theorem refreshLot_order (key : Word) (s : State) : (refreshLot key s).order = s.order := rfl
@[simp] theorem refreshLot_coll (key : Word) (s : State) : (refreshLot key s).coll = s.coll := rfl
@[simp] theorem refreshLot_scanner (key : Word) (s : State) : (refreshLot key s).scanner = s.scanner := rfl
@[simp] theorem refreshLot_notice (key : Word) (s : State) : (refreshLot key s).notice = s.notice := rfl
@[simp] theorem refreshLot_pending (key : Word) (s : State) : (refreshLot key s).pending = s.pending := rfl
@[simp] theorem refreshLot_races (key : Word) (s : State) : (refreshLot key s).races = s.races := rfl
@[simp] theorem refreshLot_raceCount (key : Word) (s : State) : (refreshLot key s).raceCount = s.raceCount := rfl

@[simp] theorem readConsumed_engine (s : State) : (readConsumed s).engine = s.engine := rfl
@[simp] theorem readConsumed_irq (s : State) : (readConsumed s).irq = s.irq := rfl
@[simp] theorem readConsumed_clock (s : State) : (readConsumed s).clock = s.clock := rfl
@[simp] theorem readConsumed_order (s : State) : (readConsumed s).order = s.order := rfl
@[simp] theorem readConsumed_cells (s : State) : (readConsumed s).cells = s.cells := rfl
@[simp] theorem readConsumed_coll (s : State) : (readConsumed s).coll = s.coll := rfl
@[simp] theorem readConsumed_scanner (s : State) : (readConsumed s).scanner = s.scanner := rfl
@[simp] theorem readConsumed_pending (s : State) : (readConsumed s).pending = s.pending := rfl
@[simp] theorem readConsumed_races (s : State) : (readConsumed s).races = s.races := rfl
@[simp] theorem readConsumed_raceCount (s : State) : (readConsumed s).raceCount = s.raceCount := rfl

@[simp] theorem setNotice_engine (s : State) (n : NoticeUnit) : (s.setNotice n).engine = s.engine := rfl
@[simp] theorem setNotice_irq (s : State) (n : NoticeUnit) : (s.setNotice n).irq = s.irq := rfl
@[simp] theorem setNotice_clock (s : State) (n : NoticeUnit) : (s.setNotice n).clock = s.clock := rfl
@[simp] theorem setNotice_port (s : State) (n : NoticeUnit) : (s.setNotice n).port = s.port := rfl
@[simp] theorem setNotice_order (s : State) (n : NoticeUnit) : (s.setNotice n).order = s.order := rfl
@[simp] theorem setNotice_cells (s : State) (n : NoticeUnit) : (s.setNotice n).cells = s.cells := rfl
@[simp] theorem setNotice_coll (s : State) (n : NoticeUnit) : (s.setNotice n).coll = s.coll := rfl
@[simp] theorem setNotice_scanner (s : State) (n : NoticeUnit) : (s.setNotice n).scanner = s.scanner := rfl
@[simp] theorem setNotice_pending (s : State) (n : NoticeUnit) : (s.setNotice n).pending = s.pending := rfl
@[simp] theorem setNotice_races (s : State) (n : NoticeUnit) : (s.setNotice n).races = s.races := rfl
@[simp] theorem setNotice_raceCount (s : State) (n : NoticeUnit) : (s.setNotice n).raceCount = s.raceCount := rfl

@[simp] theorem setOrder_engine (s : State) (o : OrderUnit) : (s.setOrder o).engine = s.engine := rfl
@[simp] theorem setOrder_irq (s : State) (o : OrderUnit) : (s.setOrder o).irq = s.irq := rfl
@[simp] theorem setOrder_clock (s : State) (o : OrderUnit) : (s.setOrder o).clock = s.clock := rfl
@[simp] theorem setOrder_port (s : State) (o : OrderUnit) : (s.setOrder o).port = s.port := rfl
@[simp] theorem setOrder_cells (s : State) (o : OrderUnit) : (s.setOrder o).cells = s.cells := rfl
@[simp] theorem setOrder_coll (s : State) (o : OrderUnit) : (s.setOrder o).coll = s.coll := rfl
@[simp] theorem setOrder_scanner (s : State) (o : OrderUnit) : (s.setOrder o).scanner = s.scanner := rfl
@[simp] theorem setOrder_notice (s : State) (o : OrderUnit) : (s.setOrder o).notice = s.notice := rfl
@[simp] theorem setOrder_pending (s : State) (o : OrderUnit) : (s.setOrder o).pending = s.pending := rfl
@[simp] theorem setOrder_races (s : State) (o : OrderUnit) : (s.setOrder o).races = s.races := rfl
@[simp] theorem setOrder_raceCount (s : State) (o : OrderUnit) : (s.setOrder o).raceCount = s.raceCount := rfl

@[simp] theorem setEngine_irq (s : State) (e : Engine) : (s.setEngine e).irq = s.irq := rfl
@[simp] theorem setEngine_clock (s : State) (e : Engine) : (s.setEngine e).clock = s.clock := rfl
@[simp] theorem setEngine_port (s : State) (e : Engine) : (s.setEngine e).port = s.port := rfl
@[simp] theorem setEngine_order (s : State) (e : Engine) : (s.setEngine e).order = s.order := rfl
@[simp] theorem setEngine_cells (s : State) (e : Engine) : (s.setEngine e).cells = s.cells := rfl
@[simp] theorem setEngine_coll (s : State) (e : Engine) : (s.setEngine e).coll = s.coll := rfl
@[simp] theorem setEngine_scanner (s : State) (e : Engine) : (s.setEngine e).scanner = s.scanner := rfl
@[simp] theorem setEngine_notice (s : State) (e : Engine) : (s.setEngine e).notice = s.notice := rfl
@[simp] theorem setEngine_pending (s : State) (e : Engine) : (s.setEngine e).pending = s.pending := rfl
@[simp] theorem setEngine_races (s : State) (e : Engine) : (s.setEngine e).races = s.races := rfl
@[simp] theorem setEngine_raceCount (s : State) (e : Engine) : (s.setEngine e).raceCount = s.raceCount := rfl

@[simp] theorem setEngineState_irq (e : EngineState) (s : State) : (setEngineState e s).irq = s.irq := rfl
@[simp] theorem setEngineState_clock (e : EngineState) (s : State) : (setEngineState e s).clock = s.clock := rfl
@[simp] theorem setEngineState_port (e : EngineState) (s : State) : (setEngineState e s).port = s.port := rfl
@[simp] theorem setEngineState_order (e : EngineState) (s : State) : (setEngineState e s).order = s.order := rfl
@[simp] theorem setEngineState_cells (e : EngineState) (s : State) : (setEngineState e s).cells = s.cells := rfl
@[simp] theorem setEngineState_coll (e : EngineState) (s : State) : (setEngineState e s).coll = s.coll := rfl
@[simp] theorem setEngineState_scanner (e : EngineState) (s : State) : (setEngineState e s).scanner = s.scanner := rfl
@[simp] theorem setEngineState_notice (e : EngineState) (s : State) : (setEngineState e s).notice = s.notice := rfl
@[simp] theorem setEngineState_pending (e : EngineState) (s : State) : (setEngineState e s).pending = s.pending := rfl
@[simp] theorem setEngineState_races (e : EngineState) (s : State) : (setEngineState e s).races = s.races := rfl
@[simp] theorem setEngineState_raceCount (e : EngineState) (s : State) : (setEngineState e s).raceCount = s.raceCount := rfl

@[simp] theorem setLots_engine (s : State) (lots : List Lot) : (s.setLots lots).engine = s.engine := rfl
@[simp] theorem setLots_irq (s : State) (lots : List Lot) : (s.setLots lots).irq = s.irq := rfl
@[simp] theorem setLots_clock (s : State) (lots : List Lot) : (s.setLots lots).clock = s.clock := rfl
@[simp] theorem setLots_port (s : State) (lots : List Lot) : (s.setLots lots).port = s.port := rfl
@[simp] theorem setLots_order (s : State) (lots : List Lot) : (s.setLots lots).order = s.order := rfl
@[simp] theorem setLots_cells (s : State) (lots : List Lot) : (s.setLots lots).cells = s.cells := rfl
@[simp] theorem setLots_scanner (s : State) (lots : List Lot) : (s.setLots lots).scanner = s.scanner := rfl
@[simp] theorem setLots_notice (s : State) (lots : List Lot) : (s.setLots lots).notice = s.notice := rfl
@[simp] theorem setLots_pending (s : State) (lots : List Lot) : (s.setLots lots).pending = s.pending := rfl
@[simp] theorem setLots_races (s : State) (lots : List Lot) : (s.setLots lots).races = s.races := rfl
@[simp] theorem setLots_raceCount (s : State) (lots : List Lot) : (s.setLots lots).raceCount = s.raceCount := rfl

@[simp] theorem modLot_engine (key : Word) (f : Lot → Lot) (s : State) : (modLot key f s).engine = s.engine := rfl
@[simp] theorem modLot_irq (key : Word) (f : Lot → Lot) (s : State) : (modLot key f s).irq = s.irq := rfl
@[simp] theorem modLot_clock (key : Word) (f : Lot → Lot) (s : State) : (modLot key f s).clock = s.clock := rfl
@[simp] theorem modLot_port (key : Word) (f : Lot → Lot) (s : State) : (modLot key f s).port = s.port := rfl
@[simp] theorem modLot_order (key : Word) (f : Lot → Lot) (s : State) : (modLot key f s).order = s.order := rfl
@[simp] theorem modLot_cells (key : Word) (f : Lot → Lot) (s : State) : (modLot key f s).cells = s.cells := rfl
@[simp] theorem modLot_scanner (key : Word) (f : Lot → Lot) (s : State) : (modLot key f s).scanner = s.scanner := rfl
@[simp] theorem modLot_notice (key : Word) (f : Lot → Lot) (s : State) : (modLot key f s).notice = s.notice := rfl
@[simp] theorem modLot_pending (key : Word) (f : Lot → Lot) (s : State) : (modLot key f s).pending = s.pending := rfl
@[simp] theorem modLot_races (key : Word) (f : Lot → Lot) (s : State) : (modLot key f s).races = s.races := rfl
@[simp] theorem modLot_raceCount (key : Word) (f : Lot → Lot) (s : State) : (modLot key f s).raceCount = s.raceCount := rfl

@[simp] theorem joinRequests_engine (r : Request) (s : State) : (joinRequests r s).engine = s.engine := rfl
@[simp] theorem joinRequests_irq (r : Request) (s : State) : (joinRequests r s).irq = s.irq := rfl
@[simp] theorem joinRequests_clock (r : Request) (s : State) : (joinRequests r s).clock = s.clock := rfl
@[simp] theorem joinRequests_port (r : Request) (s : State) : (joinRequests r s).port = s.port := rfl
@[simp] theorem joinRequests_order (r : Request) (s : State) : (joinRequests r s).order = s.order := rfl
@[simp] theorem joinRequests_cells (r : Request) (s : State) : (joinRequests r s).cells = s.cells := rfl
@[simp] theorem joinRequests_scanner (r : Request) (s : State) : (joinRequests r s).scanner = s.scanner := rfl
@[simp] theorem joinRequests_notice (r : Request) (s : State) : (joinRequests r s).notice = s.notice := rfl
@[simp] theorem joinRequests_pending (r : Request) (s : State) : (joinRequests r s).pending = s.pending := rfl
@[simp] theorem joinRequests_races (r : Request) (s : State) : (joinRequests r s).races = s.races := rfl
@[simp] theorem joinRequests_raceCount (r : Request) (s : State) : (joinRequests r s).raceCount = s.raceCount := rfl

@[simp] theorem setWork_engine (w : Option Work) (s : State) : (setWork w s).engine = s.engine := rfl
@[simp] theorem setWork_irq (w : Option Work) (s : State) : (setWork w s).irq = s.irq := rfl
@[simp] theorem setWork_clock (w : Option Work) (s : State) : (setWork w s).clock = s.clock := rfl
@[simp] theorem setWork_port (w : Option Work) (s : State) : (setWork w s).port = s.port := rfl
@[simp] theorem setWork_order (w : Option Work) (s : State) : (setWork w s).order = s.order := rfl
@[simp] theorem setWork_cells (w : Option Work) (s : State) : (setWork w s).cells = s.cells := rfl
@[simp] theorem setWork_scanner (w : Option Work) (s : State) : (setWork w s).scanner = s.scanner := rfl
@[simp] theorem setWork_notice (w : Option Work) (s : State) : (setWork w s).notice = s.notice := rfl
@[simp] theorem setWork_pending (w : Option Work) (s : State) : (setWork w s).pending = s.pending := rfl
@[simp] theorem setWork_races (w : Option Work) (s : State) : (setWork w s).races = s.races := rfl
@[simp] theorem setWork_raceCount (w : Option Work) (s : State) : (setWork w s).raceCount = s.raceCount := rfl

@[simp] theorem setProgress_engine (p : Option ReportStage) (s : State) : (setProgress p s).engine = s.engine := rfl
@[simp] theorem setProgress_irq (p : Option ReportStage) (s : State) : (setProgress p s).irq = s.irq := rfl
@[simp] theorem setProgress_clock (p : Option ReportStage) (s : State) : (setProgress p s).clock = s.clock := rfl
@[simp] theorem setProgress_port (p : Option ReportStage) (s : State) : (setProgress p s).port = s.port := rfl
@[simp] theorem setProgress_order (p : Option ReportStage) (s : State) : (setProgress p s).order = s.order := rfl
@[simp] theorem setProgress_cells (p : Option ReportStage) (s : State) : (setProgress p s).cells = s.cells := rfl
@[simp] theorem setProgress_scanner (p : Option ReportStage) (s : State) : (setProgress p s).scanner = s.scanner := rfl
@[simp] theorem setProgress_notice (p : Option ReportStage) (s : State) : (setProgress p s).notice = s.notice := rfl
@[simp] theorem setProgress_pending (p : Option ReportStage) (s : State) : (setProgress p s).pending = s.pending := rfl
@[simp] theorem setProgress_races (p : Option ReportStage) (s : State) : (setProgress p s).races = s.races := rfl
@[simp] theorem setProgress_raceCount (p : Option ReportStage) (s : State) : (setProgress p s).raceCount = s.raceCount := rfl

@[simp] theorem dropLot_engine (key : Word) (s : State) : (dropLot key s).engine = s.engine := rfl
@[simp] theorem dropLot_irq (key : Word) (s : State) : (dropLot key s).irq = s.irq := rfl
@[simp] theorem dropLot_clock (key : Word) (s : State) : (dropLot key s).clock = s.clock := rfl
@[simp] theorem dropLot_port (key : Word) (s : State) : (dropLot key s).port = s.port := rfl
@[simp] theorem dropLot_order (key : Word) (s : State) : (dropLot key s).order = s.order := rfl
@[simp] theorem dropLot_scanner (key : Word) (s : State) : (dropLot key s).scanner = s.scanner := rfl
@[simp] theorem dropLot_notice (key : Word) (s : State) : (dropLot key s).notice = s.notice := rfl
@[simp] theorem dropLot_pending (key : Word) (s : State) : (dropLot key s).pending = s.pending := rfl
@[simp] theorem dropLot_races (key : Word) (s : State) : (dropLot key s).races = s.races := rfl
@[simp] theorem dropLot_raceCount (key : Word) (s : State) : (dropLot key s).raceCount = s.raceCount := rfl

@[simp] theorem readLink_engine (s : State) : (readLink s).engine = s.engine := rfl
@[simp] theorem readLink_irq (s : State) : (readLink s).irq = s.irq := rfl
@[simp] theorem readLink_clock (s : State) : (readLink s).clock = s.clock := rfl
@[simp] theorem readLink_order (s : State) : (readLink s).order = s.order := rfl
@[simp] theorem readLink_cells (s : State) : (readLink s).cells = s.cells := rfl
@[simp] theorem readLink_coll (s : State) : (readLink s).coll = s.coll := rfl
@[simp] theorem readLink_scanner (s : State) : (readLink s).scanner = s.scanner := rfl
@[simp] theorem readLink_notice (s : State) : (readLink s).notice = s.notice := rfl
@[simp] theorem readLink_pending (s : State) : (readLink s).pending = s.pending := rfl
@[simp] theorem readLink_races (s : State) : (readLink s).races = s.races := rfl
@[simp] theorem readLink_raceCount (s : State) : (readLink s).raceCount = s.raceCount := rfl

@[simp] theorem writePosition_engine (s : State) : (writePosition s).engine = s.engine := rfl
@[simp] theorem writePosition_irq (s : State) : (writePosition s).irq = s.irq := rfl
@[simp] theorem writePosition_clock (s : State) : (writePosition s).clock = s.clock := rfl
@[simp] theorem writePosition_order (s : State) : (writePosition s).order = s.order := rfl
@[simp] theorem writePosition_cells (s : State) : (writePosition s).cells = s.cells := rfl
@[simp] theorem writePosition_coll (s : State) : (writePosition s).coll = s.coll := rfl
@[simp] theorem writePosition_scanner (s : State) : (writePosition s).scanner = s.scanner := rfl
@[simp] theorem writePosition_notice (s : State) : (writePosition s).notice = s.notice := rfl
@[simp] theorem writePosition_pending (s : State) : (writePosition s).pending = s.pending := rfl
@[simp] theorem writePosition_races (s : State) : (writePosition s).races = s.races := rfl
@[simp] theorem writePosition_raceCount (s : State) : (writePosition s).raceCount = s.raceCount := rfl

@[simp] theorem readHeader_engine (s : State) : (readHeader s).engine = s.engine := rfl
@[simp] theorem readHeader_irq (s : State) : (readHeader s).irq = s.irq := rfl
@[simp] theorem readHeader_clock (s : State) : (readHeader s).clock = s.clock := rfl
@[simp] theorem readHeader_order (s : State) : (readHeader s).order = s.order := rfl
@[simp] theorem readHeader_cells (s : State) : (readHeader s).cells = s.cells := rfl
@[simp] theorem readHeader_coll (s : State) : (readHeader s).coll = s.coll := rfl
@[simp] theorem readHeader_scanner (s : State) : (readHeader s).scanner = s.scanner := rfl
@[simp] theorem readHeader_notice (s : State) : (readHeader s).notice = s.notice := rfl
@[simp] theorem readHeader_pending (s : State) : (readHeader s).pending = s.pending := rfl
@[simp] theorem readHeader_races (s : State) : (readHeader s).races = s.races := rfl
@[simp] theorem readHeader_raceCount (s : State) : (readHeader s).raceCount = s.raceCount := rfl

@[simp] theorem answer_engine (out : OrderOutcome) (s : State) : (answer out s).engine = s.engine := rfl
@[simp] theorem answer_irq (out : OrderOutcome) (s : State) : (answer out s).irq = s.irq := rfl
@[simp] theorem answer_clock (out : OrderOutcome) (s : State) : (answer out s).clock = s.clock := rfl
@[simp] theorem answer_cells (out : OrderOutcome) (s : State) : (answer out s).cells = s.cells := rfl
@[simp] theorem answer_coll (out : OrderOutcome) (s : State) : (answer out s).coll = s.coll := rfl
@[simp] theorem answer_scanner (out : OrderOutcome) (s : State) : (answer out s).scanner = s.scanner := rfl
@[simp] theorem answer_notice (out : OrderOutcome) (s : State) : (answer out s).notice = s.notice := rfl
@[simp] theorem answer_pending (out : OrderOutcome) (s : State) : (answer out s).pending = s.pending := rfl
@[simp] theorem answer_races (out : OrderOutcome) (s : State) : (answer out s).races = s.races := rfl
@[simp] theorem answer_raceCount (out : OrderOutcome) (s : State) : (answer out s).raceCount = s.raceCount := rfl

@[simp] theorem enterHalted_irq (s : State) : (enterHalted s).irq = s.irq := rfl
@[simp] theorem enterHalted_clock (s : State) : (enterHalted s).clock = s.clock := rfl
@[simp] theorem enterHalted_port (s : State) : (enterHalted s).port = s.port := rfl
@[simp] theorem enterHalted_order (s : State) : (enterHalted s).order = s.order := rfl
@[simp] theorem enterHalted_coll (s : State) : (enterHalted s).coll = s.coll := rfl
@[simp] theorem enterHalted_scanner (s : State) : (enterHalted s).scanner = s.scanner := rfl
@[simp] theorem enterHalted_pending (s : State) : (enterHalted s).pending = s.pending := rfl
@[simp] theorem enterHalted_races (s : State) : (enterHalted s).races = s.races := rfl
@[simp] theorem enterHalted_raceCount (s : State) : (enterHalted s).raceCount = s.raceCount := rfl

@[simp] theorem followInterrupt_engine (s : State) : (followInterrupt s).engine = s.engine := rfl
@[simp] theorem followInterrupt_clock (s : State) : (followInterrupt s).clock = s.clock := rfl
@[simp] theorem followInterrupt_port (s : State) : (followInterrupt s).port = s.port := rfl
@[simp] theorem followInterrupt_order (s : State) : (followInterrupt s).order = s.order := rfl
@[simp] theorem followInterrupt_cells (s : State) : (followInterrupt s).cells = s.cells := rfl
@[simp] theorem followInterrupt_coll (s : State) : (followInterrupt s).coll = s.coll := rfl
@[simp] theorem followInterrupt_scanner (s : State) : (followInterrupt s).scanner = s.scanner := rfl
@[simp] theorem followInterrupt_notice (s : State) : (followInterrupt s).notice = s.notice := rfl
@[simp] theorem followInterrupt_pending (s : State) : (followInterrupt s).pending = s.pending := rfl
@[simp] theorem followInterrupt_races (s : State) : (followInterrupt s).races = s.races := rfl
@[simp] theorem followInterrupt_raceCount (s : State) : (followInterrupt s).raceCount = s.raceCount := rfl

@[simp] theorem tick_engine (s : State) : (tick s).engine = s.engine := rfl
@[simp] theorem tick_irq (s : State) : (tick s).irq = s.irq := rfl
@[simp] theorem tick_port (s : State) : (tick s).port = s.port := rfl
@[simp] theorem tick_order (s : State) : (tick s).order = s.order := rfl
@[simp] theorem tick_cells (s : State) : (tick s).cells = s.cells := rfl
@[simp] theorem tick_coll (s : State) : (tick s).coll = s.coll := rfl
@[simp] theorem tick_scanner (s : State) : (tick s).scanner = s.scanner := rfl
@[simp] theorem tick_notice (s : State) : (tick s).notice = s.notice := rfl
@[simp] theorem tick_pending (s : State) : (tick s).pending = s.pending := rfl
@[simp] theorem tick_races (s : State) : (tick s).races = s.races := rfl
@[simp] theorem tick_raceCount (s : State) : (tick s).raceCount = s.raceCount := rfl

end Sys2Proof.Machine
end

