-- ==== Sys2Proof/Laws/Ops.lean ====
section
/-! SUPPORT. One lemma for each shared operation of Machine/Ops.lean that says what it can do: races, the port's grant,
the drain, the end of an event, notices, and touchdown closing. Proofs about commands cite these. -/

namespace Sys2Proof.Machine

/-! ## What stays the same -/

theorem Keeps.refl (l : List Part) (s : State) : Keeps l s s := by simp [Keeps]

theorem Keeps.trans {l : List Part} {s t u : State} (h : Keeps l s t) (k : Keeps l t u) : Keeps l s u := by
  obtain ⟨h1, h2, h3, h4, h5, h6, h7, h8, h9, h10⟩ := h
  obtain ⟨k1, k2, k3, k4, k5, k6, k7, k8, k9, k10⟩ := k
  exact ⟨fun m => (k1 m).trans (h1 m), fun m => (k2 m).trans (h2 m), fun m => (k3 m).trans (h3 m),
    fun m => (k4 m).trans (h4 m), fun m => (k5 m).trans (h5 m), fun m => (k6 m).trans (h6 m),
    fun m => (k7 m).trans (h7 m), fun m => (k8 m).trans (h8 m), fun m => (k9 m).trans (h9 m), k10.trans h10⟩

theorem Keeps.mono {l m : List Part} {s t : State} (h : Keeps l s t) (hlm : ∀ p ∈ l, p ∈ m) : Keeps m s t := by
  obtain ⟨h1, h2, h3, h4, h5, h6, h7, h8, h9, h10⟩ := h
  exact ⟨fun k => h1 fun a => k (hlm _ a), fun k => h2 fun a => k (hlm _ a), fun k => h3 fun a => k (hlm _ a),
    fun k => h4 fun a => k (hlm _ a), fun k => h5 fun a => k (hlm _ a), fun k => h6 fun a => k (hlm _ a),
    fun k => h7 fun a => k (hlm _ a), fun k => h8 fun a => k (hlm _ a), fun k => h9 fun a => k (hlm _ a), h10⟩

theorem KeepsCells.refl (c : CellNo) (s : State) : KeepsCells c s s := fun _ _ => rfl

theorem KeepsCells.trans {c : CellNo} {s t u : State} (h : KeepsCells c s t) (k : KeepsCells c t u) : KeepsCells c s u :=
  fun d hd => (k d hd).trans (h d hd)

/-! ## Races -/

/-- Two states that differ in their race fields at most. -/
abbrev SameButRaces (s t : State) : Prop := ∃ rs n, t = { s with races := rs, raceCount := n }

theorem takeRace_sameButRaces (s : State) : SameButRaces s (takeRace s).2 := by
  unfold takeRace
  split
  · exact ⟨_, s.raceCount, rfl⟩
  · rename_i h
    exact ⟨s.races, s.raceCount + 1, rfl⟩

theorem SameButRaces.trans {s t u : State} (h : SameButRaces s t) (k : SameButRaces t u) : SameButRaces s u := by
  obtain ⟨rs, n, rfl⟩ := h
  obtain ⟨rs', n', rfl⟩ := k
  exact ⟨rs', n', rfl⟩

/-- The picked requester is one of the list, none exactly for the empty list, and only races are consumed. -/
theorem pickRequester_spec (old : Requester → Bool) (l : List Requester) (s : State) :
    SameButRaces s (pickRequester old l s).2
      ∧ (∀ r, (pickRequester old l s).1 = some r → r ∈ l)
      ∧ ((pickRequester old l s).1 = none ↔ l = []) := by
  induction l generalizing s with
  | nil => exact ⟨⟨s.races, s.raceCount, rfl⟩, by simp [pickRequester], by simp [pickRequester]⟩
  | cons r rs ih =>
    cases rs with
    | nil => exact ⟨⟨s.races, s.raceCount, rfl⟩, by simp [pickRequester], by simp [pickRequester]⟩
    | cons q qs =>
      simp only [pickRequester]
      split
      · exact ⟨⟨s.races, s.raceCount, rfl⟩, by simp, by simp⟩
      · have hr := takeRace_sameButRaces s
        generalize hp : takeRace s = p at hr
        obtain ⟨b, s'⟩ := p
        cases b with
        | true => exact ⟨hr, by simp, by simp⟩
        | false =>
          obtain ⟨h1, h2, h3⟩ := ih s'
          refine ⟨hr.trans h1, fun x hx => List.mem_cons_of_mem _ (h2 x hx), ?_⟩
          constructor
          · intro h
            exact absurd (h3.1 h) (by simp)
          · intro h
            cases h

/-- Every requester passed over by a pick asked in this very event. -/
theorem pickRequester_skips (old : Requester → Bool) (l : List Requester) (s : State) (r : Requester)
    (h : (pickRequester old l s).1 = some r) : ∃ pre post, l = pre ++ r :: post ∧ ∀ q ∈ pre, old q = false := by
  induction l generalizing s with
  | nil => cases h
  | cons x xs ih =>
    cases xs with
    | nil =>
      cases h
      exact ⟨[], [], rfl, by simp⟩
    | cons y ys =>
      simp only [pickRequester] at h
      split at h
      · cases h
        exact ⟨[], y :: ys, rfl, by simp⟩
      · rename_i ho
        split at h
        · cases h
          exact ⟨[], y :: ys, rfl, by simp⟩
        · obtain ⟨pre, post, hl, hp⟩ := ih _ h
          refine ⟨x :: pre, post, by rw [hl]; rfl, fun q hq => ?_⟩
          rcases List.mem_cons.1 hq with rfl | hq
          · simpa using ho
          · exact hp q hq

/-- The rotation is in the order of turns (R179). -/
theorem rotationAfter_turns (last : Requester) :
    (rotationAfter last).Pairwise fun a b => turn last a < turn last b := by
  cases last <;> decide

/-! ## The port's grant (R179) -/

/-- What a grant can change: the port and the race fields. -/
theorem portGrant_frame (before s : State) :
    ∃ p rs n, portGrant before s = { s with port := p, races := rs, raceCount := n } := by
  unfold portGrant
  split
  · exact ⟨s.port, s.races, s.raceCount, rfl⟩
  · obtain ⟨⟨rs, n, h⟩, _, _⟩ := pickRequester_spec (fun r => (before.port.waiting.get r).isSome)
      ((rotationAfter s.port.last).filter fun r => (s.port.waiting.get r).isSome) s
    generalize hp : pickRequester (fun r => (before.port.waiting.get r).isSome)
      ((rotationAfter s.port.last).filter fun r => (s.port.waiting.get r).isSome) s = p at h
    obtain ⟨o, s'⟩ := p
    subst h
    cases o with
    | none => exact ⟨s.port, rs, n, rfl⟩
    | some r =>
      simp only [portIssue]
      split
      · exact ⟨s.port, rs, n, rfl⟩
      · exact ⟨_, rs, n, rfl⟩

/-- A port with a transaction outstanding, or with nothing waiting, grants nothing. -/
theorem portGrant_of_rest (before s : State) (h : s.port.outstanding = none → s.port.waiting = Waiting.none) :
    portGrant before s = s := by
  unfold portGrant
  split
  · rfl
  · rename_i hn
    have : ((rotationAfter s.port.last).filter fun r => (s.port.waiting.get r).isSome) = [] := by
      rw [List.filter_eq_nil_iff]
      intro r _
      rw [h hn]
      cases r <;> simp [Waiting.get, Waiting.none]
    rw [this]
    rfl

@[simp] theorem mem_rotationAfter (r q : Requester) : r ∈ rotationAfter q := by
  cases r <;> cases q <;> decide

/-- A free port with a request waiting grants one of the waiting requesters: its request is issued, with its timer at
the clock plus 2. -/
theorem portGrant_of_waiting (before s : State) (h : s.port.outstanding = none) (r : Requester)
    (hr : (s.port.waiting.get r).isSome) :
    ∃ q tr, s.port.waiting.get q = some tr ∧ ∃ rs n, portGrant before s =
      { s with
        port := { outstanding := some tr, timer := some (Time.plus s.clock 2), waiting := s.port.waiting.put q none,
                  last := q }
        races := rs, raceCount := n } := by
  unfold portGrant
  rw [h]
  simp only
  obtain ⟨⟨rs, n, he⟩, hm, hnone⟩ := pickRequester_spec (fun r => (before.port.waiting.get r).isSome)
      ((rotationAfter s.port.last).filter fun r => (s.port.waiting.get r).isSome) s
  generalize hp : pickRequester (fun r => (before.port.waiting.get r).isSome)
      ((rotationAfter s.port.last).filter fun r => (s.port.waiting.get r).isSome) s = p at he hm hnone
  obtain ⟨o, s'⟩ := p
  simp only at he
  subst he
  cases o with
  | none =>
    have := hnone.1 rfl
    rw [List.filter_eq_nil_iff] at this
    exact absurd hr (this r (mem_rotationAfter _ _))
  | some q =>
    have hq := hm q rfl
    rw [List.mem_filter] at hq
    obtain ⟨tr, htr⟩ := Option.isSome_iff_exists.1 hq.2
    exact ⟨q, tr, htr, rs, n, by simp only [portIssue, htr]⟩

/-- A free port's grant passes over no requester that asked before this event and whose turn comes sooner (R179). -/
theorem portGrant_in_turn (before s : State) (h : s.port.outstanding = none) (q : Requester)
    (ht : turn s.port.last q < turn s.port.last (portGrant before s).port.last)
    (hq : (s.port.waiting.get q).isSome) : before.port.waiting.get q = none := by
  unfold portGrant at ht
  rw [h] at ht
  simp only at ht
  have hskip := pickRequester_skips (fun r => (before.port.waiting.get r).isSome)
      ((rotationAfter s.port.last).filter fun r => (s.port.waiting.get r).isSome) s
  obtain ⟨⟨rs, n, he⟩, hm, hnone⟩ := pickRequester_spec (fun r => (before.port.waiting.get r).isSome)
      ((rotationAfter s.port.last).filter fun r => (s.port.waiting.get r).isSome) s
  generalize hp : pickRequester (fun r => (before.port.waiting.get r).isSome)
      ((rotationAfter s.port.last).filter fun r => (s.port.waiting.get r).isSome) s = p at he hm hnone hskip ht
  obtain ⟨o, s'⟩ := p
  simp only at he
  subst he
  have hmem : q ∈ (rotationAfter s.port.last).filter fun r => (s.port.waiting.get r).isSome := by
    rw [List.mem_filter]
    exact ⟨mem_rotationAfter _ _, hq⟩
  cases o with
  | none =>
    rw [hnone.1 rfl] at hmem
    cases hmem
  | some r =>
    have hr := hm r rfl
    rw [List.mem_filter] at hr
    obtain ⟨tr, htr⟩ := Option.isSome_iff_exists.1 hr.2
    simp only [portIssue, htr] at ht
    obtain ⟨pre, post, hl, hpre⟩ := hskip r rfl
    have hord := (rotationAfter_turns s.port.last).filter fun r => (s.port.waiting.get r).isSome
    rw [hl] at hord hmem
    rcases List.mem_append.1 hmem with hmem | hmem
    · simpa using hpre q hmem
    · rcases List.mem_cons.1 hmem with rfl | hmem
      · exact absurd ht (lt_irrefl _)
      · have hlt := (List.pairwise_cons.1 (List.pairwise_append.1 hord).2.1).1 q hmem
        exact absurd ht (Nat.lt_asymm hlt)

/-- A request survives the grant: it waits on, or it is outstanding (R179). -/
theorem requested_portGrant {tr : Transaction} (before : State) {s : State} (h : Requested tr s) :
    Requested tr (portGrant before s) := by
  by_cases ho : s.port.outstanding = none
  · rcases h with h | h
    · rw [ho] at h
      cases h
    · obtain ⟨q, tr', hq, rs, n, he⟩ := portGrant_of_waiting before s ho tr.purpose.requester (by rw [h]; rfl)
      rw [he]
      by_cases hqr : q = tr.purpose.requester
      · subst hqr
        rw [h] at hq
        left
        exact hq.symm
      · right
        simp only
        rw [waiting_put_get_ne _ _ (fun h => hqr h.symm)]
        exact h
  · rw [portGrant_of_rest before s (fun h => absurd h ho)]
    exact h

/-- No requester waits exactly where nothing waits. -/
theorem waiting_eq_none (w : Waiting) (h : ∀ r, w.get r = none) : w = Waiting.none := by
  obtain ⟨a, b, c, d⟩ := w
  have ha := h .orderUnit
  have hb := h .collation
  have hc := h .scanner
  have hd := h .noticeUnit
  simp only [Waiting.get] at ha hb hc hd
  subst ha hb hc hd
  rfl

/-- A grant leaves no free port with a request waiting (R179). -/
theorem portGrant_rests (before s : State) :
    (portGrant before s).port.outstanding = none → (portGrant before s).port.waiting = Waiting.none := by
  by_cases ho : s.port.outstanding = none
  · by_cases hw : ∃ r, (s.port.waiting.get r).isSome
    · obtain ⟨r, hr⟩ := hw
      obtain ⟨q, tr, _, rs, n, he⟩ := portGrant_of_waiting before s ho r hr
      rw [he]
      intro h
      cases h
    · have hn : s.port.waiting = Waiting.none := by
        refine waiting_eq_none _ fun r => ?_
        by_contra hc
        exact hw ⟨r, Option.isSome_iff_ne_none.2 hc⟩
      rw [portGrant_of_rest before s fun _ => hn]
      exact fun _ => hn
  · rw [portGrant_of_rest before s fun h => absurd h ho]
    exact fun h => absurd h ho

/-! ## The drain (R177) and the end of an event -/

theorem drainReady_draining {s : State} (h : drainReady s = true) : s.engine.state = .draining := by
  simp only [drainReady, Bool.and_eq_true, beq_iff_eq] at h
  exact h.1.1.1.1.1.1.1

/-- Outside DRAINING no drain completes. -/
theorem judgeDrain_of_not_draining {s : State} (h : s.engine.state ≠ .draining) : judgeDrain s = s := by
  unfold judgeDrain
  split
  · rename_i hd
    exact absurd (drainReady_draining hd) h
  · rfl

theorem judgeDrain_of_not_ready {s : State} (h : drainReady s = false) : judgeDrain s = s := by
  simp [judgeDrain, h]

/-- The drain judged: nothing, or DRAINING has ended in HALTED. -/
theorem judgeDrain_cases (s : State) :
    (drainReady s = false ∧ judgeDrain s = s)
      ∨ (drainReady s = true ∧ s.engine.state = .draining ∧ judgeDrain s = enterHalted s) := by
  by_cases h : drainReady s = true
  · exact .inr ⟨h, drainReady_draining h, by simp [judgeDrain, h]⟩
  · exact .inl ⟨by simpa using h, by simp [judgeDrain, h]⟩

@[simp] theorem judgeDrain_irq (s : State) : (judgeDrain s).irq = s.irq := by unfold judgeDrain; split <;> rfl
@[simp] theorem judgeDrain_clock (s : State) : (judgeDrain s).clock = s.clock := by unfold judgeDrain; split <;> rfl
@[simp] theorem judgeDrain_port (s : State) : (judgeDrain s).port = s.port := by unfold judgeDrain; split <;> rfl
@[simp] theorem judgeDrain_order (s : State) : (judgeDrain s).order = s.order := by unfold judgeDrain; split <;> rfl
@[simp] theorem judgeDrain_coll (s : State) : (judgeDrain s).coll = s.coll := by unfold judgeDrain; split <;> rfl
@[simp] theorem judgeDrain_scanner (s : State) : (judgeDrain s).scanner = s.scanner := by
  unfold judgeDrain; split <;> rfl
@[simp] theorem judgeDrain_pending (s : State) : (judgeDrain s).pending = s.pending := by
  unfold judgeDrain; split <;> rfl
@[simp] theorem judgeDrain_races (s : State) : (judgeDrain s).races = s.races := by unfold judgeDrain; split <;> rfl
@[simp] theorem judgeDrain_raceCount (s : State) : (judgeDrain s).raceCount = s.raceCount := by
  unfold judgeDrain; split <;> rfl

/-- The cells of a part that becomes HALTED: their receivers stop (R25). -/
@[simp] theorem cell_enterHalted (s : State) (c : CellNo) :
    (enterHalted s).cell c = { s.cell c with line := (s.cell c).line.stopReceiver } :=
  cell_mapCells s _ c

theorem cell_judgeDrain (s : State) (c : CellNo) :
    (judgeDrain s).cell c = s.cell c
      ∨ (judgeDrain s).cell c = { s.cell c with line := (s.cell c).line.stopReceiver } := by
  unfold judgeDrain
  split
  · exact .inr (cell_enterHalted s c)
  · exact .inl rfl

/-- The end of an event: the drain judged, the port's grant, and the interrupt at its flags' level. -/
theorem settle_frame (before s : State) :
    ∃ p rs n, settle before s =
      { judgeDrain s with port := p, races := rs, raceCount := n, irq := (judgeDrain s).engine.interrupt } := by
  obtain ⟨p, rs, n, h⟩ := portGrant_frame before (judgeDrain s)
  exact ⟨p, rs, n, by rw [settle, followInterrupt, h]⟩

/-- An event that completes no drain and leaves nothing to grant ends with the interrupt following alone. -/
theorem settle_of_rest (before s : State) (hd : drainReady s = false)
    (hp : s.port.outstanding = none → s.port.waiting = Waiting.none) :
    settle before s = { s with irq := s.engine.interrupt } := by
  rw [settle, judgeDrain_of_not_ready hd, portGrant_of_rest before s hp, followInterrupt]

@[simp] theorem settle_clock (before s : State) : (settle before s).clock = s.clock := by
  obtain ⟨p, rs, n, h⟩ := settle_frame before s
  rw [h]
  exact judgeDrain_clock s
@[simp] theorem settle_order (before s : State) : (settle before s).order = s.order := by
  obtain ⟨p, rs, n, h⟩ := settle_frame before s
  rw [h]
  exact judgeDrain_order s
@[simp] theorem settle_coll (before s : State) : (settle before s).coll = s.coll := by
  obtain ⟨p, rs, n, h⟩ := settle_frame before s
  rw [h]
  exact judgeDrain_coll s
@[simp] theorem settle_scanner (before s : State) : (settle before s).scanner = s.scanner := by
  obtain ⟨p, rs, n, h⟩ := settle_frame before s
  rw [h]
  exact judgeDrain_scanner s
@[simp] theorem settle_pending (before s : State) : (settle before s).pending = s.pending := by
  obtain ⟨p, rs, n, h⟩ := settle_frame before s
  rw [h]
  exact judgeDrain_pending s
theorem settle_engine_of_running (before : State) {s : State} (h : drainReady s = false) :
    (settle before s).engine = s.engine := by
  obtain ⟨p, rs, n, he⟩ := settle_frame before s
  rw [he, judgeDrain_of_not_ready h]
theorem settle_cells_of_running (before : State) {s : State} (h : drainReady s = false) :
    (settle before s).cells = s.cells := by
  obtain ⟨p, rs, n, he⟩ := settle_frame before s
  rw [he, judgeDrain_of_not_ready h]
theorem settle_notice_of_running (before : State) {s : State} (h : drainReady s = false) :
    (settle before s).notice = s.notice := by
  obtain ⟨p, rs, n, he⟩ := settle_frame before s
  rw [he, judgeDrain_of_not_ready h]
theorem settle_cell_of_running (before : State) {s : State} (h : drainReady s = false) (c : CellNo) :
    (settle before s).cell c = s.cell c := cell_eq_of_cells (settle_cells_of_running before h) c

theorem settle_cell (before s : State) (c : CellNo) : (settle before s).cell c = (judgeDrain s).cell c := by
  obtain ⟨p, rs, n, he⟩ := settle_frame before s
  rw [he]
  rfl

@[simp] theorem settle_irq (before s : State) : (settle before s).irq = (settle before s).engine.interrupt := rfl

/-- A drain is judged by the engine's state, the assemblers, the collation unit, the scanner, the order in service and
the port alone (R177). -/
theorem drainReady_congr {s t : State} (h1 : t.engine.state = s.engine.state) (h2 : t.cells = s.cells)
    (h3 : t.coll = s.coll) (h4 : t.scanner = s.scanner) (h5 : t.order.service = s.order.service) (h6 : t.port = s.port) :
    drainReady t = drainReady s := by
  simp [drainReady, h1, h2, h3, h4, h5, portBusy, h6]

theorem drainReady_of_not_draining {s : State} (h : s.engine.state ≠ .draining) : drainReady s = false := by
  by_contra hc
  exact h (drainReady_draining (by simpa using hc))

theorem drainReady_of_service {s : State} (h : s.order.service ≠ none) : drainReady s = false := by
  cases hs : s.order.service with
  | none => exact absurd hs h
  | some v => simp [drainReady, hs]

theorem drainReady_of_work {s : State} (h : s.coll.work ≠ none) : drainReady s = false := by
  cases hs : s.coll.work with
  | none => exact absurd hs h
  | some v => simp [drainReady, hs]

theorem drainReady_of_scanner {s : State} (h : s.scanner ≠ none) : drainReady s = false := by
  cases hs : s.scanner with
  | none => exact absurd hs h
  | some v => simp [drainReady, hs]

theorem drainReady_of_requests {s : State} (h : s.coll.requests ≠ []) : drainReady s = false := by
  cases hs : s.coll.requests with
  | nil => exact absurd hs h
  | cons v vs => simp [drainReady, hs]

theorem drainReady_of_busy {s : State} {r : Requester} (hr : r = .orderUnit ∨ r = .noticeUnit)
    (h : portBusy r s = true) : drainReady s = false := by
  rcases hr with rfl | rfl <;> simp [drainReady, h]

theorem portBusy_of_requested {tr : Transaction} {s : State} (h : Requested tr s) :
    portBusy tr.purpose.requester s = true := by
  rcases h with h | h
  · simp [portBusy, h]
  · simp [portBusy, h]

/-- A request made in an event stands when the event has ended. -/
theorem requested_settle {tr : Transaction} (before : State) {s : State} (h : Requested tr s) :
    Requested tr (settle before s) := by
  have h' : Requested tr (judgeDrain s) := by
    simpa only [Requested, judgeDrain_port] using h
  exact requested_portGrant before h'

/-- After every event the interrupt follows its flags and no free port leaves a request waiting (R169, R179). -/
theorem settle_rests (before s : State) :
    ((settle before s).port.outstanding = none → (settle before s).port.waiting = Waiting.none)
      ∧ (settle before s).irq = (settle before s).engine.interrupt :=
  ⟨portGrant_rests before (judgeDrain s), rfl⟩

/-! ## Notices (R158 to R162) -/

/-- A command's outcome is a next state. -/
theorem conclude_next (s : State) (effect : Option State) : ∃ t, conclude s effect = .next t := by
  cases effect <;> exact ⟨_, rfl⟩

/-- A step answers a next state. -/
theorem step_next (s : State) : ∃ t, step s = .next t := by
  have h : ∀ (i : Instr) (s : State), ∃ t, exec i s = .next t := fun i s => by
    cases i <;> simp only [exec,
      execInit, execStart, execStop, execReset, execNudge, execSetEnables, execClearLoadDone, execClearNotice,
      execSetupAddrWrite, execRegisterWriteIgnored, execPowerOnReset, execBusReset, execSetupReadDone,
      execTransactionErrorResponse, execResponseTimerExpiry, execLateResponse, execCharacterError,
      execTypeError, execLengthError, execCheckError, execGapError, execQualityWindowEnd, execOpenMsg,
      execUnitMsg, execCloseMsg, execHelloMsg, execSilenceTimerExpiry, execHoldStateSent,
      execCollationTakeWork, execMapReadDone, execMapWriteDone, execTallyRecordWriteDone, execGraceTimerExpiry,
      execScanReadDone, execHeaderReadDone, execBodyReadDone, execCellRecordWriteDone, execResultWordWriteDone,
      execStateWriteDone, execLinkReadDone, execChainPositionWriteDone, execPollTimerExpiry,
      execNoticeRecordWriteDone, execCountWriteDone, execConsumedReadDone, execRetryTimerExpiry,
      execFallingEdge, execStartBitNoise, execByte, execTakenWriteDone] <;>
      exact conclude_next _ _
  unfold step idle
  split
  · exact h _ _
  · split
    · exact h _ _
    · exact ⟨_, rfl⟩


/-- The notice unit's next step changes the unit and its own waiting request only. -/
theorem noticePump_frame (s : State) :
    ∃ n w, noticePump s = { s with notice := n, port := { s.port with waiting := s.port.waiting.put .noticeUnit w } } := by
  have hw : s.port.waiting = s.port.waiting.put .noticeUnit s.port.waiting.noticeUnit := rfl
  have hid : s = { s with port := { s.port with waiting := s.port.waiting.put .noticeUnit s.port.waiting.noticeUnit } } := by
    rw [← hw]
  unfold noticePump
  split
  · unfold judgeRoom
    split
    · exact ⟨_, _, hid⟩
    · split
      · exact ⟨_, _, rfl⟩
      · exact ⟨_, _, rfl⟩
  · exact ⟨_, _, hid⟩

/-- Raising a notice changes the notice unit and its own waiting request only. -/
theorem raise_frame (subject : Subject) (d : Detail) (s : State) :
    ∃ n w, raise subject d s =
      { s with notice := n, port := { s.port with waiting := s.port.waiting.put .noticeUnit w } } := by
  obtain ⟨n, w, h⟩ := noticePump_frame { s with notice :=
    { s.notice with table := addOccurrence s.clock { kind := d.kind, subject := subject } d s.notice.table } }
  exact ⟨n, w, h⟩

/-- A notice unit that is not idle, or may not issue, takes the occurrence into its table and nothing else moves. -/
theorem raise_of_busy (subject : Subject) (d : Detail) (s : State)
    (h : ¬(s.notice.phase = .idle ∧ noticeRuns s)) :
    raise subject d s = { s with notice :=
      { s.notice with table := addOccurrence s.clock { kind := d.kind, subject := subject } d s.notice.table } } := by
  unfold raise noticePump
  exact if_neg h

@[simp] theorem raise_engine (subject : Subject) (d : Detail) (s : State) : (raise subject d s).engine = s.engine := by
  obtain ⟨n, w, h⟩ := raise_frame subject d s
  rw [h]
@[simp] theorem raise_irq (subject : Subject) (d : Detail) (s : State) : (raise subject d s).irq = s.irq := by
  obtain ⟨n, w, h⟩ := raise_frame subject d s
  rw [h]
@[simp] theorem raise_clock (subject : Subject) (d : Detail) (s : State) : (raise subject d s).clock = s.clock := by
  obtain ⟨n, w, h⟩ := raise_frame subject d s
  rw [h]
@[simp] theorem raise_order (subject : Subject) (d : Detail) (s : State) : (raise subject d s).order = s.order := by
  obtain ⟨n, w, h⟩ := raise_frame subject d s
  rw [h]
@[simp] theorem raise_cells (subject : Subject) (d : Detail) (s : State) : (raise subject d s).cells = s.cells := by
  obtain ⟨n, w, h⟩ := raise_frame subject d s
  rw [h]
@[simp] theorem raise_coll (subject : Subject) (d : Detail) (s : State) : (raise subject d s).coll = s.coll := by
  obtain ⟨n, w, h⟩ := raise_frame subject d s
  rw [h]
@[simp] theorem raise_scanner (subject : Subject) (d : Detail) (s : State) : (raise subject d s).scanner = s.scanner := by
  obtain ⟨n, w, h⟩ := raise_frame subject d s
  rw [h]
@[simp] theorem raise_pending (subject : Subject) (d : Detail) (s : State) : (raise subject d s).pending = s.pending := by
  obtain ⟨n, w, h⟩ := raise_frame subject d s
  rw [h]
@[simp] theorem raise_races (subject : Subject) (d : Detail) (s : State) : (raise subject d s).races = s.races := by
  obtain ⟨n, w, h⟩ := raise_frame subject d s
  rw [h]
@[simp] theorem raise_raceCount (subject : Subject) (d : Detail) (s : State) : (raise subject d s).raceCount = s.raceCount := by
  obtain ⟨n, w, h⟩ := raise_frame subject d s
  rw [h]

@[simp] theorem cell_raise (subject : Subject) (d : Detail) (s : State) (c : CellNo) :
    (raise subject d s).cell c = s.cell c := cell_eq_of_cells (raise_cells subject d s) c

@[simp] theorem raise_outstanding (subject : Subject) (d : Detail) (s : State) :
    (raise subject d s).port.outstanding = s.port.outstanding := by
  obtain ⟨n, w, h⟩ := raise_frame subject d s
  rw [h]

theorem raise_waiting_ne (subject : Subject) (d : Detail) (s : State) {r : Requester} (hr : r ≠ .noticeUnit) :
    (raise subject d s).port.waiting.get r = s.port.waiting.get r := by
  obtain ⟨n, w, h⟩ := raise_frame subject d s
  rw [h]
  exact waiting_put_get_ne _ _ hr

/-- Two states that differ in the notice unit, its own waiting request and the race fields at most. -/
abbrev NoticeOnly (s t : State) : Prop :=
  ∃ n w rs k, t = { s with
    notice := n, port := { s.port with waiting := s.port.waiting.put .noticeUnit w }, races := rs, raceCount := k }

theorem NoticeOnly.refl (s : State) : NoticeOnly s s := by
  refine ⟨s.notice, s.port.waiting.noticeUnit, s.races, s.raceCount, ?_⟩
  rfl

theorem NoticeOnly.trans {s t u : State} (h : NoticeOnly s t) (k : NoticeOnly t u) : NoticeOnly s u := by
  obtain ⟨n, w, rs, i, rfl⟩ := h
  obtain ⟨n', w', rs', i', rfl⟩ := k
  exact ⟨n', w', rs', i', rfl⟩

/-- What a notice leaves alone: every part but the notice unit and the port, every cell, the outstanding transaction and
the other requesters' waiting requests. -/
theorem NoticeOnly.frame {s t : State} (h : NoticeOnly s t) :
    Keeps [.port, .notice] s t ∧ (∀ c, t.cell c = s.cell c) ∧ t.port.outstanding = s.port.outstanding
      ∧ ∀ r, r ≠ .noticeUnit → t.port.waiting.get r = s.port.waiting.get r := by
  obtain ⟨n, w, rs, i, rfl⟩ := h
  exact ⟨by simp [Keeps], fun _ => rfl, rfl, fun r hr => waiting_put_get_ne _ _ hr⟩

theorem raise_noticeOnly (subject : Subject) (d : Detail) (s : State) : NoticeOnly s (raise subject d s) := by
  obtain ⟨n, w, h⟩ := raise_frame subject d s
  exact ⟨n, w, s.races, s.raceCount, h⟩

theorem takeRace_noticeOnly (s : State) : NoticeOnly s (takeRace s).2 := by
  obtain ⟨rs, n, h⟩ := takeRace_sameButRaces s
  exact ⟨s.notice, s.port.waiting.noticeUnit, rs, n, h⟩

theorem raiseTrips_noticeOnly (c : CellNo) (site : Site) (ds : List Detail) (s : State) :
    NoticeOnly s (raiseTrips c site ds s) := by
  induction ds generalizing s with
  | nil => exact NoticeOnly.refl s
  | cons d ds ih => exact (raise_noticeOnly _ _ _).trans (ih _)

theorem raiseTripsWith_noticeOnly (other : State → State) (h : ∀ s, NoticeOnly s (other s)) (c : CellNo) (site : Site)
    (ds : List Detail) (s : State) : NoticeOnly s (raiseTripsWith other c site ds s) := by
  induction ds generalizing s with
  | nil => exact h s
  | cons d ds ih =>
    have hr := takeRace_noticeOnly s
    unfold raiseTripsWith
    split
    · rename_i t ht
      rw [ht] at hr
      exact (hr.trans (raise_noticeOnly _ _ _)).trans (ih _)
    · rename_i t ht
      rw [ht] at hr
      exact (hr.trans (h _)).trans (raiseTrips_noticeOnly _ _ _ _)

theorem raiseFloor_noticeOnly (key : Word) (reporter : Option (CellNo × Site)) (s : State) :
    NoticeOnly s (raiseFloor key reporter s) := by
  unfold raiseFloor
  split
  · exact NoticeOnly.refl s
  · exact raise_noticeOnly _ _ _

/-- After a transaction of its own the notice unit of a drain that completes rests, Nudge pending cleared; any other goes
on from the judged state, which is the state itself (R165). -/
theorem noticeNext_cases (next : State → State) (s : State) :
    (drainReady s = true → noticeNext next s =
        (enterHalted s).setNotice { (enterHalted s).notice with nudgePending := false })
      ∧ (drainReady s = false → noticeRuns s = true → noticeNext next s = next s) := by
  constructor <;> intro h
  · simp [noticeNext, judgeDrain, h, noticeRuns, enterHalted, setEngineState]
  · intro hr
    simp [noticeNext, judgeDrain, h, hr]

/-! ## Closing a touchdown (R54 to R57) -/

/-- A cell whose closed record, just taken from its assembler, joins its queue, is dropped or is discarded (R55, R57). -/
def CellState.queueRecord (t : Touchdown) (cs : CellState) : CellState :=
  if t.reports = [] then cs
  else if cs.asm.queue.length < 15 then judgeBuffer { cs with asm := { cs.asm with queue := cs.asm.queue ++ [t] } }
  else judgeBuffer cs

/-- A cell whose open touchdown, if any, is closed (R54 to R57). -/
def CellState.closeRecord (kind : CloseKind) (now : Time) (cs : CellState) : CellState :=
  match cs.asm.touchdown with
  | none => cs
  | some t => ({ cs with asm := { cs.asm with touchdown := none, silence := none } } : CellState).queueRecord (t.closed kind now)

/-- Queuing a closed record touches its own cell, and through its notice the notice unit. -/
theorem queueClosed_spec (c : CellNo) (t : Touchdown) (s : State) :
    Keeps [.port, .cells, .notice] s (queueClosed c t s) ∧ KeepsCells c s (queueClosed c t s)
      ∧ (queueClosed c t s).cell c = (s.cell c).queueRecord t
      ∧ (queueClosed c t s).port.outstanding = s.port.outstanding
      ∧ ∀ r, r ≠ .noticeUnit → (queueClosed c t s).port.waiting.get r = s.port.waiting.get r := by
  unfold queueClosed CellState.queueRecord
  split
  · exact ⟨Keeps.refl _ _, KeepsCells.refl _ _, rfl, rfl, fun _ _ => rfl⟩
  · split
    · refine ⟨by simp [Keeps], fun d hd => cell_modCell_ne _ _ hd, by simp, by simp, by simp⟩
    · refine ⟨by simp [Keeps], fun d hd => ?_, by simp, by simp, fun r hr => ?_⟩
      · rw [cell_modCell_ne _ _ hd, cell_raise]
      · simpa using raise_waiting_ne _ _ _ hr

/-- Closing touches the cell as `closeRecord` says, and through its notices the notice unit. -/
theorem closeTouchdown_spec (kind : CloseKind) (c : CellNo) (s : State) :
    Keeps [.port, .cells, .notice] s (closeTouchdown kind c s) ∧ KeepsCells c s (closeTouchdown kind c s)
      ∧ (closeTouchdown kind c s).cell c = (s.cell c).closeRecord kind s.clock
      ∧ (closeTouchdown kind c s).port.outstanding = s.port.outstanding
      ∧ ∀ r, r ≠ .noticeUnit → (closeTouchdown kind c s).port.waiting.get r = s.port.waiting.get r := by
  unfold closeTouchdown CellState.closeRecord
  cases h : (s.cell c).asm.touchdown with
  | none => exact ⟨Keeps.refl _ _, KeepsCells.refl _ _, rfl, rfl, fun _ _ => rfl⟩
  | some t =>
    simp only
    split
    · obtain ⟨h1, h2, h3, h4, h5⟩ := queueClosed_spec c (t.closed kind s.clock)
        (raise (.cell c) (.shortTouchdown t.number kind ((t.closed kind s.clock).missing.getD 0) t.lost t.mismatch)
          (s.modAsm c fun a => { a with touchdown := none, silence := none }))
      refine ⟨Keeps.trans (by simp [Keeps]) h1, fun d hd => ?_, ?_, by simpa using h4, fun r hr => ?_⟩
      · rw [h2 d hd, cell_raise, cell_modAsm_ne _ _ hd]
      · rw [h3, cell_raise, cell_modAsm]
      · rw [h5 r hr, raise_waiting_ne _ _ _ hr, modAsm_port]
    · obtain ⟨h1, h2, h3, h4, h5⟩ := queueClosed_spec c (t.closed kind s.clock)
        (s.modAsm c fun a => { a with touchdown := none, silence := none })
      refine ⟨Keeps.trans (by simp [Keeps]) h1, fun d hd => ?_, ?_, by simpa using h4, fun r hr => ?_⟩
      · rw [h2 d hd, cell_modAsm_ne _ _ hd]
      · rw [h3, cell_modAsm]
      · rw [h5 r hr, modAsm_port]

end Sys2Proof.Machine
end

