-- ==== Sys2Proof/Laws/Collation.lean ====
section
/-! SUPPORT. What the end of a report can change beside the tallies (R83, steps 5 and 6): the guard of the reporting cell
takes the outcome, and of the rest only lines, holds, the catalogue, the notice unit and the race fields move. -/

namespace Sys2Proof.Machine

/-! ## The transmitter rule leaves a cell's blocks alone -/

/-- Two columns that differ in their line and holds at most. -/
abbrev SameWork (x y : CellState) : Prop := y.asm = x.asm ∧ y.guard = x.guard

theorem transmit_frame (eng : EngineState) (lots : List Lot) (cs : CellState) :
    SameWork cs (transmit eng lots cs) ∧ (transmit eng lots cs).holds = cs.holds := by
  unfold transmit
  split
  · split
    · exact ⟨⟨rfl, rfl⟩, rfl⟩
    · split <;> exact ⟨⟨rfl, rfl⟩, rfl⟩
  · exact ⟨⟨rfl, rfl⟩, rfl⟩

theorem handOffFrom_frame (before : Guard) (cs : CellState) :
    SameWork cs (cs.handOffFrom before) ∧ (cs.handOffFrom before).line = cs.line := by
  unfold CellState.handOffFrom
  split <;> exact ⟨⟨rfl, rfl⟩, rfl⟩

/-! ## Lines, holds, the catalogue and notices -/

/-- No assembler, no guard, no other requester's transaction and no part but the listed ones has changed. -/
abbrev LinesAndNotices (s t : State) : Prop :=
  Keeps [.port, .cells, .coll, .notice] s t ∧ (∀ c, SameWork (s.cell c) (t.cell c))
    ∧ t.port.outstanding = s.port.outstanding
    ∧ ∀ r, r ≠ .noticeUnit → t.port.waiting.get r = s.port.waiting.get r

theorem LinesAndNotices.trans {s t u : State} (h : LinesAndNotices s t) (k : LinesAndNotices t u) :
    LinesAndNotices s u :=
  ⟨h.1.trans k.1, fun c => ⟨(k.2.1 c).1.trans (h.2.1 c).1, (k.2.1 c).2.trans (h.2.1 c).2⟩, k.2.2.1.trans h.2.2.1,
    fun r hr => (k.2.2.2 r hr).trans (h.2.2.2 r hr)⟩

theorem NoticeOnly.linesAndNotices {s t : State} (h : NoticeOnly s t) : LinesAndNotices s t := by
  obtain ⟨h1, h2, h3, h4⟩ := h.frame
  exact ⟨h1.mono (by simp), fun c => by rw [h2 c]; exact ⟨rfl, rfl⟩, h3, h4⟩

/-- A cell changed so that its assembler and guard stay. -/
theorem modCell_linesAndNotices (c : CellNo) (f : CellState → CellState) (s : State)
    (hf : SameWork (s.cell c) (f (s.cell c))) : LinesAndNotices s (s.modCell c f) := by
  refine ⟨by simp [Keeps], fun d => ?_, by simp, by simp⟩
  by_cases h : d = c
  · subst h
    rw [cell_modCell]
    exact hf
  · rw [cell_modCell_ne _ _ h]
    exact ⟨rfl, rfl⟩

theorem refresh_linesAndNotices (c : CellNo) (s : State) : LinesAndNotices s (refresh c s) :=
  modCell_linesAndNotices c _ s (transmit_frame _ _ _).1

theorem takeHandOff_linesAndNotices (c : CellNo) (before : Guard) (s : State) :
    LinesAndNotices s (takeHandOff c before s) :=
  modCell_linesAndNotices c _ s (handOffFrom_frame _ _).1

theorem latchFloor_linesAndNotices (key : Word) (s : State) : LinesAndNotices s (latchFloor key s) := by
  refine ⟨by simp [Keeps, latchFloor, refreshLot, modLot, State.setLots], fun c => ?_, rfl, fun _ _ => rfl⟩
  unfold latchFloor refreshLot
  rw [cell_mapCells]
  split
  · exact (transmit_frame _ _ _).1
  · exact ⟨rfl, rfl⟩

/-- Steps 5 and 6 of a report's end: the guard takes the outcome, and then only lines, holds, the catalogue and notices
move (R83, R90, R99, R132). -/
theorem finishHolds_frame (c : CellNo) (r : Report) (e : Ending) (s : State) :
    LinesAndNotices (finishGuard c r (finishOutcome r e s) s) (finishHolds c r e s) := by
  have trips : ∀ ds t, LinesAndNotices t (raiseTrips c r.site ds t) := fun ds t =>
    (raiseTrips_noticeOnly c r.site ds t).linesAndNotices
  have both : ∀ ds t, LinesAndNotices t (raiseTripsWith (raiseFloor r.key (some (c, r.site))) c r.site ds t) :=
    fun ds t => (raiseTripsWith_noticeOnly _ (raiseFloor_noticeOnly _ _) _ _ ds t).linesAndNotices
  have race : ∀ t, LinesAndNotices t (takeRace t).2 := fun t => (takeRace_noticeOnly t).linesAndNotices
  unfold finishHolds
  extract_lets before outcome ds s1 s2
  split
  · have h2 : LinesAndNotices s1 s2 := both ds s1
    split
    · split
      · rename_i s3 h
        have h3 : LinesAndNotices s2 s3 := by have := race s2; rwa [h] at this
        exact (h2.trans h3).trans ((takeHandOff_linesAndNotices _ _ _).trans (latchFloor_linesAndNotices _ _))
      · rename_i s3 h
        have h3 : LinesAndNotices s2 s3 := by have := race s2; rwa [h] at this
        split
        · rename_i s4 h'
          have h4 : LinesAndNotices s3 s4 := by have := race s3; rwa [h'] at this
          exact ((h2.trans h3).trans h4).trans ((takeHandOff_linesAndNotices _ _ _).trans
            ((refresh_linesAndNotices _ _).trans (latchFloor_linesAndNotices _ _)))
        · rename_i s4 h'
          have h4 : LinesAndNotices s3 s4 := by have := race s3; rwa [h'] at this
          exact ((h2.trans h3).trans h4).trans ((latchFloor_linesAndNotices _ _).trans
            ((takeHandOff_linesAndNotices _ _ _).trans (refresh_linesAndNotices _ _)))
    · exact h2.trans (latchFloor_linesAndNotices _ _)
  · exact (trips ds s1).trans ((takeHandOff_linesAndNotices _ _ _).trans (refresh_linesAndNotices _ _))

end Sys2Proof.Machine
end

