-- ==== Sys2Proof/Laws/Formats.lean ====
section
/-! SUPPORT. Little-endian fields in the records the part writes: what a field reads of what was written there. -/

namespace Sys2Proof.Machine

@[simp] theorem length_leBytes (n v : Nat) : (leBytes n v).length = n := by
  induction n generalizing v with
  | zero => rfl
  | succ n ih => simp [leBytes, ih]

/-- A value written in n bytes reads as its low n bytes. -/
@[simp] theorem leNat_leBytes (n v : Nat) : leNat (leBytes n v) = v % 256 ^ n := by
  induction n generalizing v with
  | zero => simp [leBytes, leNat, Nat.mod_one]
  | succ n ih =>
    rw [leBytes, leNat, ih, BitVec.toNat_ofNat, Nat.pow_succ' (m := 256)]
    exact (Nat.mod_mul (a := 256) (b := 256 ^ n) (x := v)).symm

/-- A field past the end of a part is a field of what follows it. -/
theorem field_append_right (a b : List Byte) (off size : Nat) :
    field (a ++ b) (a.length + off) size = field b off size := by
  rw [field, field, ← List.drop_drop, List.drop_left]

/-- A field at the start of a record is the part written there. -/
theorem field_append_left (a b : List Byte) : field (a ++ b) 0 a.length = leNat a := by
  rw [field, List.drop_zero, List.take_left]

/-- Fields written one after another stand one after another (12.4, R189). -/
theorem fieldsAt_leBytes (pre post : List Byte) (fs : List (Nat × Nat)) :
    FieldsAt (pre ++ fs.flatMap (fun x => leBytes x.1 x.2) ++ post) pre.length fs := by
  induction fs generalizing pre with
  | nil => exact trivial
  | cons x xs ih =>
    obtain ⟨size, value⟩ := x
    refine ⟨?_, ?_⟩
    · have h := field_append_right pre (leBytes size value ++ (xs.flatMap (fun x => leBytes x.1 x.2) ++ post)) 0 size
      have h' := field_append_left (leBytes size value) (xs.flatMap (fun x => leBytes x.1 x.2) ++ post)
      rw [length_leBytes] at h'
      rw [h', leNat_leBytes] at h
      simpa [List.append_assoc] using h
    · have h := ih (pre ++ leBytes size value)
      rw [List.length_append, length_leBytes] at h
      simpa [List.append_assoc] using h

end Sys2Proof.Machine
end

