-- ==== Sys2Proof/Tests/Slice0.lean ====
section
/-! SUPPORT. Tests: the well-formedness smoke, one step of commands on small states, the layouts of the spec's own
examples, and for every statement with hypotheses a state and operands that meet them, clause by clause. -/

namespace Sys2Proof.Tests

open Sys2Proof Sys2Proof.Machine

set_option Elab.async false

/-! ## Small states -/

/-- The state after a command. -/
def after (o : Host.Outcome State Fault Refusal) : State := match o with | .next t => t | _ => State.reset

def setup : Setup := ⟨0x1000, 0x80000, 0x90000, 0xA0000, 16, 5⟩

/-- An engine in a state, its setup loaded. -/
def engineIn (e : EngineState) : Engine :=
  { Engine.reset .powerOn 0 with state := e, loaded := e != .loading, setup := some setup, fault := e == .faulted }

/-- The part in an engine state, positioned at its chain head; races are decided for the one asked first. -/
def part (e : EngineState) : State :=
  { State.reset with
    engine := engineIn e
    order := { OrderUnit.reset with position := some 0x1000, phase := .fetch }
    notice := { NoticeUnit.reset with phase := .wait }
    races := [true, true, true, true] }

/-- Cell 10 in a line state, its receiver active. -/
def lined (l : LineState) (s : State) : State :=
  s.modLine 10 fun x => { x with state := l, windowEnd := some 1000, tx := .sending false 3 [] }

/-- The part RUNNING, line 10 ONLINE. -/
def live : State := lined .online (part .running)

/-- Line 10 with its decoder in a state, a character being timed. -/
def hearing (d : Decoder) (s : State) : State := s.modLine 10 fun x => { x with rx := .character, decoder := d }

/-- A transaction outstanding. -/
def out (p : Purpose) (n : Nat) (s : State) : State :=
  { s with port := { s.port with outstanding := some ⟨p, 0x1000, n, []⟩, timer := some 0 } }

/-- A header copy with a kind and a length. -/
def header (kind length : Nat) : List Byte := leBytes 8 0 ++ leBytes 2 kind ++ leBytes 2 length ++ leBytes 8 0

/-- An order in service. -/
def serving (kind length : Nat) (stage : Stage) (s : State) : State :=
  { s with order := { s.order with phase := .serving, service := some ⟨0x1000, header kind length, [], stage, false⟩ } }

def plan : Plan := planOf [⟨1, 1, 0, 1⟩, ⟨4, 1, 3, 2⟩, ⟨30, 2, 10, 8⟩]

def lot : Lot where
  key := 7
  state := .opened
  plan := 5
  columns := 3
  rows := 2
  policy := .keepBest
  limit := 2
  floor := none
  tripped := false
  grace := none
  graceSpent := false
  finalAddr := none
  clamps := none
  wafers := [⟨1, 0x38, 5, 1, 1, false⟩]
  tested := 1
  passed := 1
  duplicates := 0
  refused := 0
  groups := Vector.replicate 16 0

/-- One catalogue lot, its plan loaded. -/
def withLot (l : Lot) (s : State) : State :=
  { s with coll := { s.coll with lots := [l], plans := s.coll.plans.set 5 (some plan) } }

def report : Report := ⟨0, 7, 1, 2, 1, 4, .first⟩

def record (rs : List Report) : Touchdown :=
  { Touchdown.opened 9 3 with
    reports := rs, heard := 3, closeKind := some .normal, missing := some 0, closeStamp := some 0 }

/-- Cell 10's queue holds one record. -/
def queued (rs : List Report) (s : State) : State := s.modAsm 10 fun a => { a with queue := [record rs] }

/-- Cell 10's touchdown 9 is open, site 0 heard. -/
def opened (s : State) : State :=
  s.modAsm 10 fun a =>
    { a with touchdown := some { Touchdown.opened 9 3 with reports := [report], heard := 1 }, silence := some 0 }

/-- The report of the record in service at a stage. -/
def applying (st : ReportStage) (rs : List Report) (s : State) : State :=
  let s' := queued rs (withLot lot s)
  { s' with coll := { s'.coll with work := some (.record 10), inProgress := some st } }

/-- Cell 10's closed queue is full. -/
def filled (s : State) : State := s.modAsm 10 fun a => { a with queue := List.replicate 15 (record [report]) }

/-- A request at the head of the queue, an order in service waiting for it. -/
def asking (r : Request) (s : State) : State :=
  let s' := serving 4 5 .waiting s
  { s' with coll := { s'.coll with requests := [r] } }

def openBody : OpenLotBody := ⟨8, 5, 0, 1, some ⟨12000, 0⟩, 1, 512, 1, [(25, 0x38)]⟩

/-- A setup block with the fields that R175 checks. -/
def block (length slots interval head list consumed status : Nat) : List Byte :=
  leBytes 2 length ++ leBytes 2 slots ++ leBytes 2 interval ++ leBytes 2 0 ++ leBytes 8 head ++ leBytes 8 list
    ++ leBytes 8 consumed ++ leBytes 8 status ++ List.replicate 24 0

def goodBlock : List Byte := block 64 16 5 0x1000 0x80000 0x90000 0xA0000

theorem ok_of_toOption {ε α : Type} {e : Except ε α} {a : α} (h : e.toOption = some a) : e = .ok a := by
  cases e with
  | ok b => exact congrArg Except.ok (Option.some.inj h)
  | error _ => exact nomatch h

theorem error_of_toOption {ε α : Type} {e : Except ε α} (h : e.toOption.isNone = true) : ∃ x, e = .error x := by
  cases e with
  | ok _ => exact nomatch h
  | error x => exact ⟨x, rfl⟩

/-! ## Well-formedness: a term of each row's kind, and an ill-formed one for each check -/

theorem test_wellFormed_accepts :
    ([.init 1, .start 2, .stop 4, .reset 8, .nudge 0x10, .setEnables 0x700, .clearLoadDone 0x1000, .clearNotice 0x2000,
      .registerWriteIgnored 0x10 1, .setupReadDone goodBlock, .characterError 10 0 true true, .characterError 10 0 false false,
      .typeError 10 5, .scanReadDone [0, 0], .headerReadDone [0], .bodyReadDone [0], .busReset] : List Instr).all
      Instr.wellFormed = true := by decide +kernel

theorem test_wellFormed_refuses :
    ([.init 2, .start 1, .stop 2, .reset 1, .nudge 0x0F, .setEnables 0x701, .clearLoadDone 0x2000, .clearNotice 0x1000,
      .registerWriteIgnored 0x00 1, .registerWriteIgnored 0x04 1, .registerWriteIgnored 0x08 1, .registerWriteIgnored 0x0C 1,
      .setupReadDone [], .characterError 10 0 false true, .typeError 10 4, .scanReadDone [], .scanReadDone [0],
      .scanReadDone (List.replicate 66 0), .headerReadDone [], .headerReadDone (List.replicate 25 0), .bodyReadDone [],
      .bodyReadDone (List.replicate 65 0)] : List Instr).all (fun i => i.wellFormed == false) = true := by decide +kernel

theorem test_no_word_spells_a_command (nbits w : Nat) : decodeTableWord nbits w = none := rfl

/-! ## The spec's own examples -/

theorem test_final_message_of_R192 :
    (Content.mk 0x40 0).message = [0xA5, 0x81, 0x03, 0x40, 0x00, 0x00, 0x3C] := by decide +kernel

theorem test_map_cells_of_R192 : mapCell untested 0 0 = 0x00FF ∧ mapCell notADie 0 0 = 0x00FE := by decide +kernel

theorem test_status_after_power_on :
    State.reset.engine.statusWord = 0 ∧ State.reset.engine.controlWord = 0 ∧ State.reset.engine.faultInfoWord = 0 := by
  decide +kernel

theorem test_status_running_loaded : live.engine.readRegister 0x04 = 0x12 := by decide +kernel

theorem test_fault_info_of_a_scan_timeout :
    { engineIn .faulted with faultRecord := some (.scanner, .timeout) }.readRegister 0x10 = 0x103 := by decide +kernel

theorem test_map_faults_in_order :
    [0x00F0, 0x01FE, 0x0004, 0x0107, 0x0304, 0x0204].map (mapFault plan 2)
      = [some .badValue, some .badAttempts, some .badAttempts, some .unusedBin, some .overAttemptLimit, none] := by
  decide +kernel

theorem test_step_from_reset_counts_a_millisecond : (after (step State.reset)).clock = 1 := by decide +kernel

theorem test_command_in_front_of_reset :
    (after (step { State.reset with pending := [.setEnables 0x700, .busReset] })).engine.controlWord = 0x700 := by
  decide +kernel

/-! ## One step of a command -/

theorem test_init : (after (exec (.init 0x201) State.reset)).engine.state = .loading := by decide +kernel

theorem test_setup_read_done :
    (after (exec (.setupReadDone goodBlock) (out .setupRead 64 (part .loading)))).engine.loaded = true := by decide +kernel

theorem test_start : (after (exec (.start 2) (part .halted))).engine.state = .running := by decide +kernel

theorem test_stop_drains : (after (exec (.stop 4) (opened live))).engine.state = .draining := by decide +kernel

theorem test_stop_with_nothing_to_drain : (after (exec (.stop 4) live)).engine.state = .halted := by decide +kernel

theorem test_error_response_faults :
    (after (exec .transactionErrorResponse (out .mapRead 2 live))).engine.faultInfoWord = 0x02 := by decide +kernel

theorem test_timeout_faults :
    (after (exec .responseTimerExpiry (out .noticeWrite 32 live))).engine.faultInfoWord = 0x104 := by decide +kernel

theorem test_open :
    ((after (exec (.openMsg 10 0x203 0xFFFF) live)).cell 10).asm.touchdown.map (·.declared) = some 0xFFFF := by
  decide +kernel

theorem test_unit_joins_its_touchdown :
    ((after (exec (.unitMsg 10 1 7 1 0 0 30 0) (opened live))).cell 10).asm.slots = 2 := by decide +kernel

theorem test_close_queues :
    ((after (exec (.closeMsg 10 9) (opened live))).cell 10).asm.queue.map (·.missing) = [some 2] := by decide +kernel

theorem test_take_work_reads_the_map_cell :
    (after (exec .collationTakeWork (queued [report] (withLot lot live)))).port.outstanding
      = some (readOf .mapRead 0x42 2) := by decide +kernel

theorem test_map_read_writes :
    (after (exec (.mapReadDone 0x00FF) (out .mapRead 2 (applying .reading [report] live)))).port.outstanding
      = some (writeOf .mapWrite 0x42 [0x04, 0x01]) := by decide +kernel

theorem test_map_write_counts :
    ((after (exec .mapWriteDone (out .mapWrite 2 (applying (.writing 0x00FF 0x0104) [report] live)))).coll.lots.map
      fun l => (l.tested, l.passed)) = [(2, 2)] := by decide +kernel

theorem test_link_followed :
    (after (exec (.linkReadDone 0x2000) (out .linkRead 8 live))).order.position = some 0x2000 := by decide +kernel

theorem test_hold_cells :
    ((after (exec (.bodyReadDone (leBytes 8 0x401))
      (out .bodyRead 8 (serving 8 4 (.body 8) live)))).order.outcome) = some (.done 2) := by decide +kernel

/-- A rate code stored on an OFFLINE line leaves the owed final message at the old rate (R38). -/
theorem test_final_message_goes_at_the_old_rate :
    let s := (part .running).modLine 10 fun l =>
      takeRate (some 5) { l with tx := .sending false 3 [], finalOwed := true }
    ((s.cell 10).line.rate, (match ((after (exec (.holdStateSent 10) s)).cell 10).line.tx with
      | .sending final rate _ => (final, rate) | _ => (false, 0))) = (5, true, 3) := by decide +kernel

/-- Where a record write's completion ends the drain, Nudge pending is cleared (R165). -/
theorem test_drain_clears_nudge_pending :
    let s := part .draining
    let n := { s with notice := { s.notice with phase := .record, nudgePending := true } }
    let t := after (exec .noticeRecordWriteDone (out .noticeWrite 32 n))
    t.engine.state = .halted ∧ t.notice.nudgePending = false ∧ t.notice.phase = .count := by decide +kernel

/-- The guard unit's notice and LOT_FLOOR of one report stand in the order in which they were taken (R158). -/
theorem test_guard_notice_and_lot_floor_in_either_order :
    let fails : Report := { report with bin := 30 }
    let s := applying (.writing 0x00FF 0x011E) [fails] live
    let s := { s with coll := { s.coll with lots := s.coll.lots.map fun l : Lot => { l with floor := some ⟨10000, 1⟩ } } }
    let s := s.modCell 10 fun cs => { cs with guard := { cs.guard with k := 1 } }
    let kinds (b : Bool) := (after (exec .mapWriteDone { out .mapWrite 2 s with races := [b, true, true] })).notice.table.map
      fun p => match p with | .entry e => e.key.kind | .overflow _ => .overflow
    kinds true = [.siteRun, .lotFloor] ∧ kinds false = [.lotFloor, .siteRun] := by decide +kernel

/-! ## Witnesses: the step, resets and registers -/

theorem witness_StepRunsFrontCommand : { live with pending := [.busReset] }.pending = [Instr.busReset] := rfl

theorem witness_EmptyQueueRunsDueEventOrTicks :
    live.pending = [] ∧ dueEvents live = [] ∧ dueEvents { live with clock := 1000 } ≠ [] := by decide +kernel

theorem witness_Settled :
    Settled live ∧ Settled State.reset ∧ Settled (part .halted) ∧ Settled (part .loading) ∧ Settled (part .faulted)
      ∧ Settled (opened (part .draining)) := by decide +kernel

theorem witness_SetupAddressWrittenInHalted :
    (State.reset.engine.state = .halted ∧ Settled State.reset) ∧ live.engine.state ≠ .halted := by decide +kernel

theorem witness_IgnoredEventsChangeNothing :
    ignoredOffset 0x10 = true ∧ ignoredOffset 0x14 = true ∧ ignoredOffset 0xFFFFFFFC = true
      ∧ live.port.outstanding = none ∧ isResponse .takenWriteDone = true := by decide +kernel

theorem witness_ConflictingActionsNotPerformed :
    Settled live ∧ (3 : Word).getLsbD 3 = false ∧ (3 : Word).getLsbD 4 = false ∧ (3 : Word).getLsbD 1 = true
      ∧ (3 : Word).getLsbD 0 = true
      ∧ (0x13 : Word).getLsbD 3 = false ∧ (0x13 : Word).getLsbD 4 = true ∧ (0x13 : Word).getLsbD 1 = true
      ∧ (0x13 : Word).getLsbD 0 = true := by decide +kernel

theorem witness_InterruptFollowsFlags :
    (live.irq = true ↔ (live.engine.notice = true ∧ live.engine.noticeIE = true)
      ∨ (live.engine.loadDone = true ∧ live.engine.loadIE = true) ∨ (live.engine.fault = true ∧ live.engine.faultIE = true))
      ∧ ∃ t, step live = .next t := ⟨by decide +kernel, step_next live⟩

/-! ## Witnesses: the load and the engine -/

theorem witness_InitBeginsLoad :
    (0x701 : Word) &&& 0x1F = 0x01 ∧ Settled State.reset ∧ State.reset.engine.state = .halted
      ∧ State.reset.engine.setupAddr.toNat % 64 = 0 ∧ Settled (State.afterReset .powerOn 63)
      ∧ (State.afterReset .powerOn 63).engine.setupAddr.toNat % 64 ≠ 0 ∧ live.engine.state ≠ .halted := by decide +kernel

theorem witness_SetupBlockJudged :
    let s := out .setupRead 64 (part .loading)
    s.engine.state = .loading ∧ Outstanding .setupRead goodBlock.length s ∧ setupError goodBlock = .none
      ∧ setupError (List.replicate 64 0) ≠ .none ∧ (List.replicate 64 (0 : Byte)).length = goodBlock.length
      ∧ s.notice.phase ≠ .record := by decide +kernel

/-- A block for each check of R175 that is the first to fail, at the ends of its range; and blocks at the ends that
pass. -/
theorem witness_SetupChecksInOrder :
    [block 63 16 1 8 0 0 0, block 65 0 0 0 1 1 1, block 64 8 1 8 0 0 0, block 64 8192 0 0 1 1 1, block 64 48 1 8 0 0 0,
      block 64 16 0 8 0 0 0, block 64 16 1001 0 1 1 1, block 64 16 1 0 0 0 0, block 64 16 1 12 1 1 1,
      block 64 16 1 8 16 0 0, block 64 16 1 8 31 1 1, block 64 16 1 8 0 2 0, block 64 16 1 8 0 3 1,
      block 64 16 1 8 0 0 4, block 64 16 1 8 0 0 0, block 64 4096 1000 8 32 4 8].map setupError
    = [.badBlockLength, .badBlockLength, .badSlotCount, .badSlotCount, .badSlotCount, .badInterval, .badInterval,
      .badChainHead, .badChainHead, .badListAddress, .badListAddress, .badConsumedAddress, .badConsumedAddress,
      .badStatusAddress, .none, .none] := by decide +kernel

theorem witness_SetupReadFaults :
    let s := out .setupRead 64 (part .loading)
    let t := out .abandonedSetupRead 64 (part .halted)
    s.engine.state = .loading ∧ OutstandingFor .setupRead s ∧ expired s.clock s.port.timer = true
      ∧ Outstanding .abandonedSetupRead 64 t ∧ t.engine.state = .halted ∧ expired t.clock t.port.timer = true
      ∧ t.irq = t.engine.interrupt ∧ (out .abandonedSetupRead 64 (part .loading)).engine.state = .loading := by
  decide +kernel

theorem witness_StartResumesEveryBlock :
    let s := part .halted
    let at' (p : OrderPhase) (w : Bool) : State := { s with order := { s.order with phase := p, posWritten := w } }
    let note (p : NoticePhase) : State :=
      { s with notice := { s.notice with phase := p, post := some ⟨.overflow ⟨1, 0, 0, ⟨.cellRestart, .cell 0⟩, ⟨.cellRestart, .cell 0⟩⟩, 0⟩ } }
    (0x702 : Word) &&& 0x1F = 0x02 ∧ s.engine.state = .halted ∧ s.engine.loaded = true
      ∧ s.order.service = none ∧ s.order.outcome = none ∧ (at' .fetch false).order.phase = .fetch
      ∧ (at' .fetch false).order.posWritten = false ∧ (at' .fetch true).order.posWritten = true
      ∧ s.order.gathered = [] ∧ (at' .link true).order.phase = .link
      ∧ (note .record).notice.phase = .record ∧ (note .record).notice.post.isSome = true
      ∧ (note .count).notice.phase = .count ∧ (note .room).notice.phase = .room ∧ s.notice.phase = .wait
      ∧ ((lined .quarantined s).cell 10).line.state ≠ .offline
      ∧ State.reset.engine.loaded = false ∧ Settled State.reset
      ∧ (note .idle).notice.phase = .idle ∧ s.coll.work = none := by decide +kernel

theorem witness_StartResumesEveryBlock_collation :
    let s := applying .reading [report] (part .halted)
    let s' := applying (.writing 0x011E 0x8204) [report] (part .halted)
    let f := { withLot lot s with coll := { (withLot lot s).coll with work := some (.finalize 7 ⟨0, [], 0⟩) } }
    InProgress 10 (record [report]) report lot 0x42 .reading s
      ∧ InProgress 10 (record [report]) report lot 0x42 (.writing 0x011E 0x8204) s'
      ∧ s.engine.state = .halted ∧ s'.engine.state = .halted ∧ f.engine.state = .halted
      ∧ f.coll.work = some (.finalize 7 ⟨0, [], 0⟩) ∧ findLot f.coll.lots 7 = some lot :=
  ⟨⟨by decide +kernel, by decide +kernel, by decide +kernel, by decide +kernel, ok_of_toOption (by decide +kernel),
    by decide +kernel⟩, ⟨by decide +kernel, by decide +kernel, by decide +kernel, by decide +kernel,
    ok_of_toOption (by decide +kernel), by decide +kernel⟩, by decide +kernel⟩

theorem witness_StartResumesEveryBlock_order :
    let s (stage : Stage) := serving 5 5 stage (part .halted)
    let asked := asking (.snapshot 7 0x88) (part .halted)
    (s .answering).order.service.map (·.stage) = some .answering ∧ (s .taken).order.service.map (·.stage) = some .taken
      ∧ (s .waiting).order.service.map (·.stage) = some .waiting ∧ (s .waiting).coll.requests = []
      ∧ (s .waiting).scanner = none ∧ (s .waiting).coll.work = none
      ∧ asked.order.service.map (·.stage) = some .waiting ∧ asked.coll.requests = [.snapshot 7 0x88] := by decide +kernel

theorem witness_StopByEngineState :
    (0x704 : Word) &&& 0x1F = 0x04 ∧ live.engine.state = .running ∧ NothingToDrain live ∧ ¬NothingToDrain (opened live)
      ∧ (live.cell 10).line.state ≠ .offline ∧ (out .setupRead 64 (part .loading)).engine.state = .loading
      ∧ (out .setupRead 64 (part .loading)).port.outstanding ≠ none ∧ Settled (part .halted)
      ∧ (opened (part .draining)).engine.state = .draining ∧ Settled (opened (part .draining)) := by decide +kernel

/-- With no touchdown open, with one, and with one whose queue is full. -/
theorem witness_StopInFaultedRecovers :
    ∀ s ∈ [part .faulted, opened (part .faulted), filled (opened (part .faulted))],
      s.engine.state = .faulted ∧ ∀ c, AssemblerOk (s.cell c).asm := by decide +kernel

theorem witness_NudgeReadsAtOnce :
    (0x710 : Word) &&& 0x1F = 0x10 ∧ Settled live ∧ live.notice.phase = .wait
      ∧ (let s := { live with order := { live.order with phase := .link } }
        Settled s ∧ s.order.phase = .link ∧ s.engine.state = .running ∧ portBusy .orderUnit s = false
        ∧ portBusy .orderUnit (out .linkRead 8 s) = true ∧ Settled (out .linkRead 8 s))
      ∧ (0x711 : Word) &&& 0x1F = 0x11 ∧ (0x712 : Word) &&& 0x1F = 0x12 ∧ (0x714 : Word) &&& 0x1F = 0x14
      ∧ (part .halted).engine.state = .halted ∧ (part .halted).engine.loaded = true ∧ ¬NothingToDrain (opened live)
      ∧ NothingToDrain live := by decide +kernel

theorem witness_MemoryFaultEntersFaulted :
    let s := out .mapRead 2 live
    s.engine.state = .running ∧ s.port.outstanding = some ⟨.mapRead, 0x1000, 2, []⟩
      ∧ Purpose.mapRead ≠ .abandonedSetupRead ∧ expired s.clock s.port.timer = true
      ∧ (out .scanRead 2 (part .draining)).engine.state = .draining := by decide +kernel

/-! ## Witnesses: lines -/

theorem witness_EdgesBeginCharacters :
    ¬Active 10 (part .running) ∧ lineEvent (.byte 10 0xA5) = some 10 ∧ Active 10 live ∧ Settled live
      ∧ (live.cell 10).line.rx = .idle ∧ Active 10 (hearing .hunt live) ∧ Settled (hearing .hunt live)
      ∧ ((hearing .hunt live).cell 10).line.rx = .character := by decide +kernel

theorem witness_BytesMoveDecoder :
    ∀ d ∈ [Decoder.hunt, .type 0, .length 0 .openMsg, .payload 0 .openMsg 5 [], .payload 0 .openMsg 5 [1, 2, 3]],
      Active 10 (hearing d live) ∧ ((hearing d live).cell 10).line.rx = .character ∧ Settled (hearing d live)
      ∧ LineQuiet 10 (hearing d live) ∧ ((hearing d live).cell 10).line.decoder = d := by decide +kernel

theorem witness_LineErrorsCounted :
    (∀ p ∈ ([(.hunt, .characterError 10 1 false true, .parity), (.hunt, .characterError 10 0 true false, .framing),
        (.type 0, .typeError 10 5, .type), (.length 0 .openMsg, .lengthError 10 3, .length),
        (.check 0 .openMsg 5 [], .checkError 10 0, .check), (.type (-50), .gapError 10, .gap)]
        : List (Decoder × Instr × LineError)),
      let s := hearing p.1 live
      lineErrorOf 10 s p.2.1 = some p.2.2 ∧ Settled s ∧ LineQuiet 10 s
        ∧ min ((s.cell 10).line.errors + 1) 255 < (s.cell 10).line.q)
    ∧ lineErrorOf 10 (hearing .hunt (lined .quarantined live)) (.characterError 10 1 false true) = some .parity := by
  decide +kernel

theorem witness_QuarantineAtThreshold :
    let s := (hearing .hunt live).modLine 10 fun l => { l with errors := 7 }
    lineErrorOf 10 s (.characterError 10 1 false true) = some .parity ∧ (s.cell 10).line.state = .online
      ∧ (s.cell 10).line.q = 8 ∧ (s.cell 10).line.q ≤ min ((s.cell 10).line.errors + 1) 255
      ∧ s.engine.state ≠ .draining ∧ AssemblerOk (s.cell 10).asm := by decide +kernel

/-- The same with a touchdown open, its queue with room and full. -/
theorem witness_QuarantineAtThreshold_closes :
    ∀ s ∈ [opened live, filled (opened live)].map (State.modLine · 10 fun l => { l with errors := 7, rx := .character }),
      lineErrorOf 10 s (.characterError 10 1 false true) = some .parity ∧ (s.cell 10).line.state = .online
        ∧ AssemblerOk (s.cell 10).asm ∧ LineQuiet 10 s
        ∧ ∃ td ∈ (s.cell 10).asm.touchdown, td.reports ≠ [] := by decide +kernel

theorem witness_WindowEndJudged :
    ∀ p ∈ ([(.online, 255, 0), (.quarantined, 1, 1), (.quarantined, 0, 0), (.quarantined, 0, 1)]
        : List (LineState × Nat × Nat)),
      let s := ({ lined p.1 (part .running) with clock := 1000 }).modLine 10 fun l => { l with errors := p.2.1, clean := p.2.2 }
      Active 10 s ∧ expired s.clock (s.cell 10).line.windowEnd = true ∧ (s.cell 10).line.state = p.1 ∧ Settled s
        ∧ LineQuiet 10 s := by decide +kernel

theorem witness_TransmitterSendsLatestContent :
    Settled live ∧ (live.cell 10).line.tx = .sending false 3 [] ∧ (live.cell 10).line.state ≠ .offline
      ∧ ((live.modLine 10 fun l => { l with tx := .sending true 3 [], state := .offline }).cell 10).line.tx
          = .sending true 3 []
      ∧ ((live.modLine 10 fun l => { l with finalOwed := true, state := .offline }).cell 10).line.finalOwed = true
      ∧ ((live.modLine 10 fun l => { l with tx := .idle }).cell 10).line.tx = .idle := by decide +kernel

/-! ## Witnesses: touchdowns -/

theorem witness_OpenTaken :
    Completes 10 (.openMsg 5 3) live ∧ (live.cell 10).line.state = .online ∧ live.engine.state ≠ .draining
      ∧ (3 : Half) &&& (live.cell 10).asm.enabled ≠ 0 ∧ (live.cell 10).asm.touchdown = none
      ∧ Completes 10 (.openMsg 5 0) live ∧ (0 : Half) &&& (live.cell 10).asm.enabled = 0
      ∧ Completes 10 (.openMsg 5 3) (lined .quarantined live)
      ∧ Completes 10 (.openMsg 5 3) (lined .online (part .draining))
      ∧ Completes 10 (.openMsg 0x0201 0x0403) (hearing (.check 0 .openMsg 5 [1, 2, 3, 4]) live) := by decide +kernel

/-- An OPEN that supersedes an open touchdown, its queue with room and full. -/
theorem witness_OpenTaken_superseded :
    ∀ s ∈ [opened live, filled (opened live)],
      Completes 10 (.openMsg 5 3) s ∧ (s.cell 10).line.state = .online
        ∧ ∃ td ∈ (s.cell 10).asm.touchdown, td.reports ≠ [] := by decide +kernel

theorem witness_UnitTaken :
    let s := opened live
    Settled s ∧ Completes 10 (.unitMsg 1 7 1 0 0 30 1) s ∧ (s.cell 10).line.state = .online
      ∧ (s.cell 10).asm.touchdown = some { Touchdown.opened 9 3 with reports := [report], heard := 1 }
      ∧ (s.cell 10).asm.slots < 64 ∧ (live.cell 10).asm.touchdown = none
      ∧ (let full := s.modAsm 10 fun a => { a with queue := [record (List.replicate 63 report)] }
        Settled full ∧ Completes 10 (.unitMsg 1 7 1 0 0 30 1) full ∧ (full.cell 10).asm.slots = 64)
      ∧ Completes 10 (.unitMsg 1 7 1 0 0 30 1) (lined .quarantined live) := by decide +kernel

theorem witness_CloseTaken :
    Completes 10 (.closeMsg 9) (opened live) ∧ ((opened live).cell 10).line.state = .online
      ∧ ((opened live).cell 10).asm.touchdown.isSome = true ∧ ((opened live).cell 10).asm.queue.length < 15
      ∧ Completes 10 (.closeMsg 9) live ∧ (live.cell 10).asm.touchdown = none
      ∧ (let s := opened (lined .quarantined live)
        Completes 10 (.closeMsg 9) s ∧ (s.cell 10).line.state = .quarantined)
      ∧ (let s := filled (opened live)
        Completes 10 (.closeMsg 9) s ∧ (s.cell 10).asm.touchdown.isSome = true ∧ (s.cell 10).line.state = .online
          ∧ 15 ≤ (s.cell 10).asm.queue.length) := by decide +kernel

theorem witness_HelloAndSilenceTaken :
    Completes 10 .helloMsg live ∧ Completes 10 .helloMsg (lined .quarantined live)
      ∧ ((opened live).cell 10).asm.touchdown.isSome = true
      ∧ expired (opened live).clock ((opened live).cell 10).asm.silence = true := by decide +kernel

/-- Cell 10's closed queue is full while its touchdown is open. -/
theorem witness_HelloAndSilenceTaken_lost :
    let s := filled (opened live)
    (∀ td ∈ (s.cell 10).asm.touchdown, td.reports ≠ [] ∧ 15 ≤ (s.cell 10).asm.queue.length)
      ∧ (s.cell 10).asm.touchdown.isSome = true ∧ Completes 10 .helloMsg s
      ∧ expired s.clock (s.cell 10).asm.silence = true := by decide +kernel

/-! ## Witnesses: guards, collation and maps -/

theorem witness_FractionChecksAndLatches :
    (Guard.reset.site 0).failCount ≤ (Guard.reset.site 0).window.length ∧ Guard.reset.l = 1024 ∧ Guard.reset.d = 1024
      ∧ Guard.reset.lc = 1024 := by
  decide +kernel

theorem witness_RunCheckTrips : { Guard.reset with k := 255 }.k = 255 ∧ { Guard.reset with k := 1 }.k = 1 := by decide

theorem witness_RecordTakenReadsMapCell :
    let s := queued [report] (withLot lot live)
    s.coll.work = none ∧ s.coll.requests = [] ∧ s.engine.state = .running ∧ nextCell s = some 10
      ∧ (s.cell 10).asm.queue.head? = some (record [report]) ∧ (record [report]).reports[(record [report]).mark]? = some report
      ∧ findLot s.coll.lots report.key = some lot
      ∧ lot.wafers.find? (fun w => w.number == report.wafer.toNat) = some ⟨1, 0x38, 5, 1, 1, false⟩
      ∧ report.x.toNat < lot.columns ∧ report.y.toNat < lot.rows ∧ (s.coll.plan lot.plan).info report.bin = some ⟨.pass, 3, 2⟩ := by
  decide +kernel

theorem witness_RecordTakenReadsMapCell_refused :
    let s (r : Report) := queued [r, report] (withLot lot live)
    ∀ x ∈ [({ report with key := 8 }, Code.unknownLot), ({ report with wafer := 26 }, .unknownWafer),
        ({ report with x := 3 }, .badCoord), ({ report with bin := 31 }, .binUndefined)],
      refusalOf x.1 (s x.1) = some x.2 ∧ nextCell (s x.1) = some 10 := by
  decide +kernel

theorem witness_MapCellContentDecided :
    mapFault plan 2 0x00FF = none ∧ mapFault plan 2 0x011E = none ∧ mapFault plan 2 0x021E = none
      ∧ cellBin 0x00FF ≠ notADie ∧ cellBin 0x011E ≠ notADie ∧ cellBin 0x021E ≠ notADie
      ∧ plan.info report.bin = some ⟨.pass, 3, 2⟩ ∧ plan.info (cellBin 0x011E) = some ⟨.fail, 10, 8⟩
      ∧ cellBin 0x00FF = untested ∧ cellBin 0x011E ≠ untested ∧ cellAttempts 0x011E < 2 ∧ cellAttempts 0x021E = 2 := by
  decide +kernel

theorem witness_MapReadDecides :
    let s := out .mapRead 2 (applying .reading [report] live)
    InProgress 10 (record [report]) report lot 0x42 .reading s ∧ Outstanding .mapRead 2 s
      ∧ (mapFault plan lot.limit 0x00FF = none ∧ cellBin 0x00FF ≠ notADie) ∧ mapFault plan lot.limit 0x0001 ≠ none
      ∧ cellBin 0x00FE = notADie ∧ (record [report]).mark + 1 = (record [report]).reports.length
      ∧ (s.coll.plan lot.plan).info report.bin = some ⟨.pass, 3, 2⟩ :=
  ⟨⟨by decide +kernel, by decide +kernel, by decide +kernel, by decide +kernel, ok_of_toOption (by decide +kernel),
    by decide +kernel⟩, by decide +kernel⟩

theorem witness_MapWriteMovesTallies :
    let s := out .mapWrite 2 (applying (.writing 0x011E 0x8204) [report, report] live)
    InProgress 10 (record [report, report]) report lot 0x42 (.writing 0x011E 0x8204) s
      ∧ identify report s = .ok 0x42
      ∧ OutstandingFor .mapWrite s ∧ (s.coll.plan lot.plan).info report.bin = some ⟨.pass, 3, 2⟩
      ∧ (s.coll.plan lot.plan).info (cellBin 0x011E) = some ⟨.fail, 10, 8⟩
      ∧ (record [report, report]).reports[(record [report, report]).mark + 1]? = some report
      ∧ (record [report]).mark + 1 = (record [report]).reports.length :=
  ⟨⟨by decide +kernel, by decide +kernel, by decide +kernel, by decide +kernel, ok_of_toOption (by decide +kernel),
    by decide +kernel⟩, ok_of_toOption (by decide +kernel), by decide +kernel⟩

theorem witness_ScanCountsAndCompletes :
    let sc : Scan := { openBody.scan 5 with columns := 3, rows := 1, todo := [(1, 0x38)] }
    let s := { out .scanRead 4 (withLot lot live) with scanner := some sc }
    mapFault plan sc.limit 0x0101 = none ∧ Outstanding .scanRead 4 s ∧ s.scanner = some sc
      ∧ (sc.examine plan (cellsOfBytes [0xFF, 0x00, 0x01, 0x00])).2 = some .badAttempts
      ∧ ((sc.examine plan (cellsOfBytes [0xFF, 0x00, 0x01, 0x01])).2 = none
        ∧ (sc.examine plan (cellsOfBytes [0xFF, 0x00, 0x01, 0x01])).1.index < 3)
      ∧ ((sc.examine plan (cellsOfBytes [0xFF, 0, 0xFF, 0, 0xFF, 0])).2 = none
        ∧ (sc.examine plan (cellsOfBytes [0xFF, 0, 0xFF, 0, 0xFF, 0])).1.index = 3) := by decide +kernel

theorem witness_ScanCountsAndCompletes_examine :
    ([0x00FF, 0x0101, 0x00F0] : List Half).map (mapFault plan 1) = [none, none, some .badValue]
      ∧ (let sc : Scan := { openBody.scan 5 with columns := 1, rows := 2, todo := [(1, 0x38), (25, 0x1038)] }
        let sc' := (sc.examine plan (cellsOfBytes [0xFF, 0x00, 0x01, 0x01])).1
        (sc'.todo.map (·.1) = [1, 25] ∧ sc'.columns * sc'.rows ≤ sc'.index)) := by decide +kernel

/-! ## Witnesses: plans and lots -/

theorem witness_LoadPlanServed :
    let s := asking (.loadPlan 0 []) live
    Serves (.loadPlan 0 []) [] s ∧ s.order.service.isSome = true ∧ loadPlanError s.coll.lots 0 [] = some (.noPass, 0)
      ∧ loadPlanError s.coll.lots 7 [⟨239, 1, 14, 15⟩, ⟨0, 2, 15, 0⟩] = none
      ∧ loadPlanError s.coll.lots 8 [] = some (.badSlot, 0) := by decide +kernel

/-- For each check of R10 a list that it is the first to refuse. -/
theorem witness_LoadPlanServed_checks :
    [(8, []), (5, []), (0, [⟨1, 1, 0, 0⟩, ⟨1, 2, 1, 0⟩]), (0, [⟨1, 1, 16, 0⟩]), (0, [⟨1, 2, 0, 0⟩]),
      (0, [⟨1, 1, 9, 0⟩, ⟨2, 2, 9, 0⟩])].map (fun x : Nat × List PlanEntry => loadPlanError [lot] x.1 x.2)
    = [some (.badSlot, 0), some (.planInUse, 1), some (.badEntry, 0x10001), some (.badEntry, 0x10000),
      some (.noPass, 1), some (.rankOrder, 0x90009)] := by decide +kernel

/-- For each check of R128 an OPEN_LOT that it is the first to refuse. -/
theorem witness_OpenLotServed_checks :
    let coll := (withLot lot live).coll
    let refused (b : OpenLotBody) (c : Collation) : Option (Code × Word) :=
      match checkOpenLot b c with | .error e => some e | .ok _ => none
    refused openBody { coll with lots := List.replicate 32 lot } = some (.catalogueFull, 32)
      ∧ [{ openBody with key := 7 }, { openBody with plan := 8 }, { openBody with plan := 4 },
          { openBody with rows := 513, columns := 0 }, { openBody with count := 26 },
          { openBody with wafers := [(25, 0x38), (26, 0x39)] }, { openBody with wafers := [(25, 0x38), (25, 0x39)] },
          { openBody with wafers := [(25, 0x39)] }, { openBody with limit := 16 },
          { openBody with policy := 2 }].map (fun b => refused b coll)
        = [some (.duplicateKey, 2), some (.badSlot, 8), some (.planEmpty, 4), some (.badGrid, 0x2010000),
          some (.badWaferList, 1), some (.badWaferList, 0x10002), some (.badWaferList, 0x10003), some (.badWaferList, 4),
          some (.badLimit, 16), some (.badPolicy, 2)] := by decide +kernel

theorem witness_OpenLotServed :
    let s := asking (.openLot openBody) (withLot lot live)
    Serves (.openLot openBody) [] s ∧ s.order.service.isSome = true
      ∧ checkOpenLot openBody s.coll = .ok (5, .keepBest) ∧ openBody.wafers = [(25, 0x38)]
      ∧ ∃ e, checkOpenLot { openBody with rows := 513 } s.coll = .error e :=
  ⟨by decide +kernel, by decide +kernel, ok_of_toOption (by decide +kernel), by decide +kernel,
    error_of_toOption (by decide +kernel)⟩

theorem witness_ScanCompletionsServed :
    let success := asking (.scanSuccess 7 [⟨1, 5, 2, 1⟩] lot.groups) (withLot { lot with state := .opening } live)
    let invalid := asking (.scanInvalid 7 1 2 1 .badValue) (withLot { lot with state := .opening } live)
    let abandoned := asking (.scanAbandoned 7) (withLot { lot with state := .opening } live)
    Serves (.scanSuccess 7 [⟨1, 5, 2, 1⟩] lot.groups) [] success ∧ success.order.service.isSome = true
      ∧ findLot success.coll.lots 7 = some { lot with state := .opening }
      ∧ Serves (.scanInvalid 7 1 2 1 .badValue) [] invalid ∧ invalid.order.service.isSome = true
      ∧ Serves (.scanAbandoned 7) [] abandoned := by decide +kernel

/-- A lot that opens below its floor trips it, and one that opens at it does not. -/
theorem test_floor_at_opening :
    let opening (figure : Nat) :=
      asking (.scanSuccess 7 [⟨1, 5, 2, 1⟩] lot.groups)
        (withLot { lot with state := .opening, floor := some ⟨figure, 2⟩, tripped := false } live)
    let tripped (figure : Nat) :=
      (findLot (after (exec .collationTakeWork (opening figure))).coll.lots 7).map (·.tripped)
    tripped 5001 = some true ∧ tripped 5000 = some false := by decide +kernel

theorem witness_LotOrdersServed :
    (∀ r ∈ ([.closeLot 7 0 0x88, .closeLot 7 65535 0x88, .closeLot 7 5 0x84, .snapshot 7 0x88, .snapshot 7 0x84,
        .releaseLot 7 none, .releaseLot 7 (some ⟨12000, 0⟩)] : List Request),
      (∀ st ∈ [LotState.opening, .opened, .closing],
        let s := asking r (withLot { lot with state := st } live)
        Serves r [] s ∧ s.order.service.isSome = true ∧ findLot s.coll.lots 7 = some { lot with state := st })
      ∧ findLot (asking r live).coll.lots 7 = none)
      ∧ (0x88 : Addr).toNat % 8 = 0 ∧ (0x84 : Addr).toNat % 8 ≠ 0 := by decide +kernel

theorem witness_TallyRecordsAndGrace :
    let w (n : Nat) : RecordWrite := ⟨0x40, List.replicate n 0, n⟩
    let s (k : Work) : State :=
      let s' := out .tallyWrite 64 (serving 5 5 .waiting (withLot { lot with state := .closing, grace := some 0 } live))
      { s' with coll := { s'.coll with work := some k } }
    OutstandingFor .tallyWrite (s (.snapshot 7 (w 112))) ∧ (w 112).after.rest ≠ [] ∧ (w 64).after.rest = []
      ∧ (s (.snapshot 7 (w 64))).order.service.isSome = true
      ∧ (findLot (s (.finalize 7 (w 64))).coll.lots 7).isSome = true
      ∧ (findLot (s (.finalize 7 (w 64))).coll.lots 7).map (fun l => (l.state, l.graceSpent)) = some (.closing, false)
      ∧ expired live.clock (some 0) = true := by decide +kernel

theorem witness_TallyRecordsAndGrace_finalize :
    let s := asking (.finalize 7) (withLot { lot with state := .closing, finalAddr := some 0x88 } live)
    Serves (.finalize 7) [] s ∧ (findLot s.coll.lots 7).isSome = true := by decide +kernel

/-! ## Witnesses: the order chain -/

theorem witness_HeaderTaken :
    let whole (state : Nat) : List Byte := leBytes 8 0 ++ leBytes 2 1 ++ leBytes 2 3 ++ leBytes 2 state ++ leBytes 10 0
    let s := out .headerRead 24 live
    s.order.service = none ∧ Outstanding .headerRead 24 s ∧ s.engine.state = .running ∧ s.order.gathered = []
      ∧ (whole 0).length = 24 ∧ field (whole 0) 0x0C 2 = 0 ∧ field (whole 1) 0x0C 2 ≠ 0
      ∧ field (whole 65535) 0x0C 2 ≠ 0 ∧ (whole 0 |>.take 23).length < 24
      ∧ Outstanding .headerRead 23 (out .headerRead 23 live)
      ∧ (out .headerRead 24 (part .draining)).engine.state = .draining := by decide +kernel

theorem witness_TakenOrderChecked :
    ∀ k ∈ [(0, 3), (11, 3), (65535, 3), (1, 3), (1, 4), (2, 3), (2, 4), (3, 5), (3, 6), (4, 5), (5, 5), (6, 5), (7, 7),
        (8, 4), (9, 4), (10, 5), (10, 0)],
      let s := out .takenWrite 2 (serving k.1 k.2 .taken live)
      OutstandingFor .takenWrite s ∧ s.order.service = some ⟨0x1000, header k.1 k.2, [], .taken, false⟩
        ∧ field (header k.1 k.2) 0x08 2 = k.1 ∧ field (header k.1 k.2) 0x0A 2 = k.2 := by decide +kernel

/-- A LOAD_PLAN prefix with a count. -/
def planPrefix (count : Nat) : List Byte := leBytes 2 0 ++ leBytes 2 count ++ leBytes 4 0

theorem witness_BodyReadAndHandedOver :
    (∀ k ∈ [4, 5, 6], let s := out .bodyRead 16 (serving k 5 (.body 16) live)
      Outstanding .bodyRead 16 s ∧ s.order.service.isSome = true ∧ field (header k 5) 0x08 2 = k)
    ∧ (∀ k ∈ [2, 3], let s := out .bodyRead 8 (serving k 5 (.bodyPrefix 8) live)
      Outstanding .bodyRead 8 s ∧ s.order.service.map (·.stage) = some (.bodyPrefix 8) ∧ field (header k 5) 0x08 2 = k)
    ∧ (∀ k ∈ [2, 3], let s := out .bodyRead 8 (serving k 5 (.body 8) live)
      Outstanding .bodyRead 8 s ∧ s.order.service.map (·.stage) = some (.body 8))
    ∧ field (planPrefix 1) 2 2 = 1 ∧ field (planPrefix 240) 2 2 = 240 ∧ field (planPrefix 241) 2 2 = 241
    ∧ field (planPrefix 0) 2 2 = 0 ∧ field (header 2 5) 0x0A 2 = 5 := by decide +kernel

/-- An OPEN_LOT of count 0 whose prefix has come: it is the whole body. -/
theorem witness_BodyReadAndHandedOver_prefix_only :
    let s := out .bodyRead 24 (serving 3 6 (.bodyPrefix 24) live)
    let body : List Byte := List.replicate 24 0
    Outstanding .bodyRead body.length s ∧ s.order.service.map (·.stage) = some (.bodyPrefix 24)
      ∧ field (header 3 6) 0x08 2 = 3 ∧ field (header 3 6) 0x0A 2 = 6 + 2 * field body 0x10 1
      ∧ 8 * field (header 3 6) 0x0A 2 - 24 ≤ body.length := by decide +kernel

theorem witness_HoldAndReleaseServed :
    (∀ k ∈ [8, 9], let s := out .bodyRead 8 (serving k 4 (.body 8) live)
      Outstanding .bodyRead 8 s ∧ s.order.service.map (·.stage) = some (.body 8)
        ∧ field (header k 4) 0x08 2 = k ∧ ∀ c, GuardOk (s.cell c))
    ∧ (∀ c : CellNo, (0xFF000000 : Word).getLsbD c.val = false) ∧ (0x800000 : Word).getLsbD 23 = true
    ∧ (0x86 : Byte) &&& 0x79 = 0 ∧ (0x87 : Byte) &&& 0x79 ≠ 0 := by decide +kernel

theorem witness_ConfigureCellsServed :
    let s := out .bodyRead 32 (serving 7 7 (.body 32) live)
    Outstanding .bodyRead 32 s ∧ s.order.service.map (·.stage) = some (.body 32) ∧ field (header 7 7) 0x08 2 = 7
      ∧ (let body (groups rate : Nat) (sites w : Nat) : List Byte :=
          leBytes 4 0x400 ++ leBytes 1 1 ++ leBytes 1 groups ++ leBytes 1 rate ++ leBytes 1 8 ++ leBytes 2 sites
            ++ leBytes 2 2000 ++ leBytes 2 w ++ leBytes 2 16 ++ leBytes 8 0 ++ leBytes 8 0
        (body 15 7 1 16).length = 32 ∧ field (body 15 7 1 16) 6 1 ≤ 7 ∧ field (body 15 8 1 16) 6 1 = 8
          ∧ field (body 15 7 0 16) 8 2 = 0 ∧ field (body 15 7 1 17) 0x0C 2 = 17
          ∧ field (body 15 7 1 128) 0x0C 2 = 128) := by decide +kernel

/-- The lines the clauses of a CONFIGURE_CELLS tell apart: out of service with no message or the final one going, and in
service with one going, RUNNING and FAULTED; and a touchdown open, its queue with room and full. -/
theorem witness_ConfigureCellsServed_lines :
    (∀ eng ∈ [EngineState.running, .faulted], ∀ l ∈ [LineState.offline, .online, .quarantined],
      ∀ tx ∈ [Transmitter.silent, .idle, .sending true 3 []],
        let s := (out .bodyRead 32 (serving 7 7 (.body 32) (lined l (part eng)))).modLine 10 fun x => { x with tx := tx }
        Outstanding .bodyRead 32 s ∧ (s.cell 10).line.state = l ∧ (s.cell 10).line.tx = tx ∧ (s.cell 10).guard.w = 32
          ∧ (s.cell 10).line.rate.val ≠ 7)
    ∧ ∀ s ∈ [opened live, filled (opened live)], let s := out .bodyRead 32 (serving 7 7 (.body 32) s)
      Outstanding .bodyRead 32 s ∧ ∃ td ∈ (s.cell 10).asm.touchdown, td.reports ≠ [] := by decide +kernel

/-- Nothing waits for the port, so what waits is in its place. -/
theorem placed_of_none {s : State} (h : s.port.waiting = Waiting.none) : Placed s := by
  intro r
  rw [h]
  cases r <;> exact List.mem_cons_self

theorem witness_RecordsAndAnswersWritten_draining :
    let s := out .stateWrite 4 (part .draining)
    OutstandingFor .stateWrite s ∧ s.engine.state = .draining ∧ Placed s :=
  ⟨by decide +kernel, by decide +kernel, placed_of_none (by decide +kernel)⟩

theorem witness_RecordsAndAnswersWritten :
    let s := out .bodyRead 16 (serving 10 5 (.body 16) live)
    let w (n : Nat) : RecordWrite := ⟨0x40, List.replicate n 0, n⟩
    let c (n : Nat) : State := out .cellRecordWrite 64 (serving 10 5 (.cellRecord (w n) 2) live)
    Outstanding .bodyRead 16 s ∧ s.order.service.map (·.stage) = some (.body 16) ∧ field (header 10 5) 0x08 2 = 10
      ∧ OutstandingFor .cellRecordWrite (c 64) ∧ (c 64).order.service.map (·.stage) = some (.cellRecord (w 64) 2)
      ∧ (w 64).after.rest = [] ∧ (w 72).after.rest ≠ []
      ∧ (let a := { out .resultWrite 4 live with order := { live.order with outcome := some (.done 2) } }
        OutstandingFor .resultWrite a ∧ a.order.outcome = some (.done 2))
      ∧ OutstandingFor .stateWrite (out .stateWrite 4 live) := by decide +kernel

theorem witness_LinkFollowedOrPolled :
    Outstanding .linkRead 8 (out .linkRead 8 live) ∧ live.engine.state = .running
      ∧ (8 : Addr) ≠ 0 ∧ (8 : Addr).toNat % 8 = 0 ∧ (12 : Addr).toNat % 8 ≠ 0
      ∧ (out .linkRead 8 (part .draining)).engine.state = .draining
      ∧ OutstandingFor .positionWrite (out .positionWrite 8 live) ∧ live.order.gathered = []
      ∧ (let s := { live with order := { live.order with phase := .link, pollTimer := some 0 } }
        s.order.phase = .link ∧ expired s.clock s.order.pollTimer = true ∧ portBusy .orderUnit s = false) := by
  decide +kernel

/-! ## Witnesses: notices and invariants -/

def key : NoticeKey := ⟨.cellRestart, .cell 3⟩

def entry (k : NoticeKey) : Pending := .entry ⟨k, 65535, 0, 0, .cellRestart, 0⟩

/-- A table with 64 ordinary entries. -/
def fullTable : List Pending := (List.range 64).map fun n => entry ⟨.lotFloor, .lot 0 n⟩

theorem witness_OccurrencesPlaced :
    TableOk [entry key] ∧ TableOk fullTable ∧ TableOk (fullTable ++ [.overflow ⟨1, 0, 0, key, key⟩])
      ∧ some key ∉ tableKeys fullTable ∧ ordinaryCount fullTable = 64 ∧ none ∉ tableKeys fullTable
      ∧ some key ∉ tableKeys [] ∧ ordinaryCount [] < 64
      ∧ some key ∉ tableKeys (fullTable ++ [.overflow ⟨1, 0, 0, key, key⟩])
      ∧ ordinaryCount (fullTable ++ [.overflow ⟨1, 0, 0, key, key⟩]) = 64 := by decide +kernel

theorem witness_NoticesPosted_layout :
    ∀ d ∈ [Detail.cellRestart, .touchdownLoss 9 1, .messageRefused .straySite 0xFF 9], d.kind = (⟨d.kind, .cell 3⟩ : NoticeKey).kind := by
  decide +kernel

theorem witness_NoticesPosted :
    live.engine.state = .running ∧ OutstandingFor .noticeWrite (out .noticeWrite 32 live)
      ∧ OutstandingFor .countWrite (out .countWrite 4 live) ∧ Outstanding .consumedRead 4 (out .consumedRead 4 live)
      ∧ live.notice.phase = .wait
      ∧ (let s := { live with notice := { live.notice with retry := some 0 } }
        expired s.clock s.notice.retry = true)
      ∧ (let s := opened (lined .online (part .draining))
        s.engine.state = .draining ∧ ¬NothingToDrain (portFree (out .noticeWrite 32 s))) := by decide +kernel

theorem witness_NoticesPosted_drained :
    let s (p : Purpose) (n : Nat) := out p n (part .draining)
    (s .noticeWrite 32).engine.state = .draining ∧ (∀ p n, Placed (s p n))
      ∧ NothingToDrain (portFree (s .noticeWrite 32)) ∧ OutstandingFor .noticeWrite (s .noticeWrite 32)
      ∧ NothingToDrain (portFree (s .countWrite 4)) ∧ OutstandingFor .countWrite (s .countWrite 4)
      ∧ NothingToDrain (portFree (s .consumedRead 4)) ∧ Outstanding .consumedRead 4 (s .consumedRead 4) :=
  ⟨by decide +kernel, fun _ _ => placed_of_none rfl, by decide +kernel⟩

theorem witness_EngineAndPortStaySettled :
    EngineOk live.engine ∧ Placed live ∧ Settled live ∧ ∃ t, step live = .next t :=
  ⟨by decide +kernel, fun r => by cases r <;> decide +kernel, by decide +kernel, step_next live⟩

/-- Two requests wait behind an abandoned setup read: the collation unit's turn comes first. -/
theorem witness_EngineAndPortStaySettled_rotation :
    let s := out .abandonedSetupRead 64 (part .halted)
    let w : Waiting := { Waiting.none with
      collation := some (readOf .mapRead 0x38 2), noticeUnit := some (readOf .consumedRead 0x90000 4) }
    let s' := { s with port := { s.port with waiting := w } }
    Outstanding .abandonedSetupRead 64 s' ∧ s'.engine.state = .halted ∧ s'.irq = s'.engine.interrupt
      ∧ s.port.waiting = Waiting.none ∧ (s'.port.waiting.get .collation).isSome = true
      ∧ (∀ q ∈ [Requester.orderUnit, .scanner, .noticeUnit], turn s'.port.last q < turn s'.port.last .collation →
          s'.port.waiting.get q = none)
      ∧ (after (exec (.lateResponse .abandonedSetupRead) s')).port.last = .collation := by decide +kernel

theorem witness_CatalogueStaysLegal : CatalogueOk (withLot lot live).coll ∧ ∃ t, step (withLot lot live) = .next t :=
  ⟨by decide +kernel, step_next _⟩

theorem witness_GuardsStayLegal : (∀ c, GuardOk (live.cell c)) ∧ ∃ t, step live = .next t :=
  ⟨by decide +kernel, step_next live⟩

theorem witness_AssemblersStayLegal :
    (∀ c, AssemblerOk ((opened live).cell c).asm ∧ BufferOk ((opened live).cell c))
      ∧ ∃ t, step (opened live) = .next t :=
  ⟨by decide +kernel, step_next _⟩

theorem transmitterOk_of {eng : EngineState} {lots : List Lot} {cs : CellState}
    (h : cs.line.tx = .silent ∧ cs.line.state = .offline ∨ cs.line.tx = .sending false 3 [] ∧ cs.line.state = .online) :
    TransmitterOk eng lots cs := by
  unfold TransmitterOk
  rcases h with ⟨h, h'⟩ | ⟨h, h'⟩ <;> rw [h]
  · exact h'
  · rw [h']; exact nofun

theorem live_lines : ∀ c,
    (ReceiverOk live.engine.state (live.cell c).line ∧ RateOk (live.cell c).line)
      ∧ ((live.cell c).line.tx = .silent ∧ (live.cell c).line.state = .offline
        ∨ (live.cell c).line.tx = .sending false 3 [] ∧ (live.cell c).line.state = .online) := by
  decide +kernel

theorem witness_LinesFollowTheirContent :
    (∀ c, ReceiverOk live.engine.state (live.cell c).line ∧ RateOk (live.cell c).line
        ∧ TransmitterOk live.engine.state live.coll.lots (live.cell c))
      ∧ ∃ t, step live = .next t :=
  ⟨fun c => ⟨(live_lines c).1.1, (live_lines c).1.2, transmitterOk_of (live_lines c).2⟩, step_next live⟩

/-- The part RUNNING while the notice unit writes a record. -/
def posting : State := out .noticeWrite 32 { live with notice := { live.notice with phase := .record } }

theorem posting_outstanding : posting.port.outstanding = some ⟨.noticeWrite, 0x1000, 32, []⟩ := by decide +kernel

theorem posting_waiting (r : Requester) : posting.port.waiting.get r = none := by cases r <;> decide +kernel

theorem witness_TransactionsStayPlaced : PortOk posting ∧ ∃ t, step posting = .next t :=
  ⟨⟨by decide +kernel, by decide +kernel, fun r => by rw [posting_waiting]; intro t h; exact nomatch h⟩, step_next _⟩

theorem witness_NoticeListNeverOverrun :
    TableOk posting.notice.table ∧ NoticeOk posting ∧ Placed posting ∧ ∃ t, step posting = .next t := by
  refine ⟨by decide +kernel, ⟨by decide +kernel, by decide +kernel, ?_⟩, fun r => ?_, step_next _⟩
  · rintro t (h | ⟨r, h⟩)
    · rw [posting_outstanding] at h
      obtain rfl := Option.some.inj h
      exact fun _ => by decide +kernel
    · rw [posting_waiting] at h
      exact nomatch h
  · rw [posting_waiting]
    exact List.mem_cons_self

end Sys2Proof.Tests
end

