-- ==== Sys2Proof/Proofs/YieldGuards.lean ====
section
/-! SUPPORT. The run count and the run check of the yield guards (R91, R94): what a site of a guard reads after each of
the guard's updates, what an outcome does to a run count, a site after a row of FAILs, and the two statements these
settle. -/

namespace Sys2Proof.Machine

/-! ## What a site reads after an update of its guard -/

@[simp] theorem site_setSite (g : Guard) (s : Site) (v : SiteGuard) : (g.setSite s v).site s = v := by
  simp [Guard.site, Guard.setSite]

@[simp] theorem setSite_k (g : Guard) (s : Site) (v : SiteGuard) : (g.setSite s v).k = g.k := rfl

@[simp] theorem site_mapSites (g : Guard) (f : Site → SiteGuard → SiteGuard) (s : Site) :
    (g.mapSites f).site s = f s (g.site s) := by
  simp [Guard.site, Guard.mapSites]

@[simp] theorem site_cellFlag (g : Guard) (flag : Bool) (s : Site) :
    Guard.site { g with cellFlag := flag } s = g.site s := rfl

/-- A guard group with a new W empties and clears every site; with the same W it keeps each (R102). -/
theorem site_takeGroup (p : GuardGroup) (g : Guard) (s : Site) :
    (g.takeGroup p).site s = if p.w = g.w then g.site s else (g.site s).emptied.unflagged := by
  unfold Guard.takeGroup
  split
  · rfl
  · rw [site_cellFlag, site_mapSites]
    rfl

/-- A site that leaves the enabled set is emptied and cleared; every other site is kept (R103). -/
theorem site_takeSites (old new : Half) (g : Guard) (s : Site) :
    (g.takeSites old new).site s =
      if hasSite old s && !hasSite new s then (g.site s).emptied.unflagged else g.site s :=
  site_mapSites _ _ s

/-- A release clears the flags of the sites it names and empties the windows of its scope (R105, R107). -/
theorem site_release (b : ReleaseBody) (g : Guard) (s : Site) :
    (g.release b).site s =
      let q := if namesSiteGuard b.reasons && hasSite b.sites s then (g.site s).unflagged else g.site s
      if clearScope b s then q.emptied else q := by
  unfold Guard.release
  rw [site_cellFlag, site_mapSites]

/-- Each of the site's flags is set where its check is true and kept where it is false (R92). -/
theorem site_latch (g : Guard) (enabled : Half) (s : Site) :
    (g.latch enabled s).site s =
      { g.site s with
        runFlag := (g.site s).runFlag || g.runCheck s
        limitFlag := (g.site s).limitFlag || g.limitCheck s
        spreadFlag := (g.site s).spreadFlag || g.spreadCheck enabled s } :=
  site_setSite g s _

/-! ## Run counts (R91) -/

@[simp] theorem emptied_run (q : SiteGuard) : q.emptied.run = 0 := rfl

@[simp] theorem unflagged_run (q : SiteGuard) : q.unflagged.run = q.run := rfl

@[simp] theorem dropOldest_run (q : SiteGuard) : q.dropOldest.run = q.run := by
  unfold SiteGuard.dropOldest
  split <;> rfl

/-- The run count an outcome leaves depends on the run count alone, not on the window or its size. -/
@[simp] theorem join_run (w : Nat) (v : Verdict) (q : SiteGuard) : (q.join w v).run = nextRun q.run v := by
  unfold SiteGuard.join
  split
  · exact congrArg (nextRun · v) (dropOldest_run q)
  · rfl

/-! ## A site after a row of FAILs -/

/-- A site after n FAILs from reset, in a window of size w. -/
def afterFails (w n : Nat) : SiteGuard :=
  (List.replicate n Verdict.fail).foldl (fun q v => q.join w v) SiteGuard.reset

@[simp] theorem afterFails_zero (w : Nat) : afterFails w 0 = SiteGuard.reset := rfl

theorem afterFails_succ (w n : Nat) : afterFails w (n + 1) = (afterFails w n).join w .fail := by
  simp [afterFails, List.replicate_succ']

/-- The run count of n FAILs in a row, saturated at 255 whatever the window holds (R91). -/
theorem afterFails_run (w n : Nat) : (afterFails w n).run = min n 255 := by
  induction n with
  | zero => rfl
  | succ n ih =>
    rw [afterFails_succ, join_run, ih, nextRun]
    omega

/-- A FAIL that joins a window of k FAILs: one more of them, up to the window's size (R90). -/
theorem join_fail_of_all_fail {w k : Nat} {q : SiteGuard} (hw : 0 < w) (hk : k ≤ w)
    (hwin : q.window = List.replicate k .fail) (hcount : q.failCount = k) :
    (q.join w .fail).window = List.replicate (min (k + 1) w) .fail
      ∧ (q.join w .fail).failCount = min (k + 1) w := by
  by_cases hfull : w ≤ k
  · obtain ⟨j, rfl⟩ : ∃ j, k = j + 1 := ⟨k - 1, by omega⟩
    have hmin : min (j + 1 + 1) w = j + 1 := by omega
    rw [List.replicate_succ] at hwin
    simp [SiteGuard.join, SiteGuard.dropOldest, hfull, hwin, hcount, hmin, Verdict.fails, List.replicate_succ']
  · have hmin : min (k + 1) w = k + 1 := by omega
    simp [SiteGuard.join, hfull, hwin, hcount, hmin, Verdict.fails, List.replicate_succ']

/-- The window of n FAILs in a row holds them all until it is full, and its fail count counts them (R90). -/
theorem afterFails_window {w : Nat} (hw : 0 < w) (n : Nat) :
    (afterFails w n).window = List.replicate (min n w) .fail ∧ (afterFails w n).failCount = min n w := by
  induction n with
  | zero => simp [SiteGuard.reset]
  | succ n ih =>
    obtain ⟨hwin, hcount⟩ := ih
    have hmin : min (min n w + 1) w = min (n + 1) w := by omega
    rw [afterFails_succ, ← hmin]
    exact join_fail_of_all_fail hw (Nat.min_le_right n w) hwin hcount

/-! ## The run check and the notices of an evaluation (R92, R94) -/

theorem runCheck_iff (g : Guard) (s : Site) : g.runCheck s = true ↔ 0 < g.k ∧ g.k ≤ (g.site s).run := by
  simp [Guard.runCheck]

/-- The run check after n FAILs in a row from reset: K is above 0 and within both n and the saturated count. -/
theorem runCheck_afterFails (g : Guard) (s : Site) (w n : Nat) :
    (g.setSite s (afterFails w n)).runCheck s = true ↔ 0 < g.k ∧ g.k ≤ min n 255 := by
  rw [runCheck_iff, setSite_k, site_setSite, afterFails_run]

/-- One notice for each check that is true with its flag clear, in check order (R92). -/
theorem trips_kinds (g : Guard) (enabled : Half) (s : Site) :
    (g.trips enabled s).map Detail.kind =
      (if g.runCheck s = true ∧ (g.site s).runFlag = false then [NoticeKind.siteRun] else [])
        ++ (if g.limitCheck s = true ∧ (g.site s).limitFlag = false then [NoticeKind.siteLimit] else [])
        ++ (if g.spreadCheck enabled s = true ∧ (g.site s).spreadFlag = false then [NoticeKind.siteSpread] else [])
        ++ (if g.cellCheck enabled = true ∧ g.cellFlag = false then [NoticeKind.cellLimit] else []) := by
  simp [Guard.trips, apply_ite (List.map Detail.kind), Detail.kind]

/-- SITE_RUN is raised exactly when the run check is true and the site run flag is clear (R92, R94). -/
theorem siteRun_mem_trips_iff (g : Guard) (enabled : Half) (s : Site) :
    (∃ d ∈ g.trips enabled s, d.kind = .siteRun) ↔ g.runCheck s = true ∧ (g.site s).runFlag = false := by
  rw [← List.mem_map, trips_kinds]
  simp

/-! ## The statements -/

/-- Settles O31: each clause reads the run count off what the update makes of the site, and the row of 40 FAILs is the
case w = 16, n = 40 of `afterFails`. -/
theorem runCountFollowsOutcomes : Obligations.RunCountFollowsOutcomes := by
  refine ⟨fun w q => ⟨join_run w .fail q, join_run w .pass q, dropOldest_run q⟩, ?_, fun p g s => ?_,
    fun old new g s => ?_, fun b g s => ?_⟩
  · obtain ⟨hwin, hcount⟩ := afterFails_window (w := 16) (by decide) 40
    exact ⟨(congrArg List.length hwin).trans (List.length_replicate ..), hcount, afterFails_run 16 40⟩
  · rw [site_takeGroup, apply_ite SiteGuard.run, unflagged_run, emptied_run]
  · rw [site_takeSites, apply_ite SiteGuard.run, unflagged_run, emptied_run]
    simp
  · have hrun : (if namesSiteGuard b.reasons && hasSite b.sites s then (g.site s).unflagged else g.site s).run
        = (g.site s).run := by
      rw [apply_ite SiteGuard.run, unflagged_run, ite_self]
    rw [site_release, apply_ite SiteGuard.run, emptied_run, hrun]

/-- Settles O32: the check, the latch and the notice by their own laws; at K = 255 the check reads 255 ≤ min n 255, so
the saturated count still satisfies it. -/
theorem runCheckTrips : Obligations.RunCheckTrips := by
  refine ⟨fun g enabled s => ⟨runCheck_iff g s, ?_, siteRun_mem_trips_iff g enabled s⟩, fun g s n => ?_⟩
  · rw [site_latch]
  · have hcheck : (g.setSite s (afterFails g.w n)).runCheck s = true ↔ 0 < g.k ∧ g.k ≤ min n 255 :=
      runCheck_afterFails g s g.w n
    refine ⟨fun hk => hcheck.trans ?_, fun hk => hcheck.trans ?_⟩ <;> omega

end Sys2Proof.Machine
end

