-- ==== Sys2Proof/Proofs/Interrupt.lean ====
section
/-! SUPPORT. The interrupt along every step (R169): what a command and the choice among due events can do, the level the
engine's flags and enables give, and the statement these settle. -/

namespace Sys2Proof.Machine

/-! ## What a command and the choice among due events can do -/

/-- Every command concludes an effect: the CONTROL and STATUS writes and the two reset lines always have one, every other
command has one where its event arises. -/
theorem exec_eq_conclude (i : Instr) (s : State) : ∃ effect, exec i s = conclude s effect := by
  cases i with
  | init | start | stop | reset | nudge | setEnables | clearLoadDone | clearNotice | powerOnReset | busReset =>
    exact ⟨some _, rfl⟩
  | _ => exact ⟨_, rfl⟩

/-- A command changes nothing, or ends as every event does. -/
theorem exec_cases {i : Instr} {s t : State} (h : exec i s = .next t) : t = s ∨ ∃ s', t = settle s s' := by
  obtain ⟨effect, he⟩ := exec_eq_conclude i s
  rw [he] at h
  cases effect with
  | none => exact .inl (Host.Outcome.next.inj h).symm
  | some s' => exact .inr ⟨s', (Host.Outcome.next.inj h).symm⟩

/-- Choosing among due events uses up races and changes nothing else. -/
theorem pickEvent_sameButRaces (is : List Instr) (s : State) : SameButRaces s (pickEvent is s).2 := by
  fun_induction pickEvent is s with
  | case1 s => exact ⟨s.races, s.raceCount, rfl⟩
  | case2 i s => exact ⟨s.races, s.raceCount, rfl⟩
  | case3 i is s _ s' hrace =>
    have hs' := takeRace_sameButRaces s
    rwa [hrace] at hs'
  | case4 i is s _ s' hrace ih =>
    have hs' := takeRace_sameButRaces s
    rw [hrace] at hs'
    exact hs'.trans ih

/-! ## The interrupt's level (R169) -/

theorem interrupt_iff (e : Engine) :
    e.interrupt = true ↔
      (e.notice = true ∧ e.noticeIE = true)
        ∨ (e.loadDone = true ∧ e.loadIE = true) ∨ (e.fault = true ∧ e.faultIE = true) := by
  simp [Engine.interrupt, or_assoc]

/-- The interrupt stands at the level of its flags and enables. -/
def InterruptFollows (s : State) : Prop := s.irq = s.engine.interrupt

theorem interruptFollows_iff (s : State) :
    InterruptFollows s ↔
      (s.irq = true ↔ (s.engine.notice = true ∧ s.engine.noticeIE = true)
        ∨ (s.engine.loadDone = true ∧ s.engine.loadIE = true)
        ∨ (s.engine.fault = true ∧ s.engine.faultIE = true)) := by
  rw [← interrupt_iff]
  exact Bool.eq_iff_iff

theorem interruptFollows_of_sameButRaces {s t : State} (hst : SameButRaces s t) (hs : InterruptFollows s) :
    InterruptFollows t := by
  obtain ⟨rs, n, rfl⟩ := hst
  exact hs

theorem exec_keeps_interruptFollows {i : Instr} {s t : State} (hs : InterruptFollows s) (h : exec i s = .next t) :
    InterruptFollows t := by
  obtain rfl | ⟨s', rfl⟩ := exec_cases h
  · exact hs
  · exact settle_irq s s'

theorem idle_keeps_interruptFollows {s t : State} (hs : InterruptFollows s) (h : idle s = .next t) :
    InterruptFollows t := by
  have hpick := interruptFollows_of_sameButRaces (pickEvent_sameButRaces (dueEvents s) s) hs
  unfold idle at h
  split at h
  case h_1 i s' heq =>
    rw [heq] at hpick
    exact exec_keeps_interruptFollows hpick h
  case h_2 s' heq =>
    rw [heq] at hpick
    obtain rfl : tick s' = t := Host.Outcome.next.inj h
    exact hpick

theorem step_keeps_interruptFollows {s t : State} (hs : InterruptFollows s) (h : step s = .next t) :
    InterruptFollows t := by
  unfold step at h
  split at h
  case h_1 c rest _ => exact exec_keeps_interruptFollows (s := { s with pending := rest }) hs h
  case h_2 => exact idle_keeps_interruptFollows hs h

/-! ## The statement -/

/-- Settles O11: the invariant `InterruptFollows` kept by every step, and the reset values of the interrupt and of the
three enables. -/
theorem interruptFollowsFlags : Obligations.InterruptFollowsFlags := by
  refine ⟨fun s t hs hstep => ?_, fun _ _ => ⟨rfl, rfl, rfl, rfl⟩⟩
  rw [← interruptFollows_iff] at hs ⊢
  exact step_keeps_interruptFollows hs hstep

end Sys2Proof.Machine
end

