-- ==== Sys2Proof/Proofs/Effects.lean ====
section
/-! SUPPORT. What a command does before its event is settled, and what one step can be: a command on the part with its
queue moved on, an internal event, or a tick. -/

namespace Sys2Proof.Machine

/-- The effect of a command before the event is settled; none where its event does not arise. -/
def effectOf (i : Instr) (s : State) : Option State :=
  match i with
  | .init w => some (controlWrite (w ||| 0x01) s)
  | .start w => some (controlWrite (w ||| 0x02) s)
  | .stop w => some (controlWrite (w ||| 0x04) s)
  | .reset w => some (controlWrite (w ||| 0x08) s)
  | .nudge w => some (controlWrite (w ||| 0x10) s)
  | .setEnables w => some (controlWrite (w &&& ~~~0x1F) s)
  | .clearLoadDone w => some (statusWrite (w ||| 0x1000) s)
  | .clearNotice w => some (statusWrite (w ||| 0x2000) s)
  | .setupAddrWrite half value => setupAddrWrite half value s
  | .registerWriteIgnored offset value => registerWrite offset value s
  | .powerOnReset => some (resetPart .powerOn 0 s)
  | .busReset => some (resetPart .busReset 0 s)
  | .setupReadDone data => setupRead data s
  | .transactionErrorResponse => errorResponse s
  | .responseTimerExpiry => responseExpires s
  | .lateResponse which => lateResponse which s
  | .characterError c data parity stop => characterDone c data parity stop s
  | .typeError c b | .lengthError c b | .checkError c b | .byte c b => byteDone c b s
  | .gapError c => gapExpires c s
  | .qualityWindowEnd c => windowEnds c s
  | .openMsg c number declared => messageDone c (.openMsg number declared) s
  | .unitMsg c site key wafer x y bin attempt => messageDone c (.unitMsg site key wafer x y bin attempt) s
  | .closeMsg c number => messageDone c (.closeMsg number) s
  | .helloMsg c => messageDone c .helloMsg s
  | .silenceTimerExpiry c => silenceExpires c s
  | .holdStateSent c => messageSent c s
  | .collationTakeWork => takeWork s
  | .mapReadDone v => mapRead v s
  | .mapWriteDone => mapWritten s
  | .tallyRecordWriteDone => tallyWritten s
  | .graceTimerExpiry key => graceExpires key s
  | .scanReadDone data => scanData data s
  | .headerReadDone data => headerRead data s
  | .bodyReadDone data => bodyRead data s
  | .cellRecordWriteDone => cellRecordWritten s
  | .resultWordWriteDone => resultWritten s
  | .stateWriteDone => stateWritten s
  | .linkReadDone v => linkRead v s
  | .chainPositionWriteDone => positionWritten s
  | .pollTimerExpiry => pollExpires s
  | .noticeRecordWriteDone => recordWritten s
  | .countWriteDone => countWritten s
  | .consumedReadDone v => consumedRead v s
  | .retryTimerExpiry => retryExpires s
  | .fallingEdge c => edgeFalls c s
  | .startBitNoise c => startBitHigh c s
  | .takenWriteDone => takenWritten s

/-- Every command concludes its effect. -/
theorem exec_eq_conclude_effectOf (i : Instr) (s : State) : exec i s = conclude s (effectOf i s) := by
  cases i <;> rfl

/-- A command whose event arises ends as every event does. -/
theorem exec_of_effect {i : Instr} {s s' : State} (h : effectOf i s = some s') : exec i s = .next (settle s s') := by
  rw [exec_eq_conclude_effectOf, h]
  rfl

/-- A command whose event does not arise changes nothing. -/
theorem exec_of_no_effect {i : Instr} {s : State} (h : effectOf i s = none) : exec i s = .next s := by
  rw [exec_eq_conclude_effectOf, h]
  rfl

/-- What a command answers is judged on its settled effect. -/
theorem answers_of_effect {i : Instr} {s s' : State} {P : State → Prop} (h : effectOf i s = some s')
    (hP : P (settle s s')) : Answers i s P := ⟨_, exec_of_effect h, hP⟩

/-- A command changes nothing, or settles its effect. -/
theorem exec_inv {i : Instr} {s t : State} (h : exec i s = .next t) :
    t = s ∨ ∃ s', effectOf i s = some s' ∧ t = settle s s' := by
  cases he : effectOf i s with
  | none =>
    rw [exec_of_no_effect he] at h
    exact .inl (Host.Outcome.next.inj h).symm
  | some s' =>
    rw [exec_of_effect he] at h
    exact .inr ⟨s', rfl, (Host.Outcome.next.inj h).symm⟩

/-- Two states that differ in the queue of commands and the race fields at most. -/
abbrev SameButQueue (s t : State) : Prop :=
  ∃ q rs n, t = { s with pending := q, races := rs, raceCount := n }

/-- What one step can be: a command, or a tick, of a state that differs in the queue and the race fields at most. -/
theorem step_inv {s t : State} (h : step s = .next t) :
    ∃ u, SameButQueue s u ∧ (t = tick u ∨ ∃ i, exec i u = .next t) := by
  unfold step at h
  split at h
  case h_1 c rest _ => exact ⟨_, ⟨rest, s.races, s.raceCount, rfl⟩, .inr ⟨c, h⟩⟩
  case h_2 =>
    obtain ⟨rs, n, hpick⟩ := pickEvent_sameButRaces (dueEvents s) s
    unfold idle at h
    split at h
    case h_1 i u heq =>
      rw [heq] at hpick
      exact ⟨u, ⟨s.pending, rs, n, hpick⟩, .inr ⟨i, h⟩⟩
    case h_2 u heq =>
      rw [heq] at hpick
      exact ⟨u, ⟨s.pending, rs, n, hpick⟩, .inl (Host.Outcome.next.inj h).symm⟩

/-- A property that neither the queue, nor the race fields, nor a tick touches, and that every settled effect keeps, is
kept by every step. -/
theorem step_keeps {P : State → Prop} (hqueue : ∀ {s t}, SameButQueue s t → P s → P t)
    (htick : ∀ {s}, P s → P (tick s)) (heffect : ∀ {i s s'}, effectOf i s = some s' → P s → P (settle s s'))
    {s t : State} (hs : P s) (h : step s = .next t) : P t := by
  obtain ⟨u, hu, rfl | ⟨i, hi⟩⟩ := step_inv h
  · exact htick (hqueue hu hs)
  · obtain rfl | ⟨s', he, rfl⟩ := exec_inv hi
    · exact hqueue hu hs
    · exact heffect he (hqueue hu hs)

end Sys2Proof.Machine
end

