-- ==== Sys2Proof/Proofs/PortRules.lean ====
section
/-! SUPPORT. Where transactions stand in server memory (R140, R143, R144, R179): alignment and the 64-byte blocks, and what
asking the port for a transaction keeps. -/

namespace Sys2Proof.Machine

/-! ## Addresses (R143, R144, R179) -/

theorem aligned_iff (a : Addr) (n : Nat) : aligned a n = true ↔ a.toNat % n = 0 := by
  simp [aligned]

/-- An address a multiple on is as aligned as the one it started from; the wrap at 2^64 keeps powers of two. -/
theorem aligned_addrPlus {a : Addr} {n k : Nat} (hn : n ∣ 2 ^ 64) (h : aligned a n = true) (hk : n ∣ k) :
    aligned (addrPlus a k) n = true := by
  rw [aligned_iff] at h ⊢
  have ha : n ∣ a.toNat := Nat.dvd_of_mod_eq_zero h
  have hk' : n ∣ (BitVec.ofNat 64 k).toNat := by
    rw [BitVec.toNat_ofNat]
    exact (Nat.dvd_mod_iff hn).2 hk
  rw [BitVec.toNat_add]
  exact Nat.mod_eq_zero_of_dvd ((Nat.dvd_mod_iff hn).2 (Nat.dvd_add ha hk'))

theorem aligned_of_dvd {a : Addr} {m n : Nat} (hmn : m ∣ n) (h : aligned a n = true) : aligned a m = true := by
  rw [aligned_iff] at h ⊢
  exact Nat.mod_eq_zero_of_dvd (hmn.trans (Nat.dvd_of_mod_eq_zero h))

/-- An access no longer than its alignment, a divisor of 64, stays in its 64-byte block. -/
theorem transactionOk_of_aligned {t : Transaction} {n : Nat} (hn : n ∣ 64) (h : aligned t.addr n = true)
    (hl : t.length ≤ n) : TransactionOk t := by
  rw [aligned_iff] at h
  have hle : n ≤ 64 := Nat.le_of_dvd (by omega) hn
  refine ⟨hl.trans hle, ?_⟩
  obtain ⟨k, hk⟩ := hn
  have hd : n ∣ t.addr.toNat % 64 := (Nat.dvd_mod_iff ⟨k, hk⟩).2 (Nat.dvd_of_mod_eq_zero h)
  obtain ⟨j, hj⟩ := hd
  have hlt : t.addr.toNat % 64 < 64 := Nat.mod_lt _ (by omega)
  have hjk : j + 1 ≤ k := by
    by_contra hc
    have : n * k ≤ n * j := Nat.mul_le_mul_left n (by omega)
    omega
  have := Nat.mul_le_mul_left n hjk
  rw [Nat.mul_add, Nat.mul_one] at this
  omega

theorem chunk_le (a : Addr) (n : Nat) : chunk a n ≤ 64 ∧ a.toNat % 64 + chunk a n ≤ 64 := by
  have : a.toNat % 64 < 64 := Nat.mod_lt _ (by omega)
  unfold chunk
  omega

/-- A transaction no longer than its chunk stays in its 64-byte block (R15, R140, R144). -/
theorem transactionOk_of_chunk {t : Transaction} {n : Nat} (h : t.length ≤ chunk t.addr n) : TransactionOk t := by
  obtain ⟨h1, h2⟩ := chunk_le t.addr n
  exact ⟨by omega, by omega⟩

theorem transactionOk_readChunk (p : Purpose) (a : Addr) (n : Nat) : TransactionOk (readOf p a (chunk a n)) :=
  transactionOk_of_chunk (t := readOf p a (chunk a n)) le_rfl

theorem transactionOk_recordWrite (p : Purpose) (w : RecordWrite) : TransactionOk (w.write p) := by
  refine transactionOk_of_chunk (t := w.write p) (n := w.rest.length) ?_
  simp [RecordWrite.write, writeOf]

/-! ## What asking the port keeps -/

/-- Of the port only the waiting requests have moved, the queue of commands and the clock stay, and each stands in its own requester's place, well placed in
memory where the addresses held are aligned (R179). -/
structure Asks (s t : State) : Prop where
  pending : t.pending = s.pending
  clock : t.clock = s.clock
  outstanding : t.port.outstanding = s.port.outstanding
  timer : t.port.timer = s.port.timer
  last : t.port.last = s.port.last
  placed : Placed s → Placed t
  portOk : PortOk s → PortOk t

theorem Asks.refl (s : State) : Asks s s := ⟨rfl, rfl, rfl, rfl, rfl, id, id⟩

theorem Asks.trans {s t u : State} (h : Asks s t) (k : Asks t u) : Asks s u where
  pending := k.pending.trans h.pending
  clock := k.clock.trans h.clock
  outstanding := k.outstanding.trans h.outstanding
  timer := k.timer.trans h.timer
  last := k.last.trans h.last
  placed := k.placed ∘ h.placed
  portOk := k.portOk ∘ h.portOk

/-- The port is the same, and so are the addresses' alignments. -/
theorem Asks.of_port_eq {s t : State} (hport : t.port = s.port) (hclock : t.clock = s.clock)
    (haddr : AddressesOk s → AddressesOk t) (hpending : t.pending = s.pending := by rfl) : Asks s t where
  pending := hpending
  clock := hclock
  outstanding := by rw [hport]
  timer := by rw [hport]
  last := by rw [hport]
  placed := by unfold Placed; rw [hport]; exact id
  portOk h := by
    obtain ⟨ha, ho, hw⟩ := h
    refine ⟨haddr ha, ?_, ?_⟩
    · rw [hport]; exact ho
    · rw [hport]; exact hw

/-- The addresses held are the same, and so are their alignments. -/
theorem addressesOk_congr {s t : State} (hsetup : t.engine.setup = s.engine.setup)
    (hpos : t.order.position = s.order.position)
    (hserv : t.order.service.map (·.record) = s.order.service.map (·.record))
    (hlots : t.coll.lots = s.coll.lots) (h : AddressesOk s) : AddressesOk t := by
  have hload : t.loadedSetup = s.loadedSetup := by unfold State.loadedSetup; rw [hsetup]
  obtain ⟨h1, h2, h3, h4, h5, h6, h7⟩ := h
  refine ⟨by rw [hload]; exact h1, by rw [hload]; exact h2, by rw [hload]; exact h3, by rw [hload]; exact h4,
    by rw [hpos]; exact h5, fun v hv => ?_, by rw [hlots]; exact h7⟩
  have hm : v.record ∈ s.order.service.map (·.record) := by
    rw [← hserv]
    exact Option.mem_map_of_mem _ hv
  obtain ⟨u, hu, he⟩ := Option.mem_map.1 hm
  rw [← he]
  exact h6 u hu

/-- A request of the port, well placed in memory. -/
theorem asks_portRequest (tr : Transaction) (s : State) (h : PortOk s → TransactionOk tr) : Asks s (portRequest tr s) where
  pending := rfl
  clock := rfl
  outstanding := rfl
  timer := rfl
  last := rfl
  placed hp r := by
    by_cases hr : r = tr.purpose.requester
    · subst hr
      simp
    · have := hp r
      unfold portRequest
      dsimp only
      rwa [waiting_put_get_ne _ _ hr]
  portOk hp := by
    refine ⟨hp.1, hp.2.1, fun r t ht => ?_⟩
    by_cases hr : r = tr.purpose.requester
    · subst hr
      rw [portRequest_waiting] at ht
      obtain rfl := Option.mem_some.1 ht
      exact h hp
    · unfold portRequest at ht
      dsimp only at ht
      rw [waiting_put_get_ne _ _ hr] at ht
      exact hp.2.2 r t ht

/-- The notice unit's own items do not touch the port. -/
theorem asks_notice (s : State) (n : NoticeUnit) : Asks s { s with notice := n } := Asks.of_port_eq rfl rfl id

@[simp] theorem length_padTo (n : Nat) (bs : List Byte) : (padTo n bs).length = n := by
  simp [padTo]

@[simp] theorem length_record (p : Post) : p.record.length = 32 := by
  unfold Post.record
  exact length_padTo _ _

theorem postWrite_ok {p : Post} {s : State} (h : AddressesOk s) : TransactionOk (postWrite p s) := by
  refine transactionOk_of_aligned (n := 32) (by decide) ?_ ?_
  · exact aligned_addrPlus (by decide) h.2.1 (Nat.dvd_mul_right _ _)
  · simp [postWrite, writeOf]

theorem countWrite_ok {s : State} (h : AddressesOk s) : TransactionOk (countWrite s) := by
  refine transactionOk_of_aligned (n := 8) (by decide) ?_ ?_
  · exact aligned_addrPlus (by decide) h.2.2.2.1 (by decide)
  · simp [countWrite, writeOf]

theorem consumedRead_ok {s : State} (h : AddressesOk s) :
    TransactionOk (readOf .consumedRead s.loadedSetup.consumedAddr 4) :=
  transactionOk_of_aligned (n := 4) (by decide) h.2.2.1 le_rfl

theorem asks_readConsumed (s : State) : Asks s (readConsumed s) :=
  (asks_notice s _).trans (asks_portRequest _ _ fun h => consumedRead_ok h.1)

theorem asks_judgeRoom (s : State) : Asks s (judgeRoom s) := by
  unfold judgeRoom
  split
  · exact Asks.refl s
  · split
    · exact (asks_notice s _).trans (asks_portRequest _ _ fun h => postWrite_ok (s := s) h.1)
    · exact asks_readConsumed s

theorem asks_noticePump (s : State) : Asks s (noticePump s) := by
  unfold noticePump
  split
  · exact asks_judgeRoom s
  · exact Asks.refl s

theorem asks_raise (subject : Subject) (d : Detail) (s : State) : Asks s (raise subject d s) :=
  (asks_notice s _).trans (asks_noticePump _)

end Sys2Proof.Machine
end

