-- ==== Sys2Proof/Proofs/NoticeRules.lean ====
section
/-! SUPPORT. What the notice unit makes of the occurrences of one event (R158, R160 to R162): the unit after an occurrence
as a function of the unit before, and where an occurrence stands when the event has ended. -/

namespace Sys2Proof.Machine

/-- An occurrence: its subject and its detail. -/
abbrev Occurrence := Subject × Detail

/-- The key of an occurrence (R158). -/
abbrev Occurrence.key (x : Occurrence) : NoticeKey := ⟨x.2.kind, x.1⟩

/-- The notice unit after room has been judged for the head entry in IDLE (R162). -/
def NoticeUnit.pumped (slots : Nat) (n : NoticeUnit) : NoticeUnit :=
  match n.table with
  | [] => n
  | e :: rest =>
    if (n.written - n.consumed).toNat < slots then { n with table := rest, post := some ⟨e, n.written⟩, phase := .record }
    else { n with phase := .room, retry := none }

/-- The notice unit after an occurrence has arrived (R158, R160 to R162). -/
def NoticeUnit.raised (runs : Bool) (slots : Nat) (now : Time) (n : NoticeUnit) (x : Occurrence) : NoticeUnit :=
  let n' := { n with table := addOccurrence now x.key x.2 n.table }
  if n.phase = .idle ∧ runs then n'.pumped slots else n'

theorem judgeRoom_notice (s : State) : (judgeRoom s).notice = s.notice.pumped s.loadedSetup.slots := by
  unfold judgeRoom NoticeUnit.pumped
  cases ht : s.notice.table with
  | nil => rfl
  | cons e rest =>
    simp only [noticeRoom, decide_eq_true_eq]
    split
    · rfl
    · simp only [readConsumed, portRequest, ht]

theorem raise_notice (subject : Subject) (d : Detail) (s : State) :
    (raise subject d s).notice = s.notice.raised (noticeRuns s) s.loadedSetup.slots s.clock (subject, d) := by
  unfold raise noticePump NoticeUnit.raised
  dsimp only
  split
  · rename_i h
    rw [judgeRoom_notice]
    exact (if_pos h).symm
  · rename_i h
    exact (if_neg h).symm

/-! ## The occurrences of a change -/

/-- Of the notice unit a change has brought these occurrences, in this order, and nothing else; engine control and the
clock have stayed. -/
structure Tells (ds : List Occurrence) (s t : State) : Prop where
  engine : t.engine = s.engine
  clock : t.clock = s.clock
  notice : t.notice = ds.foldl (NoticeUnit.raised (noticeRuns s) s.loadedSetup.slots s.clock) s.notice

theorem loadedSetup_congr {s t : State} (h : t.engine = s.engine) : t.loadedSetup = s.loadedSetup := by
  unfold State.loadedSetup
  rw [h]

theorem noticeRuns_congr {s t : State} (h : t.engine = s.engine) : noticeRuns t = noticeRuns s := by
  unfold noticeRuns
  rw [h]

theorem Tells.trans {ds es : List Occurrence} {s t u : State} (h : Tells ds s t) (k : Tells es t u) :
    Tells (ds ++ es) s u where
  engine := k.engine.trans h.engine
  clock := k.clock.trans h.clock
  notice := by
    rw [k.notice, h.notice, List.foldl_append, loadedSetup_congr h.engine, noticeRuns_congr h.engine, h.clock]

theorem Tells.of_eq {s t : State} (hengine : t.engine = s.engine) (hclock : t.clock = s.clock)
    (hnotice : t.notice = s.notice) : Tells [] s t := ⟨hengine, hclock, hnotice⟩

theorem Tells.refl (s : State) : Tells [] s s := ⟨rfl, rfl, rfl⟩

theorem tells_raise (subject : Subject) (d : Detail) (s : State) : Tells [(subject, d)] s (raise subject d s) :=
  ⟨raise_engine _ _ _, raise_clock _ _ _, raise_notice _ _ _⟩

/-! ## Where an occurrence stands (R160, R161) -/

/-- Some entry of the pending table, or the one in the post, is as p says. -/
def NoticeUnit.shows (p : Pending → Bool) (n : NoticeUnit) : Bool := n.table.any p || n.post.any fun q => p q.content

/-- The unit is not about to begin a post. -/
def NoticeUnit.Busy (runs : Bool) (n : NoticeUnit) : Prop := ¬(n.phase = .idle ∧ runs = true)

/-- An occurrence that has found its place shows as the latest of its key. -/
theorem any_addOccurrence (now : Time) (k : NoticeKey) (d : Detail) (table : List Pending) :
    (addOccurrence now k d table).any (isOccurrence k d now) = true := by
  unfold addOccurrence
  split
  · rename_i hkey
    obtain ⟨p, hp, he⟩ := List.any_eq_true.1 hkey
    cases p with
    | overflow o => cases he
    | entry e =>
      have hk : e.key = k := by simpa using he
      refine List.any_eq_true.2 ⟨_, List.mem_map_of_mem hp, ?_⟩
      simp [hk, isOccurrence, Entry.coalesce]
  · split
    · simp [isOccurrence]
    · split
      · rename_i hover
        obtain ⟨p, hp, he⟩ := List.any_eq_true.1 hover
        cases p with
        | entry e => cases he
        | overflow o =>
          refine List.any_eq_true.2 ⟨_, List.mem_map_of_mem hp, ?_⟩
          simp [isOccurrence, Overflow.add]
      · simp [isOccurrence]

theorem addOccurrence_ne_nil (now : Time) (k : NoticeKey) (d : Detail) (table : List Pending) :
    addOccurrence now k d table ≠ [] := by
  intro h
  have := any_addOccurrence now k d table
  rw [h] at this
  cases this

/-- An occurrence of another key leaves every noted occurrence noted. -/
theorem any_addOccurrence_of_ne {now : Time} {k k' : NoticeKey} {d d' : Detail} {table : List Pending} (hne : k' ≠ k)
    (h : table.any (isNoted k d now) = true) : (addOccurrence now k' d' table).any (isNoted k d now) = true := by
  obtain ⟨p, hp, he⟩ := List.any_eq_true.1 h
  unfold addOccurrence
  split
  · refine List.any_eq_true.2 ⟨_, List.mem_map_of_mem hp, ?_⟩
    cases p with
    | overflow o => exact he
    | entry e =>
      have hk : e.key ≠ k' := by
        simp only [isNoted, Bool.and_eq_true, beq_iff_eq] at he
        rw [he.1.1]
        exact hne.symm
      simpa [hk] using he
  · split
    · exact List.any_eq_true.2 ⟨p, List.mem_append_left _ hp, he⟩
    · split
      · refine List.any_eq_true.2 ⟨_, List.mem_map_of_mem hp, ?_⟩
        cases p with
        | entry e => exact he
        | overflow o => simp [isNoted, Overflow.add]
      · exact List.any_eq_true.2 ⟨p, List.mem_append_left _ hp, he⟩

theorem isNoted_of_isOccurrence {k : NoticeKey} {d : Detail} {now : Time} {p : Pending}
    (h : isOccurrence k d now p = true) : isNoted k d now p = true := by
  cases p with
  | entry e => exact h
  | overflow o =>
    simp only [isOccurrence, Bool.and_eq_true] at h
    exact h.2

theorem shows_mono {p q : Pending → Bool} (hpq : ∀ x, p x = true → q x = true) {n : NoticeUnit}
    (h : n.shows p = true) : n.shows q = true := by
  unfold NoticeUnit.shows at h ⊢
  rw [Bool.or_eq_true] at h ⊢
  rcases h with h | h
  · obtain ⟨x, hx, hp⟩ := List.any_eq_true.1 h
    exact .inl (List.any_eq_true.2 ⟨x, hx, hpq x hp⟩)
  · cases hpost : n.post with
    | none => simp [hpost] at h
    | some c =>
      rw [hpost, Option.any_some] at h
      exact .inr (by simpa using hpq _ h)

/-- Judging room moves the head entry into the post and loses no entry. -/
theorem shows_pumped {p : Pending → Bool} {slots : Nat} {n : NoticeUnit} (h : n.table.any p = true) :
    (n.pumped slots).shows p = true := by
  unfold NoticeUnit.pumped NoticeUnit.shows
  cases ht : n.table with
  | nil =>
    rw [ht] at h
    cases h
  | cons e rest =>
    rw [ht, List.any_cons, Bool.or_eq_true] at h
    dsimp only
    split
    · rw [Bool.or_eq_true]
      rcases h with h | h
      · exact .inr (by simpa using h)
      · exact .inl h
    · rw [Bool.or_eq_true, List.any_cons, Bool.or_eq_true]
      exact .inl h

theorem busy_pumped {runs : Bool} {slots : Nat} {n : NoticeUnit} (h : n.table ≠ []) :
    (n.pumped slots).Busy runs := by
  unfold NoticeUnit.pumped NoticeUnit.Busy
  cases ht : n.table with
  | nil => exact absurd ht h
  | cons e rest =>
    dsimp only
    split <;> simp

/-- After an occurrence the unit is under way, or may not issue. -/
theorem busy_raised (runs : Bool) (slots : Nat) (now : Time) (n : NoticeUnit) (x : Occurrence) :
    (n.raised runs slots now x).Busy runs := by
  unfold NoticeUnit.raised
  dsimp only
  split
  · exact busy_pumped (addOccurrence_ne_nil _ _ _ _)
  · rename_i h
    exact h

theorem raised_of_busy {runs : Bool} {slots : Nat} {now : Time} {n : NoticeUnit} {x : Occurrence} (h : n.Busy runs) :
    n.raised runs slots now x = { n with table := addOccurrence now x.key x.2 n.table } := if_neg h

theorem shows_raised (runs : Bool) (slots : Nat) (now : Time) (n : NoticeUnit) (x : Occurrence) :
    (n.raised runs slots now x).shows (isOccurrence x.key x.2 now) = true := by
  have h := any_addOccurrence now x.key x.2 n.table
  unfold NoticeUnit.raised
  dsimp only
  split
  · exact shows_pumped h
  · simp [NoticeUnit.shows, h]

/-- A noted occurrence stays noted through one of another key, once the unit is under way. -/
theorem shows_raised_of_ne {runs : Bool} {slots : Nat} {now : Time} {n : NoticeUnit} {x : Occurrence} {k : NoticeKey}
    {d : Detail} (hne : x.key ≠ k) (hb : n.Busy runs) (h : n.shows (isNoted k d now) = true) :
    (n.raised runs slots now x).shows (isNoted k d now) = true := by
  rw [raised_of_busy hb]
  unfold NoticeUnit.shows at h ⊢
  rw [Bool.or_eq_true] at h ⊢
  exact h.imp_left (any_addOccurrence_of_ne hne)

theorem shows_foldl {runs : Bool} {slots : Nat} {now : Time} {k : NoticeKey} {d : Detail} (ds : List Occurrence)
    (hne : ∀ x ∈ ds, x.key ≠ k) {n : NoticeUnit} (hb : n.Busy runs) (h : n.shows (isNoted k d now) = true) :
    (ds.foldl (NoticeUnit.raised runs slots now) n).shows (isNoted k d now) = true := by
  induction ds generalizing n with
  | nil => exact h
  | cons x ds ih =>
    exact ih (fun y hy => hne y (List.mem_cons_of_mem _ hy)) (busy_raised _ _ _ _ _)
      (shows_raised_of_ne (hne x List.mem_cons_self) hb h)

/-- Of occurrences with different keys each is noted when the event has ended. -/
theorem shows_of_mem {runs : Bool} {slots : Nat} {now : Time} {ds : List Occurrence}
    (hdiff : (ds.map Occurrence.key).Nodup) {x : Occurrence} (hx : x ∈ ds) (n : NoticeUnit) :
    (ds.foldl (NoticeUnit.raised runs slots now) n).shows (isNoted x.key x.2 now) = true := by
  obtain ⟨pre, post, rfl⟩ := List.append_of_mem hx
  rw [List.foldl_append, List.foldl_cons]
  refine shows_foldl post (fun y hy he => ?_) (busy_raised _ _ _ _ _)
    (shows_mono (fun _ => isNoted_of_isOccurrence) (shows_raised _ _ _ _ _))
  rw [List.map_append, List.map_cons, List.nodup_append] at hdiff
  obtain ⟨-, hpost, -⟩ := hdiff
  exact (List.nodup_cons.1 hpost).1 (he ▸ List.mem_map_of_mem hy)

theorem Tells.noted {ds : List Occurrence} {s t : State} (h : Tells ds s t) (hdiff : (ds.map Occurrence.key).Nodup)
    {subject : Subject} {d : Detail} (hx : (subject, d) ∈ ds) : Noted subject d s t := by
  have := shows_of_mem hdiff hx s.notice (runs := noticeRuns s) (slots := s.loadedSetup.slots) (now := s.clock)
  rw [← h.notice] at this
  exact this

/-- The last occurrence of an event stands as the latest of its key. -/
theorem Tells.raised {ds : List Occurrence} {s t : State} {subject : Subject} {d : Detail}
    (h : Tells (ds ++ [(subject, d)]) s t) : Raised subject d s t := by
  have hn := h.notice
  rw [List.foldl_append] at hn
  have := shows_raised (noticeRuns s) s.loadedSetup.slots s.clock
    (ds.foldl (NoticeUnit.raised (noticeRuns s) s.loadedSetup.slots s.clock) s.notice) (subject, d)
  rw [List.foldl_cons, List.foldl_nil] at hn
  rw [← hn] at this
  exact this

/-- The end of an event cancels the retry timer of a drain that completes, and touches nothing else of the unit. -/
theorem settle_notice (before s : State) : ∃ r, (settle before s).notice = { s.notice with retry := r } := by
  obtain ⟨p, rs, n, h⟩ := settle_frame before s
  rw [h]
  obtain ⟨-, hj⟩ | ⟨-, -, hj⟩ := judgeDrain_cases s <;> rw [hj]
  · exact ⟨s.notice.retry, rfl⟩
  · exact ⟨none, rfl⟩

theorem sameNotices_settle {s t : State} (before : State) (h : Tells [] s t) : SameNotices s (settle before t) := by
  obtain ⟨r, hr⟩ := settle_notice before t
  rw [SameNotices, hr, h.notice]
  exact ⟨rfl, rfl, rfl, rfl, rfl, rfl⟩

theorem noted_settle {subject : Subject} {d : Detail} {s t : State} (before : State) (h : Noted subject d s t) :
    Noted subject d s (settle before t) := by
  obtain ⟨r, hr⟩ := settle_notice before t
  unfold Noted
  rw [hr]
  exact h

theorem raised_settle {subject : Subject} {d : Detail} {s t : State} (before : State) (h : Raised subject d s t) :
    Raised subject d s (settle before t) := by
  obtain ⟨r, hr⟩ := settle_notice before t
  unfold Raised
  rw [hr]
  exact h

end Sys2Proof.Machine
end

