-- ==== Sys2Proof/Proofs/CellEffects.lean ====
section
/-! SUPPORT. What each event of a cell's line makes of its cell, as a function of the cell's column, and that it touches
the rest of the part through the notice unit alone, with which occurrences. -/

namespace Sys2Proof.Machine

/-- One cell's column is f of what it was, and these occurrences are raised; of the rest only the notice unit's own waiting
request may differ. -/
structure OnCell (c : CellNo) (f : CellState → CellState) (ds : List Occurrence) (s t : State) : Prop where
  keeps : Keeps [.port, .cells, .notice] s t
  others : KeepsCells c s t
  cell : t.cell c = f (s.cell c)
  asks : Asks s t
  tells : Tells ds s t
  waiting : ∀ r, r ≠ .noticeUnit → t.port.waiting.get r = s.port.waiting.get r
  busy : ∀ r, (s.port.waiting.get r).isSome = true → (t.port.waiting.get r).isSome = true

namespace OnCell

variable {c : CellNo} {f g : CellState → CellState} {ds es : List Occurrence} {s t u : State}

theorem engine_eq (h : OnCell c f ds s t) : t.engine = s.engine := h.keeps.1 (by simp)
theorem irq_eq (h : OnCell c f ds s t) : t.irq = s.irq := h.keeps.2.1 (by simp)
theorem clock_eq (h : OnCell c f ds s t) : t.clock = s.clock := h.keeps.2.2.1 (by simp)
theorem order_eq (h : OnCell c f ds s t) : t.order = s.order := h.keeps.2.2.2.2.1 (by simp)
theorem coll_eq (h : OnCell c f ds s t) : t.coll = s.coll := h.keeps.2.2.2.2.2.2.1 (by simp)
theorem scanner_eq (h : OnCell c f ds s t) : t.scanner = s.scanner := h.keeps.2.2.2.2.2.2.2.1 (by simp)
theorem pending_eq (h : OnCell c f ds s t) : t.pending = s.pending := h.keeps.2.2.2.2.2.2.2.2.2

theorem outstanding (h : OnCell c f ds s t) : t.port.outstanding = s.port.outstanding := h.asks.outstanding

theorem rfl_id (c : CellNo) (s : State) : OnCell c id [] s s :=
  ⟨Keeps.refl _ _, KeepsCells.refl _ _, rfl, Asks.refl s, Tells.refl s, fun _ _ => rfl, fun _ => id⟩

theorem trans (h : OnCell c f ds s t) (k : OnCell c g es t u) : OnCell c (g ∘ f) (ds ++ es) s u where
  keeps := h.keeps.trans k.keeps
  others := h.others.trans k.others
  cell := by rw [k.cell, h.cell]; rfl
  asks := h.asks.trans k.asks
  tells := h.tells.trans k.tells
  waiting r hr := (k.waiting r hr).trans (h.waiting r hr)
  busy r := k.busy r ∘ h.busy r

/-- The same move, its function and its occurrences given another form on the cell it met. -/
theorem congr (h : OnCell c f ds s t) (hfg : g (s.cell c) = f (s.cell c)) (hds : es = ds) : OnCell c g es s t :=
  { h with cell := h.cell.trans hfg.symm, tells := hds ▸ h.tells }

end OnCell

/-! ## The single updates -/

theorem onCell_modCell (c : CellNo) (f : CellState → CellState) (s : State) : OnCell c f [] s (s.modCell c f) where
  keeps := by simp [Keeps]
  others _ hd := cell_modCell_ne _ _ hd
  cell := cell_modCell _ _ _
  asks := Asks.of_port_eq rfl rfl id
  tells := Tells.of_eq rfl rfl rfl
  waiting _ _ := rfl
  busy _ := id

theorem onCell_modLine (c : CellNo) (f : Line → Line) (s : State) :
    OnCell c (fun cs => { cs with line := f cs.line }) [] s (s.modLine c f) := onCell_modCell _ _ _

theorem onCell_modAsm (c : CellNo) (f : Assembler → Assembler) (s : State) :
    OnCell c (fun cs => { cs with asm := f cs.asm }) [] s (s.modAsm c f) := onCell_modCell _ _ _

theorem onCell_refresh (c : CellNo) (s : State) : OnCell c (transmit s.engine.state s.coll.lots) [] s (refresh c s) :=
  onCell_modCell _ _ _

theorem busy_portRequest (tr : Transaction) (s : State) (r : Requester) (h : (s.port.waiting.get r).isSome = true) :
    ((portRequest tr s).port.waiting.get r).isSome = true := by
  unfold portRequest
  dsimp only
  by_cases hr : r = tr.purpose.requester
  · subst hr
    rw [waiting_put_get]
    rfl
  · rwa [waiting_put_get_ne _ _ hr]

/-- A notice withdraws no request. -/
theorem busy_raise (subject : Subject) (d : Detail) (s : State) (r : Requester)
    (h : (s.port.waiting.get r).isSome = true) : ((raise subject d s).port.waiting.get r).isSome = true := by
  unfold raise noticePump judgeRoom
  split
  · split
    · exact h
    · split
      · exact busy_portRequest _ _ r h
      · exact busy_portRequest _ _ r h
  · exact h

theorem onCell_raise (c : CellNo) (subject : Subject) (d : Detail) (s : State) : OnCell c id [(subject, d)] s (raise subject d s) where
  keeps := by simp [Keeps]
  others d _ := cell_raise _ _ _ d
  cell := cell_raise _ _ _ c
  asks := asks_raise _ _ _
  tells := tells_raise _ _ _
  waiting _ hr := raise_waiting_ne _ _ _ hr
  busy := busy_raise _ _ _

/-- The notice of a closed record's way to its queue (R55). -/
def queueNotices (c : CellNo) (t : Touchdown) (a : Assembler) : List Occurrence :=
  if t.reports ≠ [] ∧ 15 ≤ a.queue.length then [(.cell c, .touchdownLoss t.number t.reports.length)] else []

/-- The notices of a close, in their order (R54, R55). -/
def closeNotices (kind : CloseKind) (now : Time) (c : CellNo) (a : Assembler) : List Occurrence :=
  match a.touchdown with
  | none => []
  | some t =>
    (if (t.closed kind now).short then
      [(.cell c, .shortTouchdown t.number kind ((t.closed kind now).missing.getD 0) t.lost t.mismatch)] else [])
      ++ queueNotices c (t.closed kind now) a

/-- A closed record joins its queue, is dropped or is discarded (R55). -/
theorem onCell_queueClosed (c : CellNo) (t : Touchdown) (s : State) :
    OnCell c (CellState.queueRecord t) (queueNotices c t (s.cell c).asm) s (queueClosed c t s) := by
  unfold queueClosed
  split
  · rename_i hr
    exact (OnCell.rfl_id c s).congr (if_pos hr) (if_neg fun h => h.1 hr)
  · rename_i hr
    split
    · rename_i hq
      exact (onCell_modCell c _ s).congr (by simp only [CellState.queueRecord, if_neg hr, if_pos hq])
        (if_neg fun h => absurd hq (Nat.not_lt.2 h.2))
    · rename_i hq
      exact ((onCell_raise c _ _ s).trans (onCell_modCell c judgeBuffer _)).congr (by
        simp only [CellState.queueRecord, if_neg hr, if_neg hq]
        rfl) (if_pos ⟨hr, Nat.not_lt.1 hq⟩)

theorem onCell_closeTouchdown (kind : CloseKind) (c : CellNo) (s : State) :
    OnCell c (CellState.closeRecord kind s.clock) (closeNotices kind s.clock c (s.cell c).asm) s
      (closeTouchdown kind c s) := by
  unfold closeTouchdown
  split
  · rename_i htd
    exact (OnCell.rfl_id c s).congr (by simp [CellState.closeRecord, htd]) (by simp [closeNotices, htd])
  · rename_i t htd
    extract_lets t' s1 s2
    have hidle : OnCell c _ [] s s1 := onCell_modAsm c (fun a => { a with touchdown := none, silence := none }) s
    have hshort : OnCell c id (if t'.short then
        [(.cell c, .shortTouchdown t.number kind (t'.missing.getD 0) t.lost t.mismatch)] else []) s1 s2 := by
      by_cases h : t'.short
      · simp only [s2, if_pos h]
        exact onCell_raise c _ _ s1
      · simp only [s2, if_neg h]
        exact OnCell.rfl_id c s1
    exact ((hidle.trans hshort).trans (onCell_queueClosed c t' s2)).congr (by
      simp only [CellState.closeRecord, htd]
      rfl) (by
      simp only [closeNotices, htd, List.nil_append, queueNotices, hshort.cell, hidle.cell]
      rfl)

/-- A move followed by the line's look at its content. -/
theorem OnCell.refreshed {c : CellNo} {f : CellState → CellState} {s t : State} (h : OnCell c f ds s t) :
    OnCell c (transmit s.engine.state s.coll.lots ∘ f) ds s (refresh c t) := by
  have k := onCell_refresh c t
  rw [h.engine_eq, h.coll_eq] at k
  exact (h.trans k).congr rfl (List.append_nil ds).symm

/-! ## The assembler's messages (R46 to R52) -/

/-- An OPEN taken in IDLE, on its cell (R47). -/
def CellState.openIdle (eng : EngineState) (now : Time) (number declared : Half) (cs : CellState) : CellState :=
  if eng = .draining ∨ declared &&& cs.asm.enabled = 0 then cs
  else
    { cs with asm :=
      { cs.asm with
        touchdown := some (Touchdown.opened number (declared &&& cs.asm.enabled))
        silence := some (Time.plus now cs.asm.timeout) } }

/-- A UNIT that passes the checks, on its cell: stored, or lost (R50). -/
def CellState.storeReport (now : Time) (t : Touchdown) (r : Report) (cs : CellState) : CellState :=
  if cs.asm.slots < 64 then
    judgeBuffer { cs with asm :=
      { cs.asm with
        touchdown := some { t with reports := insertReport r t.reports, heard := t.heard ||| siteBit r.site }
        silence := some (Time.plus now cs.asm.timeout) } }
  else
    { cs with asm :=
      { cs.asm with touchdown := some { t with heard := t.heard ||| siteBit r.site, lost := t.lost + 1 } } }

/-- A UNIT on its cell (R49, R50). -/
def CellState.takeUnit (now : Time) (u : UnitFields) (cs : CellState) : CellState :=
  match cs.asm.touchdown with
  | none => cs
  | some t =>
    match checkUnit t u with
    | .error _ => cs
    | .ok r => cs.storeReport now t r

/-- A CLOSE's number meets the open touchdown's (R51). -/
def Assembler.compareNumber (number : Half) (a : Assembler) : Assembler :=
  { a with touchdown := a.touchdown.map fun t => { t with mismatch := t.mismatch || number != t.number } }

/-- The notice of a refused message (R46). -/
def refusal (code : Code) (site : Byte) (c : CellNo) (cs : CellState) : Occurrence :=
  (.cell c, .messageRefused code site (match cs.asm.touchdown with | some t => t.number | none => 0))

/-- The notice of an OPEN taken in IDLE (R47). -/
def openNotices (eng : EngineState) (declared : Half) (c : CellNo) (cs : CellState) : List Occurrence :=
  if eng = .draining then [refusal .draining noSiteByte c cs]
  else if declared &&& cs.asm.enabled = 0 then [refusal .emptyTouchdown noSiteByte c cs]
  else []

/-- The notice of a UNIT (R49, R50). -/
def unitNotices (u : UnitFields) (c : CellNo) (cs : CellState) : List Occurrence :=
  match cs.asm.touchdown with
  | none => [refusal .noTouchdown u.site c cs]
  | some t =>
    match checkUnit t u with
    | .error code => [refusal code u.site c cs]
    | .ok _ => if cs.asm.slots < 64 then [] else [(.cell c, .touchdownLoss t.number 1)]

/-- A message on the cell whose assembler takes it (R46). -/
def CellState.takeMessage (eng : EngineState) (now : Time) (m : Message) (cs : CellState) : CellState :=
  match m with
  | .openMsg number declared => (cs.closeRecord .superseded now).openIdle eng now number declared
  | .unitMsg site key wafer x y bin attempt => cs.takeUnit now ⟨site, key, wafer, x, y, bin, attempt⟩
  | .closeMsg number => ({ cs with asm := cs.asm.compareNumber number } : CellState).closeRecord .normal now
  | .helloMsg => cs.closeRecord .cellRestart now

/-- The notices of a message its assembler takes (R46 to R52). -/
def messageNotices (eng : EngineState) (now : Time) (m : Message) (c : CellNo) (cs : CellState) : List Occurrence :=
  match m with
  | .openMsg _ declared =>
    closeNotices .superseded now c cs.asm ++ openNotices eng declared c (cs.closeRecord .superseded now)
  | .unitMsg site key wafer x y bin attempt => unitNotices ⟨site, key, wafer, x, y, bin, attempt⟩ c cs
  | .closeMsg number => closeNotices .normal now c (cs.asm.compareNumber number)
  | .helloMsg => closeNotices .cellRestart now c cs.asm ++ [(.cell c, .cellRestart)]

theorem onCell_refuseMessage (code : Code) (site : Byte) (c : CellNo) (s : State) :
    OnCell c id [refusal code site c (s.cell c)] s (refuseMessage code site c s) := onCell_raise _ _ _ _

theorem onCell_openInIdle (c : CellNo) (number declared : Half) (s : State) :
    OnCell c (CellState.openIdle s.engine.state s.clock number declared)
      (openNotices s.engine.state declared c (s.cell c)) s (openInIdle c number declared s) := by
  unfold openInIdle
  extract_lets clamped
  split
  · rename_i hd
    exact (onCell_refuseMessage _ _ c s).congr (if_pos (.inl hd)) (if_pos hd)
  · rename_i hd
    split
    · rename_i hz
      exact (onCell_refuseMessage _ _ c s).congr (if_pos (.inr hz)) ((if_neg hd).trans (if_pos hz))
    · rename_i hz
      exact (onCell_modAsm c _ s).congr (if_neg (not_or.2 ⟨hd, hz⟩)) ((if_neg hd).trans (if_neg hz))

theorem onCell_storeUnit (c : CellNo) (t : Touchdown) (r : Report) (s : State) :
    OnCell c (CellState.storeReport s.clock t r)
      (if (s.cell c).asm.slots < 64 then [] else [(.cell c, .touchdownLoss t.number 1)]) s (storeUnit c t r s) := by
  unfold storeUnit
  split
  · rename_i h
    exact (onCell_modCell c _ s).congr (by simp [CellState.storeReport, h]) rfl
  · rename_i h
    exact ((onCell_modAsm c _ s).trans (onCell_raise c _ _ _)).congr (by simp [CellState.storeReport, h]) rfl

theorem onCell_takeUnit (c : CellNo) (u : UnitFields) (s : State) :
    OnCell c (CellState.takeUnit s.clock u) (unitNotices u c (s.cell c)) s (takeUnit c u s) := by
  unfold takeUnit
  split
  · rename_i h
    exact (onCell_refuseMessage _ _ c s).congr (by simp [CellState.takeUnit, h])
      (by simp only [unitNotices, h])
  · rename_i t h
    split
    · rename_i code hc
      exact (onCell_refuseMessage _ _ c s).congr (by simp [CellState.takeUnit, h, hc])
        (by simp only [unitNotices, h, hc])
    · rename_i r hc
      exact (onCell_storeUnit c t r s).congr (by simp [CellState.takeUnit, h, hc])
        (by simp only [unitNotices, h, hc])

theorem onCell_takeMessage (c : CellNo) (m : Message) (s : State) :
    OnCell c (CellState.takeMessage s.engine.state s.clock m)
      (messageNotices s.engine.state s.clock m c (s.cell c)) s (takeMessage c m s) := by
  cases m with
  | openMsg number declared =>
    have hclose := onCell_closeTouchdown .superseded c s
    have hopen := onCell_openInIdle c number declared (closeTouchdown .superseded c s)
    rw [hclose.engine_eq, hclose.clock_eq, hclose.cell] at hopen
    exact hclose.trans hopen
  | unitMsg site key wafer x y bin attempt => exact onCell_takeUnit c _ s
  | closeMsg number =>
    have hnumber := onCell_modAsm c (Assembler.compareNumber number) s
    have hclose := onCell_closeTouchdown .normal c (s.modAsm c (Assembler.compareNumber number))
    rw [cell_modAsm] at hclose
    exact hnumber.trans hclose
  | helloMsg => exact (onCell_closeTouchdown .cellRestart c s).trans (onCell_raise c _ _ _)

/-! ## Errors and messages on the line (R26 to R33) -/

/-- An error event on its cell, its threshold judged (R31 to R33, R59). -/
def CellState.countError (now : Time) (cs : CellState) : CellState :=
  let l : Line := { cs.line with decoder := .hunt, errors := min (cs.line.errors + 1) 255 }
  if l.reachesQ then
    ({ cs with line := { l with state := .quarantined, clean := 0 } } : CellState).closeRecord .quarantined now
  else { cs with line := l }

/-- The notices of an error event (R33, R59). -/
def errorNotices (kind : LineError) (now : Time) (c : CellNo) (cs : CellState) : List Occurrence :=
  let l : Line := { cs.line with errors := min (cs.line.errors + 1) 255 }
  if l.reachesQ then closeNotices .quarantined now c cs.asm ++ [(.cell c, .lineQuarantined l.errors kind)] else []

/-- A HELLO sets the forced send before the assembler hears of it (R29). -/
def CellState.force (m : Message) (cs : CellState) : CellState :=
  if m.type = .helloMsg then { cs with line := { cs.line with forced := true } } else cs

/-- A good message on its cell (R29). -/
def CellState.deliver (eng : EngineState) (now : Time) (m : Message) (cs : CellState) : CellState :=
  if cs.line.state = .online then (cs.force m).takeMessage eng now m else cs.force m

/-- The notices of a good message (R29). -/
def deliverNotices (eng : EngineState) (now : Time) (m : Message) (c : CellNo) (cs : CellState) : List Occurrence :=
  if cs.line.state = .online then messageNotices eng now m c (cs.force m) else []

/-- The notices of a byte (R27 to R29). -/
def byteNotices (eng : EngineState) (now : Time) (b : Byte) (c : CellNo) (cs : CellState) : List Occurrence :=
  match cs.line.decoder with
  | .type _ => match MsgType.ofByte b with | some _ => [] | none => errorNotices .type now c cs
  | .length _ ty => if b.toNat = ty.len then [] else errorNotices .length now c cs
  | .check _ ty sum bytes =>
    if sum + b = 0 then
      deliverNotices eng now (Message.ofPayload ty bytes) c { cs with line := { cs.line with decoder := .hunt } }
    else errorNotices .check now c cs
  | .hunt | .payload _ _ _ _ => []

/-- The decoder takes a byte, on its cell (R27 to R29). -/
def CellState.takeByte (eng : EngineState) (now : Time) (b : Byte) (cs : CellState) : CellState :=
  let decoder (d : Decoder) : CellState := { cs with line := { cs.line with decoder := d } }
  match cs.line.decoder with
  | .hunt => if b = 0xA5 then decoder (.type now) else cs
  | .type sync =>
    match MsgType.ofByte b with
    | some ty => decoder (.length sync ty)
    | none => cs.countError now
  | .length sync ty =>
    if b.toNat = ty.len then
      decoder (if ty.len = 0 then .check sync ty (ty.code + b) [] else .payload sync ty (ty.code + b) [])
    else cs.countError now
  | .payload sync ty sum bytes =>
    decoder (if (bytes ++ [b]).length < ty.len then .payload sync ty (sum + b) (bytes ++ [b])
      else .check sync ty (sum + b) (bytes ++ [b]))
  | .check _ ty sum bytes =>
    if sum + b = 0 then (decoder .hunt).deliver eng now (Message.ofPayload ty bytes) else cs.countError now

theorem onCell_quarantine (kind : LineError) (c : CellNo) (s : State) :
    OnCell c (fun cs => CellState.closeRecord .quarantined s.clock
      { cs with line := { cs.line with state := .quarantined, clean := 0 } })
      (closeNotices .quarantined s.clock c (s.cell c).asm ++ [(.cell c, .lineQuarantined (s.cell c).line.errors kind)]) s
      (quarantine kind c s) :=
  (((onCell_modLine c (fun l => { l with state := .quarantined, clean := 0 }) s).trans
    (onCell_closeTouchdown .quarantined c _)).trans (onCell_raise c _ _ _)).congr rfl (by simp)

theorem onCell_countError (kind : LineError) (c : CellNo) (s : State) :
    OnCell c (CellState.countError s.clock) (errorNotices kind s.clock c (s.cell c)) s (countError kind c s) := by
  unfold countError
  have hcount := onCell_modLine c (fun l => { l with decoder := .hunt, errors := min (l.errors + 1) 255 }) s
  simp only [cell_modLine]
  split
  · rename_i h
    exact (hcount.trans (onCell_quarantine kind c _)).congr (by simp [CellState.countError, h]) ((if_pos h).trans (by simp))
  · rename_i h
    exact hcount.congr (by simp [CellState.countError, h]) (if_neg h)

theorem onCell_deliver (c : CellNo) (m : Message) (s : State) :
    OnCell c (CellState.deliver s.engine.state s.clock m)
      (deliverNotices s.engine.state s.clock m c (s.cell c)) s (deliver c m s) := by
  unfold deliver
  extract_lets s1
  have hforced : OnCell c (CellState.force m) [] s s1 := by
    by_cases h : m.type = .helloMsg
    · simp only [s1, if_pos h]
      exact (onCell_modLine c (fun l => { l with forced := true }) s).congr (if_pos h) rfl
    · simp only [s1, if_neg h]
      exact (OnCell.rfl_id c s).congr (if_neg h) rfl
  split
  · rename_i h
    have htake := onCell_takeMessage c m s1
    rw [hforced.engine_eq, hforced.clock_eq, hforced.cell] at htake
    exact (hforced.trans htake).congr (if_pos h) (if_pos h)
  · rename_i h
    exact hforced.congr (if_neg h) (if_neg h)

theorem onCell_setDecoder (c : CellNo) (d : Decoder) (s : State) :
    OnCell c (fun cs => { cs with line := { cs.line with decoder := d } }) [] s (setDecoder c d s) :=
  onCell_modLine c (fun l => { l with decoder := d }) s

theorem onCell_takeByte (c : CellNo) (b : Byte) (s : State) :
    OnCell c (CellState.takeByte s.engine.state s.clock b)
      (byteNotices s.engine.state s.clock b c (s.cell c)) s (takeByte c b s) := by
  unfold takeByte byteNotices
  cases hd : (s.cell c).line.decoder with
  | hunt =>
    dsimp only
    split
    · rename_i h
      exact (onCell_setDecoder c _ s).congr (by simp [CellState.takeByte, hd, h]) rfl
    · rename_i h
      exact (OnCell.rfl_id c s).congr (by simp only [CellState.takeByte, hd, if_neg h, id]) rfl
  | type sync =>
    cases h : MsgType.ofByte b with
    | some ty => exact (onCell_setDecoder c _ s).congr (by simp [CellState.takeByte, hd, h]) rfl
    | none => exact (onCell_countError _ c s).congr (by simp [CellState.takeByte, hd, h]) rfl
  | length sync ty =>
    dsimp only
    split
    · rename_i h
      exact (onCell_setDecoder c _ s).congr (by simp [CellState.takeByte, hd, h]) rfl
    · rename_i h
      exact (onCell_countError _ c s).congr (by simp [CellState.takeByte, hd, h]) rfl
  | payload sync ty sum bytes => exact (onCell_setDecoder c _ s).congr (by simp [CellState.takeByte, hd]) rfl
  | check sync ty sum bytes =>
    dsimp only
    split
    · rename_i h
      exact ((onCell_setDecoder c .hunt s).trans (onCell_deliver c _ _)).congr (by
        simp [CellState.takeByte, hd, h, setDecoder]) (by simp [setDecoder])
    · rename_i h
      exact (onCell_countError _ c s).congr (by simp only [CellState.takeByte, hd, if_neg h]) rfl

/-! ## The events of a line (R23 to R34, R41, R53) -/

/-- A character that completes, on its cell (R24, R31). -/
def CellState.character (eng : EngineState) (now : Time) (data : Byte) (parity stop : Bool) (cs : CellState) : CellState :=
  let cs' : CellState := { cs with line := { cs.line with rx := .idle } }
  if !stop || !evenParity data parity then cs'.countError now else cs'.takeByte eng now data

/-- The notices of a character that completes (R24, R31). -/
def characterNotices (eng : EngineState) (now : Time) (data : Byte) (parity stop : Bool) (c : CellNo) (cs : CellState) :
    List Occurrence :=
  let cs' : CellState := { cs with line := { cs.line with rx := .idle } }
  if !stop then errorNotices .framing now c cs'
  else if !evenParity data parity then errorNotices .parity now c cs'
  else byteNotices eng now data c cs'

/-- A character's event: it arises while an active receiver times a character, and the line then looks at its content. -/
theorem characterDone_inv {c : CellNo} {data : Byte} {parity stop : Bool} {s t : State}
    (h : characterDone c data parity stop s = some t) :
    (receiverActive s.engine.state (s.cell c).line = true ∧ (s.cell c).line.rx = .character) ∧
      OnCell c (transmit s.engine.state s.coll.lots ∘ CellState.character s.engine.state s.clock data parity stop)
        (characterNotices s.engine.state s.clock data parity stop c (s.cell c)) s t := by
  unfold characterDone at h
  split at h
  case isFalse => cases h
  case isTrue hactive =>
    simp only [Bool.and_eq_true, beq_iff_eq] at hactive
    obtain rfl := Option.some.inj h
    refine ⟨hactive, OnCell.refreshed ?_⟩
    have hidle := onCell_modLine c (fun l => { l with rx := .idle }) s
    split
    · rename_i hstop
      exact (hidle.trans (onCell_countError _ c _)).congr (by simp [CellState.character, hstop])
        (by simp [characterNotices, hstop])
    · rename_i hstop
      split
      · rename_i hpar
        exact (hidle.trans (onCell_countError _ c _)).congr (by simp [CellState.character, hpar])
          (by simp [characterNotices, hstop, hpar])
      · rename_i hpar
        exact (hidle.trans (onCell_takeByte c data _)).congr (by simp [CellState.character, hstop, hpar])
          (by simp [characterNotices, hstop, hpar])

/-- A good message's event: by its CHECK byte or whole, delivered to a decoder and a receiver at rest (R29). -/
theorem messageDone_inv {c : CellNo} {m : Message} {s t : State} (h : messageDone c m s = some t) :
    receiverActive s.engine.state (s.cell c).line = true ∧
      OnCell c (fun cs => transmit s.engine.state s.coll.lots
        (({ cs with line := { cs.line with rx := .idle, decoder := .hunt } } : CellState).deliver s.engine.state s.clock m))
        (deliverNotices s.engine.state s.clock m c
          { s.cell c with line := { (s.cell c).line with rx := .idle, decoder := .hunt } }) s t := by
  unfold messageDone at h
  dsimp only at h
  split at h
  case isFalse => cases h
  case isTrue hactive =>
    refine ⟨hactive, ?_⟩
    split at h
    · split at h
      case isFalse => cases h
      case isTrue =>
        obtain rfl := Option.some.inj h
        have hdeliver := onCell_deliver c m (s.modLine c fun l => { l with rx := .idle, decoder := .hunt })
        rw [cell_modLine] at hdeliver
        exact OnCell.refreshed ((onCell_modLine c (fun l => { l with rx := .idle, decoder := .hunt }) s).trans hdeliver)
    · rename_i hrx hdec
      obtain rfl := Option.some.inj h
      have hrest : ({ s.cell c with line := { (s.cell c).line with rx := .idle, decoder := .hunt } } : CellState)
          = s.cell c := by rw [← hrx, ← hdec]
      refine (onCell_deliver c m s).refreshed.congr ?_ ?_ <;> rw [hrest]
      rfl
    · cases h

theorem edgeFalls_inv {c : CellNo} {s t : State} (h : edgeFalls c s = some t) :
    (receiverActive s.engine.state (s.cell c).line = true ∧ (s.cell c).line.rx = .idle) ∧
      t = s.modLine c fun l => { l with rx := .character } := by
  unfold edgeFalls at h
  split at h
  case isFalse => cases h
  case isTrue hactive =>
    simp only [Bool.and_eq_true, beq_iff_eq] at hactive
    exact ⟨hactive, (Option.some.inj h).symm⟩

theorem startBitHigh_inv {c : CellNo} {s t : State} (h : startBitHigh c s = some t) :
    (receiverActive s.engine.state (s.cell c).line = true ∧ (s.cell c).line.rx = .character) ∧
      t = s.modLine c fun l => { l with rx := .idle } := by
  unfold startBitHigh at h
  split at h
  case isFalse => cases h
  case isTrue hactive =>
    simp only [Bool.and_eq_true, beq_iff_eq] at hactive
    exact ⟨hactive, (Option.some.inj h).symm⟩

theorem gapExpires_inv {c : CellNo} {s t : State} (h : gapExpires c s = some t) :
    (receiverActive s.engine.state (s.cell c).line = true ∧ expired s.clock (s.cell c).line.decoder.gapTimer = true) ∧
      OnCell c (transmit s.engine.state s.coll.lots ∘ CellState.countError s.clock)
        (errorNotices .gap s.clock c (s.cell c)) s t := by
  unfold gapExpires at h
  split at h
  case isFalse => cases h
  case isTrue hactive =>
    simp only [Bool.and_eq_true] at hactive
    obtain rfl := Option.some.inj h
    exact ⟨hactive, (onCell_countError .gap c s).refreshed⟩

theorem windowEnds_inv {c : CellNo} {s t : State} (h : windowEnds c s = some t) :
    (receiverActive s.engine.state (s.cell c).line = true ∧ expired s.clock (s.cell c).line.windowEnd = true) ∧
      OnCell c (fun cs => transmit s.engine.state s.coll.lots { cs with line := nextWindow (judgeWindow cs.line) })
        (if (s.cell c).line.state = .quarantined ∧ (judgeWindow (s.cell c).line).state = .online then
          [(.cell c, .lineRestored)] else []) s t := by
  unfold windowEnds at h
  dsimp only at h
  split at h
  case isFalse => cases h
  case isTrue hactive =>
    simp only [Bool.and_eq_true] at hactive
    obtain rfl := Option.some.inj h
    refine ⟨hactive, OnCell.refreshed ?_⟩
    have hline := onCell_modLine c (fun l => nextWindow (judgeWindow l)) s
    split
    · exact hline.trans (onCell_raise c _ _ _)
    · exact hline

theorem messageSent_inv {c : CellNo} {s t : State} (h : messageSent c s = some t) :
    ∃ final rate m, (s.cell c).line.tx = .sending final rate m ∧
      t = s.modCell c (afterSent s.engine.state s.coll.lots final) := by
  unfold messageSent at h
  split at h
  · rename_i final rate m htx
    exact ⟨final, rate, m, htx, (Option.some.inj h).symm⟩
  · cases h

theorem silenceExpires_inv {c : CellNo} {s t : State} (h : silenceExpires c s = some t) :
    ((s.cell c).asm.touchdown.isSome = true ∧ expired s.clock (s.cell c).asm.silence = true) ∧
      OnCell c (transmit s.engine.state s.coll.lots ∘ CellState.closeRecord .timedOut s.clock)
        (closeNotices .timedOut s.clock c (s.cell c).asm) s t := by
  unfold silenceExpires at h
  split at h
  case isFalse => cases h
  case isTrue hopen =>
    simp only [Bool.and_eq_true] at hopen
    obtain rfl := Option.some.inj h
    exact ⟨hopen, (onCell_closeTouchdown .timedOut c s).refreshed⟩

end Sys2Proof.Machine
end

