-- ==== Sys2Proof/Proofs/CellInvariants.lean ====
section
/-! SUPPORT. What each event of a cell keeps of its column: the guard's form and the holds that follow it, the assembler's
bounds and BUFFER, and the line's form before it looks at its content (R25, R38, R40 to R42, R44, R55 to R58, R88, R89,
R99). -/

namespace Sys2Proof.Machine

/-! ## The transmitter's look (R40 to R42) -/

/-- A transmitter that may look at its content: SILENT belongs to an OFFLINE line; an IDLE one of an OFFLINE line owes the
final message; a message on a line gone OFFLINE is final or to be followed by the final one. -/
def TxReady (l : Line) : Prop :=
  match l.tx with
  | .silent => l.state = .offline
  | .idle => l.state = .offline → l.finalOwed = true
  | .sending final _ _ => l.state = .offline → final = true ∨ l.finalOwed = true

/-- A line's form, its look at its content left out. -/
def LineReady (eng : EngineState) (l : Line) : Prop := ReceiverOk eng l ∧ RateOk l ∧ TxReady l

/-- A line's form. -/
def LineOk (eng : EngineState) (lots : List Lot) (cs : CellState) : Prop :=
  ReceiverOk eng cs.line ∧ RateOk cs.line ∧ TransmitterOk eng lots cs

theorem txReady_of_transmitterOk {eng : EngineState} {lots : List Lot} {cs : CellState}
    (h : TransmitterOk eng lots cs) : TxReady cs.line := by
  unfold TransmitterOk at h
  unfold TxReady
  cases htx : cs.line.tx with
  | silent => simpa [htx] using h
  | idle =>
    simp only [htx] at h ⊢
    exact fun ho => absurd ho h.1
  | sending final rate m => simpa [htx] using h

theorem LineOk.ready {eng : EngineState} {lots : List Lot} {cs : CellState} (h : LineOk eng lots cs) :
    LineReady eng cs.line := ⟨h.1, h.2.1, txReady_of_transmitterOk h.2.2⟩

/-- What a transmitter's look leaves of a line: everything but the message and what goes with it. -/
theorem transmit_line (eng : EngineState) (lots : List Lot) (cs : CellState) :
    ∃ tx last forced owed, (transmit eng lots cs).line =
      { cs.line with tx := tx, lastSent := last, forced := forced, finalOwed := owed } := by
  unfold transmit
  split
  · split
    · exact ⟨_, _, _, _, rfl⟩
    · split
      · exact ⟨_, _, _, _, rfl⟩
      · exact ⟨cs.line.tx, cs.line.lastSent, cs.line.forced, cs.line.finalOwed, rfl⟩
  · exact ⟨cs.line.tx, cs.line.lastSent, cs.line.forced, cs.line.finalOwed, rfl⟩

theorem sendDue_iff (eng : EngineState) (lots : List Lot) (cs : CellState) :
    sendDue eng lots cs = true ↔
      cs.line.state ≠ .offline ∧ (cs.line.forced = true ∨ cs.line.lastSent ≠ some (holdContent eng lots cs)) := by
  simp [sendDue]

/-- A transmitter that has looked has nothing left to begin. -/
theorem transmitterOk_transmit (eng : EngineState) (lots : List Lot) {cs : CellState} (h : TxReady cs.line) :
    TransmitterOk eng lots (transmit eng lots cs) := by
  unfold TxReady at h
  unfold transmit
  cases htx : cs.line.tx with
  | silent => simpa [TransmitterOk, htx] using h
  | sending final rate m => simpa [TransmitterOk, htx] using h
  | idle =>
    simp only [htx] at h ⊢
    split
    · simp [TransmitterOk, beginMessage]
    · rename_i howed
      have hstate : cs.line.state ≠ .offline := fun ho => howed (h ho)
      split
      · simp [TransmitterOk, beginMessage, hstate]
      · rename_i hdue
        rw [sendDue_iff] at hdue
        push Not at hdue
        obtain ⟨hforced, hlast⟩ := hdue hstate
        have hforced' : cs.line.forced = false := by simpa using hforced
        have howed' : cs.line.finalOwed = false := by simpa using howed
        simp [TransmitterOk, htx, hstate, hforced', howed', hlast]

/-- A line whose transmitter looks at its content is in form. -/
theorem lineOk_transmit (eng : EngineState) (lots : List Lot) {cs : CellState} (h : LineReady eng cs.line) :
    LineOk eng lots (transmit eng lots cs) := by
  obtain ⟨hrx, hrate, htx⟩ := h
  obtain ⟨tx, last, forced, owed, hl⟩ := transmit_line eng lots cs
  refine ⟨?_, ?_, transmitterOk_transmit eng lots htx⟩
  · rw [hl]
    exact hrx
  · rw [hl]
    exact hrate

theorem receiverActive_iff (eng : EngineState) (l : Line) :
    receiverActive eng l = true ↔ l.state ≠ .offline ∧ (eng = .running ∨ eng = .draining ∨ eng = .faulted) := by
  simp [receiverActive, or_assoc]

/-- A line in service under a receiver that is active, after a change that keeps it so. -/
theorem LineReady.active {eng : EngineState} {l l' : Line} (h : LineReady eng l) (hact : receiverActive eng l = true)
    (hstate : l'.state ≠ .offline) (hrate : l'.rate = l.rate) (htxRate : l'.txRate = l.txRate) (htx : l'.tx = l.tx)
    (hwindow : l'.windowEnd.isSome = l.windowEnd.isSome) : LineReady eng l' := by
  obtain ⟨hrx, hr, ht⟩ := h
  rw [receiverActive_iff] at hact
  have hact' : receiverActive eng l' = true := (receiverActive_iff _ _).2 ⟨hstate, hact.2⟩
  have hrx' := hrx
  rw [ReceiverOk, if_pos ((receiverActive_iff _ _).2 hact)] at hrx'
  refine ⟨?_, fun _ => ?_, ?_⟩
  · rw [ReceiverOk, if_pos hact', hwindow]
    exact hrx'
  · rw [htxRate, hrate]
    exact hr hact.1
  · unfold TxReady at ht ⊢
    rw [htx]
    cases hc : l.tx with
    | silent =>
      rw [hc] at ht
      exact absurd ht hact.1
    | idle => exact fun ho => absurd ho hstate
    | sending final rate m => exact fun ho => absurd ho hstate

/-! ## BUFFER and the assembler (R44, R50, R55 to R58) -/

/-- The assembler's bounds and BUFFER's. -/
def AsmOk (cs : CellState) : Prop := AssemblerOk cs.asm ∧ BufferOk cs

/-- BUFFER judged once is as its bounds give it (R57). -/
theorem bufferAfter_idem (held : Bool) (slots queued : Nat) :
    bufferAfter (bufferAfter held slots queued) slots queued = bufferAfter held slots queued := by
  cases held with
  | false =>
    by_cases h : 48 ≤ slots ∨ 12 ≤ queued
    · have : 16 < slots ∨ 4 < queued := by omega
      simp only [bufferAfter, Bool.false_eq_true, if_false]
      rw [show (decide (48 ≤ slots) || decide (12 ≤ queued)) = true by simpa using h]
      simpa using this
    · have : (decide (48 ≤ slots) || decide (12 ≤ queued)) = false := by simpa using h
      simp [bufferAfter, this]
  | true =>
    by_cases h : slots ≤ 16 ∧ queued ≤ 4
    · have h1 : (decide (slots ≤ 16) && decide (queued ≤ 4)) = true := by simpa using h
      have h2 : (decide (48 ≤ slots) || decide (12 ≤ queued)) = false := by
        simp only [Bool.or_eq_false_iff, decide_eq_false_iff_not]
        omega
      simp [bufferAfter, h1, h2]
    · have h1 : (decide (slots ≤ 16) && decide (queued ≤ 4)) = false := by simpa using h
      simp [bufferAfter, h1]

theorem bufferOk_judgeBuffer (cs : CellState) : BufferOk (judgeBuffer cs) :=
  (bufferAfter_idem cs.holds.buffer cs.asm.slots cs.asm.queue.length).symm

@[simp] theorem judgeBuffer_asm (cs : CellState) : (judgeBuffer cs).asm = cs.asm := rfl
@[simp] theorem judgeBuffer_line (cs : CellState) : (judgeBuffer cs).line = cs.line := rfl
/-- Two columns that differ in their assembler, its settings left out, and in BUFFER at most. -/
structure AsmOnly (x y : CellState) : Prop where
  line : y.line = x.line
  guard : y.guard = x.guard
  enabled : y.asm.enabled = x.asm.enabled
  timeout : y.asm.timeout = x.asm.timeout
  holds : y.holds = { x.holds with buffer := y.holds.buffer }

theorem AsmOnly.refl (x : CellState) : AsmOnly x x := ⟨rfl, rfl, rfl, rfl, rfl⟩

theorem AsmOnly.trans {x y z : CellState} (h : AsmOnly x y) (k : AsmOnly y z) : AsmOnly x z where
  line := k.line.trans h.line
  guard := k.guard.trans h.guard
  enabled := k.enabled.trans h.enabled
  timeout := k.timeout.trans h.timeout
  holds := by
    rw [k.holds, h.holds]

/-- The guard's form and the holds that follow it do not read the assembler's records or BUFFER. -/
theorem AsmOnly.guardOk {x y : CellState} (h : AsmOnly x y) (hx : GuardOk x) : GuardOk y := by
  obtain ⟨hp, hs, hc, hh⟩ := hx
  refine ⟨?_, ?_, ?_, ?_⟩
  · rw [h.guard]; exact hp
  · rw [h.guard, h.enabled]; exact hs
  · rw [h.guard, h.holds]; exact hc
  · rw [h.guard, h.holds]; exact hh

theorem queueRecord_asmOnly (t : Touchdown) (cs : CellState) : AsmOnly cs (cs.queueRecord t) := by
  unfold CellState.queueRecord
  split
  · exact AsmOnly.refl cs
  · split <;> exact ⟨rfl, rfl, rfl, rfl, rfl⟩

theorem closeRecord_asmOnly (kind : CloseKind) (now : Time) (cs : CellState) : AsmOnly cs (cs.closeRecord kind now) := by
  unfold CellState.closeRecord
  split
  · exact AsmOnly.refl cs
  · have hidle : AsmOnly cs { cs with asm := { cs.asm with touchdown := none, silence := none } } :=
      ⟨rfl, rfl, rfl, rfl, rfl⟩
    exact hidle.trans (queueRecord_asmOnly _ _)

@[simp] theorem closed_reports (t : Touchdown) (kind : CloseKind) (now : Time) :
    (t.closed kind now).reports = t.reports := rfl

theorem slots_of_open {a : Assembler} {t : Touchdown} (h : a.touchdown = some t) :
    a.slots = t.reports.length + (a.queue.map fun t => t.reports.length).sum := by
  simp [Assembler.slots, h]

theorem slots_of_idle {a : Assembler} (h : a.touchdown = none) :
    a.slots = (a.queue.map fun t => t.reports.length).sum := by
  simp [Assembler.slots, h]

/-- The assembler of a cell after a close: IDLE, its queue by the rule of R55. -/
theorem closeRecord_asm (kind : CloseKind) (now : Time) (cs : CellState) :
    (cs.closeRecord kind now).asm.touchdown = none
      ∧ (cs.asm.touchdown.isSome = true → (cs.closeRecord kind now).asm.silence = none)
      ∧ (cs.asm.touchdown = none → (cs.closeRecord kind now) = cs)
      ∧ (cs.closeRecord kind now).asm.queue = queueAfterClose kind now cs.asm := by
  unfold CellState.closeRecord queueAfterClose
  cases h : cs.asm.touchdown with
  | none => simp [h]
  | some t =>
    dsimp only
    unfold CellState.queueRecord
    by_cases hr : t.reports = []
    · simp [hr]
    · by_cases hq : cs.asm.queue.length < 15
      · have : ¬15 ≤ cs.asm.queue.length := by omega
        simp [hr, hq, this]
      · have : 15 ≤ cs.asm.queue.length := by omega
        simp [hr, hq, this]

theorem closeRecord_asmOk {cs : CellState} (kind : CloseKind) (now : Time) (h : AsmOk cs) :
    AsmOk (cs.closeRecord kind now) := by
  obtain ⟨⟨hq, hslots, hsil, ht1, ht2, hen⟩, hbuf⟩ := h
  unfold CellState.closeRecord
  cases htd : cs.asm.touchdown with
  | none => exact ⟨⟨hq, hslots, hsil, ht1, ht2, hen⟩, hbuf⟩
  | some t =>
    have hs := slots_of_open htd
    dsimp only
    unfold CellState.queueRecord
    split
    · rename_i hr
      rw [closed_reports] at hr
      rw [hr, List.length_nil, Nat.zero_add] at hs
      refine ⟨⟨hq, ?_, rfl, ht1, ht2, hen⟩, ?_⟩
      · simp only [Assembler.slots]
        omega
      · rw [BufferOk, hs] at hbuf
        simpa [BufferOk, Assembler.slots] using hbuf
    · split
      · rename_i hlen
        refine ⟨⟨?_, ?_, rfl, ht1, ht2, hen⟩, bufferOk_judgeBuffer _⟩
        · simp only [judgeBuffer_asm, List.length_append, List.length_singleton]
          exact hlen
        · simp only [judgeBuffer_asm, Assembler.slots, List.map_append, List.sum_append, List.map_cons, List.map_nil,
            List.sum_cons, List.sum_nil, closed_reports]
          omega
      · refine ⟨⟨hq, ?_, rfl, ht1, ht2, hen⟩, bufferOk_judgeBuffer _⟩
        simp only [judgeBuffer_asm, Assembler.slots]
        omega

theorem openIdle_asmOnly (eng : EngineState) (now : Time) (number declared : Half) (cs : CellState) :
    AsmOnly cs (cs.openIdle eng now number declared) := by
  unfold CellState.openIdle
  split
  · exact AsmOnly.refl cs
  · exact ⟨rfl, rfl, rfl, rfl, rfl⟩

theorem openIdle_asmOk {cs : CellState} (eng : EngineState) (now : Time) (number declared : Half) (h : AsmOk cs)
    (hidle : cs.asm.touchdown = none) : AsmOk (cs.openIdle eng now number declared) := by
  obtain ⟨⟨hq, hslots, hsil, ht1, ht2, hen⟩, hbuf⟩ := h
  rw [slots_of_idle hidle] at hslots
  rw [BufferOk, slots_of_idle hidle] at hbuf
  unfold CellState.openIdle
  split
  · exact ⟨⟨hq, by rw [slots_of_idle hidle]; exact hslots, hsil, ht1, ht2, hen⟩, by
      rw [BufferOk, slots_of_idle hidle]; exact hbuf⟩
  · refine ⟨⟨hq, ?_, rfl, ht1, ht2, hen⟩, ?_⟩
    · simpa [Assembler.slots, Touchdown.opened] using hslots
    · simpa [BufferOk, Assembler.slots, Touchdown.opened] using hbuf

@[simp] theorem length_insertReport (r : Report) (rs : List Report) : (insertReport r rs).length = rs.length + 1 := by
  induction rs with
  | nil => rfl
  | cons q qs ih =>
    unfold insertReport
    split
    · rfl
    · simp [ih]

theorem storeReport_asmOnly (now : Time) (t : Touchdown) (r : Report) (cs : CellState) :
    AsmOnly cs (cs.storeReport now t r) := by
  unfold CellState.storeReport
  split <;> exact ⟨rfl, rfl, rfl, rfl, rfl⟩

theorem storeReport_asmOk {cs : CellState} {t : Touchdown} (now : Time) (r : Report) (h : AsmOk cs)
    (htd : cs.asm.touchdown = some t) : AsmOk (cs.storeReport now t r) := by
  obtain ⟨⟨hq, hslots, hsil, ht1, ht2, hen⟩, hbuf⟩ := h
  have hs := slots_of_open htd
  rw [htd] at hsil
  unfold CellState.storeReport
  split
  · refine ⟨⟨hq, ?_, rfl, ht1, ht2, hen⟩, bufferOk_judgeBuffer _⟩
    simp only [judgeBuffer_asm, Assembler.slots, length_insertReport]
    omega
  · refine ⟨⟨hq, ?_, hsil, ht1, ht2, hen⟩, ?_⟩
    · simp only [Assembler.slots]
      omega
    · rw [BufferOk, hs] at hbuf
      simpa [BufferOk, Assembler.slots] using hbuf

theorem takeUnit_asmOnly (now : Time) (u : UnitFields) (cs : CellState) : AsmOnly cs (cs.takeUnit now u) := by
  unfold CellState.takeUnit
  split
  · exact AsmOnly.refl cs
  · split
    · exact AsmOnly.refl cs
    · exact storeReport_asmOnly _ _ _ _

theorem takeUnit_asmOk {cs : CellState} (now : Time) (u : UnitFields) (h : AsmOk cs) : AsmOk (cs.takeUnit now u) := by
  unfold CellState.takeUnit
  split
  · exact h
  · rename_i t htd
    split
    · exact h
    · exact storeReport_asmOk _ _ h htd

theorem compareNumber_asmOk {cs : CellState} (number : Half) (h : AsmOk cs) :
    AsmOk { cs with asm := cs.asm.compareNumber number } := by
  have hslots : (cs.asm.compareNumber number).slots = cs.asm.slots := by
    cases htd : cs.asm.touchdown <;> simp [Assembler.compareNumber, Assembler.slots, htd]
  obtain ⟨⟨hq, hsl, hsil, ht1, ht2, hen⟩, hbuf⟩ := h
  refine ⟨⟨hq, by rw [hslots]; exact hsl, ?_, ht1, ht2, hen⟩, by rw [BufferOk, hslots]; exact hbuf⟩
  simpa [Assembler.compareNumber] using hsil

theorem takeMessage_asmOnly (eng : EngineState) (now : Time) (m : Message) (cs : CellState) :
    AsmOnly cs (cs.takeMessage eng now m) := by
  cases m with
  | openMsg number declared => exact (closeRecord_asmOnly _ _ _).trans (openIdle_asmOnly _ _ _ _ _)
  | unitMsg site key wafer x y bin attempt => exact takeUnit_asmOnly _ _ _
  | closeMsg number =>
    have hnumber : AsmOnly cs { cs with asm := cs.asm.compareNumber number } := ⟨rfl, rfl, rfl, rfl, rfl⟩
    exact hnumber.trans (closeRecord_asmOnly _ _ _)
  | helloMsg => exact closeRecord_asmOnly _ _ _

theorem takeMessage_asmOk {cs : CellState} (eng : EngineState) (now : Time) (m : Message) (h : AsmOk cs) :
    AsmOk (cs.takeMessage eng now m) := by
  cases m with
  | openMsg number declared =>
    exact openIdle_asmOk _ _ _ _ (closeRecord_asmOk _ _ h) (closeRecord_asm _ _ _).1
  | unitMsg site key wafer x y bin attempt => exact takeUnit_asmOk _ _ h
  | closeMsg number => exact closeRecord_asmOk _ _ (compareNumber_asmOk _ h)
  | helloMsg => exact closeRecord_asmOk _ _ h

/-! ## What the events of an active line keep -/

/-- A cell's column in form before its line looks at its content: what it was in form, it stays in form. -/
structure CellKept (eng : EngineState) (x y : CellState) : Prop where
  guard : GuardOk x → GuardOk y
  asm : AsmOk x → AsmOk y
  line : LineReady eng x.line → LineReady eng y.line

theorem CellKept.refl (eng : EngineState) (x : CellState) : CellKept eng x x := ⟨id, id, id⟩

theorem CellKept.trans {eng : EngineState} {x y z : CellState} (h : CellKept eng x y) (k : CellKept eng y z) :
    CellKept eng x z := ⟨k.guard ∘ h.guard, k.asm ∘ h.asm, k.line ∘ h.line⟩

/-- A change of the assembler that keeps its bounds. -/
theorem AsmOnly.cellKept {eng : EngineState} {x y : CellState} (h : AsmOnly x y) (hasm : AsmOk x → AsmOk y) :
    CellKept eng x y := ⟨h.guardOk, hasm, fun hl => by rw [h.line]; exact hl⟩

theorem closeRecord_cellKept (eng : EngineState) (kind : CloseKind) (now : Time) (cs : CellState) :
    CellKept eng cs (cs.closeRecord kind now) :=
  (closeRecord_asmOnly kind now cs).cellKept (closeRecord_asmOk kind now)

theorem takeMessage_cellKept (eng : EngineState) (now : Time) (m : Message) (cs : CellState) :
    CellKept eng cs (cs.takeMessage eng now m) :=
  (takeMessage_asmOnly eng now m cs).cellKept (takeMessage_asmOk eng now m)

/-- A change of an active line that keeps it in service, with its rates, its transmitter and its window. -/
theorem cellKept_of_line {eng : EngineState} {cs : CellState} {l : Line} (hact : receiverActive eng cs.line = true)
    (hstate : l.state ≠ .offline) (hrate : l.rate = cs.line.rate) (htxRate : l.txRate = cs.line.txRate)
    (htx : l.tx = cs.line.tx) (hwindow : l.windowEnd.isSome = cs.line.windowEnd.isSome) :
    CellKept eng cs { cs with line := l } :=
  ⟨id, id, fun h => h.active hact hstate hrate htxRate htx hwindow⟩

theorem active_state {eng : EngineState} {l : Line} (h : receiverActive eng l = true) : l.state ≠ .offline :=
  ((receiverActive_iff _ _).1 h).1

theorem countError_cellKept {eng : EngineState} {cs : CellState} (now : Time)
    (hact : receiverActive eng cs.line = true) : CellKept eng cs (cs.countError now) := by
  unfold CellState.countError
  dsimp only
  split
  · have hline : CellKept eng cs { cs with line := { cs.line with
        decoder := .hunt, errors := min (cs.line.errors + 1) 255, state := .quarantined, clean := 0 } } :=
      cellKept_of_line hact LineState.noConfusion rfl rfl rfl rfl
    exact hline.trans (closeRecord_cellKept _ _ _ _)
  · exact cellKept_of_line hact (active_state hact) rfl rfl rfl rfl

theorem deliver_cellKept {eng : EngineState} {cs : CellState} (now : Time) (m : Message)
    (hact : receiverActive eng cs.line = true) : CellKept eng cs (cs.deliver eng now m) := by
  have hforce : CellKept eng cs (cs.force m) := by
    unfold CellState.force
    split
    · exact cellKept_of_line hact (active_state hact) rfl rfl rfl rfl
    · exact CellKept.refl _ _
  unfold CellState.deliver
  split
  · exact hforce.trans (takeMessage_cellKept _ _ _ _)
  · exact hforce

theorem takeByte_cellKept {eng : EngineState} {cs : CellState} (now : Time) (b : Byte)
    (hact : receiverActive eng cs.line = true) : CellKept eng cs (cs.takeByte eng now b) := by
  have hdecoder : ∀ d, CellKept eng cs { cs with line := { cs.line with decoder := d } } := fun d =>
    cellKept_of_line hact (active_state hact) rfl rfl rfl rfl
  have herror := countError_cellKept now hact
  unfold CellState.takeByte
  dsimp only
  split
  · split
    · exact hdecoder _
    · exact CellKept.refl _ _
  · split
    · exact hdecoder _
    · exact herror
  · split
    · exact hdecoder _
    · exact herror
  · exact hdecoder _
  · split
    · exact (hdecoder .hunt).trans (deliver_cellKept now _ hact)
    · exact herror

theorem character_cellKept {eng : EngineState} {cs : CellState} (now : Time) (data : Byte) (parity stop : Bool)
    (hact : receiverActive eng cs.line = true) : CellKept eng cs (cs.character eng now data parity stop) := by
  have hidle : CellKept eng cs { cs with line := { cs.line with rx := .idle } } :=
    cellKept_of_line hact (active_state hact) rfl rfl rfl rfl
  unfold CellState.character
  dsimp only
  split
  · exact hidle.trans (countError_cellKept now hact)
  · exact hidle.trans (takeByte_cellKept now data hact)

theorem message_cellKept {eng : EngineState} {cs : CellState} (now : Time) (m : Message)
    (hact : receiverActive eng cs.line = true) :
    CellKept eng cs
      (({ cs with line := { cs.line with rx := .idle, decoder := .hunt } } : CellState).deliver eng now m) := by
  have hrest : CellKept eng cs { cs with line := { cs.line with rx := .idle, decoder := .hunt } } :=
    cellKept_of_line hact (active_state hact) rfl rfl rfl rfl
  exact hrest.trans (deliver_cellKept now m hact)

/-- Judging a window changes the state, the clean count and the forced send, and keeps a line in service (R34). -/
theorem judgeWindow_frame (l : Line) :
    ∃ st clean forced, judgeWindow l = { l with state := st, clean := clean, forced := forced }
      ∧ (l.state ≠ .offline → st ≠ .offline) := by
  unfold judgeWindow
  split
  · rename_i hq
    split
    · split
      · exact ⟨_, _, _, rfl, fun _ => by simp⟩
      · exact ⟨l.state, _, l.forced, rfl, id⟩
    · exact ⟨l.state, _, l.forced, rfl, id⟩
  · exact ⟨l.state, l.clean, l.forced, rfl, id⟩

theorem window_cellKept {eng : EngineState} {cs : CellState} (hact : receiverActive eng cs.line = true) :
    CellKept eng cs { cs with line := nextWindow (judgeWindow cs.line) } := by
  obtain ⟨st, clean, forced, hj, hst⟩ := judgeWindow_frame cs.line
  rw [hj]
  exact cellKept_of_line hact (hst (active_state hact)) rfl rfl rfl (by simp [nextWindow])

/-! ## The last character of a message (R41, R42) -/

theorem beginMessage_frame (eng : EngineState) (lots : List Lot) (final : Bool) (cs : CellState) :
    SameWork cs (beginMessage eng lots final cs) ∧ (beginMessage eng lots final cs).holds = cs.holds := ⟨⟨rfl, rfl⟩, rfl⟩

theorem afterSent_frame (eng : EngineState) (lots : List Lot) (final : Bool) (cs : CellState) :
    SameWork cs (afterSent eng lots final cs) ∧ (afterSent eng lots final cs).holds = cs.holds := by
  unfold afterSent
  split
  · exact beginMessage_frame _ _ _ _
  · split
    · exact ⟨⟨rfl, rfl⟩, rfl⟩
    · split
      · exact beginMessage_frame _ _ _ _
      · exact ⟨⟨rfl, rfl⟩, rfl⟩

theorem afterSent_lineOk {eng : EngineState} {lots : List Lot} {cs : CellState} {final : Bool} {rate : Fin 8}
    {m : List Byte} (htx : cs.line.tx = .sending final rate m) (h : LineOk eng lots cs) :
    LineOk eng lots (afterSent eng lots final cs) := by
  obtain ⟨hrx, hrate, hok⟩ := h
  simp only [TransmitterOk, htx] at hok
  unfold afterSent
  split
  · exact ⟨hrx, hrate, by simp [TransmitterOk, beginMessage]⟩
  · rename_i howed
    split
    · rename_i hf
      simp only [Bool.and_eq_true, beq_iff_eq] at hf
      exact ⟨hrx, hrate, hf.2⟩
    · rename_i hf
      split
      · rename_i hdue
        rw [sendDue_iff] at hdue
        exact ⟨hrx, hrate, by simp [TransmitterOk, beginMessage, hdue.1]⟩
      · rename_i hdue
        rw [sendDue_iff] at hdue
        have hstate : cs.line.state ≠ .offline := fun ho => by
          rcases hok ho with hfin | hfin
          · exact hf (by simp [hfin, ho])
          · exact howed hfin
        push Not at hdue
        obtain ⟨hforced, hlast⟩ := hdue hstate
        exact ⟨hrx, hrate, hstate, by simpa using hforced, by simpa using howed, hlast⟩

end Sys2Proof.Machine
end

