-- ==== Sys2Proof/Proofs/GuardInvariants.lean ====
section
/-! SUPPORT. The guard unit's form and the holds that follow it, through an outcome with its hand-off and through the
orders on cells; and what those orders keep of a cell's assembler and line (R25, R35 to R38, R42, R58, R88 to R92, R99 to
R107). -/

namespace Sys2Proof.Machine

/-! ## Flags and the hand-off (R99) -/

theorem flatMap_flags_inj {xs ys : List SiteGuard} (hlen : xs.length = ys.length)
    (h : xs.flatMap (fun q => [q.runFlag, q.limitFlag, q.spreadFlag])
      = ys.flatMap (fun q => [q.runFlag, q.limitFlag, q.spreadFlag])) :
    xs.map (fun q => (q.runFlag, q.limitFlag, q.spreadFlag))
      = ys.map (fun q => (q.runFlag, q.limitFlag, q.spreadFlag)) := by
  induction xs generalizing ys with
  | nil =>
    obtain rfl : ys = [] := List.length_eq_zero_iff.1 hlen.symm
    rfl
  | cons x xs ih =>
    cases ys with
    | nil => cases hlen
    | cons y ys =>
      simp only [List.flatMap_cons, List.cons_append, List.nil_append, List.cons.injEq] at h
      obtain ⟨h1, h2, h3, h4⟩ := h
      rw [List.map_cons, List.map_cons, ih (Nat.succ.inj hlen) h4, h1, h2, h3]

/-- Guards with the same flags have the same three flags at every site, and the same cell flag. -/
theorem flags_eq {g h : Guard} (e : g.flags = h.flags) :
    g.cellFlag = h.cellFlag ∧ ∀ s : Site, (g.site s).runFlag = (h.site s).runFlag
      ∧ (g.site s).limitFlag = (h.site s).limitFlag ∧ (g.site s).spreadFlag = (h.site s).spreadFlag := by
  unfold Guard.flags at e
  obtain ⟨hsites, hcell⟩ := List.append_inj' e rfl
  refine ⟨List.singleton_inj.1 hcell, fun s => ?_⟩
  have hmap := flatMap_flags_inj (by simp) hsites
  have hs := congrArg (fun l => l[s.val]?) hmap
  simpa [Guard.site] using hs

theorem heldSites_getLsbD (g : Guard) (s : Site) :
    g.heldSites.getLsbD s.val = ((g.site s).runFlag || (g.site s).limitFlag || (g.site s).spreadFlag) := by
  unfold Guard.heldSites
  rw [BitVec.getLsbD_ofFnLE]
  simp [Guard.site]

/-- The held site set depends on the sites' flags alone. -/
theorem heldSites_congr {g h : Guard} (e : ∀ s : Site, (g.site s).runFlag = (h.site s).runFlag
      ∧ (g.site s).limitFlag = (h.site s).limitFlag ∧ (g.site s).spreadFlag = (h.site s).spreadFlag) :
    g.heldSites = h.heldSites := by
  refine BitVec.eq_of_getLsbD_eq fun i hi => ?_
  have hg := heldSites_getLsbD g ⟨i, hi⟩
  have hh := heldSites_getLsbD h ⟨i, hi⟩
  obtain ⟨h1, h2, h3⟩ := e ⟨i, hi⟩
  rw [h1, h2, h3, ← hh] at hg
  exact hg

/-- The holds of a cell follow its guard. -/
def HoldsFollow (g : Guard) (h : Holds) : Prop := h.cellGuard = g.cellFlag ∧ h.held = g.heldSites

/-- After a hand-off the holds follow the guard, if they followed the guard it started from (R99). -/
theorem handOffFrom_follows {before : Guard} {cs : CellState} (h : HoldsFollow before cs.holds) :
    HoldsFollow (cs.handOffFrom before).guard (cs.handOffFrom before).holds := by
  unfold CellState.handOffFrom
  split
  · rename_i he
    obtain ⟨hc, hs⟩ := flags_eq he
    exact ⟨h.1.trans hc, h.2.trans (heldSites_congr hs)⟩
  · exact ⟨rfl, rfl⟩

/-- A hand-off changes CELL_GUARD and the held site set at most. -/
theorem handOffFrom_holds (before : Guard) (cs : CellState) :
    ∃ b m, (cs.handOffFrom before).holds = { cs.holds with cellGuard := b, held := m } := by
  unfold CellState.handOffFrom
  split
  · exact ⟨cs.holds.cellGuard, cs.holds.held, rfl⟩
  · exact ⟨_, _, rfl⟩

/-! ## Outcomes at a site (R89 to R92) -/

/-- The guard's own form, the holds left out. -/
def GuardForm (enabled : Half) (g : Guard) : Prop :=
  ParametersOk g ∧ ∀ s : Site, SiteOk g.w (hasSite enabled s) (g.site s)

theorem guardOk_iff (cs : CellState) : GuardOk cs ↔ GuardForm cs.asm.enabled cs.guard ∧ HoldsFollow cs.guard cs.holds := by
  unfold GuardOk GuardForm HoldsFollow
  tauto

theorem count_fail_cons (v : Verdict) (l : List Verdict) : (v :: l).count .fail = l.count .fail + v.fails := by
  cases v <;> simp [Verdict.fails]

theorem dropOldest_siteOk {w : Nat} {q : SiteGuard} (h : SiteOk w true q) :
    SiteOk w true q.dropOldest ∧ q.dropOldest.window.length = q.window.length - 1 := by
  obtain ⟨hlen, hcount, hrun, -⟩ := h
  unfold SiteGuard.dropOldest
  cases hw : q.window with
  | nil => exact ⟨⟨hlen, hcount, hrun, fun h => by cases h⟩, by simp [hw]⟩
  | cons v rest =>
    rw [hw] at hlen hcount
    rw [count_fail_cons] at hcount
    rw [List.length_cons] at hlen
    refine ⟨⟨?_, ?_, hrun, fun h => by cases h⟩, by simp⟩
    · dsimp only; omega
    · dsimp only; omega

/-- An outcome that joins keeps the window within W and its fail count true (R90). -/
theorem join_siteOk {w : Nat} {q : SiteGuard} (hw : 0 < w) (v : Verdict) (h : SiteOk w true q) :
    SiteOk w true (q.join w v) := by
  have hdrop : ∃ p : SiteGuard, q.join w v =
      { p with window := p.window ++ [v], failCount := p.failCount + v.fails, run := nextRun p.run v }
      ∧ SiteOk w true p ∧ p.window.length < w := by
    unfold SiteGuard.join
    split
    · rename_i hfull
      obtain ⟨hok, hlen⟩ := dropOldest_siteOk h
      have hq : q.window.length ≤ w := h.1
      exact ⟨_, rfl, hok, by omega⟩
    · rename_i hroom
      exact ⟨q, rfl, h, by omega⟩
  obtain ⟨p, hjoin, ⟨-, hcount, hrun, -⟩, hlt⟩ := hdrop
  rw [hjoin]
  refine ⟨?_, ?_, ?_, fun h => by cases h⟩
  · simp only [List.length_append, List.length_singleton]
    omega
  · rw [hcount]
    cases v <;> simp [Verdict.fails]
  · cases v with
    | fail => exact Nat.min_le_right _ _
    | pass => exact Nat.zero_le _

theorem site_setSite_ne (g : Guard) {s o : Site} (v : SiteGuard) (h : o ≠ s) : (g.setSite s v).site o = g.site o := by
  have h' : s.val ≠ o.val := fun e => h (Fin.ext e.symm)
  simp [Guard.site, Guard.setSite, h']

/-- Only the site of the outcome is judged by the site checks (R92). -/
theorem site_latch_ne (g : Guard) (enabled : Half) {s o : Site} (h : o ≠ s) :
    (g.latch enabled s).site o = g.site o := site_setSite_ne g _ h

theorem goodWindow_pos {w : Nat} (h : goodWindow w = true) : 0 < w := by
  simp only [goodWindow, List.contains_eq_mem, List.mem_cons, List.not_mem_nil, or_false,
    decide_eq_true_eq] at h
  omega

/-- An outcome taken keeps the guard's form (R88 to R92). -/
theorem takeOutcome_form {cs : CellState} (site : Site) (v : Verdict) (h : GuardForm cs.asm.enabled cs.guard) :
    GuardForm (cs.takeOutcome site v).asm.enabled (cs.takeOutcome site v).guard := by
  unfold CellState.takeOutcome
  split
  · rename_i hen
    obtain ⟨hp, hs⟩ := h
    refine ⟨hp, fun s => ?_⟩
    by_cases hsite : s = site
    · subst hsite
      have hok := hs s
      rw [hen] at hok
      have hjoin := join_siteOk (goodWindow_pos hp.1) v hok
      dsimp only
      rw [hen, site_latch]
      obtain ⟨h1, h2, h3, -⟩ := hjoin
      simp only [Guard.joined, site_setSite]
      exact ⟨h1, h2, h3, fun h => by cases h⟩
    · dsimp only
      rw [site_latch_ne _ _ hsite, Guard.joined, site_setSite_ne _ _ hsite]
      exact hs s
  · exact h

theorem takeOutcome_frame (site : Site) (v : Verdict) (cs : CellState) :
    (cs.takeOutcome site v).asm = cs.asm ∧ (cs.takeOutcome site v).line = cs.line
      ∧ (cs.takeOutcome site v).holds = cs.holds := by
  unfold CellState.takeOutcome
  split <;> exact ⟨rfl, rfl, rfl⟩

/-! ## RELEASE_CELLS on a cell (R105 to R107) -/

theorem unflagged_siteOk {w : Nat} {en : Bool} {q : SiteGuard} (h : SiteOk w en q) : SiteOk w en q.unflagged := by
  obtain ⟨h1, h2, h3, h4⟩ := h
  exact ⟨h1, h2, h3, fun he => ⟨(h4 he).1, (h4 he).2.1, rfl, rfl, rfl⟩⟩

theorem emptied_siteOk {w : Nat} {en : Bool} {q : SiteGuard} (h : SiteOk w en q) : SiteOk w en q.emptied := by
  obtain ⟨h1, h2, h3, h4⟩ := h
  exact ⟨Nat.zero_le _, rfl, Nat.zero_le _, fun he => ⟨rfl, rfl, (h4 he).2.2⟩⟩

/-- A release changes the sites and the cell flag of a guard alone. -/
theorem release_frame (b : ReleaseBody) (g : Guard) :
    ∃ sites, g.release b = { g with sites := sites, cellFlag := g.cellFlag && !namesCellGuard b.reasons } :=
  ⟨_, rfl⟩

theorem release_form {enabled : Half} {g : Guard} (b : ReleaseBody) (h : GuardForm enabled g) :
    GuardForm enabled (g.release b) := by
  obtain ⟨hp, hs⟩ := h
  obtain ⟨sites, hr⟩ := release_frame b g
  have hw : (g.release b).w = g.w := by rw [hr]
  refine ⟨by rw [hr]; exact hp, fun s => ?_⟩
  rw [hw, site_release]
  dsimp only
  have hq : SiteOk g.w (hasSite enabled s)
      (if (namesSiteGuard b.reasons && hasSite b.sites s) = true then (g.site s).unflagged else g.site s) := by
    split
    · exact unflagged_siteOk (hs s)
    · exact hs s
  split
  · exact emptied_siteOk hq
  · exact hq

theorem released_frame (b : ReleaseBody) (cs : CellState) :
    (cs.released b).asm = cs.asm ∧ (cs.released b).line = cs.line ∧ (cs.released b).guard = cs.guard.release b := by
  obtain ⟨⟨ha, hg⟩, hl⟩ := handOffFrom_frame cs.guard { cs with guard := cs.guard.release b }
  exact ⟨ha, hl, hg⟩

theorem released_holds (b : ReleaseBody) (cs : CellState) :
    ∃ k m, (cs.released b).holds = { cs.holds with 
      cellGuard := k
      held := m
      ordered := cs.holds.ordered && !namesOrdered b.reasons } := by
  obtain ⟨k, m, h⟩ := handOffFrom_holds cs.guard { cs with guard := cs.guard.release b }
  refine ⟨k, m, ?_⟩
  unfold CellState.released
  dsimp only
  rw [h]

theorem released_guardOk {cs : CellState} (b : ReleaseBody) (h : GuardOk cs) : GuardOk (cs.released b) := by
  rw [guardOk_iff] at h ⊢
  obtain ⟨ha, -, hg⟩ := released_frame b cs
  refine ⟨by rw [ha, hg]; exact release_form b h.1, ?_⟩
  exact handOffFrom_follows (cs := { cs with guard := cs.guard.release b }) h.2

theorem released_cellKept (eng : EngineState) (b : ReleaseBody) (cs : CellState) : CellKept eng cs (cs.released b) := by
  obtain ⟨ha, hl, -⟩ := released_frame b cs
  obtain ⟨k, m, hh⟩ := released_holds b cs
  refine ⟨released_guardOk b, fun h => ?_, fun h => by rw [hl]; exact h⟩
  unfold AsmOk BufferOk
  rw [ha, hh]
  exact h

/-! ## CONFIGURE_CELLS on a cell (R35 to R39, R58, R100 to R104) -/

/-- A guard group whose W is good and whose K fits its byte is in range once clamped (R101). -/
theorem clamped_parameters {p : GuardGroup} (hw : goodWindow p.w = true) (hk : p.k ≤ 255) (g : Guard) :
    ParametersOk { g with
      w := p.clamped.w, m := p.clamped.m, l := p.clamped.l, mc := p.clamped.mc, lc := p.clamped.lc, d := p.clamped.d,
      k := p.clamped.k } := by
  have hpos := goodWindow_pos hw
  simp only [ParametersOk, GuardGroup.clamped, clampTo]
  refine ⟨hw, ?_, ?_, ?_, ?_, ?_, ?_, ?_, hk⟩ <;> omega

theorem takeSites_form {old new : Half} {g : Guard} (h : GuardForm old g) : GuardForm new (g.takeSites old new) := by
  obtain ⟨hp, hs⟩ := h
  refine ⟨hp, fun s => ?_⟩
  obtain ⟨h1, h2, h3, h4⟩ := hs s
  rw [site_takeSites]
  split
  · exact ⟨Nat.zero_le _, rfl, Nat.zero_le _, fun _ => ⟨rfl, rfl, rfl, rfl, rfl⟩⟩
  · rename_i hleave
    refine ⟨h1, h2, h3, fun hnew => h4 ?_⟩
    rw [hnew] at hleave
    simpa using hleave

theorem takeGroup_form {enabled : Half} {g : Guard} {p : GuardGroup} (hw : goodWindow p.w = true) (hk : p.k ≤ 255)
    (h : GuardForm enabled g) : GuardForm enabled (g.takeGroup p.clamped) := by
  have hp := clamped_parameters hw hk g
  refine ⟨?_, fun s => ?_⟩
  · unfold Guard.takeGroup
    split
    · exact hp
    · exact hp
  · have hw' : (g.takeGroup p.clamped).w = p.w := by
      unfold Guard.takeGroup
      split <;> rfl
    rw [site_takeGroup, hw']
    split
    · rename_i heq
      rw [show p.w = g.w from heq]
      exact h.2 s
    · exact ⟨Nat.zero_le _, rfl, Nat.zero_le _, fun _ => ⟨rfl, rfl, rfl, rfl, rfl⟩⟩

/-- A CONFIGURE_CELLS that passes its checks, its K from one byte. -/
def ConfigureBody.Good (b : ConfigureBody) : Prop :=
  b.sites ≠ some 0 ∧ ∀ p ∈ b.guard, goodWindow p.w = true ∧ p.k ≤ 255

theorem takeGuardGroups_form {b : ConfigureBody} (hb : b.Good) {cs : CellState}
    (h : GuardForm cs.asm.enabled cs.guard) :
    GuardForm (takeGuardGroups b cs).asm.enabled (takeGuardGroups b cs).guard := by
  unfold takeGuardGroups
  dsimp only
  have hsites := takeSites_form (new := b.sites.getD cs.asm.enabled) h
  cases hg : b.guard with
  | none => exact hsites
  | some p =>
    obtain ⟨hw, hk⟩ := hb.2 p hg
    exact takeGroup_form hw hk hsites

/-- The timing group changes the silence timeout and Q at most. -/
theorem takeTiming_frame (timing : Option (Nat × Nat)) (cs : CellState) :
    (takeTiming timing cs).guard = cs.guard ∧ (takeTiming timing cs).holds = cs.holds
      ∧ (∃ t, (takeTiming timing cs).asm = { cs.asm with timeout := t } ∧ (t = cs.asm.timeout ∨ 10 ≤ t ∧ t ≤ 10000))
      ∧ ∃ q, (takeTiming timing cs).line = { cs.line with q := q } := by
  unfold takeTiming
  split
  · exact ⟨rfl, rfl, ⟨_, rfl, .inl rfl⟩, _, rfl⟩
  · refine ⟨rfl, rfl, ⟨_, rfl, .inr ?_⟩, _, rfl⟩
    simp only [clampTimeout, clampTo]
    omega

/-- What CONFIGURE_CELLS makes of a cell, part by part. -/
theorem configured_frame (b : ConfigureBody) (eng : EngineState) (now : Time) (cs : CellState) :
    (cs.configured b eng now).guard = (takeGuardGroups b cs).guard
      ∧ (cs.configured b eng now).asm = (takeTiming b.timing (takeGuardGroups b cs)).asm
      ∧ (∃ k m, (cs.configured b eng now).holds = { cs.holds with cellGuard := k, held := m })
      ∧ (∃ q, (cs.configured b eng now).line = takeMode b.online eng now { takeRate b.rate cs.line with q := q }) := by
  have hgroups : ∀ l, takeGuardGroups b { cs with line := l } = { takeGuardGroups b cs with line := l } := fun _ => rfl
  unfold CellState.configured
  dsimp only
  rw [hgroups]
  obtain ⟨hg, hh, -, q, hl⟩ := takeTiming_frame b.timing { takeGuardGroups b cs with line := takeRate b.rate cs.line }
  obtain ⟨⟨ha', hg'⟩, hl'⟩ := handOffFrom_frame cs.guard
    (takeTiming b.timing { takeGuardGroups b cs with line := takeRate b.rate cs.line })
  obtain ⟨k, m, hh'⟩ := handOffFrom_holds cs.guard
    (takeTiming b.timing { takeGuardGroups b cs with line := takeRate b.rate cs.line })
  refine ⟨hg'.trans hg, ha'.trans ?_, ⟨k, m, ?_⟩, q, ?_⟩
  · unfold takeTiming
    split <;> rfl
  · rw [hh', hh]
    rfl
  · rw [hl', hl]

theorem configured_guardOk {b : ConfigureBody} (hb : b.Good) (eng : EngineState) (now : Time) {cs : CellState}
    (h : GuardOk cs) : GuardOk (cs.configured b eng now) := by
  rw [guardOk_iff] at h ⊢
  obtain ⟨hg, ha, -, -⟩ := configured_frame b eng now cs
  obtain ⟨-, -, ⟨t, hasm, -⟩, -⟩ := takeTiming_frame b.timing (takeGuardGroups b cs)
  refine ⟨?_, ?_⟩
  · rw [hg, ha, hasm]
    exact takeGuardGroups_form hb h.1
  · unfold CellState.configured
    dsimp only
    refine handOffFrom_follows ?_
    obtain ⟨-, hh, -, -⟩ := takeTiming_frame b.timing (takeGuardGroups b { cs with line := takeRate b.rate cs.line })
    rw [hh]
    exact h.2

theorem configured_asmOk {b : ConfigureBody} (hb : b.Good) (eng : EngineState) (now : Time) {cs : CellState}
    (h : AsmOk cs) : AsmOk (cs.configured b eng now) := by
  obtain ⟨-, ha, ⟨k, m, hh⟩, -⟩ := configured_frame b eng now cs
  obtain ⟨-, -, ⟨t, hasm, ht⟩, -⟩ := takeTiming_frame b.timing (takeGuardGroups b cs)
  obtain ⟨⟨hq, hsl, hsil, ht1, ht2, hen⟩, hbuf⟩ := h
  have hasm' : (cs.configured b eng now).asm = { cs.asm with enabled := b.sites.getD cs.asm.enabled, timeout := t } :=
    ha.trans hasm
  have ht' : 10 ≤ t ∧ t ≤ 10000 := by
    rcases ht with rfl | ht
    · exact ⟨ht1, ht2⟩
    · exact ht
  have hen' : b.sites.getD cs.asm.enabled ≠ 0 := by
    cases hs : b.sites with
    | none => exact hen
    | some m => exact fun hz => hb.1 (by rw [hs]; exact congrArg some hz)
  unfold AsmOk BufferOk
  rw [hasm', hh]
  exact ⟨⟨hq, hsl, hsil, ht'.1, ht'.2, hen'⟩, hbuf⟩

theorem receiverOk_iff (eng : EngineState) (l : Line) :
    ReceiverOk eng l ↔ (receiverActive eng l = true → l.windowEnd.isSome = true)
      ∧ (receiverActive eng l = false → l.rx = .idle ∧ l.decoder = .hunt ∧ l.windowEnd = none) := by
  cases h : receiverActive eng l <;> simp [ReceiverOk, h]

theorem takeRate_lineReady {eng : EngineState} {l : Line} (rate : Option Nat) (q : Nat) (h : LineReady eng l) :
    LineReady eng { takeRate rate l with q := q } := by
  obtain ⟨hrx, hrate, htx⟩ := h
  unfold takeRate
  cases rate with
  | none => exact ⟨hrx, hrate, htx⟩
  | some r =>
    dsimp only
    split
    · exact ⟨hrx, hrate, htx⟩
    · split
      · rename_i hoff
        exact ⟨hrx, fun h => absurd hoff h, htx⟩
      · refine ⟨?_, fun _ => rfl, htx⟩
        rw [receiverOk_iff] at hrx ⊢
        exact ⟨hrx.1, fun hact => ⟨rfl, rfl, (hrx.2 hact).2.2⟩⟩

theorem stopReceiver_receiverOk {eng : EngineState} {l : Line} (h : receiverActive eng l = false) :
    ReceiverOk eng l.stopReceiver := by
  have : receiverActive eng l.stopReceiver = false := h
  rw [ReceiverOk, if_neg (by simp [this])]
  exact ⟨rfl, rfl, rfl⟩

theorem goOffline_lineReady (eng : EngineState) (l : Line) : LineReady eng l.goOffline := by
  refine ⟨?_, fun h => absurd rfl h, ?_⟩
  · rw [ReceiverOk, if_neg (by simp [receiverActive, Line.goOffline])]
    exact ⟨rfl, rfl, rfl⟩
  · unfold TxReady
    cases h : l.goOffline.tx with
    | silent => rfl
    | idle => exact fun _ => rfl
    | sending final rate m => exact fun _ => .inr rfl

/-- The engine states in which the receivers of the lines in service are active (R25). -/
abbrev Hears (eng : EngineState) : Prop := eng = .running ∨ eng = .draining ∨ eng = .faulted

/-- A SILENT transmitter wakes when its line goes ONLINE (R42). -/
def Transmitter.woken : Transmitter → Transmitter
  | .silent => .idle
  | t => t

/-- A line that goes ONLINE (R25, R36, R38, R42). -/
theorem goOnline_eq (eng : EngineState) (now : Time) (l : Line) :
    l.goOnline eng now =
      { l with
        state := .online
        txRate := l.rate
        decoder := .hunt
        errors := 0
        clean := 0
        forced := true
        finalOwed := false
        tx := l.tx.woken
        rx := if Hears eng then .idle else l.rx
        windowEnd := if Hears eng then some (Time.plus now 1000) else l.windowEnd } := by
  unfold Line.goOnline
  dsimp only
  by_cases h : Hears eng
  · rw [if_pos ((receiverActive_iff _ _).2 ⟨LineState.noConfusion, h⟩), if_pos h, if_pos h]
    cases l.tx <;> rfl
  · rw [if_neg fun hc => h ((receiverActive_iff _ _).1 hc).2, if_neg h, if_neg h]
    cases l.tx <;> rfl

theorem goOnline_lineReady {eng : EngineState} {l : Line} (now : Time) (hoff : l.state = .offline)
    (h : LineReady eng l) : LineReady eng (l.goOnline eng now) := by
  obtain ⟨hrx, -, -⟩ := h
  have hinactive : receiverActive eng l = false := by simp [receiverActive, hoff]
  rw [ReceiverOk, if_neg (by simp [hinactive])] at hrx
  rw [goOnline_eq]
  refine ⟨(receiverOk_iff _ _).2 ⟨fun hact => ?_, fun hact => ?_⟩, fun _ => rfl, ?_⟩
  · have hh : Hears eng := ((receiverActive_iff _ _).1 hact).2
    simp [hh]
  · have hh : ¬Hears eng := fun hh => by
      rw [(receiverActive_iff _ _).2 ⟨LineState.noConfusion, hh⟩] at hact
      cases hact
    simp [hh, hrx]
  · unfold TxReady
    cases l.tx with
    | silent => exact fun ho => by cases ho
    | idle => exact fun ho => by cases ho
    | sending final rate m => exact fun ho => by cases ho

theorem takeMode_lineReady {eng : EngineState} {l : Line} (online : Bool) (now : Time) (h : LineReady eng l) :
    LineReady eng (takeMode online eng now l) := by
  unfold takeMode
  split
  · rename_i hoff
    exact goOnline_lineReady now hoff h
  · exact h
  · exact h
  · exact goOffline_lineReady eng l

theorem configured_cellKept {b : ConfigureBody} (hb : b.Good) (eng : EngineState) (now : Time) (cs : CellState) :
    CellKept eng cs (cs.configured b eng now) := by
  obtain ⟨-, -, -, q, hl⟩ := configured_frame b eng now cs
  refine ⟨configured_guardOk hb eng now, configured_asmOk hb eng now, fun h => ?_⟩
  rw [hl]
  exact takeMode_lineReady _ now (takeRate_lineReady b.rate q h)

end Sys2Proof.Machine
end

