-- ==== Sys2Proof/Proofs/Moves.lean ====
section
/-! SUPPORT. Moves: changes of the part that keep each of its invariants for itself, and the building blocks that are
moves: requests of the port, notices, changes of one cell, changes of the catalogue. -/

namespace Sys2Proof.Machine

/-- Every cell's guard is in form. -/
abbrev GuardsOk (s : State) : Prop := ∀ c, GuardOk (s.cell c)

/-- Every cell's assembler is in form. -/
abbrev AsmsOk (s : State) : Prop := ∀ c, AsmOk (s.cell c)

/-- Every line is in form. -/
abbrev LinesOk (s : State) : Prop := ∀ c, LineOk s.engine.state s.coll.lots (s.cell c)

/-- A change that keeps every invariant, each for itself, and of the port moves the waiting requests alone. -/
structure Moves (s t : State) : Prop where
  asks : Asks s t
  engine : EngineOk s.engine → EngineOk t.engine
  catalogue : CatalogueOk s.coll → CatalogueOk t.coll
  guards : GuardsOk s → GuardsOk t
  asms : AsmsOk s → AsmsOk t
  lines : LinesOk s → LinesOk t

theorem Moves.refl (s : State) : Moves s s := ⟨Asks.refl s, id, id, id, id, id⟩

theorem Moves.trans {s t u : State} (h : Moves s t) (k : Moves t u) : Moves s u where
  asks := h.asks.trans k.asks
  engine := k.engine ∘ h.engine
  catalogue := k.catalogue ∘ h.catalogue
  guards := k.guards ∘ h.guards
  asms := k.asms ∘ h.asms
  lines := k.lines ∘ h.lines

/-- A catalogue with the same lots and plans is as legal. -/
theorem catalogueOk_congr {c d : Collation} (hlots : d.lots = c.lots) (hplans : d.plans = c.plans)
    (h : CatalogueOk c) : CatalogueOk d := by
  unfold CatalogueOk Collation.loaded at h ⊢
  rw [hlots, hplans]
  exact h

/-- Engine control, the cells, the lots and the plans are the same. -/
theorem Moves.of_asks {s t : State} (ha : Asks s t) (hengine : t.engine = s.engine) (hcells : t.cells = s.cells)
    (hlots : t.coll.lots = s.coll.lots) (hplans : t.coll.plans = s.coll.plans) : Moves s t where
  asks := ha
  engine := by rw [hengine]; exact id
  catalogue := catalogueOk_congr hlots hplans
  guards h c := by rw [cell_eq_of_cells hcells]; exact h c
  asms h c := by rw [cell_eq_of_cells hcells]; exact h c
  lines h c := by rw [cell_eq_of_cells hcells, hengine, hlots]; exact h c

theorem moves_portRequest (tr : Transaction) (s : State) (h : PortOk s → TransactionOk tr) :
    Moves s (portRequest tr s) := Moves.of_asks (asks_portRequest tr s h) rfl rfl rfl rfl

theorem moves_notice (s : State) (n : NoticeUnit) : Moves s { s with notice := n } :=
  Moves.of_asks (asks_notice s n) rfl rfl rfl rfl

theorem judgeRoom_frame (s : State) :
    (judgeRoom s).engine = s.engine ∧ (judgeRoom s).cells = s.cells ∧ (judgeRoom s).coll = s.coll := by
  unfold judgeRoom
  split
  · exact ⟨rfl, rfl, rfl⟩
  · split <;> exact ⟨rfl, rfl, rfl⟩

theorem moves_judgeRoom (s : State) : Moves s (judgeRoom s) := by
  obtain ⟨he, hc, hl⟩ := judgeRoom_frame s
  exact Moves.of_asks (asks_judgeRoom s) he hc (by rw [hl]) (by rw [hl])

theorem moves_readConsumed (s : State) : Moves s (readConsumed s) :=
  Moves.of_asks (asks_readConsumed s) rfl rfl rfl rfl

theorem moves_noticePump (s : State) : Moves s (noticePump s) := by
  unfold noticePump
  split
  · exact moves_judgeRoom s
  · exact Moves.refl s

theorem moves_raise (subject : Subject) (d : Detail) (s : State) : Moves s (raise subject d s) :=
  Moves.of_asks (asks_raise subject d s) (by simp) (by simp) (by simp) (by simp)

/-- The race fields alone. -/
theorem moves_of_races {s t : State} (h : SameButRaces s t) : Moves s t := by
  obtain ⟨rs, n, rfl⟩ := h
  exact Moves.of_asks (Asks.of_port_eq rfl rfl id) rfl rfl rfl rfl

/-! ## Changes of one cell -/

theorem guardOk_transmit {eng : EngineState} {lots : List Lot} {cs : CellState} (h : GuardOk cs) :
    GuardOk (transmit eng lots cs) := by
  obtain ⟨⟨ha, hg⟩, hh⟩ := transmit_frame eng lots cs
  unfold GuardOk
  rw [ha, hg, hh]
  exact h

theorem asmOk_transmit {eng : EngineState} {lots : List Lot} {cs : CellState} (h : AsmOk cs) :
    AsmOk (transmit eng lots cs) := by
  obtain ⟨⟨ha, hg⟩, hh⟩ := transmit_frame eng lots cs
  unfold AsmOk BufferOk
  rw [ha, hh]
  exact h

/-- A change of one cell that keeps its column's form. -/
theorem OnCell.moves {c : CellNo} {f : CellState → CellState} {ds : List Occurrence} {s t : State}
    (h : OnCell c f ds s t)
    (hguard : GuardOk (s.cell c) → GuardOk (f (s.cell c))) (hasm : AsmOk (s.cell c) → AsmOk (f (s.cell c)))
    (hline : LineOk s.engine.state s.coll.lots (s.cell c) → LineOk s.engine.state s.coll.lots (f (s.cell c))) :
    Moves s t := by
  have hall : ∀ {P : CellState → Prop}, (P (s.cell c) → P (f (s.cell c))) → (∀ d, P (s.cell d)) → ∀ d, P (t.cell d) := by
    intro P hP hs d
    by_cases hd : d = c
    · subst hd
      rw [h.cell]
      exact hP (hs d)
    · rw [h.others d hd]
      exact hs d
  refine ⟨h.asks, ?_, ?_, hall hguard, hall hasm, ?_⟩
  · rw [h.engine_eq]; exact id
  · rw [h.coll_eq]; exact id
  · unfold LinesOk
    rw [h.engine_eq, h.coll_eq]
    exact hall hline

/-- A change of one cell after which its line looks at its content (R116). -/
theorem OnCell.moves_of_kept {c : CellNo} {f : CellState → CellState} {ds : List Occurrence} {s t : State}
    (h : OnCell c (transmit s.engine.state s.coll.lots ∘ f) ds s t)
    (hk : CellKept s.engine.state (s.cell c) (f (s.cell c))) : Moves s t :=
  h.moves (guardOk_transmit ∘ hk.guard) (asmOk_transmit ∘ hk.asm) fun hl => lineOk_transmit _ _ (hk.line hl.ready)

/-- A cell changed and refreshed. -/
theorem moves_refresh_modCell (c : CellNo) (f : CellState → CellState) (s : State)
    (hk : CellKept s.engine.state (s.cell c) (f (s.cell c))) : Moves s (refresh c (s.modCell c f)) :=
  (onCell_modCell c f s).refreshed.moves_of_kept hk

/-! ## Changes of the catalogue (R114, R125) -/

@[simp] theorem findLot_cons (l : Lot) (lots : List Lot) (k : Word) :
    findLot (l :: lots) k = if l.key = k then some l else findLot lots k := by
  unfold findLot
  rw [List.find?_cons]
  by_cases h : l.key = k
  · simp [h]
  · have : (l.key == k) = false := by simpa using h
    simp [this, h]

theorem findLot_key {lots : List Lot} {k : Word} {l : Lot} (h : findLot lots k = some l) : l.key = k ∧ l ∈ lots := by
  refine ⟨?_, List.mem_of_find?_eq_some h⟩
  simpa using List.find?_some h

/-- A catalogue whose lots of one key are changed in place. -/
abbrev changeLots (key : Word) (f : Lot → Lot) (lots : List Lot) : List Lot :=
  lots.map fun l => if l.key = key then f l else l

theorem findLot_changeLots {key : Word} {f : Lot → Lot} (hf : ∀ l, (f l).key = l.key) (lots : List Lot) (k : Word) :
    findLot (changeLots key f lots) k = (findLot lots k).map fun l => if l.key = key then f l else l := by
  induction lots with
  | nil => rfl
  | cons l lots ih =>
    have hkey : (if l.key = key then f l else l).key = l.key := by split <;> simp [hf]
    rw [changeLots, List.map_cons, findLot_cons, findLot_cons, hkey]
    split
    · rfl
    · exact ih

theorem findLot_changeLots_ne {key k : Word} {f : Lot → Lot} (hf : ∀ l, (f l).key = l.key) (lots : List Lot)
    (h : k ≠ key) : findLot (changeLots key f lots) k = findLot lots k := by
  rw [findLot_changeLots hf]
  cases hl : findLot lots k with
  | none => rfl
  | some l =>
    have hkey : l.key ≠ key := by rw [(findLot_key hl).1]; exact h
    simp [hkey]

theorem findLot_drop (key k : Word) (lots : List Lot) :
    findLot (lots.filter fun l => l.key != key) k = if k = key then none else findLot lots k := by
  induction lots with
  | nil => simp [findLot]
  | cons l lots ih =>
    rw [List.filter_cons]
    by_cases hl : l.key = key
    · subst hl
      rw [if_neg (by simp), ih, findLot_cons]
      by_cases hk : k = l.key
      · simp [hk]
      · simp [hk, Ne.symm hk]
    · rw [if_pos (by simpa using hl), findLot_cons, ih, findLot_cons]
      by_cases hk : l.key = k
      · subst hk
        simp [hl]
      · simp [hk]

theorem findLot_append (lots : List Lot) (l : Lot) (k : Word) :
    findLot (lots ++ [l]) k = (findLot lots k).or (if l.key = k then some l else none) := by
  induction lots with
  | nil => simp [findLot]
  | cons m lots ih =>
    rw [List.cons_append, findLot_cons, findLot_cons, ih]
    split <;> rfl

/-- The reason LOT_FLOOR of a cell depends on its current lot's flag alone (R114). -/
theorem lotFloorHeld_congr {lots lots' : List Lot} {current : Option Word}
    (h : ∀ k ∈ current, (findLot lots' k).any (·.tripped) = (findLot lots k).any (·.tripped)) :
    lotFloorHeld lots' current = lotFloorHeld lots current := by
  cases current with
  | none => rfl
  | some k => exact h k rfl

theorem holdContent_congr {eng eng' : EngineState} {lots lots' : List Lot} {cs : CellState}
    (hrun : (eng' != .running) = (eng != .running))
    (hfloor : lotFloorHeld lots' cs.holds.currentLot = lotFloorHeld lots cs.holds.currentLot) :
    holdContent eng' lots' cs = holdContent eng lots cs := by
  simp only [holdContent, reasonByte, hrun, hfloor]

/-- A line in form stays so under an engine state that hears as much and a catalogue that holds as much. -/
theorem lineOk_congr {eng eng' : EngineState} {lots lots' : List Lot} {cs : CellState}
    (hact : receiverActive eng' cs.line = receiverActive eng cs.line) (hrun : (eng' != .running) = (eng != .running))
    (hfloor : lotFloorHeld lots' cs.holds.currentLot = lotFloorHeld lots cs.holds.currentLot)
    (h : LineOk eng lots cs) : LineOk eng' lots' cs := by
  obtain ⟨hrx, hrate, htx⟩ := h
  refine ⟨?_, hrate, ?_⟩
  · unfold ReceiverOk at hrx ⊢
    rw [hact]
    exact hrx
  · unfold TransmitterOk at htx ⊢
    rw [holdContent_congr hrun hfloor]
    exact htx

/-- Every wafer map of a catalogue is aligned (R128). -/
def MapsOk (lots : List Lot) : Prop := ∀ l ∈ lots, ∀ w ∈ l.wafers, aligned w.map 8 = true

theorem asks_setLots (s : State) {lots : List Lot} (h : MapsOk s.coll.lots → MapsOk lots) : Asks s (s.setLots lots) :=
  Asks.of_port_eq rfl rfl fun ⟨h1, h2, h3, h4, h5, h6, h7⟩ => ⟨h1, h2, h3, h4, h5, h6, h h7⟩

/-- A catalogue that holds every cell as much. -/
theorem moves_setLots (s : State) {lots : List Lot} (hmaps : MapsOk s.coll.lots → MapsOk lots)
    (hcat : CatalogueOk s.coll → CatalogueOk { s.coll with lots := lots })
    (hfloor : ∀ k, (findLot lots k).any (·.tripped) = (findLot s.coll.lots k).any (·.tripped)) :
    Moves s (s.setLots lots) :=
  ⟨asks_setLots s hmaps, id, hcat, id, id, fun h c => lineOk_congr rfl rfl (lotFloorHeld_congr fun k _ => hfloor k) (h c)⟩

/-- A catalogue in which one lot holds otherwise, the lines of that lot looking at their content (R114, R116). -/
theorem moves_refreshLot_setLots (key : Word) (s : State) {lots : List Lot}
    (hmaps : MapsOk s.coll.lots → MapsOk lots) (hcat : CatalogueOk s.coll → CatalogueOk { s.coll with lots := lots })
    (hfloor : ∀ k, k ≠ key → (findLot lots k).any (·.tripped) = (findLot s.coll.lots k).any (·.tripped)) :
    Moves s (refreshLot key (s.setLots lots)) := by
  have hcell : ∀ c, (refreshLot key (s.setLots lots)).cell c =
      if (s.cell c).holds.currentLot = some key then transmit s.engine.state lots (s.cell c) else s.cell c :=
    fun c => cell_mapCells _ _ c
  refine ⟨?_, id, hcat, fun h c => ?_, fun h c => ?_, fun h c => ?_⟩
  · exact (asks_setLots s hmaps).trans (Asks.of_port_eq rfl rfl id)
  · rw [hcell]
    split
    · exact guardOk_transmit (h c)
    · exact h c
  · rw [hcell]
    split
    · exact asmOk_transmit (h c)
    · exact h c
  · show LineOk s.engine.state lots _
    rw [hcell]
    split
    · exact lineOk_transmit _ _ (h c).ready
    · rename_i hcur
      refine lineOk_congr rfl rfl (lotFloorHeld_congr fun k hk => hfloor k ?_) (h c)
      rintro rfl
      exact hcur hk

/-- A change of a lot that keeps its key and its plan slot and moves no map. -/
structure LotKept (l m : Lot) : Prop where
  key : m.key = l.key
  plan : m.plan = l.plan
  maps : m.wafers.map (·.map) = l.wafers.map (·.map)

theorem LotKept.ite {key : Word} {f : Lot → Lot} (hf : ∀ l, LotKept l (f l)) (l : Lot) :
    LotKept l (if l.key = key then f l else l) := by
  split
  · exact hf l
  · exact ⟨rfl, rfl, rfl⟩

theorem changeLots_mapsOk {key : Word} {f : Lot → Lot} (hf : ∀ l, LotKept l (f l)) {lots : List Lot}
    (h : MapsOk lots) : MapsOk (changeLots key f lots) := by
  intro m hm w hw
  obtain ⟨l, hl, rfl⟩ := List.mem_map.1 hm
  have hmem := List.mem_map_of_mem (f := (·.map)) hw
  rw [(LotKept.ite hf l).maps] at hmem
  obtain ⟨w', hw', he⟩ := List.mem_map.1 hmem
  rw [← he]
  exact h l hl w' hw'

theorem changeLots_catalogueOk {key : Word} {f : Lot → Lot} (hf : ∀ l, LotKept l (f l)) {c : Collation}
    (h : CatalogueOk c) : CatalogueOk { c with lots := changeLots key f c.lots } := by
  obtain ⟨hlen, hnodup, hload⟩ := h
  refine ⟨by simpa using hlen, ?_, ?_⟩
  · have hkeys : (changeLots key f c.lots).map (·.key) = c.lots.map (·.key) := by
      rw [List.map_map]
      exact List.map_congr_left fun l _ => (LotKept.ite hf l).key
    dsimp only
    rw [hkeys]
    exact hnodup
  · intro m hm
    obtain ⟨l, hl, rfl⟩ := List.mem_map.1 hm
    have hplan := (LotKept.ite (key := key) hf l).plan
    simp only [Collation.loaded] at hload ⊢
    rw [hplan]
    exact hload l hl

/-- A lot changed in place, its floor flag kept. -/
theorem moves_modLot (key : Word) (f : Lot → Lot) (s : State) (hf : ∀ l, LotKept l (f l))
    (htrip : ∀ l, (f l).tripped = l.tripped) : Moves s (modLot key f s) := by
  refine moves_setLots s (changeLots_mapsOk hf) (changeLots_catalogueOk hf) fun k => ?_
  rw [findLot_changeLots fun l => (hf l).key]
  cases findLot s.coll.lots k with
  | none => rfl
  | some l =>
    simp only [Option.map_some, Option.any_some]
    split
    · exact htrip l
    · rfl

/-- A lot changed in place, its lines looking at their content. -/
theorem moves_refreshLot_modLot (key : Word) (f : Lot → Lot) (s : State) (hf : ∀ l, LotKept l (f l)) :
    Moves s (refreshLot key (modLot key f s)) := by
  refine moves_refreshLot_setLots key s (changeLots_mapsOk hf) (changeLots_catalogueOk hf) fun k hk => ?_
  rw [findLot_changeLots_ne (fun l => (hf l).key) _ hk]

theorem moves_latchFloor (key : Word) (s : State) : Moves s (latchFloor key s) :=
  moves_refreshLot_modLot key _ s fun _ => ⟨rfl, rfl, rfl⟩

/-- A lot leaves the catalogue (R19, R114, R136). -/
theorem moves_dropLot (key : Word) (s : State) : Moves s (dropLot key s) := by
  refine moves_refreshLot_setLots key s (fun h l hl => h l (List.mem_of_mem_filter hl)) (fun h => ?_) fun k hk => ?_
  · obtain ⟨hlen, hnodup, hload⟩ := h
    refine ⟨(List.length_filter_le _ _).trans hlen, ?_, fun l hl => hload l (List.mem_of_mem_filter hl)⟩
    exact hnodup.sublist (List.filter_sublist.map _)
  · rw [findLot_drop, if_neg hk]

/-- Requests, work and progress are no part of the invariants. -/
theorem moves_coll (s : State) {d : Collation} (hlots : d.lots = s.coll.lots) (hplans : d.plans = s.coll.plans) :
    Moves s { s with coll := d } := by
  refine Moves.of_asks (Asks.of_port_eq rfl rfl fun h => addressesOk_congr (s := s) rfl rfl rfl hlots h) rfl rfl hlots hplans

theorem moves_joinRequests (r : Request) (s : State) : Moves s (joinRequests r s) := moves_coll s rfl rfl

theorem moves_setWork (w : Option Work) (s : State) : Moves s (setWork w s) := moves_coll s rfl rfl

theorem moves_setProgress (p : Option ReportStage) (s : State) : Moves s (setProgress p s) := moves_coll s rfl rfl

theorem moves_raiseFloor (key : Word) (reporter : Option (CellNo × Site)) (s : State) :
    Moves s (raiseFloor key reporter s) := by
  unfold raiseFloor
  split
  · exact Moves.refl s
  · exact moves_raise _ _ _

/-- A change on each cell of a list in turn. -/
theorem moves_eachCell {f : CellNo → State → State} (hf : ∀ c s, Moves s (f c s)) (cs : List CellNo) (s : State) :
    Moves s (eachCell f cs s) := by
  induction cs generalizing s with
  | nil => exact Moves.refl s
  | cons c cs ih => exact (hf c s).trans (ih _)

/-! ## The order unit's items -/

/-- An order unit whose position and records are as well aligned. -/
theorem moves_setOrder (s : State) {o : OrderUnit}
    (h : AddressesOk s → aligned (o.position.getD 0) 8 = true ∧ ∀ v ∈ o.service, aligned v.record 8 = true) :
    Moves s (s.setOrder o) :=
  Moves.of_asks (Asks.of_port_eq rfl rfl fun ha => by
    obtain ⟨hp, hr⟩ := h ha
    obtain ⟨h1, h2, h3, h4, -, -, h7⟩ := ha
    exact ⟨h1, h2, h3, h4, hp, hr, h7⟩) rfl rfl rfl rfl

/-- An order unit at the same position, in service of the same record. -/
theorem moves_setOrder_of_eq (s : State) {o : OrderUnit} (hpos : o.position = s.order.position)
    (hserv : o.service.map (·.record) = s.order.service.map (·.record)) : Moves s (s.setOrder o) :=
  Moves.of_asks (Asks.of_port_eq rfl rfl fun ha => addressesOk_congr (s := s) rfl hpos hserv rfl ha) rfl rfl rfl rfl

theorem answerRecord_aligned {s : State} (h : AddressesOk s) : aligned s.order.answerRecord 8 = true := by
  obtain ⟨-, -, -, -, hpos, hserv, -⟩ := h
  unfold OrderUnit.answerRecord
  split
  · rename_i v hv
    exact hserv v hv
  · exact hpos

theorem resultWrite_ok {s : State} (out : OrderOutcome) (h : AddressesOk s) : TransactionOk (resultWrite s.order out) := by
  refine transactionOk_of_aligned (n := 4) (by decide) ?_ ?_
  · exact aligned_addrPlus (by decide) (aligned_of_dvd (by decide) (answerRecord_aligned h)) (by decide)
  · simp [resultWrite, writeOf]

theorem moves_answer (out : OrderOutcome) (s : State) : Moves s (answer out s) := by
  unfold answer
  have horder : Moves s (s.setOrder
      { s.order with
        phase := .answer
        outcome := some out
        service := s.order.service.map fun v => { v with stage := .answering } }) :=
    moves_setOrder_of_eq s rfl (by cases s.order.service <;> rfl)
  refine ⟨?_, horder.engine, horder.catalogue, horder.guards, horder.asms, horder.lines⟩
  refine Asks.trans horder.asks (asks_portRequest _ _ fun h => resultWrite_ok out ?_)
  refine addressesOk_congr ?_ ?_ ?_ ?_ h.1 <;> try rfl
  cases hs : s.order.service <;> simp [State.setOrder, hs]

theorem moves_returnOutcome (out : OrderOutcome) (s : State) : Moves s (returnOutcome out s) := by
  unfold returnOutcome
  split
  · exact moves_answer out s
  · exact Moves.refl s

end Sys2Proof.Machine
end

