-- ==== Sys2Proof/Proofs/ReportEnd.lean ====
section
/-! SUPPORT. Steps 5 and 6 of the end of a report (R83): the guard unit's outcome, its notices and its hand-off, and the
lot floor, whatever order the races give them. -/

namespace Sys2Proof.Machine

/-! ## The notices of the guard unit and of the floor -/

/-- The occurrences of an evaluation's trips (R98). -/
def tripNotices (c : CellNo) (site : Site) (ds : List Detail) : List Occurrence :=
  ds.map fun d => (tripSubject c site d, d)

/-- The occurrence of a lot floor (R132). -/
def floorNotices (key : Word) (reporter : Option (CellNo × Site)) (lots : List Lot) : List Occurrence :=
  match findLot lots key with
  | none => []
  | some l => [(.lot key 0, l.floorDetail reporter)]

theorem tells_of_races {s t : State} (h : SameButRaces s t) : Tells [] s t := by
  obtain ⟨rs, n, rfl⟩ := h
  exact Tells.of_eq rfl rfl rfl

theorem tells_raiseFloor (key : Word) (reporter : Option (CellNo × Site)) (s : State) :
    Tells (floorNotices key reporter s.coll.lots) s (raiseFloor key reporter s) := by
  unfold raiseFloor floorNotices
  cases findLot s.coll.lots key with
  | none => exact Tells.refl s
  | some l => exact tells_raise _ _ _

theorem tells_raiseTrips (c : CellNo) (site : Site) (ds : List Detail) (s : State) :
    Tells (tripNotices c site ds) s (raiseTrips c site ds s) := by
  induction ds generalizing s with
  | nil => exact Tells.refl s
  | cons d ds ih => exact (tells_raise _ _ _).trans (ih _)

theorem asks_raiseTrips (c : CellNo) (site : Site) (ds : List Detail) (s : State) :
    Asks s (raiseTrips c site ds s) := by
  induction ds generalizing s with
  | nil => exact Asks.refl s
  | cons d ds ih => exact (asks_raise _ _ _).trans (ih _)

/-- Among the notices of one evaluation another block's notice stands somewhere (R92, R158). -/
theorem raiseTripsWith_tells {other : State → State} {xs : List Occurrence} (c : CellNo) (site : Site)
    (ds : List Detail) (s : State) (hother : ∀ t : State, t.coll = s.coll → Tells xs t (other t) ∧ Asks t (other t)) :
    (∃ ys, ys.Perm (tripNotices c site ds ++ xs) ∧ Tells ys s (raiseTripsWith other c site ds s))
      ∧ Asks s (raiseTripsWith other c site ds s) := by
  induction ds generalizing s with
  | nil => exact ⟨⟨xs, List.Perm.refl _, (hother s rfl).1⟩, (hother s rfl).2⟩
  | cons d ds ih =>
    have hrace := takeRace_sameButRaces s
    unfold raiseTripsWith
    split
    · rename_i t ht
      rw [ht] at hrace
      have hcoll : t.coll = s.coll := by
        obtain ⟨rs, n, rfl⟩ := hrace
        rfl
      obtain ⟨⟨ys, hperm, htells⟩, hasks⟩ := ih (raise (tripSubject c site d) d t) fun u hu =>
        hother u (by rw [hu, raise_coll, hcoll])
      exact ⟨⟨_ :: ys, hperm.cons _, ((tells_of_races hrace).trans (tells_raise _ _ _)).trans htells⟩,
        ((moves_of_races hrace).asks.trans (asks_raise _ _ _)).trans hasks⟩
    · rename_i t ht
      rw [ht] at hrace
      have hcoll : t.coll = s.coll := by
        obtain ⟨rs, n, rfl⟩ := hrace
        rfl
      obtain ⟨htells, hasks⟩ := hother t hcoll
      exact ⟨⟨_, List.perm_append_comm, ((tells_of_races hrace).trans htells).trans (tells_raiseTrips c site (d :: ds) _)⟩,
        ((moves_of_races hrace).asks.trans hasks).trans (asks_raiseTrips _ _ _ _)⟩

/-! ## Changes of lines, notices and a floor flag -/

/-- Of a line only what its transmitter sends has moved. -/
def Heard (l l' : Line) : Prop :=
  ∃ tx last forced owed, l' = { l with tx := tx, lastSent := last, forced := forced, finalOwed := owed }

theorem Heard.refl (l : Line) : Heard l l := ⟨l.tx, l.lastSent, l.forced, l.finalOwed, rfl⟩

theorem Heard.trans {l l' l'' : Line} (h : Heard l l') (k : Heard l' l'') : Heard l l'' := by
  obtain ⟨tx, last, forced, owed, rfl⟩ := h
  obtain ⟨tx', last', forced', owed', rfl⟩ := k
  exact ⟨tx', last', forced', owed', rfl⟩

theorem heard_transmit (eng : EngineState) (lots : List Lot) (cs : CellState) :
    Heard cs.line (transmit eng lots cs).line := transmit_line eng lots cs

/-- Only lines and notices have moved, and where asked the floor flag of a lot is latched; these occurrences are
raised. -/
structure Settles (key : Word) (latched : Bool) (ds : List Occurrence) (s t : State) : Prop where
  frame : LinesAndNotices s t
  holds : ∀ d, (t.cell d).holds = (s.cell d).holds
  heard : ∀ d, Heard (s.cell d).line (t.cell d).line
  coll : t.coll = if latched then (modLot key (fun l => { l with tripped := true }) s).coll else s.coll
  asks : Asks s t
  tells : Tells ds s t

namespace Settles

variable {key : Word} {b : Bool} {ds es : List Occurrence} {s t u : State}

theorem of_noticeOnly (h : NoticeOnly s t) (ha : Asks s t) (ht : Tells ds s t) : Settles key false ds s t where
  frame := h.linesAndNotices
  holds d := by rw [h.frame.2.1 d]
  heard d := by
    rw [h.frame.2.1 d]
    exact Heard.refl _
  coll := h.frame.1.2.2.2.2.2.2.1 (by simp)
  asks := ha
  tells := ht

theorem of_races (h : SameButRaces s t) : Settles key false [] s t := by
  obtain ⟨rs, n, rfl⟩ := h
  exact of_noticeOnly ⟨s.notice, s.port.waiting.noticeUnit, rs, n, rfl⟩ (moves_of_races ⟨rs, n, rfl⟩).asks
    (tells_of_races ⟨rs, n, rfl⟩)

theorem latch (key : Word) (s : State) : Settles key true [] s (latchFloor key s) where
  frame := latchFloor_linesAndNotices key s
  holds d := by
    unfold latchFloor refreshLot
    rw [cell_mapCells]
    split
    · exact (transmit_frame _ _ _).2
    · rfl
  heard d := by
    unfold latchFloor refreshLot
    rw [cell_mapCells]
    split
    · exact heard_transmit _ _ _
    · exact Heard.refl _
  coll := rfl
  asks := (moves_latchFloor key s).asks
  tells := Tells.of_eq rfl rfl rfl

theorem refresh (key : Word) (c : CellNo) (s : State) : Settles key false [] s (refresh c s) where
  frame := refresh_linesAndNotices c s
  holds d := by
    by_cases h : d = c
    · subst h
      rw [(onCell_refresh d s).cell]
      exact (transmit_frame _ _ _).2
    · rw [(onCell_refresh c s).others d h]
  heard d := by
    by_cases h : d = c
    · subst h
      rw [(onCell_refresh d s).cell]
      exact heard_transmit _ _ _
    · rw [(onCell_refresh c s).others d h]
      exact Heard.refl _
  coll := rfl
  asks := (onCell_refresh c s).asks
  tells := Tells.of_eq rfl rfl rfl

theorem before (h : Settles key false ds s t) (k : Settles key b es t u) : Settles key b (ds ++ es) s u where
  frame := h.frame.trans k.frame
  holds d := (k.holds d).trans (h.holds d)
  heard d := (h.heard d).trans (k.heard d)
  coll := by
    rw [k.coll]
    have hc : t.coll = s.coll := h.coll
    split
    · unfold modLot State.setLots
      simp only [hc]
    · exact hc
  asks := h.asks.trans k.asks
  tells := h.tells.trans k.tells

theorem after (h : Settles key b ds s t) (k : Settles key false es t u) : Settles key b (ds ++ es) s u where
  frame := h.frame.trans k.frame
  holds d := (k.holds d).trans (h.holds d)
  heard d := (h.heard d).trans (k.heard d)
  coll := (k.coll : u.coll = t.coll).trans h.coll
  asks := h.asks.trans k.asks
  tells := h.tells.trans k.tells

end Settles

/-- Every line but one is in form, and that one is but for what its transmitter sends. -/
def NearLines (c : CellNo) (s : State) : Prop :=
  LineReady s.engine.state (s.cell c).line ∧ ∀ d, d ≠ c → LineOk s.engine.state s.coll.lots (s.cell d)

theorem LinesOk.near {s : State} (h : LinesOk s) (c : CellNo) : NearLines c s := ⟨(h c).ready, fun d _ => h d⟩

theorem nearLines_congr {c : CellNo} {s t : State} (hengine : t.engine = s.engine) (hcoll : t.coll = s.coll)
    (hline : (t.cell c).line = (s.cell c).line) (hcells : ∀ d, d ≠ c → t.cell d = s.cell d) (h : NearLines c s) :
    NearLines c t := by
  obtain ⟨hc, hd⟩ := h
  refine ⟨by rw [hengine, hline]; exact hc, fun d hne => ?_⟩
  rw [hengine, hcoll, hcells d hne]
  exact hd d hne

theorem nearLines_noticeOnly {c : CellNo} {s t : State} (hn : NoticeOnly s t) (h : NearLines c s) : NearLines c t := by
  obtain ⟨n, w, rs, k, rfl⟩ := hn
  exact nearLines_congr (s := s) rfl rfl rfl (fun _ _ => rfl) h

theorem nearLines_takeHandOff {c : CellNo} {before : Guard} {s : State} (h : NearLines c s) :
    NearLines c (takeHandOff c before s) := by
  refine nearLines_congr (s := s) rfl rfl ?_ (fun d hne => cell_modCell_ne _ _ hne) h
  unfold takeHandOff
  rw [cell_modCell]
  exact (handOffFrom_frame _ _).2

theorem linesOk_refresh {c : CellNo} {s : State} (h : NearLines c s) : LinesOk (refresh c s) := by
  intro d
  by_cases hd : d = c
  · subst hd
    rw [(onCell_refresh d s).cell]
    exact lineOk_transmit _ _ h.1
  · rw [(onCell_refresh c s).others d hd]
    exact h.2 d hd

theorem cell_latchFloor (key : Word) (s : State) (d : CellNo) :
    (latchFloor key s).cell d =
      if (s.cell d).holds.currentLot = some key then
        transmit s.engine.state (changeLots key (fun l => { l with tripped := true }) s.coll.lots) (s.cell d)
      else s.cell d := cell_mapCells _ _ d

/-- A latch reaches the cell of the report, whose current lot it is (R114). -/
theorem linesOk_latchFloor {c : CellNo} {key : Word} {s : State} (hcur : (s.cell c).holds.currentLot = some key)
    (h : NearLines c s) : LinesOk (latchFloor key s) := by
  intro d
  show LineOk s.engine.state (changeLots key (fun l => { l with tripped := true }) s.coll.lots) ((latchFloor key s).cell d)
  rw [cell_latchFloor]
  split
  · by_cases hd : d = c
    · subst hd
      exact lineOk_transmit _ _ h.1
    · exact lineOk_transmit _ _ (h.2 d hd).ready
  · rename_i hne
    have hd : d ≠ c := fun e => hne (e ▸ hcur)
    refine lineOk_congr rfl rfl (lotFloorHeld_congr fun k hk => ?_) (h.2 d hd)
    have hk' : k ≠ key := by
      rintro rfl
      exact hne hk
    rw [findLot_changeLots_ne (f := fun l => { l with tripped := true }) (fun _ => rfl) _ hk']

/-! ## Steps 5 and 6 -/

theorem setCell_cell (c : CellNo) (s : State) : s.setCell c (s.cell c) = s := by
  unfold State.setCell State.cell
  rw [Vector.set_getElem_self]

/-- Without a changed flag there is nothing to hand off (R99). -/
theorem takeHandOff_of_same {c : CellNo} {before : Guard} {s : State} (h : handsOff c before s = false) :
    takeHandOff c before s = s := by
  have hflags : before.flags = (s.cell c).guard.flags := by simpa [handsOff] using h
  unfold takeHandOff State.modCell CellState.handOffFrom
  dsimp only
  rw [if_pos hflags, setCell_cell]

theorem takeHandOff_currentLot (c : CellNo) (before : Guard) (s : State) :
    ((takeHandOff c before s).cell c).holds.currentLot = (s.cell c).holds.currentLot := by
  obtain ⟨b, m, h⟩ := handOffFrom_holds before (s.cell c)
  unfold takeHandOff
  rw [cell_modCell, h]

/-- A decided race moves nothing. -/
theorem settles_takeRace {key : Word} {ds : List Occurrence} {s t u : State} {b : Bool} (h : Settles key false ds s t)
    (hn : NoticeOnly s t) (hrace : takeRace t = (b, u)) : Settles key false ds s u ∧ NoticeOnly s u := by
  have hs := takeRace_sameButRaces t
  have hno := takeRace_noticeOnly t
  rw [hrace] at hs hno
  have hu := h.before (Settles.of_races hs)
  rw [List.append_nil] at hu
  exact ⟨hu, hn.trans hno⟩

/-- The state in which the guard unit has taken the outcome of a report (R83, step 5). -/
abbrev guardTaken (c : CellNo) (r : Report) (e : Ending) (s : State) : State :=
  finishGuard c r (finishOutcome r e s) s

/-- Steps 5 and 6: up to the hand-off the notices come and the floor flag may be latched; after it the rest. In the end
every line has looked at its content. -/
theorem finishHolds_inv (c : CellNo) (r : Report) (e : Ending) (s : State) :
    ∃ u early late ds,
      Settles r.key early ds (guardTaken c r e s) u
      ∧ Settles r.key late [] (takeHandOff c (s.cell c).guard u) (finishHolds c r e s)
      ∧ (early = false ∨ late = false)
      ∧ (early || late) = finishFloorDue r e (guardTaken c r e s)
      ∧ ds.Perm (tripNotices c r.site (finishTrips c r (finishOutcome r e s) s)
          ++ if finishFloorDue r e (guardTaken c r e s) then floorNotices r.key (some (c, r.site)) s.coll.lots else [])
      ∧ (((early || late) = true → (s.cell c).holds.currentLot = some r.key) → NearLines c (guardTaken c r e s) →
          LinesOk (finishHolds c r e s)) := by
  have hcoll : (guardTaken c r e s).coll = s.coll := by
    unfold guardTaken finishGuard
    split <;> rfl
  have hcur : ((guardTaken c r e s).cell c).holds = (s.cell c).holds := by
    unfold guardTaken finishGuard
    split
    · rfl
    · rw [cell_modCell]
      exact (takeOutcome_frame _ _ _).2.2
  unfold finishHolds
  extract_lets before outcome trips s1 s2
  have htaken : guardTaken c r e s = s1 := rfl
  rw [htaken] at hcoll hcur ⊢
  split
  case isFalse hdue =>
    have hnotices : NoticeOnly s1 (raiseTrips c r.site trips s1) := raiseTrips_noticeOnly _ _ _ _
    refine ⟨_, false, false, _, Settles.of_noticeOnly hnotices (asks_raiseTrips _ _ _ _) (tells_raiseTrips _ _ _ _),
      Settles.refresh _ _ _, .inl rfl, by simpa using hdue, ?_, fun _ hnear => ?_⟩
    · rw [List.append_nil]
    · exact linesOk_refresh (nearLines_takeHandOff (nearLines_noticeOnly hnotices hnear))
  case isTrue hdue =>
    have hfloor : ∀ t : State, t.coll = s1.coll →
        Tells (floorNotices r.key (some (c, r.site)) s.coll.lots) t (raiseFloor r.key (some (c, r.site)) t)
          ∧ Asks t (raiseFloor r.key (some (c, r.site)) t) := by
      intro t ht
      have h := tells_raiseFloor r.key (some (c, r.site)) t
      rw [ht, hcoll] at h
      exact ⟨h, (moves_raiseFloor _ _ _).asks⟩
    have hn2 : NoticeOnly s1 s2 := raiseTripsWith_noticeOnly _ (raiseFloor_noticeOnly _ _) _ _ _ _
    obtain ⟨⟨ds, hperm, htells⟩, hasks⟩ := raiseTripsWith_tells c r.site trips s1 hfloor
    have h2 : Settles r.key false ds s1 s2 := Settles.of_noticeOnly hn2 hasks htells
    split
    case isFalse hsame =>
      have hoff : takeHandOff c before s2 = s2 := takeHandOff_of_same (by simpa using hsame)
      refine ⟨s2, false, true, ds, h2, ?_, .inl rfl, hdue.symm, hperm, fun hk hnear => ?_⟩
      · rw [hoff]
        exact Settles.latch _ _
      · exact linesOk_latchFloor (by rw [h2.holds c, hcur]; exact hk rfl) (nearLines_noticeOnly hn2 hnear)
    case isTrue hoff =>
      split
      case h_1 s3 hs3 =>
        obtain ⟨h3, hn3⟩ := settles_takeRace h2 hn2 hs3
        refine ⟨s3, false, true, ds, h3, Settles.latch _ _, .inl rfl, hdue.symm, hperm, fun hk hnear => ?_⟩
        refine linesOk_latchFloor ?_ (nearLines_takeHandOff (nearLines_noticeOnly hn3 hnear))
        rw [takeHandOff_currentLot, h3.holds c, hcur]
        exact hk rfl
      case h_2 s3 hs3 =>
        obtain ⟨h3, hn3⟩ := settles_takeRace h2 hn2 hs3
        split
        case h_1 s4 hs4 =>
          obtain ⟨h4, hn4⟩ := settles_takeRace h3 hn3 hs4
          refine ⟨s4, false, true, ds, h4, (Settles.refresh _ _ _).before (Settles.latch _ _), .inl rfl, hdue.symm,
            hperm, fun hk hnear => ?_⟩
          exact (moves_latchFloor _ _).lines (linesOk_refresh (nearLines_takeHandOff (nearLines_noticeOnly hn4 hnear)))
        case h_2 s4 hs4 =>
          obtain ⟨h4, hn4⟩ := settles_takeRace h3 hn3 hs4
          have h5 := h4.before (Settles.latch r.key s4)
          rw [List.append_nil] at h5
          refine ⟨_, true, false, ds, h5, Settles.refresh _ _ _, .inr rfl, hdue.symm, hperm, fun hk hnear => ?_⟩
          have hlatched := linesOk_latchFloor (c := c) (key := r.key) (s := s4)
            (by rw [h4.holds c, hcur]; exact hk rfl) (nearLines_noticeOnly hn4 hnear)
          exact linesOk_refresh (nearLines_takeHandOff (hlatched.near c))

end Sys2Proof.Machine
end

