-- ==== Sys2Proof/Proofs/CollationMoves.lean ====
section
/-! SUPPORT. The collation unit's events are moves: the end of a report, the way through a record, the catalogue requests
and the unit's completions (R18 to R20, R63 to R86, R128 to R140). -/

namespace Sys2Proof.Machine

/-! ## Steps 5 and 6, part by part -/

theorem guardTaken_frame (c : CellNo) (r : Report) (e : Ending) (s : State) :
    (guardTaken c r e s).coll = s.coll ∧ Asks s (guardTaken c r e s) ∧ Tells [] s (guardTaken c r e s)
      ∧ ((guardTaken c r e s).cell c).asm = (s.cell c).asm ∧ ((guardTaken c r e s).cell c).line = (s.cell c).line
      ∧ ((guardTaken c r e s).cell c).holds = (s.cell c).holds ∧ KeepsCells c s (guardTaken c r e s) := by
  unfold guardTaken finishGuard
  split
  · exact ⟨rfl, Asks.refl s, Tells.refl s, rfl, rfl, rfl, KeepsCells.refl _ _⟩
  · rename_i v _
    have h := onCell_modCell c (CellState.takeOutcome r.site v) s
    obtain ⟨ha, hl, hh⟩ := takeOutcome_frame r.site v (s.cell c)
    refine ⟨rfl, h.asks, h.tells, ?_, ?_, ?_, h.others⟩ <;> rw [h.cell] <;> assumption

theorem guardTaken_form {c : CellNo} {s : State} (r : Report) (e : Ending)
    (h : GuardForm (s.cell c).asm.enabled (s.cell c).guard) :
    GuardForm ((guardTaken c r e s).cell c).asm.enabled ((guardTaken c r e s).cell c).guard := by
  unfold guardTaken finishGuard
  split
  · exact h
  · rw [cell_modCell]
    exact takeOutcome_form _ _ h

theorem handOffFrom_holds_congr {before : Guard} {x y : CellState} (hguard : y.guard = x.guard) (hholds : y.holds = x.holds) :
    (y.handOffFrom before).holds = (x.handOffFrom before).holds := by
  unfold CellState.handOffFrom
  rw [hguard]
  split
  · exact hholds
  · unfold CellState.handOff
    rw [hguard, hholds]

/-- The holds after steps 5 and 6: those of the reporting cell follow the hand-off, the others stay (R99). -/
theorem finishHolds_holds (c : CellNo) (r : Report) (e : Ending) (s : State) :
    ((finishHolds c r e s).cell c).holds = (((guardTaken c r e s).cell c).handOffFrom (s.cell c).guard).holds
      ∧ ∀ d, d ≠ c → ((finishHolds c r e s).cell d).holds = (s.cell d).holds := by
  obtain ⟨u, early, late, ds, h1, h2, -⟩ := finishHolds_inv c r e s
  refine ⟨?_, fun d hd => ?_⟩
  · rw [h2.holds c]
    unfold takeHandOff
    rw [cell_modCell]
    exact handOffFrom_holds_congr (h1.frame.2.1 c).2 (h1.holds c)
  · rw [h2.holds d]
    unfold takeHandOff
    rw [cell_modCell_ne _ _ hd, h1.holds d, (guardTaken_frame c r e s).2.2.2.2.2.2 d hd]

/-- The blocks of the cells after steps 5 and 6: the reporting cell's guard has taken the outcome (R90). -/
theorem finishHolds_work (c : CellNo) (r : Report) (e : Ending) (s : State) (d : CellNo) :
    SameWork ((guardTaken c r e s).cell d) ((finishHolds c r e s).cell d) := (finishHolds_frame c r e s).2.1 d

theorem finishHolds_asks (c : CellNo) (r : Report) (e : Ending) (s : State) : Asks s (finishHolds c r e s) := by
  obtain ⟨u, early, late, ds, h1, h2, -⟩ := finishHolds_inv c r e s
  exact (((guardTaken_frame c r e s).2.1.trans h1.asks).trans (onCell_modCell _ _ _).asks).trans h2.asks

/-- The notices of steps 5 and 6, in some order (R92, R132, R158). -/
theorem finishHolds_tells (c : CellNo) (r : Report) (e : Ending) (s : State) :
    ∃ ds, ds.Perm (tripNotices c r.site (finishTrips c r (finishOutcome r e s) s)
        ++ if finishFloorDue r e (guardTaken c r e s) then floorNotices r.key (some (c, r.site)) s.coll.lots else [])
      ∧ Tells ds s (finishHolds c r e s) := by
  obtain ⟨u, early, late, ds, h1, h2, -, -, hperm, -⟩ := finishHolds_inv c r e s
  refine ⟨ds, hperm, ?_⟩
  have h := (((guardTaken_frame c r e s).2.2.1.trans h1.tells).trans (onCell_modCell _ _ _).tells).trans h2.tells
  simpa using h

/-- The catalogue after steps 5 and 6: the floor flag latched where it is due (R132). -/
theorem finishHolds_coll (c : CellNo) (r : Report) (e : Ending) (s : State) :
    (finishHolds c r e s).coll =
      if finishFloorDue r e (guardTaken c r e s) then (modLot r.key (fun l => { l with tripped := true }) s).coll
      else s.coll := by
  obtain ⟨u, early, late, ds, h1, h2, hone, hdue, -⟩ := finishHolds_inv c r e s
  have hu : (takeHandOff c (s.cell c).guard u).coll = u.coll := rfl
  have hcoll := (guardTaken_frame c r e s).1
  rw [h2.coll, ← hdue]
  unfold modLot State.setLots
  rcases hone with rfl | rfl
  · have h1c : u.coll = s.coll := h1.coll.trans hcoll
    simp only [hu, h1c, Bool.false_or]
  · have h1c := h1.coll
    unfold modLot State.setLots at h1c
    simp only [hcoll] at h1c
    simpa only [hu, Bool.or_false, Bool.false_eq_true, if_false] using h1c

/-- The blocks of the cells after steps 5 and 6 against those before. -/
theorem finishHolds_asm (c : CellNo) (r : Report) (e : Ending) (s : State) (d : CellNo) :
    ((finishHolds c r e s).cell d).asm = (s.cell d).asm := by
  rw [(finishHolds_work c r e s d).1]
  obtain ⟨-, -, -, ha, -, -, hne⟩ := guardTaken_frame c r e s
  by_cases hd : d = c
  · rw [hd, ha]
  · rw [hne d hd]

/-- Steps 5 and 6, where a floor that trips is that of the cell's current lot (R80, R132). -/
theorem moves_finishHolds (c : CellNo) (r : Report) (e : Ending) (s : State)
    (hcur : finishFloorDue r e (guardTaken c r e s) = true → (s.cell c).holds.currentLot = some r.key) :
    Moves s (finishHolds c r e s) := by
  obtain ⟨-, -, -, hasm, hline, hholds, hne⟩ := guardTaken_frame c r e s
  obtain ⟨hself, hother⟩ := finishHolds_holds c r e s
  have hengine : (finishHolds c r e s).engine = s.engine := by
    obtain ⟨ds, -, h⟩ := finishHolds_tells c r e s
    exact h.engine
  refine ⟨finishHolds_asks c r e s, ?_, ?_, fun hg d => ?_, fun ha d => ?_, fun hl => ?_⟩
  · rw [hengine]; exact id
  · rw [finishHolds_coll]
    split
    · exact changeLots_catalogueOk (f := fun l => { l with tripped := true }) fun _ => ⟨rfl, rfl, rfl⟩
    · exact id
  · obtain ⟨hw1, hw2⟩ := finishHolds_work c r e s d
    by_cases hd : d = c
    · subst hd
      obtain ⟨hform, hfollow⟩ := (guardOk_iff _).1 (hg d)
      rw [guardOk_iff, hw1, hw2, hself]
      refine ⟨guardTaken_form r e hform, ?_⟩
      rw [← hholds] at hfollow
      have h := handOffFrom_follows hfollow
      rwa [(handOffFrom_frame _ _).1.2] at h
    · rw [guardOk_iff, hw1, hw2, hother d hd, hne d hd]
      exact (guardOk_iff _).1 (hg d)
  · have hbuf : ((finishHolds c r e s).cell d).holds.buffer = (s.cell d).holds.buffer := by
      by_cases hd : d = c
      · subst hd
        obtain ⟨b, m, hh⟩ := handOffFrom_holds (s.cell d).guard ((guardTaken d r e s).cell d)
        rw [hself, hh, hholds]
      · rw [hother d hd]
    have hd := ha d
    unfold AsmOk BufferOk at hd ⊢
    rw [finishHolds_asm, hbuf]
    exact hd
  · obtain ⟨u, early, late, ds, -, -, -, hdue, -, hlines⟩ := finishHolds_inv c r e s
    refine hlines (fun h => hcur (hdue ▸ h)) ⟨?_, fun d hd => ?_⟩
    · have hc := (hl c).ready
      rw [hline, (guardTaken_frame c r e s).2.2.1.engine]
      exact hc
    · rw [hne d hd, (guardTaken_frame c r e s).2.2.1.engine, (guardTaken_frame c r e s).1]
      exact hl d

/-! ## The other steps of a report's end -/

theorem modWafer_kept (n : Nat) (f : Wafer → Wafer) (hf : ∀ w, (f w).map = w.map) (l : Lot) :
    LotKept l (l.modWafer n f) ∧ (l.modWafer n f).tripped = l.tripped := by
  refine ⟨⟨rfl, rfl, ?_⟩, rfl⟩
  unfold Lot.modWafer
  rw [List.map_map]
  refine List.map_congr_left fun w _ => ?_
  dsimp only [Function.comp_apply]
  split
  · exact hf w
  · rfl

theorem tally_kept (p : Plan) (r : Report) (was : Half) (case : Case) (l : Lot) :
    LotKept l (l.tally p r was case) ∧ (l.tally p r was case).tripped = l.tripped := by
  unfold Lot.tally
  split
  · rename_i i _
    obtain ⟨⟨hk, hp, hm⟩, ht⟩ := modWafer_kept r.wafer.toNat
      (fun w => { w with tested := countUp w.tested, passed := countPass i.cls w.passed }) (fun _ => rfl) l
    exact ⟨⟨hk, hp, hm⟩, ht⟩
  · exact ⟨⟨rfl, rfl, rfl⟩, rfl⟩
  · exact ⟨⟨rfl, rfl, rfl⟩, rfl⟩
  · rename_i new old _ _
    obtain ⟨⟨hk, hp, hm⟩, ht⟩ := modWafer_kept r.wafer.toNat
      (fun w => { w with passed := movePassed old.cls new.cls w.passed }) (fun _ => rfl) l
    exact ⟨⟨hk, hp, hm⟩, ht⟩
  · exact ⟨⟨rfl, rfl, rfl⟩, rfl⟩

theorem moves_completeWafer (key : Word) (n : Nat) (s : State) : Moves s (completeWafer key n s) := by
  unfold completeWafer
  split
  · exact Moves.refl s
  · split
    · have hkept := fun l => modWafer_kept n (fun w => { w with complete := true }) (fun _ => rfl) l
      exact (moves_modLot key _ s (fun l => (hkept l).1) fun l => (hkept l).2).trans (moves_raise _ _ _)
    · exact Moves.refl s

theorem moves_finishTallies (r : Report) (e : Ending) (s : State) : Moves s (finishTallies r e s) := by
  unfold finishTallies
  split
  · exact Moves.refl s
  · exact moves_modLot _ _ _ (fun _ => ⟨rfl, rfl, rfl⟩) fun _ => rfl
  · rename_i was case
    extract_lets s1
    have h1 : Moves s s1 :=
      moves_modLot _ _ _ (fun l => (tally_kept _ _ _ _ l).1) fun l => (tally_kept _ _ _ _ l).2
    split
    · exact h1.trans (moves_completeWafer _ _ _)
    · exact h1

theorem moves_finishNotice (c : CellNo) (t : RecordId) (r : Report) (e : Ending) (s : State) :
    Moves s (finishNotice c t r e s) := by
  unfold finishNotice
  split
  all_goals first
    | exact moves_raise _ _ _
    | exact Moves.refl s

/-- The current lot is no part of a cell's form. -/
theorem currentLot_cellKept (eng : EngineState) (key : Word) (cs : CellState) :
    CellKept eng cs { cs with holds := { cs.holds with currentLot := some key } } := ⟨id, id, id⟩

theorem moves_finishCurrentLot (c : CellNo) (r : Report) (e : Ending) (s : State) :
    Moves s (finishCurrentLot c r e s) := by
  unfold finishCurrentLot
  split
  · exact Moves.refl s
  · exact moves_refresh_modCell c _ s (currentLot_cellKept _ _ _)

theorem finishCurrentLot_currentLot (c : CellNo) (r : Report) {e : Ending} (s : State) (he : e ≠ .unknownLot) :
    ((finishCurrentLot c r e s).cell c).holds.currentLot = some r.key := by
  unfold finishCurrentLot
  split
  · exact absurd rfl he
  · rw [(onCell_refresh c _).cell, (transmit_frame _ _ _).2, cell_modCell]

/-- A queue whose head record's mark has advanced (R67). -/
def markHead : List Touchdown → List Touchdown
  | [] => []
  | t :: ts => { t with mark := t.mark + 1 } :: ts

theorem advanceMark_eq (c : CellNo) (s : State) :
    advanceMark c s = s.modAsm c fun a => { a with queue := markHead a.queue } := rfl

theorem length_markHead (q : List Touchdown) : (markHead q).length = q.length := by
  cases q <;> rfl

theorem slots_markHead (a : Assembler) : ({ a with queue := markHead a.queue } : Assembler).slots = a.slots := by
  unfold Assembler.slots
  dsimp only
  cases a.queue <;> rfl

/-- The record's mark is no part of a cell's form. -/
theorem moves_advanceMark (c : CellNo) (s : State) : Moves s (advanceMark c s) := by
  rw [advanceMark_eq]
  refine (onCell_modAsm c (fun a => { a with queue := markHead a.queue }) s).moves id (fun h => ?_) id
  obtain ⟨⟨h1, h2, h3, h4, h5, h6⟩, hbuf⟩ := h
  refine ⟨⟨(length_markHead _).le.trans h1, (slots_markHead _).le.trans h2, h3, h4, h5, h6⟩, ?_⟩
  unfold BufferOk at hbuf ⊢
  dsimp only
  rw [slots_markHead, length_markHead]
  exact hbuf

/-- A report's end (R83). -/
theorem moves_finishReport (c : CellNo) (t : RecordId) (r : Report) (e : Ending) (s : State) :
    Moves s (finishReport c t r e s) := by
  have hholds : Moves (finishCurrentLot c r e (finishNotice c t r e (finishTallies r e s))) _ :=
    moves_finishHolds c r e _ fun hdue => finishCurrentLot_currentLot c r _ (by
      rintro rfl
      cases hdue)
  exact (((((moves_finishTallies r e s).trans (moves_finishNotice c t r e _)).trans (moves_finishCurrentLot c r e _)).trans
    hholds).trans (moves_setProgress none _)).trans (moves_advanceMark c _)

/-! ## Records (R67 to R77) -/

/-- A record that leaves the queue frees its slots (R56). -/
theorem moves_finishRecord (c : CellNo) (s : State) : Moves s (finishRecord c s) := by
  refine (moves_refresh_modCell c _ s ?_).trans (moves_setWork none _)
  refine ⟨id, fun h => ?_, id⟩
  obtain ⟨⟨h1, h2, h3, h4, h5, h6⟩, -⟩ := h
  refine ⟨⟨?_, ?_, h3, h4, h5, h6⟩, bufferOk_judgeBuffer _⟩
  · show (s.cell c).asm.queue.tail.length ≤ 15
    rw [List.length_tail]
    omega
  · refine le_trans ?_ h2
    show Assembler.slots _ ≤ _
    unfold Assembler.slots
    dsimp only
    cases (s.cell c).asm.queue with
    | nil => exact le_rfl
    | cons t ts => simp

theorem two_dvd_columns (y columns x : Nat) : 2 ∣ 2 * (y * columns + x) := Nat.dvd_mul_right _ _

/-- The map cell of a report stands at an even address of an aligned map (R2). -/
theorem identify_aligned {r : Report} {s : State} {a : Addr} (h : identify r s = .ok a) (hs : AddressesOk s) :
    aligned a 2 = true := by
  unfold identify at h
  split at h
  · cases h
  · rename_i l hl
    split at h
    · cases h
    · rename_i w hw
      split at h
      · cases h
      · split at h
        · cases h
        · obtain rfl := Except.ok.inj h
          have hmap := hs.2.2.2.2.2.2 l (findLot_key hl).2 w (List.mem_of_find?_eq_some hw)
          exact aligned_addrPlus (by decide) (aligned_of_dvd (by decide) hmap) (two_dvd_columns _ _ _)

theorem mapRead_ok {r : Report} {s : State} {a : Addr} (h : identify r s = .ok a) (hs : AddressesOk s) :
    TransactionOk (readOf .mapRead a 2) :=
  transactionOk_of_aligned (n := 2) (by decide) (identify_aligned h hs) le_rfl

theorem mapWrite_ok {r : Report} {s : State} {a : Addr} (now : Half) (h : identify r s = .ok a) (hs : AddressesOk s) :
    TransactionOk (writeOf .mapWrite a (leBytes 2 now.toNat)) :=
  transactionOk_of_aligned (n := 2) (by decide) (identify_aligned h hs) (by simp [writeOf])

theorem moves_readMap {r : Report} {s : State} {a : Addr} (h : identify r s = .ok a) :
    Moves s (portRequest (readOf .mapRead a 2) (setProgress (some .reading) s)) :=
  (moves_setProgress _ s).trans (moves_portRequest _ _ fun hp => mapRead_ok h (s := s) hp.1)

theorem moves_writeCell {r : Report} {s : State} {a : Addr} (was now : Half) (h : identify r s = .ok a) :
    Moves s (writeCell a was now s) :=
  (moves_setProgress _ s).trans (moves_portRequest _ _ fun hp => mapWrite_ok now h (s := s) hp.1)

theorem moves_beginReports (c : CellNo) (t : RecordId) (rs : List Report) (s : State) :
    Moves s (beginReports c t rs s) := by
  induction rs generalizing s with
  | nil => exact moves_finishRecord c s
  | cons r rs ih =>
    unfold beginReports
    split
    · exact (moves_finishReport c t r _ s).trans (ih _)
    · rename_i a ha
      exact moves_readMap ha

theorem moves_continueRecord (c : CellNo) (s : State) : Moves s (continueRecord c s) := by
  unfold continueRecord
  split
  · exact moves_setWork none s
  · exact moves_beginReports _ _ _ _

theorem moves_takeRecord (c : CellNo) (s : State) : Moves s (takeRecord c s) :=
  (moves_coll s (d := { s.coll with work := some (.record c), pointer := c }) rfl rfl).trans (moves_continueRecord c _)

end Sys2Proof.Machine
end

