-- ==== Sys2Proof/Proofs/RequestMoves.lean ====
section
/-! SUPPORT. The catalogue requests, the scanner and the collation unit's completions are moves (R14 to R20, R63 to R66,
R71 to R77, R85, R128 to R140). -/

namespace Sys2Proof.Machine

/-! ## Completions of transactions (R180) -/

theorem acknowledged_inv {p : Purpose} {s u : State} (h : acknowledged p s = some u) :
    u = portFree s ∧ OutstandingFor p s := by
  unfold acknowledged at h
  split at h
  · rename_i t ht
    split at h
    · rename_i hp
      exact ⟨(Option.some.inj h).symm, by simp [OutstandingFor, ht, hp]⟩
    · cases h
  · cases h

theorem returned_inv {p : Purpose} {n : Nat} {s u : State} (h : returned p n s = some u) :
    u = portFree s ∧ Outstanding p n s := by
  unfold returned at h
  split at h
  · rename_i t ht
    split at h
    · rename_i hp
      exact ⟨(Option.some.inj h).symm, by simp [Outstanding, ht, hp]⟩
    · cases h
  · cases h

theorem acknowledged_of {p : Purpose} {s : State} (h : OutstandingFor p s) : acknowledged p s = some (portFree s) := by
  obtain ⟨t, ht, hp⟩ := Option.map_eq_some_iff.1 h
  simp [acknowledged, ht, hp]

theorem returned_of {p : Purpose} {n : Nat} {s : State} (h : Outstanding p n s) :
    returned p n s = some (portFree s) := by
  obtain ⟨t, ht, hp⟩ := Option.map_eq_some_iff.1 h
  obtain ⟨hp, hn⟩ := Prod.mk.inj hp
  simp [returned, ht, hp, hn]

theorem outstandingFor_of {p : Purpose} {n : Nat} {s : State} (h : Outstanding p n s) : OutstandingFor p s := by
  obtain ⟨t, ht, hp⟩ := Option.map_eq_some_iff.1 h
  simp [OutstandingFor, ht, (Prod.mk.inj hp).1]

/-- A completion at the port: the transaction of this purpose was outstanding and has ended, and the rest moves. -/
def Completed (p : Purpose) (s t : State) : Prop := OutstandingFor p s ∧ Moves (portFree s) t

theorem completed_of_returned {p : Purpose} {n : Nat} {s u t : State} (h : returned p n s = some u) (hm : Moves u t) :
    Completed p s t := by
  obtain ⟨rfl, ho⟩ := returned_inv h
  exact ⟨outstandingFor_of ho, hm⟩

theorem completed_of_acknowledged {p : Purpose} {s u t : State} (h : acknowledged p s = some u) (hm : Moves u t) :
    Completed p s t := by
  obtain ⟨rfl, ho⟩ := acknowledged_inv h
  exact ⟨ho, hm⟩

/-! ## The scanner (R14 to R18) -/

theorem moves_scanner (s : State) (sc : Option Scan) : Moves s { s with scanner := sc } :=
  Moves.of_asks (Asks.of_port_eq rfl rfl id) rfl rfl rfl rfl

theorem moves_continueScan (sc : Scan) (s : State) : Moves s (continueScan sc s) := by
  unfold continueScan
  extract_lets s'
  have h : Moves s s' := moves_scanner s _
  split
  · rename_i t ht
    refine h.trans (moves_portRequest t s' fun _ => ?_)
    unfold Scan.read at ht
    split at ht
    · cases ht
    · obtain rfl := Option.some.inj ht
      exact transactionOk_readChunk _ _ _
  · exact h

theorem moves_endScan (r : Request) (s : State) : Moves s (endScan r s) :=
  (moves_scanner s none).trans (moves_joinRequests r _)

theorem moves_scanData {data : List Byte} {s t : State} (h : scanData data s = some t) : Completed .scanRead s t := by
  unfold scanData at h
  obtain ⟨u, hu, h⟩ := Option.bind_eq_some_iff.1 h
  obtain ⟨sc, -, h⟩ := Option.bind_eq_some_iff.1 h
  refine completed_of_returned hu ?_
  split at h
  · obtain rfl := Option.some.inj h
    exact moves_endScan _ _
  · split at h
    · obtain rfl := Option.some.inj h
      exact moves_continueScan _ _
    · dsimp only at h
      split at h
      · obtain rfl := Option.some.inj h
        exact moves_endScan _ _
      · obtain rfl := Option.some.inj h
        exact moves_continueScan _ _

/-! ## OPEN_LOT and LOAD_PLAN (R11, R128, R129) -/

theorem aligned_of_firstBadWafer {ws : List (Nat × Addr)} {index : Nat} {seen : List Nat}
    (h : firstBadWafer index seen ws = none) : ∀ w ∈ ws, aligned w.2 8 = true := by
  induction ws generalizing index seen with
  | nil => simp
  | cons w ws ih =>
    obtain ⟨n, map⟩ := w
    unfold firstBadWafer at h
    split at h
    · cases h
    · split at h
      · cases h
      · split at h
        · cases h
        · rename_i hmap
          intro v hv
          rcases List.mem_cons.1 hv with rfl | hv
          · simpa using hmap
          · exact ih h v hv

/-- What the checks of R128 grant an accepted OPEN_LOT. -/
theorem checkOpenLot_ok {b : OpenLotBody} {coll : Collation} {slot : Fin 8} {policy : Policy}
    (h : checkOpenLot b coll = .ok (slot, policy)) :
    coll.lots.length < 32 ∧ findLot coll.lots b.key = none ∧ coll.loaded slot = true
      ∧ ∀ w ∈ b.wafers, aligned w.2 8 = true := by
  unfold checkOpenLot at h
  split at h
  · cases h
  · rename_i hlen
    split at h
    · cases h
    · rename_i hfind
      split at h
      · extract_lets slot' at h
        split at h
        · cases h
        · rename_i hload
          split at h
          · cases h
          · split at h
            · cases h
            · rename_i hwafers
              split at h
              · cases h
              · split at h
                · cases h
                · obtain ⟨rfl, rfl⟩ := Prod.mk.inj (Except.ok.inj h)
                  refine ⟨by omega, hfind, by simpa using hload, ?_⟩
                  unfold waferListError at hwafers
                  split at hwafers
                  · cases hwafers
                  · exact aligned_of_firstBadWafer hwafers
      · cases h

theorem moves_serveOpenLot (b : OpenLotBody) (s : State) : Moves s (serveOpenLot b s) := by
  unfold serveOpenLot
  split
  · exact moves_returnOutcome _ _
  · rename_i slot policy hok
    obtain ⟨hlen, hfind, hload, haligned⟩ := checkOpenLot_ok hok
    refine (moves_setLots s (fun h => ?_) (fun h => ?_) fun k => ?_).trans (moves_continueScan _ _)
    · intro l hl w hw
      rcases List.mem_append.1 hl with hl | hl
      · exact h l hl w hw
      · obtain rfl := List.mem_singleton.1 hl
        obtain ⟨v, hv, rfl⟩ := List.mem_map.1 hw
        exact haligned v hv
    · obtain ⟨-, hnodup, hloaded⟩ := h
      refine ⟨?_, ?_, fun l hl => ?_⟩
      · simp only [List.length_append, List.length_singleton]
        omega
      · rw [List.map_append, List.nodup_append]
        refine ⟨hnodup, by simp, fun a ha a' ha' => ?_⟩
        obtain rfl := List.mem_singleton.1 ha'
        rintro rfl
        obtain ⟨l, hl, hk⟩ := List.mem_map.1 ha
        have := List.find?_eq_none.1 hfind l hl
        exact this (beq_iff_eq.2 hk)
      · rcases List.mem_append.1 hl with hl | hl
        · exact hloaded l hl
        · obtain rfl := List.mem_singleton.1 hl
          exact hload
    · rw [findLot_append]
      cases hl : findLot s.coll.lots k with
      | some l => rfl
      | none =>
        rw [Option.none_or]
        split <;> rfl

theorem moves_serveLoadPlan (slot : Nat) (es : List PlanEntry) (s : State) : Moves s (serveLoadPlan slot es s) := by
  unfold serveLoadPlan
  split
  · exact moves_returnOutcome _ _
  · refine Moves.trans ?_ (moves_returnOutcome _ _)
    refine ⟨Asks.of_port_eq rfl rfl id, id, fun ⟨h1, h2, h3⟩ => ⟨h1, h2, fun l hl => ?_⟩, id, id, id⟩
    have hplan := h3 l hl
    unfold Collation.loaded at hplan ⊢
    dsimp only
    rw [Vector.getElem_setIfInBounds]
    split
    · rfl
    · exact hplan

/-! ## Scan completions, CLOSE_LOT, RELEASE_LOT and records (R18 to R20, R130 to R140) -/

theorem opened_kept (counts : List WaferCounts) (groups : Vector Nat 16) (l : Lot) :
    LotKept l (l.opened counts groups) := by
  refine ⟨rfl, rfl, ?_⟩
  unfold Lot.opened
  rw [List.map_map]
  refine List.map_congr_left fun w _ => ?_
  unfold Function.comp Wafer.scanned
  dsimp only
  split <;> rfl

theorem moves_serveScanSuccess (key : Word) (counts : List WaferCounts) (groups : Vector Nat 16) (s : State) :
    Moves s (serveScanSuccess key counts groups s) := by
  unfold serveScanSuccess
  extract_lets clamps s1 complete s2
  have h1 : Moves s s1 := moves_modLot key _ s (opened_kept counts groups) fun _ => rfl
  have h2 : Moves s1 s2 := by
    by_cases h : floorDue key s1
    · simp only [s2, if_pos h]
      exact (moves_raiseFloor key none s1).trans (moves_latchFloor key _)
    · simp only [s2, if_neg h]
      exact Moves.refl s1
  exact (h1.trans h2).trans (moves_returnOutcome _ _)

theorem moves_serveCloseLot (key : Word) (grace : Nat) (addr : Addr) (s : State) :
    Moves s (serveCloseLot key grace addr s) := by
  unfold serveCloseLot
  split
  · exact moves_returnOutcome _ _
  · split
    · exact moves_returnOutcome _ _
    · split
      · exact moves_returnOutcome _ _
      · extract_lets s1
        have h1 : Moves s s1 := moves_modLot key _ s (fun _ => ⟨rfl, rfl, rfl⟩) fun _ => rfl
        refine h1.trans (Moves.trans ?_ (moves_returnOutcome _ _))
        split
        · exact moves_joinRequests _ _
        · exact Moves.refl _

theorem moves_serveReleaseLot (key : Word) (floor : Option Floor) (s : State) :
    Moves s (serveReleaseLot key floor s) := by
  unfold serveReleaseLot
  split
  · exact moves_returnOutcome _ _
  · split
    · exact moves_returnOutcome _ _
    · exact (moves_refreshLot_modLot key (fun l => { l with tripped := false, floor := floor.map Floor.clamped }) s
        fun _ => ⟨rfl, rfl, rfl⟩).trans (moves_returnOutcome _ _)

theorem moves_continueTally (work : RecordWrite → Work) (w : RecordWrite) (s : State) :
    Moves s (continueTally work w s) :=
  (moves_setWork _ s).trans (moves_portRequest _ _ fun _ => transactionOk_recordWrite _ _)

theorem moves_serveSnapshot (key : Word) (addr : Addr) (s : State) : Moves s (serveSnapshot key addr s) := by
  unfold serveSnapshot
  split
  · exact moves_returnOutcome _ _
  · split
    · exact moves_returnOutcome _ _
    · split
      · exact moves_returnOutcome _ _
      · exact moves_continueTally _ _ _

theorem moves_serveFinalize (key : Word) (s : State) : Moves s (serveFinalize key s) := by
  unfold serveFinalize
  split
  · exact moves_setWork none s
  · exact moves_continueTally _ _ _

theorem moves_lotClosed (key : Word) (s : State) : Moves s (lotClosed key s) := by
  unfold lotClosed
  split
  · exact moves_setWork none s
  · exact ((moves_raise _ _ s).trans (moves_dropLot key _)).trans (moves_setWork none _)

theorem moves_serve (r : Request) (s : State) : Moves s (serve r s) := by
  cases r with
  | openLot b => exact moves_serveOpenLot b s
  | closeLot key grace addr => exact moves_serveCloseLot key grace addr s
  | snapshot key addr => exact moves_serveSnapshot key addr s
  | releaseLot key floor => exact moves_serveReleaseLot key floor s
  | loadPlan slot entries => exact moves_serveLoadPlan slot entries s
  | scanSuccess key wafers groups => exact moves_serveScanSuccess key wafers groups s
  | scanInvalid key wafer x y fault => exact (moves_dropLot key s).trans (moves_returnOutcome _ _)
  | scanAbandoned key => exact moves_dropLot key s
  | finalize key => exact moves_serveFinalize key s

/-! ## The unit's events -/

theorem moves_takeWork {s t : State} (h : takeWork s = some t) : Moves s t := by
  unfold takeWork at h
  split at h
  case isFalse => cases h
  case isTrue =>
    split at h
    · rename_i r rest _
      obtain rfl := Option.some.inj h
      exact (moves_coll s (d := { s.coll with requests := rest }) rfl rfl).trans (moves_serve r _)
    · obtain ⟨c, -, rfl⟩ := Option.map_eq_some_iff.1 h
      exact moves_takeRecord c s

theorem moves_tallyWritten {s t : State} (h : tallyWritten s = some t) : Completed .tallyWrite s t := by
  unfold tallyWritten at h
  obtain ⟨u, hu, h⟩ := Option.bind_eq_some_iff.1 h
  refine completed_of_acknowledged hu ?_
  split at h
  · split at h
    · obtain rfl := Option.some.inj h
      exact (moves_setWork none u).trans (moves_returnOutcome _ _)
    · obtain rfl := Option.some.inj h
      exact moves_continueTally _ _ _
  · split at h
    · obtain rfl := Option.some.inj h
      exact moves_lotClosed _ _
    · obtain rfl := Option.some.inj h
      exact moves_continueTally _ _ _
  · obtain rfl := Option.some.inj h
    exact Moves.refl u

theorem moves_graceExpires {key : Word} {s t : State} (h : graceExpires key s = some t) : Moves s t := by
  unfold graceExpires at h
  split at h
  · obtain rfl := Option.some.inj h
    exact (moves_modLot key (fun l => { l with graceSpent := true }) s (fun _ => ⟨rfl, rfl, rfl⟩) fun _ => rfl).trans
      (moves_joinRequests _ _)
  · cases h

theorem moves_mapRead {v : Half} {s t : State} (h : mapRead v s = some t) : Completed .mapRead s t := by
  unfold mapRead at h
  obtain ⟨u, hu, h⟩ := Option.bind_eq_some_iff.1 h
  obtain ⟨⟨c, td, r⟩, -, h⟩ := Option.bind_eq_some_iff.1 h
  obtain ⟨l, -, h⟩ := Option.bind_eq_some_iff.1 h
  refine completed_of_returned hu ?_
  split at h
  · rename_i a now hid _
    obtain rfl := Option.some.inj h
    exact moves_writeCell _ _ hid
  · obtain rfl := Option.some.inj h
    exact (moves_finishReport _ _ _ _ _).trans (moves_continueRecord _ _)
  · cases h

theorem moves_mapWritten {s t : State} (h : mapWritten s = some t) : Completed .mapWrite s t := by
  unfold mapWritten at h
  obtain ⟨u, hu, h⟩ := Option.bind_eq_some_iff.1 h
  obtain ⟨⟨c, td, r⟩, -, h⟩ := Option.bind_eq_some_iff.1 h
  obtain ⟨l, -, h⟩ := Option.bind_eq_some_iff.1 h
  refine completed_of_acknowledged hu ?_
  split at h
  · obtain rfl := Option.some.inj h
    exact (moves_finishReport _ _ _ _ _).trans (moves_continueRecord _ _)
  · cases h

theorem moves_resumeCollation (s : State) : Moves s (resumeCollation s) := by
  unfold resumeCollation
  split
  · split
    · split
      · rename_i a hid
        exact moves_portRequest _ _ fun hp => mapRead_ok hid hp.1
      · exact moves_continueRecord _ _
    · split
      · rename_i a hid
        exact moves_writeCell _ _ hid
      · exact moves_continueRecord _ _
    · exact moves_continueRecord _ _
  · exact moves_serveFinalize _ _
  · exact Moves.refl s

end Sys2Proof.Machine
end

