-- ==== Sys2Proof/Proofs/OrderMoves.lean ====
section
/-! SUPPORT. The order unit's events are moves: the orders on cells, the way of an order through its reads and writes, and
the chain (R35 to R39, R117 to R121, R144 to R157). -/

namespace Sys2Proof.Machine

/-! ## The orders on cells -/

theorem leNat_lt (bs : List Byte) : leNat bs < 256 ^ bs.length := by
  induction bs with
  | nil => simp [leNat]
  | cons b bs ih =>
    have hb : b.toNat < 256 := b.isLt
    rw [leNat, List.length_cons, Nat.pow_succ]
    omega

theorem field_one_le (bs : List Byte) (off : Nat) : field bs off 1 ≤ 255 := by
  have h := leNat_lt ((bs.drop off).take 1)
  have hlen : ((bs.drop off).take 1).length ≤ 1 := by
    rw [List.length_take]
    omega
  have hpow : 256 ^ ((bs.drop off).take 1).length ≤ 256 ^ 1 := Nat.pow_le_pow_right (by omega) hlen
  unfold field
  omega

/-- A CONFIGURE_CELLS read from its bytes that passes its checks (R35, R58, R100). -/
theorem configureBody_good {bs : List Byte} (h : (configureBody bs).error = none) : (configureBody bs).Good := by
  unfold ConfigureBody.error at h
  split at h
  · cases h
  · split at h
    · cases h
    · split at h
      · cases h
      · rename_i hsites
        split at h
        · cases h
        · rename_i hwindow
          refine ⟨hsites, fun p hp => ⟨?_, ?_⟩⟩
          · rw [Option.mem_def.1 hp] at hwindow
            simpa using hwindow
          · have hk : p.k = field bs 0x18 1 := by
              unfold configureBody at hp
              dsimp only at hp
              split at hp
              · obtain rfl := Option.mem_some.1 hp
                rfl
              · cases hp
            rw [hk]
            exact field_one_le _ _

/-- A cell's CONFIGURE_CELLS: the close it brings, then the settings, then the line's look. -/
theorem onCell_configureCell (b : ConfigureBody) (c : CellNo) (s : State) :
    OnCell c (transmit s.engine.state s.coll.lots ∘ CellState.configured b s.engine.state s.clock ∘
        fun cs => if b.closes cs then cs.closeRecord .reconfigured s.clock else cs)
      (if b.closes (s.cell c) then closeNotices .reconfigured s.clock c (s.cell c).asm else []) s
      (configureCell b c s) := by
  unfold configureCell
  extract_lets s1
  have h1 : OnCell c (fun cs => if b.closes cs then cs.closeRecord .reconfigured s.clock else cs)
      (if b.closes (s.cell c) then closeNotices .reconfigured s.clock c (s.cell c).asm else []) s s1 := by
    by_cases h : b.closes (s.cell c)
    · simp only [s1, if_pos h]
      exact (onCell_closeTouchdown .reconfigured c s).congr (if_pos h) rfl
    · simp only [s1, if_neg h]
      exact (OnCell.rfl_id c s).congr (if_neg h) rfl
  exact ((h1.trans (onCell_modCell c _ s1)).congr rfl (List.append_nil _).symm).refreshed

theorem moves_configureCell {b : ConfigureBody} (hb : b.Good) (c : CellNo) (s : State) : Moves s (configureCell b c s) := by
  refine (onCell_configureCell b c s).moves_of_kept (CellKept.trans ?_ (configured_cellKept hb _ _ _))
  dsimp only
  split
  · exact closeRecord_cellKept _ _ _ _
  · exact CellKept.refl _ _

theorem moves_serveConfigure (bs : List Byte) (s : State) : Moves s (serveConfigure (configureBody bs) s).2 := by
  unfold serveConfigure
  split
  · exact Moves.refl s
  · rename_i h
    exact moves_eachCell (fun c s => moves_configureCell (configureBody_good h) c s) _ s

theorem holdCell_cellKept (eng : EngineState) (cs : CellState) :
    CellKept eng cs { cs with holds := { cs.holds with ordered := true } } := ⟨id, id, id⟩

theorem moves_serveHold (cells : Word) (s : State) : Moves s (serveHold cells s).2 := by
  unfold serveHold
  split
  · exact Moves.refl s
  · exact moves_eachCell (fun c s => moves_refresh_modCell c _ s (holdCell_cellKept _ _)) _ s

theorem moves_serveRelease (b : ReleaseBody) (s : State) : Moves s (serveRelease b s).2 := by
  unfold serveRelease
  split
  · exact Moves.refl s
  · split
    · exact Moves.refl s
    · exact moves_eachCell (fun c s => moves_refresh_modCell c _ s (released_cellKept _ b _)) _ s

/-! ## Hand-over (R148) -/

theorem moves_modService (f : Service → Service) (hf : ∀ v, (f v).record = v.record) (s : State) :
    Moves s (modService f s) :=
  moves_setOrder_of_eq s rfl (by cases h : s.order.service <;> simp [h, hf])

theorem moves_handToCollation (r : Request) (s : State) : Moves s (handToCollation r s) :=
  (moves_joinRequests r s).trans (moves_modService (fun v => { v with stage := .waiting }) (fun _ => rfl) _)

theorem moves_serveReadCell (cell : Nat) (addr : Addr) (s : State) : Moves s (serveReadCell cell addr s) := by
  unfold serveReadCell
  split
  · split
    · exact moves_answer _ _
    · extract_lets c bs w
      exact (moves_modService (fun v => { v with stage := .cellRecord w (cellRecordEntries c s) }) (fun _ => rfl) s).trans
        (moves_portRequest _ _ fun _ => transactionOk_recordWrite _ w)
  · exact moves_answer _ _

theorem moves_handOver (k : OrderKind) (b : List Byte) (s : State) : Moves s (handOver k b s) := by
  cases k with
  | mark => exact moves_answer _ s
  | loadPlan => exact moves_handToCollation _ s
  | openLot => exact moves_handToCollation _ s
  | closeLot => exact moves_handToCollation _ s
  | snapshot => exact moves_handToCollation _ s
  | releaseLot => exact moves_handToCollation _ s
  | configureCells => exact (moves_serveConfigure b s).trans (moves_answer _ _)
  | holdCells => exact (moves_serveHold _ s).trans (moves_answer _ _)
  | releaseCells => exact (moves_serveRelease _ s).trans (moves_answer _ _)
  | readCell => exact moves_serveReadCell _ _ s

/-! ## Taking an order (R145 to R147) -/

theorem position_aligned {s : State} (h : AddressesOk s) : aligned (s.order.position.getD 0) 8 = true := h.2.2.2.2.1

/-- A field of 4 bytes at offset 0Ch of an aligned record (R143). -/
theorem recordField_ok {a : Addr} {t : Transaction} (h : aligned a 8 = true) (haddr : t.addr = addrPlus a 0x0C)
    (hlen : t.length ≤ 4) : TransactionOk t :=
  transactionOk_of_aligned (n := 4) (by decide)
    (by rw [haddr]; exact aligned_addrPlus (by decide) (aligned_of_dvd (by decide) h) (by decide)) hlen

/-- An order in service at an aligned record. -/
theorem moves_setService (s : State) {o : OrderUnit} {v : Service} (hpos : o.position = s.order.position)
    (hserv : o.service = some v) (hrec : AddressesOk s → aligned v.record 8 = true) : Moves s (s.setOrder o) :=
  moves_setOrder s fun h => by
    refine ⟨by rw [hpos]; exact position_aligned h, fun u hu => ?_⟩
    rw [hserv] at hu
    obtain rfl := Option.mem_some.1 hu
    exact hrec h

theorem service_aligned {s : State} {v : Service} (hv : s.order.service = some v) (h : AddressesOk s) :
    aligned v.record 8 = true := h.2.2.2.2.2.1 v hv

theorem moves_readBody (v : Service) (want : Nat) (s : State) : Moves s (readBody v want s) :=
  moves_portRequest _ s fun _ => transactionOk_readChunk _ _ _

theorem moves_readOn {v : Service} (stage : Stage) (want : Nat) {s : State}
    (hv : AddressesOk s → aligned v.record 8 = true) : Moves s (readOn v stage want s) :=
  (moves_setService s (o := { s.order with service := some { v with stage := stage } }) rfl rfl hv).trans
    (moves_readBody _ _ _)

theorem moves_readHeader (s : State) : Moves s (readHeader s) :=
  moves_portRequest _ s fun _ => transactionOk_readChunk _ _ _

theorem moves_takeOrder (header : List Byte) (s : State) : Moves s (takeOrder header s) := by
  unfold takeOrder
  extract_lets record
  refine Moves.trans ?_ (moves_portRequest _ _ fun h => ?_)
  · exact moves_setService s rfl rfl position_aligned
  · exact recordField_ok (position_aligned h.1) rfl (by simp [writeOf])

theorem moves_gathered (s : State) (bs : List Byte) : Moves s (s.setOrder { s.order with gathered := bs }) :=
  moves_setOrder_of_eq s rfl rfl

theorem moves_headerRead {data : List Byte} {s t : State} (h : headerRead data s = some t) :
    Completed .headerRead s t := by
  obtain ⟨u, hu, rfl⟩ := Option.map_eq_some_iff.1 h
  refine completed_of_returned hu ?_
  split
  · exact moves_gathered u []
  · dsimp only
    split
    · exact (moves_gathered u _).trans (moves_readHeader _)
    · unfold judgeHeader
      split
      · exact moves_takeOrder _ _
      · exact (moves_gathered u []).trans (moves_answer _ _)

theorem moves_checkKind {v : Service} {s : State} (hv : s.order.service = some v) : Moves s (checkKind v s) := by
  unfold checkKind
  extract_lets found
  split
  · exact moves_answer _ s
  · split
    · split
      · exact moves_answer _ s
      · split
        · exact moves_handOver _ _ s
        · exact moves_readOn _ _ (service_aligned hv)
    · split
      · exact moves_answer _ s
      · exact moves_readOn _ _ (service_aligned hv)

theorem moves_takenWritten {s t : State} (h : takenWritten s = some t) : Completed .takenWrite s t := by
  unfold takenWritten at h
  obtain ⟨u, hu, h⟩ := Option.bind_eq_some_iff.1 h
  obtain ⟨v, hv, h⟩ := Option.bind_eq_some_iff.1 h
  obtain rfl := Option.some.inj h
  exact completed_of_acknowledged hu (moves_checkKind hv)

theorem moves_bodySoFar (k : OrderKind) {v : Service} (want : Nat) {s : State}
    (hv : AddressesOk s → aligned v.record 8 = true) : Moves s (bodySoFar k v want s) := by
  unfold bodySoFar
  split
  · exact moves_readOn _ _ hv
  · refine Moves.trans ?_ (moves_handOver _ _ _)
    exact moves_setService s rfl rfl hv

theorem moves_bodyRead {data : List Byte} {s t : State} (h : bodyRead data s = some t) : Completed .bodyRead s t := by
  unfold bodyRead at h
  obtain ⟨u, hu, h⟩ := Option.bind_eq_some_iff.1 h
  obtain ⟨v, hv, h⟩ := Option.bind_eq_some_iff.1 h
  obtain ⟨k, -, h⟩ := Option.bind_eq_some_iff.1 h
  refine completed_of_returned hu ?_
  have hrec : AddressesOk u → aligned v.record 8 = true := service_aligned hv
  dsimp only at h
  split at h
  · split at h
    · obtain rfl := Option.some.inj h
      exact moves_readOn _ _ hrec
    · split at h
      · obtain rfl := Option.some.inj h
        refine Moves.trans ?_ (moves_answer _ _)
        exact moves_setService u rfl rfl hrec
      · obtain rfl := Option.some.inj h
        exact moves_bodySoFar _ _ hrec
  · obtain rfl := Option.some.inj h
    exact moves_bodySoFar _ _ hrec
  · cases h

theorem moves_cellRecordWritten {s t : State} (h : cellRecordWritten s = some t) : Completed .cellRecordWrite s t := by
  unfold cellRecordWritten at h
  obtain ⟨u, hu, h⟩ := Option.bind_eq_some_iff.1 h
  obtain ⟨v, hv, h⟩ := Option.bind_eq_some_iff.1 h
  refine completed_of_acknowledged hu ?_
  split at h
  · rename_i w entries _
    split at h
    · obtain rfl := Option.some.inj h
      exact moves_answer _ u
    · obtain rfl := Option.some.inj h
      exact (moves_modService (fun v => { v with stage := .cellRecord w.after entries }) (fun _ => rfl) u).trans
        (moves_portRequest _ _ fun _ => transactionOk_recordWrite _ _)
  · cases h

/-! ## Answering and the chain (R150 to R153) -/

theorem moves_resultWritten {s t : State} (h : resultWritten s = some t) : Completed .resultWrite s t := by
  unfold resultWritten at h
  obtain ⟨u, hu, h⟩ := Option.bind_eq_some_iff.1 h
  obtain ⟨out, -, h⟩ := Option.bind_eq_some_iff.1 h
  obtain rfl := Option.some.inj h
  refine completed_of_acknowledged hu (moves_portRequest _ _ fun hp => ?_)
  exact recordField_ok (answerRecord_aligned hp.1) rfl (by cases out <;> simp [stateWrite, writeOf, OrderOutcome.stateBytes])

theorem linkRead_ok {s : State} (h : AddressesOk s) : TransactionOk (readOf .linkRead (s.order.position.getD 0) 8) :=
  transactionOk_of_aligned (n := 8) (by decide) (position_aligned h) le_rfl

theorem moves_readLink (s : State) : Moves s (readLink s) := moves_portRequest _ s fun h => linkRead_ok h.1

theorem moves_writePosition (s : State) : Moves s (writePosition s) :=
  moves_portRequest _ s fun h => transactionOk_of_aligned (n := 8) (by decide) h.1.2.2.2.1 (by simp [writeOf])

theorem moves_stateWritten {s t : State} (h : stateWritten s = some t) : Completed .stateWrite s t := by
  obtain ⟨u, hu, rfl⟩ := Option.map_eq_some_iff.1 h
  refine completed_of_acknowledged hu ?_
  extract_lets stale src s2
  have h2 : Moves u s2 := moves_setOrder u fun ha => ⟨position_aligned ha, fun v hv => absurd hv (Option.not_mem_none v)⟩
  split
  · split
    · exact h2.trans (moves_writePosition _)
    · exact h2.trans (moves_readLink _)
  · exact h2

theorem moves_linkRead {link : Addr} {s t : State} (h : linkRead link s = some t) : Completed .linkRead s t := by
  obtain ⟨u, hu, rfl⟩ := Option.map_eq_some_iff.1 h
  refine completed_of_returned hu ?_
  dsimp only
  split
  · exact moves_setOrder_of_eq u rfl rfl
  · split
    · rename_i hlink
      simp only [followable, Bool.and_eq_true] at hlink
      refine Moves.trans ?_ (moves_writePosition _)
      exact moves_setOrder u fun ha => ⟨hlink.2, ha.2.2.2.2.2.1⟩
    · unfold pollLink
      split
      · refine Moves.trans ?_ (moves_readLink _)
        exact moves_setOrder_of_eq u rfl rfl
      · exact moves_setOrder_of_eq u rfl rfl

theorem moves_positionWritten {s t : State} (h : positionWritten s = some t) : Completed .positionWrite s t := by
  obtain ⟨u, hu, rfl⟩ := Option.map_eq_some_iff.1 h
  refine completed_of_acknowledged hu ?_
  extract_lets src s2
  have h2 : Moves u s2 := moves_setOrder_of_eq u rfl rfl
  split
  · exact h2.trans (moves_readHeader _)
  · exact h2

theorem moves_nudgeOrder (s : State) : Moves s (nudgeOrder s) := by
  unfold nudgeOrder
  split
  · split
    · exact moves_setOrder_of_eq s rfl rfl
    · refine Moves.trans ?_ (moves_readLink _)
      exact moves_setOrder_of_eq s rfl rfl
  · exact Moves.refl s

theorem moves_pollExpires {s t : State} (h : pollExpires s = some t) : Moves s t := by
  unfold pollExpires at h
  split at h
  · obtain rfl := Option.some.inj h
    exact moves_nudgeOrder s
  · cases h

/-! ## Resumption (R155, R156) -/

theorem moves_resumeService (v : Service) (s : State) : Moves s (resumeService v s) := by
  unfold resumeService
  split
  · exact moves_answer _ s
  · split
    · exact moves_setOrder_of_eq s rfl rfl
    · exact moves_answer _ s
  · exact moves_answer _ s

theorem moves_resumeOrder (s : State) : Moves s (resumeOrder s) := by
  unfold resumeOrder
  split
  · exact moves_resumeService _ s
  · exact moves_answer _ s
  · split
    · split
      · exact moves_readHeader s
      · exact moves_writePosition s
    · exact moves_readLink s
    · exact Moves.refl s

end Sys2Proof.Machine
end

