-- ==== Sys2Proof/Proofs/EngineMoves.lean ====
section
/-! SUPPORT. Engine control and the notice unit move: the end of a drain, register writes, the load, START, STOP, faults,
and the notice unit's completions (R25, R112, R162 to R167, R171 to R181). -/

namespace Sys2Proof.Machine

/-! ## Changes of engine control -/

/-- A change of engine control under which the lines hear and hold as much. -/
theorem moves_setEngine (s : State) {e : Engine} (hok : EngineOk s.engine → EngineOk e)
    (hsetup : e.setup = s.engine.setup) (hact : ∀ l, receiverActive e.state l = receiverActive s.engine.state l)
    (hrun : (e.state != .running) = (s.engine.state != .running)) : Moves s (s.setEngine e) :=
  ⟨Asks.of_port_eq rfl rfl fun h => addressesOk_congr (s := s) hsetup rfl rfl rfl h, hok, id, id, id,
    fun h c => lineOk_congr (hact _) hrun rfl (h c)⟩

theorem receiverActive_off {eng : EngineState} (h : eng = .halted ∨ eng = .loading) (l : Line) :
    receiverActive eng l = false := by
  rcases h with rfl | rfl <;> simp [receiverActive]

/-- Between HALTED and LOADING no line hears and no line's content changes. -/
theorem moves_setEngine_off (s : State) {e : Engine} (hok : EngineOk s.engine → EngineOk e)
    (hsetup : e.setup = s.engine.setup) (hs : s.engine.state = .halted ∨ s.engine.state = .loading)
    (he : e.state = .halted ∨ e.state = .loading) : Moves s (s.setEngine e) := by
  refine moves_setEngine s hok hsetup (fun l => ?_) ?_
  · rw [receiverActive_off hs, receiverActive_off he]
  · rcases hs with hs | hs <;> rcases he with he | he <;> rw [hs, he] <;> rfl

theorem moves_storeEnables (w : Word) (s : State) : Moves s (storeEnables w s) :=
  moves_setEngine s id rfl (fun _ => rfl) rfl

theorem moves_statusWrite (w : Word) (s : State) : Moves s (statusWrite w s) :=
  moves_setEngine s id rfl (fun _ => rfl) rfl

theorem moves_setupAddrWrite {half : SetupHalf} {v : Word} {s t : State} (h : setupAddrWrite half v s = some t) :
    Moves s t := by
  unfold setupAddrWrite at h
  split at h
  · obtain rfl := Option.some.inj h
    exact moves_setEngine s id rfl (fun _ => rfl) rfl
  · cases h

/-! ## Changes that every line takes -/

theorem linesOk_refreshAll {s : State} (h : ∀ c, LineReady s.engine.state (s.cell c).line) : LinesOk (refreshAll s) := by
  intro c
  rw [cell_refreshAll]
  exact lineOk_transmit _ _ (h c)

/-- A change after which every line looks at its content (R112, R116). -/
theorem moves_refreshAll {s u : State} (ha : Asks s u) (hengine : EngineOk s.engine → EngineOk u.engine)
    (hcat : CatalogueOk s.coll → CatalogueOk u.coll) (hguards : GuardsOk s → GuardsOk u) (hasms : AsmsOk s → AsmsOk u)
    (hready : LinesOk s → ∀ c, LineReady u.engine.state (u.cell c).line) : Moves s (refreshAll u) where
  asks := ha.trans (Asks.of_port_eq rfl rfl id)
  engine := hengine
  catalogue := hcat
  guards h c := by
    rw [cell_refreshAll]
    exact guardOk_transmit (hguards h c)
  asms h c := by
    rw [cell_refreshAll]
    exact asmOk_transmit (hasms h c)
  lines h := linesOk_refreshAll (hready h)

/-- A line that hears as much under another engine state is as ready. -/
theorem lineReady_congr {eng eng' : EngineState} {l : Line} (hact : receiverActive eng' l = receiverActive eng l)
    (h : LineReady eng l) : LineReady eng' l := by
  obtain ⟨hrx, hrate, htx⟩ := h
  refine ⟨?_, hrate, htx⟩
  unfold ReceiverOk at hrx ⊢
  rw [hact]
  exact hrx

/-! ## HALTED (R25, R165, R177) -/

theorem stopReceiver_lineOk {eng : EngineState} {lots : List Lot} {cs : CellState} (hrun : eng ≠ .running)
    (h : LineOk eng lots cs) : LineOk .halted lots { cs with line := cs.line.stopReceiver } := by
  obtain ⟨-, hrate, htx⟩ := h
  refine ⟨stopReceiver_receiverOk (receiverActive_off (.inl rfl) _), hrate, ?_⟩
  unfold TransmitterOk at htx ⊢
  have hcontent : holdContent .halted lots { cs with line := cs.line.stopReceiver } = holdContent eng lots cs := by
    have hne : (EngineState.halted != .running) = (eng != .running) := by simp [bne_iff_ne.2 hrun]
    rw [← holdContent_congr hne rfl]
    rfl
  rw [hcontent]
  exact htx

/-- The part becomes HALTED from a state in which ENGINE is held already. -/
theorem moves_enterHalted {s u : State} (ha : Asks s u) (hengine : EngineOk s.engine → EngineOk (enterHalted u).engine)
    (hcoll : u.coll = s.coll) (hcells : u.cells = s.cells) (hstate : s.engine.state ≠ .running) :
    Moves s (enterHalted u) := by
  have hcell : ∀ c, (enterHalted u).cell c = { s.cell c with line := (s.cell c).line.stopReceiver } := fun c => by
    rw [cell_enterHalted, cell_eq_of_cells hcells]
  have hc : (enterHalted u).coll = s.coll := hcoll
  refine ⟨ha.trans (Asks.of_port_eq rfl rfl id), hengine, ?_, fun h c => ?_, fun h c => ?_, fun h c => ?_⟩
  · rw [hc]; exact id
  · rw [hcell]; exact h c
  · rw [hcell]; exact h c
  · rw [hcell, hc]
    exact stopReceiver_lineOk hstate (h c)

theorem engineOk_halted {e : Engine} (h : EngineOk e) (hne : e.state ≠ .faulted) :
    EngineOk { e with state := .halted } := by
  obtain ⟨h1, -, -, h4⟩ := h
  refine ⟨?_, by simp, by simp, h4⟩
  simp only [h1, hne, false_iff]
  exact fun h => by cases h

theorem moves_judgeDrain (s : State) : Moves s (judgeDrain s) := by
  obtain ⟨-, h⟩ | ⟨-, hstate, h⟩ := judgeDrain_cases s <;> rw [h]
  · exact Moves.refl s
  · exact moves_enterHalted (Asks.refl s) (fun he => engineOk_halted he (show s.engine.state ≠ _ by rw [hstate]; decide)) rfl rfl
      (by rw [hstate]; decide)

/-! ## The load (R174, R175, R178) -/

theorem moves_failLoad (code : LoadError) {s : State} (h : s.engine.state = .halted ∨ s.engine.state = .loading) :
    Moves s (failLoad code s) := by
  refine moves_setEngine_off s (fun he => ?_) rfl h (.inl rfl)
  obtain ⟨h1, -, -, -⟩ := he
  have hne : s.engine.state ≠ .faulted := by rcases h with h | h <;> rw [h] <;> decide
  refine ⟨?_, by simp, by simp, by simp⟩
  simp only [h1, hne, false_iff]
  exact fun h => by cases h

/-- What the checks of R175 grant an accepted setup block. -/
theorem setup_aligned {bs : List Byte} (h : setupError bs = .none) :
    aligned (setupOf bs).chainHead 8 = true ∧ aligned (setupOf bs).listAddr 32 = true
      ∧ aligned (setupOf bs).consumedAddr 4 = true ∧ aligned (setupOf bs).statusAddr 8 = true := by
  unfold setupError at h
  extract_lets p at h
  split at h
  · cases h
  · split at h
    · cases h
    · split at h
      · cases h
      · split at h
        · cases h
        · rename_i hhead
          split at h
          · cases h
          · rename_i hlist
            split at h
            · cases h
            · rename_i hconsumed
              split at h
              · cases h
              · rename_i hstatus
                rw [not_or] at hhead
                exact ⟨by simpa using hhead.2, by simpa using hlist, by simpa using hconsumed, by simpa using hstatus⟩

theorem moves_judgeSetup (bs : List Byte) {s : State} (hs : s.engine.state = .loading) : Moves s (judgeSetup bs s) := by
  unfold judgeSetup
  split
  · rename_i hgood
    obtain ⟨h1, h2, h3, h4⟩ := setup_aligned hgood
    refine ⟨Asks.of_port_eq rfl rfl fun ha => ?_, fun he => ?_, id, id, id, fun h c => ?_⟩
    · obtain ⟨-, -, -, -, -, hserv, hmaps⟩ := ha
      refine ⟨h1, h2, h3, h4, h1, fun v hv => ?_, hmaps⟩
      obtain ⟨u, hu, rfl⟩ := Option.mem_map.1 (show v ∈ s.order.service.map _ from hv)
      exact hserv u hu
    · obtain ⟨h1, -, -, -⟩ := he
      refine ⟨?_, by simp [finishLoad], by simp [finishLoad], by simp [finishLoad]⟩
      show s.engine.fault = true ↔ EngineState.halted = .faulted
      simp [h1, hs]
    · refine lineOk_congr ?_ ?_ rfl (h c)
      · show receiverActive .halted _ = receiverActive s.engine.state _
        rw [receiverActive_off (.inl rfl), receiverActive_off (.inr hs)]
      · rw [hs]; rfl
  · exact moves_failLoad _ (.inr hs)

theorem moves_performInit (s : State) : Moves s (performInit s) := by
  unfold performInit
  split
  · rename_i hs
    extract_lets e s1
    have h1 : Moves s s1 := by
      refine moves_setEngine_off s (fun he => ?_) rfl (.inl hs) (.inr rfl)
      obtain ⟨h1, -, -, -⟩ := he
      refine ⟨?_, by simp [e], by simp [e], by simp [e]⟩
      show s.engine.fault = true ↔ EngineState.loading = .faulted
      simp [h1, hs]
    split
    · rename_i hal
      exact h1.trans (moves_portRequest _ _ fun _ => transactionOk_of_aligned (n := 64) (by decide) hal le_rfl)
    · exact h1.trans (moves_failLoad _ (.inr rfl))
  · exact Moves.refl s

/-! ## The notice unit (R162 to R167) -/

theorem moves_setNotice (s : State) (n : NoticeUnit) : Moves s (s.setNotice n) := moves_notice s n

theorem moves_noticeNext {next : State → State} (hnext : ∀ s, Moves s (next s)) (s : State) :
    Moves s (noticeNext next s) := by
  unfold noticeNext
  extract_lets s'
  have h : Moves s s' := moves_judgeDrain s
  split
  · exact h.trans (hnext s')
  · exact h.trans (moves_setNotice s' _)

theorem moves_writeCount (s : State) : Moves s (portRequest (countWrite s) s) :=
  moves_portRequest _ s fun h => countWrite_ok h.1

theorem moves_recordWritten {s t : State} (h : recordWritten s = some t) : Completed .noticeWrite s t := by
  obtain ⟨u, hu, rfl⟩ := Option.map_eq_some_iff.1 h
  exact completed_of_acknowledged hu ((moves_setNotice u _).trans (moves_noticeNext moves_writeCount _))

theorem moves_countWritten {s t : State} (h : countWritten s = some t) : Completed .countWrite s t := by
  obtain ⟨u, hu, rfl⟩ := Option.map_eq_some_iff.1 h
  refine completed_of_acknowledged hu ?_
  have hflag : Moves u (u.setEngine { u.engine with notice := u.engine.notice || u.notice.post.isSome }) :=
    moves_setEngine u id rfl (fun _ => rfl) rfl
  exact (hflag.trans (moves_setNotice _ { u.notice with countOwed := false, post := none, phase := .idle })).trans
    (moves_noticeNext moves_judgeRoom _)

theorem moves_acceptConsumed (v : Word) (s : State) : Moves s (acceptConsumed v s) := by
  unfold acceptConsumed
  split
  · exact moves_setNotice s _
  · exact Moves.refl s

theorem moves_waitForRoom (s : State) : Moves s (waitForRoom s) := by
  unfold waitForRoom
  split
  · exact (moves_setNotice s _).trans (moves_readConsumed _)
  · exact moves_setNotice s _

theorem moves_consumedRead {v : Word} {s t : State} (h : consumedRead v s = some t) : Completed .consumedRead s t := by
  obtain ⟨u, hu, rfl⟩ := Option.map_eq_some_iff.1 h
  refine completed_of_returned hu ?_
  dsimp only
  refine (moves_acceptConsumed v u).trans ?_
  split
  · exact (moves_setNotice _ _).trans (moves_noticeNext moves_judgeRoom _)
  · exact (moves_setNotice _ _).trans (moves_noticeNext moves_waitForRoom _)

theorem moves_retryExpires {s t : State} (h : retryExpires s = some t) : Moves s t := by
  unfold retryExpires at h
  split at h
  · obtain rfl := Option.some.inj h
    exact moves_readConsumed s
  · cases h

theorem moves_nudgeNotice (s : State) : Moves s (nudgeNotice s) := by
  unfold nudgeNotice
  split
  · split
    · exact moves_readConsumed s
    · exact moves_setNotice s _
    · exact Moves.refl s
  · exact Moves.refl s

theorem moves_resumeNotice (s : State) : Moves s (resumeNotice s) := by
  unfold resumeNotice
  split
  · split
    · exact moves_portRequest _ s fun h => postWrite_ok h.1
    · exact Moves.refl s
  · exact moves_writeCount s
  · exact moves_readConsumed s
  · exact moves_readConsumed s
  · exact moves_noticePump s

/-! ## START (R176) -/

/-- The part with the engine RUNNING and every line's receiver started, each line looking at its content (R25, R112). -/
abbrev started (s : State) : State := refreshAll (startReceivers (setEngineState .running s))

theorem cell_startReceivers (s : State) (c : CellNo) :
    (startReceivers s).cell c =
      if (s.cell c).line.state = .offline then s.cell c
      else { s.cell c with line := (s.cell c).line.startReceiver s.clock } := cell_mapCells _ _ _

theorem startReceivers_frame (s : State) (c : CellNo) :
    ((startReceivers s).cell c).asm = (s.cell c).asm ∧ ((startReceivers s).cell c).guard = (s.cell c).guard
      ∧ ((startReceivers s).cell c).holds = (s.cell c).holds := by
  rw [cell_startReceivers]
  split <;> exact ⟨rfl, rfl, rfl⟩

theorem startReceiver_lineReady {l : Line} (now : Time) (hon : l.state ≠ .offline) (h : LineReady .halted l) :
    LineReady .running (l.startReceiver now) := by
  obtain ⟨-, hrate, htx⟩ := h
  refine ⟨(receiverOk_iff _ _).2 ⟨fun _ => rfl, fun hoff => ?_⟩, hrate, ?_⟩
  · have hact : receiverActive .running (l.startReceiver now) = true := (receiverActive_iff _ _).2 ⟨hon, .inl rfl⟩
    rw [hact] at hoff
    cases hoff
  · unfold TxReady at htx ⊢
    exact htx

theorem lineReady_offline {eng eng' : EngineState} {l : Line} (hoff : l.state = .offline) (h : LineReady eng l) :
    LineReady eng' l := lineReady_congr (by simp [receiverActive, hoff]) h

theorem moves_started {s : State} (hs : s.engine.state = .halted) (hl : s.engine.loaded = true) :
    Moves s (started s) := by
  refine moves_refreshAll (Asks.of_port_eq rfl rfl id) (fun he => ?_) id (fun h c => ?_) (fun h c => ?_) fun h c => ?_
  · obtain ⟨h1, -, -, h4⟩ := he
    refine ⟨?_, fun _ => hl, fun h => EngineState.noConfusion h, h4⟩
    show s.engine.fault = true ↔ EngineState.running = .faulted
    simp [h1, hs]
  · obtain ⟨ha, hg, hh⟩ := startReceivers_frame (setEngineState .running s) c
    unfold GuardOk
    rw [ha, hg, hh]
    exact h c
  · obtain ⟨ha, -, hh⟩ := startReceivers_frame (setEngineState .running s) c
    unfold AsmOk BufferOk
    rw [ha, hh]
    exact h c
  · have hc := (h c).ready
    rw [hs] at hc
    rw [cell_startReceivers]
    split
    · rename_i hoff
      exact lineReady_offline hoff hc
    · rename_i hon
      exact startReceiver_lineReady _ hon hc

theorem moves_performStart (s : State) : Moves s (performStart s) := by
  unfold performStart
  split
  · rename_i h
    exact (((moves_started h.1 h.2).trans (moves_resumeCollation _)).trans (moves_resumeOrder _)).trans
      (moves_resumeNotice _)
  · exact Moves.refl s

/-! ## STOP and memory faults (R177, R178, R181) -/

/-- The part after every line has taken a DRAINING engine (R112, R155). -/
abbrev drainBegun (s : State) : State :=
  refreshAll ((setEngineState .draining s).setOrder { s.order with pollTimer := none })

theorem moves_drainBegun {s : State} (hs : s.engine.state = .running) : Moves s (drainBegun s) := by
  refine moves_refreshAll ?_ (fun he => ?_) id id id fun h c => ?_
  · exact Asks.of_port_eq rfl rfl fun ha => addressesOk_congr (s := s) rfl rfl rfl rfl ha
  · obtain ⟨h1, h2, -, h4⟩ := he
    refine ⟨?_, fun _ => h2 (.inl hs), fun h => EngineState.noConfusion h, h4⟩
    show s.engine.fault = true ↔ EngineState.draining = .faulted
    simp [h1, hs]
  · have hc := (h c).ready
    exact lineReady_congr (eng := s.engine.state) (by rw [hs]; simp [receiverActive, setEngineState]) hc

theorem moves_beginDrain {s : State} (hs : s.engine.state = .running) : Moves s (beginDrain s) :=
  (moves_drainBegun hs).trans (moves_judgeDrain _)

theorem placed_none {s : State} (h : s.port.waiting = Waiting.none) : Placed s := by
  intro r
  rw [h]
  cases r <;> simp [Waiting.none, Waiting.get]

/-- Withdrawing every waiting request. -/
theorem asks_withdrawAll (s : State) : Asks s { s with port := { s.port with waiting := Waiting.none } } where
  pending := rfl
  clock := rfl
  outstanding := rfl
  timer := rfl
  last := rfl
  placed _ := placed_none rfl
  portOk h := ⟨h.1, h.2.1, fun r t ht => by cases r <;> cases ht⟩

theorem moves_enterFaulted (r : Requester) (k : FaultKind) {s : State}
    (hs : s.engine.state = .running ∨ s.engine.state = .draining) : Moves s (enterFaulted r k s) := by
  refine moves_refreshAll ?_ (fun he => ?_) ?_ id id fun h c => ?_
  · exact (asks_withdrawAll s).trans (Asks.of_port_eq rfl rfl fun ha => addressesOk_congr (s := s) rfl rfl rfl rfl ha)
  · obtain ⟨-, h2, -, h4⟩ := he
    exact ⟨by simp, fun _ => h2 (hs.imp_right .inl), fun h => EngineState.noConfusion h, h4⟩
  · exact catalogueOk_congr rfl rfl
  · exact lineReady_congr (eng := s.engine.state) (by rcases hs with hs | hs <;> rw [hs] <;> simp [receiverActive])
      (h c).ready

/-- A change of several cells, each its own. -/
structure OnCells (cs : List CellNo) (f : CellState → CellState) (ds : List Occurrence) (s t : State) : Prop where
  keeps : Keeps [.port, .cells, .notice] s t
  cell : ∀ d, t.cell d = if d ∈ cs then f (s.cell d) else s.cell d
  asks : Asks s t
  tells : Tells ds s t
  waiting : ∀ r, r ≠ .noticeUnit → t.port.waiting.get r = s.port.waiting.get r
  busy : ∀ r, (s.port.waiting.get r).isSome = true → (t.port.waiting.get r).isSome = true

theorem OnCells.nil (f : CellState → CellState) (s : State) : OnCells [] f [] s s :=
  ⟨Keeps.refl _ _, fun _ => rfl, Asks.refl s, Tells.refl s, fun _ _ => rfl, fun _ => id⟩

theorem OnCells.cons {c : CellNo} {cs : List CellNo} {f : CellState → CellState} {ds es : List Occurrence}
    {s t u : State} (hc : c ∉ cs) (h : OnCell c f ds s t) (k : OnCells cs f es t u) :
    OnCells (c :: cs) f (ds ++ es) s u where
  keeps := h.keeps.trans k.keeps
  cell d := by
    rw [k.cell]
    by_cases hd : d = c
    · subst hd
      rw [if_neg hc, h.cell, if_pos List.mem_cons_self]
    · rw [h.others d hd]
      simp [hd]
  asks := h.asks.trans k.asks
  tells := h.tells.trans k.tells
  waiting r hr := (k.waiting r hr).trans (h.waiting r hr)
  busy r := k.busy r ∘ h.busy r

/-- One change on each cell of a list in turn, where it depends on the cell, engine control, the clock and the catalogue
alone (notes/assumptions/9.md). -/
theorem onCells_eachCell {f : CellNo → State → State} {g : CellState → CellState}
    {ds : CellNo → CellState → List Occurrence} {s : State} {cs : List CellNo} (hcs : cs.Nodup)
    (hf : ∀ c t, t.engine = s.engine → t.clock = s.clock → t.coll = s.coll → OnCell c g (ds c (t.cell c)) t (f c t)) :
    OnCells cs g (cs.flatMap fun c => ds c (s.cell c)) s (eachCell f cs s) := by
  induction cs generalizing s with
  | nil => exact OnCells.nil g s
  | cons c cs ih =>
    obtain ⟨hc, hcs⟩ := List.nodup_cons.1 hcs
    have h := hf c s rfl rfl rfl
    have hrest := ih hcs fun d t he hk hl =>
      hf d t (he.trans h.engine_eq) (hk.trans h.clock_eq) (hl.trans h.coll_eq)
    have hnotices : (cs.flatMap fun d => ds d ((f c s).cell d)) = cs.flatMap fun d => ds d (s.cell d) := by
      refine List.flatMap_congr fun d hd => ?_
      have hne : d ≠ c := fun e => hc (e ▸ hd)
      rw [h.others d hne]
    rw [hnotices] at hrest
    exact OnCells.cons hc h hrest

theorem onCells_stopTouchdowns (s : State) :
    OnCells allCells (CellState.closeRecord .stopped s.clock)
      (allCells.flatMap fun c => closeNotices .stopped s.clock c (s.cell c).asm) s (stopTouchdowns s) :=
  onCells_eachCell (ds := fun c cs => closeNotices .stopped s.clock c cs.asm) (List.nodup_finRange 24)
    fun c t _ hclock _ => hclock ▸ onCell_closeTouchdown .stopped c t

theorem OnCells.engine_eq {cs : List CellNo} {f : CellState → CellState} {ds : List Occurrence} {s t : State}
    (h : OnCells cs f ds s t) : t.engine = s.engine := h.keeps.1 (by simp)

theorem OnCells.coll_eq {cs : List CellNo} {f : CellState → CellState} {ds : List Occurrence} {s t : State}
    (h : OnCells cs f ds s t) : t.coll = s.coll := h.keeps.2.2.2.2.2.2.1 (by simp)

/-- Several cells changed, each keeping its form, and every line looking at its content. -/
theorem OnCells.moves_refreshAll {cs : List CellNo} {f : CellState → CellState} {ds : List Occurrence} {s t : State}
    (h : OnCells cs f ds s t) (hk : ∀ c, CellKept s.engine.state (s.cell c) (f (s.cell c))) :
    Moves s (refreshAll t) := by
  have hkept : ∀ d, CellKept s.engine.state (s.cell d) (t.cell d) := fun d => by
    rw [h.cell]
    split
    · exact hk d
    · exact CellKept.refl _ _
  refine Machine.moves_refreshAll h.asks ?_ ?_ (fun hg d => (hkept d).guard (hg d)) (fun ha d => (hkept d).asm (ha d))
    fun hl d => ?_
  · rw [h.engine_eq]; exact id
  · rw [h.coll_eq]; exact id
  · rw [h.engine_eq]
    exact (hkept d).line (hl d).ready

theorem moves_recover {s : State} (hs : s.engine.state = .faulted) : Moves s (recover s) := by
  unfold recover
  have hhalt : Moves s (enterHalted (s.setEngine { s.engine with fault := false })) := by
    refine moves_enterHalted (Asks.of_port_eq rfl rfl id) (fun he => ?_) rfl rfl (by rw [hs]; decide)
    obtain ⟨-, -, -, h4⟩ := he
    exact ⟨by simp [enterHalted, setEngineState, State.setEngine], by simp [enterHalted, setEngineState],
      by simp [enterHalted, setEngineState], h4⟩
  exact hhalt.trans ((onCells_stopTouchdowns _).moves_refreshAll fun c => closeRecord_cellKept _ _ _ _)

end Sys2Proof.Machine
end

