-- ==== Sys2Proof/Proofs/EffectMoves.lean ====
section
/-! SUPPORT. Every command's effect is a reset, or a move from a part whose port has changed in one of three ways: not at
all, freed of its outstanding transaction, or left with an abandoned setup read (R178, R180, R182). -/

namespace Sys2Proof.Machine

/-- The port as an event finds it before its effect: the same, freed of the transaction that has ended, or left by a STOP in
LOADING (R178, R180). -/
inductive Freed (s : State) : State → Prop where
  | same : Freed s s
  | ended : s.port.outstanding ≠ none → Freed s (portFree s)
  | abandoned : s.engine.state = .loading → Freed s { s with port := abandonSetupRead s.port }

/-- A move from the part with its port as the event finds it. -/
def Effect (s t : State) : Prop := ∃ u, Freed s u ∧ Moves u t

theorem Moves.effect {s t : State} (h : Moves s t) : Effect s t := ⟨s, .same, h⟩

theorem Completed.effect {p : Purpose} {s t : State} (h : Completed p s t) : Effect s t := by
  obtain ⟨ho, hm⟩ := h
  exact ⟨_, .ended (fun hn => by simp [OutstandingFor, hn] at ho), hm⟩

theorem Effect.trans {s t u : State} (h : Effect s t) (k : Moves t u) : Effect s u := by
  obtain ⟨v, hv, hm⟩ := h
  exact ⟨v, hv, hm.trans k⟩

/-! ## Register writes (R171) -/

/-- An action on a part whose engine state is that of s with other enables. -/
theorem effect_performAction (w v : Word) (s : State) : Effect s (performAction w (storeEnables v s)) := by
  have hstore := moves_storeEnables v s
  unfold performAction
  split
  · exact (hstore.trans (moves_performInit _)).effect
  · exact (hstore.trans (moves_performStart _)).effect
  · unfold performStop
    split
    · rename_i hs
      exact (hstore.trans (moves_beginDrain hs)).effect
    · rename_i hs
      have hload : s.engine.state = .loading := hs
      refine ⟨_, .abandoned hload, (moves_storeEnables v { s with port := abandonSetupRead s.port }).trans ?_⟩
      exact moves_failLoad .abandoned (s := storeEnables v { s with port := abandonSetupRead s.port }) (.inr hload)
    · rename_i hs
      exact (hstore.trans (moves_recover hs)).effect
    · exact hstore.effect
    · exact hstore.effect
  · exact hstore.effect

/-- A CONTROL write resets the part, or is an effect. -/
theorem effect_controlWrite (w : Word) (s : State) :
    (∃ cause a, controlWrite w s = resetPart cause a s) ∨ Effect s (controlWrite w s) := by
  unfold controlWrite
  split
  · exact .inl ⟨_, _, rfl⟩
  · right
    extract_lets s1
    have h1 : Effect s s1 := effect_performAction w w s
    split
    · exact (h1.trans (moves_nudgeOrder _)).trans (moves_nudgeNotice _)
    · exact h1

theorem effect_registerWrite {offset value : Word} {s t : State} (h : registerWrite offset value s = some t) :
    (∃ cause a, t = resetPart cause a s) ∨ Effect s t := by
  unfold registerWrite at h
  split at h
  · obtain rfl := Option.some.inj h
    exact effect_controlWrite value s
  · split at h
    · obtain rfl := Option.some.inj h
      exact .inr (moves_statusWrite value s).effect
    · split at h
      · exact .inr (moves_setupAddrWrite h).effect
      · split at h
        · exact .inr (moves_setupAddrWrite h).effect
        · cases h

/-! ## Responses and faults (R175, R178, R180, R181) -/

theorem effect_setupRead {data : List Byte} {s t : State} (h : setupRead data s = some t) : Effect s t := by
  unfold setupRead at h
  split at h
  · rename_i u hu
    obtain ⟨rfl, ho⟩ := returned_inv hu
    obtain rfl := Option.some.inj h
    refine Completed.effect (p := .setupRead) ⟨outstandingFor_of ho, ?_⟩
    split
    · rename_i hs
      exact moves_judgeSetup data hs
    · exact Moves.refl _
  · obtain ⟨rfl, ho⟩ := returned_inv h
    exact Completed.effect (p := .abandonedSetupRead) ⟨outstandingFor_of ho, Moves.refl _⟩

theorem effect_transactionFaults {tr : Transaction} (k : FaultKind) {s : State} (ho : s.port.outstanding = some tr) :
    Effect s (transactionFaults tr k s) := by
  refine ⟨portFree s, .ended (by rw [ho]; exact Option.some_ne_none _), ?_⟩
  unfold transactionFaults
  extract_lets s1
  split
  · rename_i hs
    split
    · exact Moves.refl _
    · exact moves_enterFaulted _ _ (.inl hs)
  · rename_i hs
    split
    · exact Moves.refl _
    · exact moves_enterFaulted _ _ (.inr hs)
  · rename_i hs
    split
    · exact moves_failLoad _ (.inr hs)
    · exact Moves.refl _
  · exact Moves.refl _
  · exact Moves.refl _

theorem effect_errorResponse {s t : State} (h : errorResponse s = some t) : Effect s t := by
  obtain ⟨tr, ho, rfl⟩ := Option.map_eq_some_iff.1 h
  exact effect_transactionFaults _ ho

theorem effect_responseExpires {s t : State} (h : responseExpires s = some t) : Effect s t := by
  unfold responseExpires at h
  split at h
  · obtain ⟨tr, ho, rfl⟩ := Option.map_eq_some_iff.1 h
    exact effect_transactionFaults _ ho
  · cases h

theorem effect_lateResponse {which : LateResponse} {s t : State} (h : lateResponse which s = some t) : Effect s t := by
  cases which with
  | ended => cases h
  | abandonedSetupRead =>
    obtain ⟨rfl, ho⟩ := returned_inv h
    exact Completed.effect (p := .abandonedSetupRead) ⟨outstandingFor_of ho, Moves.refl _⟩

/-! ## The events of a line -/

theorem moves_characterDone {c : CellNo} {data : Byte} {parity stop : Bool} {s t : State}
    (h : characterDone c data parity stop s = some t) : Moves s t := by
  obtain ⟨⟨hact, -⟩, ht⟩ := characterDone_inv h
  exact ht.moves_of_kept (character_cellKept _ _ _ _ hact)

theorem moves_messageDone {c : CellNo} {m : Message} {s t : State} (h : messageDone c m s = some t) : Moves s t := by
  obtain ⟨hact, ht⟩ := messageDone_inv h
  exact OnCell.moves_of_kept (f := fun cs => ({ cs with line := { cs.line with rx := .idle, decoder := .hunt } } :
    CellState).deliver s.engine.state s.clock m) ht (message_cellKept _ m hact)

theorem moves_gapExpires {c : CellNo} {s t : State} (h : gapExpires c s = some t) : Moves s t := by
  obtain ⟨⟨hact, -⟩, ht⟩ := gapExpires_inv h
  exact ht.moves_of_kept (countError_cellKept _ hact)

theorem moves_windowEnds {c : CellNo} {s t : State} (h : windowEnds c s = some t) : Moves s t := by
  obtain ⟨⟨hact, -⟩, ht⟩ := windowEnds_inv h
  exact OnCell.moves_of_kept (f := fun cs => { cs with line := nextWindow (judgeWindow cs.line) }) ht
    (window_cellKept hact)

theorem moves_silenceExpires {c : CellNo} {s t : State} (h : silenceExpires c s = some t) : Moves s t := by
  obtain ⟨-, ht⟩ := silenceExpires_inv h
  exact ht.moves_of_kept (closeRecord_cellKept _ _ _ _)

theorem moves_messageSent {c : CellNo} {s t : State} (h : messageSent c s = some t) : Moves s t := by
  obtain ⟨final, rate, m, htx, rfl⟩ := messageSent_inv h
  obtain ⟨⟨ha, hg⟩, hh⟩ := afterSent_frame s.engine.state s.coll.lots final (s.cell c)
  refine (onCell_modCell c _ s).moves (fun h => ?_) (fun h => ?_) fun h => afterSent_lineOk htx h
  · unfold GuardOk
    rw [ha, hg, hh]
    exact h
  · unfold AsmOk BufferOk
    rw [ha, hh]
    exact h

/-- A receiver that is active stays in form whatever its character. -/
theorem moves_receiver {c : CellNo} {s : State} (rx : Receiver)
    (hact : receiverActive s.engine.state (s.cell c).line = true) :
    Moves s (s.modLine c fun l => { l with rx := rx }) := by
  refine (onCell_modLine c (fun l => { l with rx := rx }) s).moves id id fun h => ?_
  obtain ⟨hrx, hrate, htx⟩ := h
  refine ⟨?_, hrate, htx⟩
  rw [receiverOk_iff] at hrx ⊢
  refine ⟨fun _ => hrx.1 hact, fun hoff => ?_⟩
  have : receiverActive s.engine.state (s.cell c).line = false := hoff
  rw [hact] at this
  cases this

theorem moves_edgeFalls {c : CellNo} {s t : State} (h : edgeFalls c s = some t) : Moves s t := by
  obtain ⟨⟨hact, -⟩, rfl⟩ := edgeFalls_inv h
  exact moves_receiver .character hact

theorem moves_startBitHigh {c : CellNo} {s t : State} (h : startBitHigh c s = some t) : Moves s t := by
  obtain ⟨⟨hact, -⟩, rfl⟩ := startBitHigh_inv h
  exact moves_receiver .idle hact

/-! ## Every command -/

/-- A command's effect is a reset, or a move from a part with its port freed. -/
theorem effect_inv {i : Instr} {s t : State} (h : effectOf i s = some t) :
    (∃ cause a, t = resetPart cause a s) ∨ Effect s t := by
  cases i with
  | init w => obtain rfl := Option.some.inj h; exact effect_controlWrite _ s
  | start w => obtain rfl := Option.some.inj h; exact effect_controlWrite _ s
  | stop w => obtain rfl := Option.some.inj h; exact effect_controlWrite _ s
  | reset w => obtain rfl := Option.some.inj h; exact effect_controlWrite _ s
  | nudge w => obtain rfl := Option.some.inj h; exact effect_controlWrite _ s
  | setEnables w => obtain rfl := Option.some.inj h; exact effect_controlWrite _ s
  | clearLoadDone w => obtain rfl := Option.some.inj h; exact .inr (moves_statusWrite _ s).effect
  | clearNotice w => obtain rfl := Option.some.inj h; exact .inr (moves_statusWrite _ s).effect
  | setupAddrWrite half v => exact .inr (moves_setupAddrWrite h).effect
  | registerWriteIgnored offset v => exact effect_registerWrite h
  | powerOnReset => exact .inl ⟨_, _, (Option.some.inj h).symm⟩
  | busReset => exact .inl ⟨_, _, (Option.some.inj h).symm⟩
  | setupReadDone data => exact .inr (effect_setupRead h)
  | transactionErrorResponse => exact .inr (effect_errorResponse h)
  | responseTimerExpiry => exact .inr (effect_responseExpires h)
  | lateResponse which => exact .inr (effect_lateResponse h)
  | characterError c data parity stop => exact .inr (moves_characterDone h).effect
  | typeError c b => exact .inr (moves_characterDone h).effect
  | lengthError c b => exact .inr (moves_characterDone h).effect
  | checkError c b => exact .inr (moves_characterDone h).effect
  | byte c b => exact .inr (moves_characterDone h).effect
  | gapError c => exact .inr (moves_gapExpires h).effect
  | qualityWindowEnd c => exact .inr (moves_windowEnds h).effect
  | openMsg c number declared => exact .inr (moves_messageDone h).effect
  | unitMsg c site key wafer x y bin attempt => exact .inr (moves_messageDone h).effect
  | closeMsg c number => exact .inr (moves_messageDone h).effect
  | helloMsg c => exact .inr (moves_messageDone h).effect
  | silenceTimerExpiry c => exact .inr (moves_silenceExpires h).effect
  | holdStateSent c => exact .inr (moves_messageSent h).effect
  | collationTakeWork => exact .inr (moves_takeWork h).effect
  | mapReadDone v => exact .inr (moves_mapRead h).effect
  | mapWriteDone => exact .inr (moves_mapWritten h).effect
  | tallyRecordWriteDone => exact .inr (moves_tallyWritten h).effect
  | graceTimerExpiry key => exact .inr (moves_graceExpires h).effect
  | scanReadDone data => exact .inr (moves_scanData h).effect
  | headerReadDone data => exact .inr (moves_headerRead h).effect
  | bodyReadDone data => exact .inr (moves_bodyRead h).effect
  | cellRecordWriteDone => exact .inr (moves_cellRecordWritten h).effect
  | resultWordWriteDone => exact .inr (moves_resultWritten h).effect
  | stateWriteDone => exact .inr (moves_stateWritten h).effect
  | linkReadDone v => exact .inr (moves_linkRead h).effect
  | chainPositionWriteDone => exact .inr (moves_positionWritten h).effect
  | pollTimerExpiry => exact .inr (moves_pollExpires h).effect
  | noticeRecordWriteDone => exact .inr (moves_recordWritten h).effect
  | countWriteDone => exact .inr (moves_countWritten h).effect
  | consumedReadDone v => exact .inr (moves_consumedRead h).effect
  | retryTimerExpiry => exact .inr (moves_retryExpires h).effect
  | fallingEdge c => exact .inr (moves_edgeFalls h).effect
  | startBitNoise c => exact .inr (moves_startBitHigh h).effect
  | takenWriteDone => exact .inr (moves_takenWritten h).effect

end Sys2Proof.Machine
end

