-- ==== Sys2Proof/Proofs/Resets.lean ====
section
/-! SUPPORT and the statements about resets: the values after a reset, that every invariant holds there (R182), and what the
end of an event makes of a part that rests. -/

namespace Sys2Proof.Machine

@[simp] theorem cell_afterReset (cause : ResetCause) (a : Addr) (c : CellNo) :
    (State.afterReset cause a).cell c = CellState.reset := by
  simp [State.afterReset, State.cell]

@[simp] theorem site_guardReset (q : Site) : Guard.reset.site q = SiteGuard.reset := by
  simp [Guard.reset, Guard.site]

theorem guardOk_reset : GuardOk CellState.reset := by
  refine ⟨by decide, fun q => ?_, rfl, by decide⟩
  show SiteOk 32 _ (Guard.reset.site q)
  rw [site_guardReset]
  exact ⟨by decide, rfl, by decide, fun _ => ⟨rfl, rfl, rfl, rfl, rfl⟩⟩

theorem asmOk_reset : AsmOk CellState.reset := by
  refine ⟨⟨?_, ?_, rfl, ?_, ?_, ?_⟩, rfl⟩ <;> decide

theorem engineOk_reset (cause : ResetCause) (a : Addr) : EngineOk (Engine.reset cause a) := by
  simp [EngineOk, Engine.reset]

theorem settled_afterReset (cause : ResetCause) (a : Addr) : Settled (State.afterReset cause a) :=
  ⟨rfl, fun _ => rfl, rfl⟩

theorem addressesOk_afterReset (cause : ResetCause) (a : Addr) : AddressesOk (State.afterReset cause a) := by
  refine ⟨?_, ?_, ?_, ?_, ?_, fun v hv => ?_, fun l hl => ?_⟩
  · show aligned 0 8 = true; decide
  · show aligned 0 32 = true; decide
  · show aligned 0 4 = true; decide
  · show aligned 0 8 = true; decide
  · show aligned 0 8 = true; decide
  · cases hv
  · cases hl

theorem portOk_afterReset (cause : ResetCause) (a : Addr) : PortOk (State.afterReset cause a) := by
  refine ⟨addressesOk_afterReset cause a, fun t ht => ?_, fun r t ht => ?_⟩
  · cases ht
  · cases r <;> cases ht

theorem lineOk_reset (lots : List Lot) : LineOk .halted lots CellState.reset := by
  refine ⟨?_, fun h => absurd rfl h, rfl⟩
  exact (receiverOk_iff _ _).2 ⟨fun h => (by cases h), fun _ => ⟨rfl, rfl, rfl⟩⟩

/-- A part at rest takes an effect that leaves it at rest as it is, the interrupt following. -/
theorem settle_resetPart (cause : ResetCause) (a : Addr) (before s : State) :
    settle before (resetPart cause a s) = { State.afterReset cause a with
      pending := s.pending, races := s.races, raceCount := s.raceCount } :=
  settle_of_rest before (resetPart cause a s) rfl fun _ => rfl

theorem controlWrite_reset {w : Word} (h : w.getLsbD 3 = true) (s : State) :
    controlWrite w s = resetPart .controlReset s.engine.setupAddr s := if_pos h

theorem controlWord_reset (cause : ResetCause) (a : Addr) : (Engine.reset cause a).controlWord = 0 := by
  simp [Engine.controlWord, Engine.reset, bitAt]

/-- Settles O4: the three resets settle at rest, and every value is read off. -/
theorem resetsRestoreEveryItem : Obligations.ResetsRestoreEveryItem := by
  refine ⟨fun w s => ⟨?_, ?_, ?_⟩, fun cause a => ?_⟩
  · rw [exec_of_effect (i := .powerOnReset) rfl, settle_resetPart]
  · rw [exec_of_effect (i := .busReset) rfl, settle_resetPart]
  · rw [exec_of_effect (i := .reset w) rfl, controlWrite_reset (by simp), settle_resetPart]
  · refine ⟨⟨rfl, rfl, rfl, rfl, rfl, rfl, rfl, rfl, controlWord_reset cause a, rfl, rfl, rfl, rfl⟩, ⟨rfl, rfl, rfl, rfl⟩,
      ⟨rfl, rfl, rfl, rfl, rfl, rfl, rfl⟩, ⟨rfl, fun p => ?_, rfl, rfl, rfl, rfl, rfl⟩,
      ⟨rfl, rfl, rfl, rfl, rfl, rfl, rfl, rfl⟩, fun c => ?_⟩
    · simp [State.afterReset, Collation.reset, Collation.loaded]
    · rw [cell_afterReset]
      exact ⟨⟨rfl, rfl, rfl, rfl, rfl, rfl, rfl, rfl, rfl, rfl, rfl, rfl, rfl⟩, ⟨rfl, rfl, rfl, rfl, rfl⟩,
        ⟨rfl, rfl, rfl, rfl, rfl, rfl⟩, ⟨rfl, rfl, rfl, rfl, rfl, rfl, rfl, rfl, site_guardReset⟩⟩

/-- Settles O5: each invariant is read off the reset values. -/
theorem invariantsHoldAfterReset : Obligations.InvariantsHoldAfterReset := by
  intro cause a s
  refine ⟨placed_none rfl, settled_afterReset cause a, ?_, ?_, ?_, portOk_afterReset cause a, ?_, fun c => ?_⟩
  · exact engineOk_reset cause a
  · exact ⟨Nat.zero_le _, List.nodup_nil, fun l hl => by cases hl⟩
  · exact ⟨Nat.zero_le _, List.nodup_nil⟩
  · refine ⟨by simp [s, State.afterReset, NoticeUnit.reset], fun h => NoticePhase.noConfusion h, fun t ht => ?_⟩
    rcases ht with ht | ⟨r, ht⟩
    · cases ht
    · cases r <;> cases ht
  · obtain ⟨hrx, hrate, htx⟩ := lineOk_reset (State.afterReset cause a).coll.lots
    rw [cell_afterReset]
    exact ⟨guardOk_reset, asmOk_reset.1, asmOk_reset.2, hrx, hrate, htx⟩

end Sys2Proof.Machine
end

