-- ==== Sys2Proof/Proofs/StepInvariants.lean ====
section
/-! SUPPORT and the statements about what every step keeps: engine control with the port, the catalogue, the guards, the
assemblers, the lines, and the places of transactions. -/

namespace Sys2Proof.Machine

/-! ## From effects to steps -/

/-- A property that the port, the interrupt and the race fields do not touch, that moves keep and that holds after a reset,
is kept by every settled effect. -/
theorem settle_keeps {P : State → Prop}
    (hport : ∀ {s : State} (p : Port) (irq : Bool) (rs : List Bool) (n : Nat),
      P s → P { s with port := p, irq := irq, races := rs, raceCount := n })
    (hmoves : ∀ {s t : State}, Moves s t → P s → P t) (hreset : ∀ cause a s, P (resetPart cause a s))
    {i : Instr} {s s' : State} (h : effectOf i s = some s') (hs : P s) : P (settle s s') := by
  have heffect : P s' := by
    obtain ⟨cause, a, rfl⟩ | ⟨u, hu, hm⟩ := effect_inv h
    · exact hreset cause a s
    · refine hmoves hm ?_
      cases hu with
      | same => exact hs
      | ended => exact hport _ s.irq s.races s.raceCount hs
      | abandoned => exact hport _ s.irq s.races s.raceCount hs
  obtain ⟨p, rs, n, he⟩ := settle_frame s s'
  rw [he]
  exact hport p _ rs n (hmoves (moves_judgeDrain s') heffect)

/-- Settles O55: every effect is a move or a reset. -/
theorem catalogueStaysLegal : Obligations.CatalogueStaysLegal := by
  intro s t hs hstep
  refine step_keeps (P := fun s => CatalogueOk s.coll) ?_ id ?_ hs hstep
  · rintro s t ⟨q, rs, n, rfl⟩ h
    exact h
  · exact settle_keeps (P := fun s => CatalogueOk s.coll) (fun _ _ _ _ h => h) (fun hm h => hm.catalogue h)
      fun _ _ _ => ⟨Nat.zero_le _, List.nodup_nil, fun l hl => by cases hl⟩

/-- Settles O56: every effect is a move or a reset. -/
theorem guardsStayLegal : Obligations.GuardsStayLegal := by
  intro s t hs hstep
  refine step_keeps (P := GuardsOk) ?_ id ?_ hs hstep
  · rintro s t ⟨q, rs, n, rfl⟩ h
    exact h
  · refine settle_keeps (P := GuardsOk) (fun _ _ _ _ h => h) (fun hm h => hm.guards h) fun cause a _ c => ?_
    show GuardOk ((State.afterReset cause a).cell c)
    rw [cell_afterReset]
    exact guardOk_reset

/-- Settles O57: every effect is a move or a reset. -/
theorem assemblersStayLegal : Obligations.AssemblersStayLegal := by
  intro s t hs hstep
  refine step_keeps (P := AsmsOk) ?_ id ?_ hs hstep
  · rintro s t ⟨q, rs, n, rfl⟩ h
    exact h
  · refine settle_keeps (P := AsmsOk) (fun _ _ _ _ h => h) (fun hm h => hm.asms h) fun cause a _ c => ?_
    show AsmOk ((State.afterReset cause a).cell c)
    rw [cell_afterReset]
    exact asmOk_reset

/-- Settles O58: every effect is a move or a reset. -/
theorem linesFollowTheirContent : Obligations.LinesFollowTheirContent := by
  intro s t hs hstep
  refine step_keeps (P := LinesOk) ?_ id ?_ hs hstep
  · rintro s t ⟨q, rs, n, rfl⟩ h
    exact h
  · refine settle_keeps (P := LinesOk) (fun _ _ _ _ h => h) (fun hm h => hm.lines h) fun cause a _ c => ?_
    show LineOk .halted _ ((State.afterReset cause a).cell c)
    rw [cell_afterReset]
    exact lineOk_reset _

/-! ## The port's grant (R179) -/

/-- A grant moves one waiting request to the link, or nothing. -/
theorem portGrant_cases (before s : State) :
    portGrant before s = s
      ∨ ∃ q tr rs n, s.port.outstanding = none ∧ s.port.waiting.get q = some tr ∧ portGrant before s =
        { s with
          port := { outstanding := some tr, timer := some (Time.plus s.clock 2), waiting := s.port.waiting.put q none,
                    last := q }
          races := rs, raceCount := n } := by
  by_cases ho : s.port.outstanding = none
  · by_cases hw : ∃ r, (s.port.waiting.get r).isSome
    · obtain ⟨r, hr⟩ := hw
      obtain ⟨q, tr, hq, rs, n, he⟩ := portGrant_of_waiting before s ho r hr
      exact .inr ⟨q, tr, rs, n, ho, hq, he⟩
    · refine .inl (portGrant_of_rest before s fun _ => waiting_eq_none _ fun r => ?_)
      by_contra hc
      exact hw ⟨r, Option.isSome_iff_ne_none.2 hc⟩
  · exact .inl (portGrant_of_rest before s fun h => absurd h ho)

/-- A withdrawn or granted request leaves the others where they wait. -/
theorem waiting_put_none {w : Waiting} {q r : Requester} {tr : Transaction} (h : (w.put q none).get r = some tr) :
    w.get r = some tr := by
  by_cases hr : r = q
  · subst hr
    simp at h
  · rwa [waiting_put_get_ne _ _ hr] at h

theorem placed_put_none {s t : State} {q : Requester} (hp : t.port.waiting = s.port.waiting.put q none) (h : Placed s) :
    Placed t := by
  intro r
  rw [hp]
  by_cases hr : r = q
  · subst hr
    simp
  · rw [waiting_put_get_ne _ _ hr]
    exact h r

theorem placed_portGrant {s : State} (before : State) (h : Placed s) : Placed (portGrant before s) := by
  obtain he | ⟨q, tr, rs, n, -, -, he⟩ := portGrant_cases before s <;> rw [he]
  · exact h
  · exact placed_put_none rfl h

theorem portOk_portGrant {s : State} (before : State) (h : PortOk s) : PortOk (portGrant before s) := by
  obtain he | ⟨q, tr, rs, n, -, hq, he⟩ := portGrant_cases before s <;> rw [he]
  · exact h
  · obtain ⟨ha, -, hw⟩ := h
    refine ⟨ha, fun t ht => ?_, fun r t ht => hw r t (waiting_put_none ht)⟩
    obtain rfl := Option.mem_some.1 ht
    exact hw q tr hq

theorem freed_portOk {s u : State} (hu : Freed s u) (h : PortOk s) : PortOk u := by
  obtain ⟨ha, ho, hw⟩ := h
  cases hu with
  | same => exact ⟨ha, ho, hw⟩
  | ended => exact ⟨ha, fun t ht => (by cases ht), hw⟩
  | abandoned =>
    refine ⟨ha, fun t ht => ?_, fun r t ht => hw r t (waiting_put_none ht)⟩
    obtain ⟨old, hold, rfl⟩ := Option.mem_map.1 (show t ∈ s.port.outstanding.map _ from ht)
    have hok := ho old hold
    split
    · exact hok
    · exact hok

/-- Settles O59: every effect asks for well placed transactions alone. -/
theorem transactionsStayPlaced : Obligations.TransactionsStayPlaced := by
  intro s t hs hstep
  refine step_keeps (P := PortOk) ?_ id ?_ hs hstep
  · rintro s t ⟨q, rs, n, rfl⟩ h
    exact h
  · intro i s s' he h
    have heffect : PortOk s' := by
      obtain ⟨cause, a, rfl⟩ | ⟨u, hu, hm⟩ := effect_inv he
      · exact portOk_afterReset cause a
      · exact hm.asks.portOk (freed_portOk hu h)
    exact portOk_portGrant s ((moves_judgeDrain s').asks.portOk heffect)

/-! ## Engine control and the port -/

theorem freed_placed {s u : State} (hu : Freed s u) (h : Placed s) : Placed u := by
  cases hu with
  | same => exact h
  | ended => exact h
  | abandoned => exact placed_put_none (q := .orderUnit) rfl h

/-- A granted request still keeps its requester busy. -/
theorem portBusy_portGrant {s : State} (before : State) (r : Requester) (hp : Placed s) (h : portBusy r s = true) :
    portBusy r (portGrant before s) = true := by
  obtain he | ⟨q, tr, rs, n, ho, hq, he⟩ := portGrant_cases before s <;> rw [he]
  · exact h
  · have hplace : tr.purpose.requester = q := by
      have := hp q
      rw [hq] at this
      simpa using this
    simp only [portBusy, ho, Option.any_none, Bool.or_false] at h
    by_cases hr : r = q
    · simp [portBusy, hplace, hr]
    · simp [portBusy, waiting_put_get_ne _ _ hr, h]

theorem drainReady_iff (s : State) : drainReady s = true ↔ s.engine.state = .draining ∧ NothingToDrain s := by
  have hcells : s.cells.toList.all (fun cs => cs.asm.touchdown.isNone && cs.asm.queue.isEmpty) = true
      ↔ ∀ c, (s.cell c).asm.touchdown = none ∧ (s.cell c).asm.queue = [] := by
    rw [List.all_eq_true]
    constructor
    · intro h c
      have := h (s.cell c) (by
        unfold State.cell
        rw [Vector.mem_toList_iff]
        exact Vector.getElem_mem c.isLt)
      simpa using this
    · intro h x hx
      rw [Vector.mem_toList_iff] at hx
      obtain ⟨i, hi, rfl⟩ := Vector.mem_iff_getElem.1 hx
      have := h ⟨i, hi⟩
      simpa [State.cell] using this
  unfold drainReady NothingToDrain
  rw [← hcells]
  simp only [Bool.and_eq_true, beq_iff_eq, Bool.not_eq_true', List.isEmpty_iff, Option.isNone_iff_eq_none]
  tauto

theorem drainReady_portGrant {s : State} (before : State) (hp : Placed s) (h : drainReady s = false) :
    drainReady (portGrant before s) = false := by
  obtain ⟨p, rs, n, he⟩ := portGrant_frame before s
  by_contra hc
  rw [Bool.not_eq_false, drainReady_iff] at hc
  obtain ⟨hstate, hcells, hreq, hwork, hscan, hserv, hbusy, hbusy'⟩ := hc
  have hback : ∀ r, portBusy r (portGrant before s) = false → portBusy r s = false := fun r hr => by
    by_contra hs
    rw [Bool.not_eq_false] at hs
    rw [portBusy_portGrant before r hp hs] at hr
    cases hr
  have hready : drainReady s = true := by
    rw [drainReady_iff]
    refine ⟨?_, ?_, ?_, ?_, ?_, ?_, hback _ hbusy, hback _ hbusy'⟩
    · rw [he] at hstate; exact hstate
    · rw [he] at hcells; exact hcells
    · rw [he] at hreq; exact hreq
    · rw [he] at hwork; exact hwork
    · rw [he] at hscan; exact hscan
    · rw [he] at hserv; exact hserv
  rw [hready] at h
  cases h

theorem drainReady_judgeDrain (s : State) : drainReady (judgeDrain s) = false := by
  obtain ⟨h, he⟩ | ⟨-, -, he⟩ := judgeDrain_cases s <;> rw [he]
  · exact h
  · exact drainReady_of_not_draining (by simp [enterHalted, setEngineState])

/-- Every event ends settled. -/
theorem settle_settled {s : State} (before : State) (hp : Placed s) : Settled (settle before s) ∧ Placed (settle before s) := by
  have hp' : Placed (judgeDrain s) := (moves_judgeDrain s).asks.placed hp
  obtain ⟨hrest, hirq⟩ := settle_rests before s
  exact ⟨⟨drainReady_portGrant before hp' (drainReady_judgeDrain s), hrest, hirq⟩, placed_portGrant before hp'⟩

/-- What a step does to the transaction at the link: the transaction outstanding afterwards is the one before, or was
granted in its turn (R179, R180). -/
def LinkStep (s t : State) : Prop :=
  ∀ tr ∈ t.port.outstanding,
    (t.port.timer = s.port.timer ∧ t.port.last = s.port.last
      ∧ ∃ old ∈ s.port.outstanding, (tr.addr, tr.length, tr.data) = (old.addr, old.length, old.data))
    ∨ (t.port.timer = some (Time.plus s.clock 2) ∧ t.port.last = tr.purpose.requester
      ∧ t.port.waiting.get t.port.last = none
      ∧ ∀ q, turn s.port.last q < turn s.port.last t.port.last → (s.port.waiting.get q).isSome →
          t.port.waiting.get q = none)

theorem linkStep_of_port_eq {s t : State} (h : t.port = s.port) : LinkStep s t := fun tr htr => by
  rw [h] at htr ⊢
  exact .inl ⟨rfl, rfl, tr, htr, rfl⟩

/-- A grant after a change that left the last requester and the clock. -/
theorem linkStep_of_grant {s u : State} (hlast : u.port.last = s.port.last) (hclock : u.clock = s.clock)
    (hp : Placed u) (ho : u.port.outstanding = none) : LinkStep s (portGrant s u) := by
  have hturn := portGrant_in_turn s u ho
  obtain he | ⟨q, tr, rs, n, -, hq, he⟩ := portGrant_cases s u <;> rw [he] at hturn ⊢
  · intro tr htr
    rw [ho] at htr
    cases htr
  · intro tr' htr
    obtain rfl := Option.mem_some.1 htr
    have hplace : tr.purpose.requester = q := by
      have := hp q
      rw [hq] at this
      simpa using this
    refine .inr ⟨by rw [hclock], hplace.symm, by simp, fun r hr hw => ?_⟩
    cases hwait : (u.port.waiting.put q none).get r with
    | none => rfl
    | some x =>
      have hsome : (u.port.waiting.get r).isSome := by
        rw [waiting_put_none hwait]
        rfl
      rw [hturn r (by rw [hlast]; exact hr) hsome] at hw
      cases hw

theorem linkStep_of_effect {i : Instr} {s s' : State} (h : effectOf i s = some s') (hp : Placed s) :
    LinkStep s (settle s s') := by
  obtain ⟨cause, a, rfl⟩ | ⟨u, hu, hm⟩ := effect_inv h
  · rw [settle_resetPart]
    intro tr htr
    cases htr
  · have hm' : Moves u (judgeDrain s') := hm.trans (moves_judgeDrain s')
    have hp' : Placed (judgeDrain s') := hm'.asks.placed (freed_placed hu hp)
    have hlast : (judgeDrain s').port.last = s.port.last := by
      rw [hm'.asks.last]
      cases hu <;> rfl
    have hclock : (judgeDrain s').clock = s.clock := by
      rw [hm'.asks.clock]
      cases hu <;> rfl
    have hgrant : LinkStep s (portGrant s (judgeDrain s')) := by
      cases ho : u.port.outstanding with
      | none => exact linkStep_of_grant hlast hclock hp' (hm'.asks.outstanding.trans ho)
      | some old =>
        have hout : (judgeDrain s').port.outstanding = some old := hm'.asks.outstanding.trans ho
        rw [portGrant_of_rest s _ fun h => by rw [hout] at h; cases h]
        intro tr htr
        rw [hout] at htr
        obtain rfl := Option.mem_some.1 htr
        cases hu with
        | same => exact .inl ⟨hm'.asks.timer, hlast, old, ho, rfl⟩
        | ended => cases ho
        | abandoned =>
          refine .inl ⟨hm'.asks.timer, hlast, ?_⟩
          obtain ⟨old', hold', he⟩ := Option.map_eq_some_iff.1 (show s.port.outstanding.map _ = some old from ho)
          refine ⟨old', hold', ?_⟩
          rw [← he]
          split <;> rfl
    exact hgrant

theorem engineOk_settle {i : Instr} {s s' : State} (h : effectOf i s = some s') (hs : EngineOk s.engine) :
    EngineOk (settle s s').engine :=
  settle_keeps (P := fun s => EngineOk s.engine) (fun _ _ _ _ h => h) (fun hm h => hm.engine h)
    (fun cause a _ => engineOk_reset cause a) h hs

theorem portGrant_of_first (before : State) {s : State} {r : Requester} {tr : Transaction}
    (ho : s.port.outstanding = none) (hr : s.port.waiting.get r = some tr)
    (hfirst : ∀ q, turn s.port.last q < turn s.port.last r → s.port.waiting.get q = none)
    (hold : (before.port.waiting.get r).isSome) :
    portGrant before s = { s with
      port := ⟨some tr, some (Time.plus s.clock 2), s.port.waiting.put r none, r⟩ } := by
  have hfilter : ∃ rest, ((rotationAfter s.port.last).filter fun q => (s.port.waiting.get q).isSome) = r :: rest := by
    have hord := (rotationAfter_turns s.port.last).filter fun q => (s.port.waiting.get q).isSome
    have hmem : r ∈ (rotationAfter s.port.last).filter fun q => (s.port.waiting.get q).isSome :=
      List.mem_filter.2 ⟨mem_rotationAfter _ _, by rw [hr]; rfl⟩
    cases hl : (rotationAfter s.port.last).filter fun q => (s.port.waiting.get q).isSome with
    | nil =>
      rw [hl] at hmem
      cases hmem
    | cons q rest =>
      rw [hl] at hmem hord
      refine ⟨rest, ?_⟩
      rcases List.mem_cons.1 hmem with rfl | hin
      · rfl
      · have hlt := (List.pairwise_cons.1 hord).1 r hin
        have hq : q ∈ (rotationAfter s.port.last).filter fun q => (s.port.waiting.get q).isSome := by
          rw [hl]
          exact List.mem_cons_self
        have hsome := (List.mem_filter.1 hq).2
        rw [hfirst q hlt] at hsome
        cases hsome
  obtain ⟨rest, hrest⟩ := hfilter
  unfold portGrant
  rw [ho]
  dsimp only
  rw [hrest]
  have hpick : pickRequester (fun q => (before.port.waiting.get q).isSome) (r :: rest) s = (some r, s) := by
    cases rest with
    | nil => rfl
    | cons q qs =>
      unfold pickRequester
      rw [if_pos hold]
  rw [hpick]
  simp only [portIssue, hr]

/-- Settles O54: moves keep engine control and the places of requests, and the end of an event grants in rotation. -/
theorem engineAndPortStaySettled : Obligations.EngineAndPortStaySettled := by
  refine ⟨fun s t hengine hplaced hsettled hstep => ?_, fun s hout hstate hirq => ?_⟩
  · obtain ⟨u, ⟨q, rs, n, rfl⟩, rfl | ⟨i, hi⟩⟩ := step_inv hstep
    · exact ⟨hengine, hplaced, hsettled, linkStep_of_port_eq rfl⟩
    · obtain rfl | ⟨s', he, rfl⟩ := exec_inv hi
      · exact ⟨hengine, hplaced, hsettled, linkStep_of_port_eq rfl⟩
      · have hplaced' : Placed s' := by
          obtain ⟨cause, a, rfl⟩ | ⟨u, hu, hm⟩ := effect_inv he
          · exact placed_none rfl
          · exact hm.asks.placed (freed_placed hu hplaced)
        obtain ⟨hset, hpl⟩ := settle_settled { s with pending := q, races := rs, raceCount := n } hplaced'
        exact ⟨engineOk_settle he hengine, hpl, hset, linkStep_of_effect he hplaced⟩
  · have heffect : effectOf (.lateResponse .abandonedSetupRead) s = some (portFree s) := returned_of hout
    have hnot : drainReady (portFree s) = false := drainReady_of_not_draining (by
      show s.engine.state ≠ .draining
      rcases hstate with h | h <;> rw [h] <;> decide)
    rw [exec_of_effect heffect]
    refine ⟨fun hw => ?_, fun r tr hr hfirst => ?_⟩
    · rw [settle_of_rest s (portFree s) hnot fun _ => hw]
      show Host.Outcome.next { portFree s with irq := s.engine.interrupt } = _
      rw [← hirq]
      rfl
    · rw [settle, judgeDrain_of_not_ready hnot, portGrant_of_first s (s := portFree s) rfl hr hfirst
        (by rw [Option.mem_def.1 hr]; rfl)]
      show Host.Outcome.next { s with
        port := ⟨some tr, some (Time.plus s.clock 2), s.port.waiting.put r none, r⟩
        irq := s.engine.interrupt } = _
      rw [← hirq]

end Sys2Proof.Machine
end

