-- ==== Sys2Proof/Proofs/StepsAndRegisters.lean ====
section
/-! SUPPORT and the statements about the step, the register window and ignored events (R169 to R173, R183 to R185), and the
first one about the lines (R23, R25). -/

namespace Sys2Proof.Machine

/-! ## The step -/

/-- Settles O1: the front of the queue is what `step` matches on. -/
theorem stepRunsFrontCommand : Obligations.StepRunsFrontCommand := by
  intro c rest s h
  unfold step
  rw [h]

/-- Of the due events one is picked, and only the race fields are consumed. -/
theorem pickEvent_of_ne_nil {is : List Instr} (h : is ≠ []) (s : State) :
    ∃ i ∈ is, ∃ rs n, pickEvent is s = (some i, { s with races := rs, raceCount := n }) := by
  induction is generalizing s with
  | nil => exact absurd rfl h
  | cons i is ih =>
    cases is with
    | nil => exact ⟨i, List.mem_cons_self, s.races, s.raceCount, rfl⟩
    | cons j js =>
      obtain ⟨rs, n, hrace⟩ := takeRace_sameButRaces s
      unfold pickEvent
      split
      · rename_i s' hs'
        rw [hs'] at hrace
        exact ⟨i, List.mem_cons_self, rs, n, by rw [show s' = _ from hrace]⟩
      · rename_i s' hs'
        rw [hs'] at hrace
        obtain ⟨k, hk, rs', n', hpick⟩ := ih (List.cons_ne_nil _ _) s'
        refine ⟨k, List.mem_cons_of_mem _ hk, rs', n', ?_⟩
        rw [hpick, show s' = _ from hrace]

/-- Settles O2: with an empty queue the step is `idle`, and the picked event is one of the due ones. -/
theorem emptyQueueRunsDueEventOrTicks : Obligations.EmptyQueueRunsDueEventOrTicks := by
  intro s hs
  have hstep : step s = idle s := by
    unfold step
    rw [hs]
  rw [hstep]
  unfold idle
  refine ⟨fun hdue => ?_, fun hdue => ?_⟩
  · rw [hdue]
    rfl
  · obtain ⟨i, hi, rs, n, hpick⟩ := pickEvent_of_ne_nil hdue s
    exact ⟨i, hi, rs, n, by rw [hpick]⟩

theorem effect_pending {i : Instr} {s t : State} (h : effectOf i s = some t) : t.pending = s.pending := by
  obtain ⟨cause, a, rfl⟩ | ⟨u, hu, hm⟩ := effect_inv h
  · rfl
  · rw [hm.asks.pending]
    cases hu <;> rfl

/-- Settles O3: a command changes nothing or settles its effect, and neither touches the queue. -/
theorem everyCommandAnswers : Obligations.EveryCommandAnswers := by
  intro i s
  cases he : effectOf i s with
  | none => exact ⟨s, exec_of_no_effect he, rfl⟩
  | some t => exact answers_of_effect he (by rw [settle_pending, effect_pending he])

/-! ## The end of an event that disturbs little -/

/-- The drain conditions look at the assemblers alone of the cells (R177). -/
theorem drainReady_congr_asm {s t : State} (hstate : t.engine.state = s.engine.state)
    (hasm : ∀ c, (t.cell c).asm = (s.cell c).asm) (hcoll : t.coll = s.coll) (hscan : t.scanner = s.scanner)
    (hserv : t.order.service = s.order.service) (hport : t.port = s.port) : drainReady t = drainReady s := by
  rw [Bool.eq_iff_iff, drainReady_iff, drainReady_iff]
  simp only [NothingToDrain, hstate, hasm, hcoll, hscan, hserv, portBusy, hport]

/-- A settled part in which engine control changes but for its state: the interrupt follows. -/
theorem settle_setEngine {s : State} (hs : Settled s) (before : State) {e : Engine} (he : e.state = s.engine.state) :
    settle before (s.setEngine e) = s.withEngine e :=
  settle_of_rest before (s.setEngine e)
    ((drainReady_congr (s := s) (t := s.setEngine e) he rfl rfl rfl rfl rfl).trans hs.1) hs.2.1

/-- A settled part in which one line changes stays settled. -/
theorem settle_modLine {s : State} (hs : Settled s) (before : State) (c : CellNo) (f : Line → Line) :
    settle before (s.modLine c f) = s.modLine c f := by
  have hready : drainReady (s.modLine c f) = false := by
    refine (drainReady_congr_asm (s := s) (t := s.modLine c f) rfl (fun d => ?_) rfl rfl rfl rfl).trans hs.1
    by_cases hd : d = c
    · subst hd
      rw [cell_modLine]
    · rw [show (s.modLine c f).cell d = s.cell d from cell_modCell_ne _ _ hd]
  rw [settle_of_rest before (s.modLine c f) hready hs.2.1]
  show { s.modLine c f with irq := s.engine.interrupt } = _
  rw [← hs.2.2]
  rfl

/-! ## Writes of CONTROL and STATUS (R171, R172) -/

theorem getLsbD_or_of_clear {w v : Word} {i : Nat} (h : v.getLsbD i = false) : (w ||| v).getLsbD i = w.getLsbD i := by
  rw [BitVec.getLsbD_or, h, Bool.or_false]

theorem getLsbD_or_of_set {w v : Word} {i : Nat} (h : v.getLsbD i = true) : (w ||| v).getLsbD i = true := by
  rw [BitVec.getLsbD_or, h, Bool.or_true]

theorem getLsbD_without_of_set {w v : Word} {i : Nat} (h : v.getLsbD i = true) : (w &&& ~~~v).getLsbD i = false := by
  rw [BitVec.getLsbD_and, BitVec.getLsbD_not, h, Bool.not_true, Bool.and_false, Bool.and_false]

theorem getLsbD_without_of_clear {w v : Word} {i : Nat} (hi : i < 32) (h : v.getLsbD i = false) :
    (w &&& ~~~v).getLsbD i = w.getLsbD i := by
  rw [BitVec.getLsbD_and, BitVec.getLsbD_not, h, Bool.not_false, Bool.and_true, decide_eq_true hi, Bool.and_true]

/-- A word that has the enables of another, with no RESET (R171). -/
theorem storeEnables_congr {v w : Word} (h : ∀ i, i = 8 ∨ i = 9 ∨ i = 10 → v.getLsbD i = w.getLsbD i) (s : State) :
    storeEnables v s = storeEnables w s := by
  unfold storeEnables
  rw [h 8 (.inl rfl), h 9 (.inr (.inl rfl)), h 10 (.inr (.inr rfl))]

theorem storeEnables_or {w v : Word} (hv : v.getLsbD 8 = false ∧ v.getLsbD 9 = false ∧ v.getLsbD 10 = false) (s : State) :
    storeEnables (w ||| v) s = storeEnables w s := by
  obtain ⟨h8, h9, h10⟩ := hv
  refine storeEnables_congr (fun i hi => getLsbD_or_of_clear ?_) s
  rcases hi with rfl | rfl | rfl <;> assumption

theorem storeEnables_without {w v : Word} (hv : v.getLsbD 8 = false ∧ v.getLsbD 9 = false ∧ v.getLsbD 10 = false)
    (s : State) : storeEnables (w &&& ~~~v) s = storeEnables w s := by
  obtain ⟨h8, h9, h10⟩ := hv
  refine storeEnables_congr (fun i hi => ?_) s
  rcases hi with rfl | rfl | rfl <;> exact getLsbD_without_of_clear (by omega) (by assumption)

/-- Without an action written 1 none is performed. -/
theorem performAction_idle {w : Word} (h0 : w.getLsbD 0 = false) (h1 : w.getLsbD 1 = false) (h2 : w.getLsbD 2 = false)
    (s : State) : performAction w s = s := by
  unfold performAction
  rw [h0, h1, h2]

/-- Where two of INIT, START and STOP are written 1, none is performed (R171). -/
theorem performAction_conflict {w : Word} (h : w.getLsbD 0 = true ∧ w.getLsbD 1 = true
      ∨ w.getLsbD 0 = true ∧ w.getLsbD 2 = true ∨ w.getLsbD 1 = true ∧ w.getLsbD 2 = true) (s : State) :
    performAction w s = s := by
  unfold performAction
  rcases h with ⟨ha, hb⟩ | ⟨ha, hb⟩ | ⟨ha, hb⟩ <;> rw [ha, hb]
  · cases w.getLsbD 1 <;> rfl
  · cases w.getLsbD 0 <;> rfl

/-- A CONTROL write with neither RESET nor NUDGE (R171). -/
theorem controlWrite_plain {w : Word} (h3 : w.getLsbD 3 = false) (h4 : w.getLsbD 4 = false) (s : State) :
    controlWrite w s = performAction w (storeEnables w s) := by
  unfold controlWrite
  rw [h3, h4]
  rfl

/-- A CONTROL write with NUDGE (R171). -/
theorem controlWrite_nudge {w : Word} (h3 : w.getLsbD 3 = false) (h4 : w.getLsbD 4 = true) (s : State) :
    controlWrite w s = nudgeNotice (nudgeOrder (performAction w (storeEnables w s))) := by
  unfold controlWrite
  rw [h3, h4]
  rfl

/-- Settles O6: no position that acts is written, and the enables are those of the word. -/
theorem enablesStoredAsWritten : Obligations.EnablesStoredAsWritten := by
  intro w s hs
  have hclear : ∀ i, (0x1F : Word).getLsbD i = true → (w &&& ~~~0x1F).getLsbD i = false :=
    fun i hi => getLsbD_without_of_set hi
  have heffect : controlWrite (w &&& ~~~0x1F) s = storeEnables w s := by
    rw [controlWrite_plain (hclear 3 rfl) (hclear 4 rfl), performAction_idle (hclear 0 rfl) (hclear 1 rfl) (hclear 2 rfl),
      storeEnables_without ⟨rfl, rfl, rfl⟩]
  rw [exec_of_effect (i := .setEnables w) rfl, heffect]
  exact congrArg _ (settle_setEngine hs s rfl)

/-- Settles O7: the flag whose row the command is clears, and the other follows its position. -/
theorem statusWriteClearsFlags : Obligations.StatusWriteClearsFlags := by
  intro w s hs
  have hwrite : ∀ v, settle s (statusWrite v s) = s.withEngine { s.engine with
      loadDone := s.engine.loadDone && !v.getLsbD 12
      notice := s.engine.notice && !v.getLsbD 13 } := fun v => settle_setEngine hs s rfl
  refine ⟨?_, ?_⟩
  · rw [exec_of_effect (i := .clearLoadDone w) rfl, hwrite, getLsbD_or_of_set (i := 12) rfl,
      getLsbD_or_of_clear (i := 13) rfl, Bool.not_true, Bool.and_false]
  · rw [exec_of_effect (i := .clearNotice w) rfl, hwrite, getLsbD_or_of_clear (i := 12) rfl,
      getLsbD_or_of_set (i := 13) rfl, Bool.not_true, Bool.and_false]

/-- A conflicting CONTROL write without NUDGE stores the enables (R171). -/
theorem settle_conflict {v w : Word} {s : State} (hs : Settled s) (h3 : v.getLsbD 3 = false) (h4 : v.getLsbD 4 = false)
    (hact : ∀ t, performAction v t = t) (hstore : storeEnables v s = storeEnables w s) :
    settle s (controlWrite v s) = s.withEngine (storedEnables w s.engine) := by
  rw [controlWrite_plain h3 h4, hact, hstore]
  exact settle_setEngine hs s rfl

/-- A conflicting CONTROL write with NUDGE is the NUDGE without the actions (R171). -/
theorem controlWrite_conflict {v w : Word} {s : State} (h3 : v.getLsbD 3 = false) (h4 : v.getLsbD 4 = true)
    (hact : ∀ t, performAction v t = t) (hstore : storeEnables v s = storeEnables w s) (hw : w.getLsbD 3 = false) :
    controlWrite v s = controlWrite ((w &&& ~~~0x07) ||| 0x10) s := by
  have hclear : ∀ i, (0x07 : Word).getLsbD i = true → (0x10 : Word).getLsbD i = false →
      ((w &&& ~~~0x07) ||| 0x10).getLsbD i = false := fun i hi hj => by
    rw [getLsbD_or_of_clear hj, getLsbD_without_of_set hi]
  have h3' : ((w &&& ~~~0x07) ||| 0x10).getLsbD 3 = false := by
    rw [getLsbD_or_of_clear rfl, getLsbD_without_of_clear (by omega) rfl, hw]
  rw [controlWrite_nudge h3 h4, hact, hstore, controlWrite_nudge h3' (getLsbD_or_of_set rfl),
    performAction_idle (hclear 0 rfl rfl) (hclear 1 rfl rfl) (hclear 2 rfl rfl), storeEnables_or ⟨rfl, rfl, rfl⟩,
    storeEnables_without ⟨rfl, rfl, rfl⟩]

/-- Settles O10: the action positions of the word cancel, and with NUDGE the nudge is left. -/
theorem conflictingActionsNotPerformed : Obligations.ConflictingActionsNotPerformed := by
  have hinit : ∀ w : Word, w.getLsbD 1 = true ∨ w.getLsbD 2 = true → ∀ t, performAction (w ||| 0x01) t = t :=
    fun w h => performAction_conflict (h.imp (fun h => ⟨getLsbD_or_of_set rfl, (getLsbD_or_of_clear rfl).trans h⟩)
      fun h => .inl ⟨getLsbD_or_of_set rfl, (getLsbD_or_of_clear rfl).trans h⟩)
  have hstart : ∀ w : Word, w.getLsbD 0 = true ∨ w.getLsbD 2 = true → ∀ t, performAction (w ||| 0x02) t = t :=
    fun w h => performAction_conflict (h.imp (fun h => ⟨(getLsbD_or_of_clear rfl).trans h, getLsbD_or_of_set rfl⟩)
      fun h => .inr ⟨getLsbD_or_of_set rfl, (getLsbD_or_of_clear rfl).trans h⟩)
  have hstop : ∀ w : Word, w.getLsbD 0 = true ∨ w.getLsbD 1 = true → ∀ t, performAction (w ||| 0x04) t = t :=
    fun w h => performAction_conflict (.inr (h.imp (fun h => ⟨(getLsbD_or_of_clear rfl).trans h, getLsbD_or_of_set rfl⟩)
      fun h => ⟨(getLsbD_or_of_clear rfl).trans h, getLsbD_or_of_set rfl⟩))
  refine ⟨fun w s hs h3 h4 => ⟨fun h => ?_, fun h => ?_, fun h => ?_⟩,
    fun w s h3 h4 => ⟨fun h => ?_, fun h => ?_, fun h => ?_⟩⟩
  · rw [exec_of_effect (i := .init w) rfl, settle_conflict hs ((getLsbD_or_of_clear rfl).trans h3)
      ((getLsbD_or_of_clear rfl).trans h4) (hinit w h) (storeEnables_or ⟨rfl, rfl, rfl⟩ s)]
  · rw [exec_of_effect (i := .start w) rfl, settle_conflict hs ((getLsbD_or_of_clear rfl).trans h3)
      ((getLsbD_or_of_clear rfl).trans h4) (hstart w h) (storeEnables_or ⟨rfl, rfl, rfl⟩ s)]
  · rw [exec_of_effect (i := .stop w) rfl, settle_conflict hs ((getLsbD_or_of_clear rfl).trans h3)
      ((getLsbD_or_of_clear rfl).trans h4) (hstop w h) (storeEnables_or ⟨rfl, rfl, rfl⟩ s)]
  · rw [exec_of_effect (i := .init w) rfl, exec_of_effect (i := .nudge (w &&& ~~~0x07)) rfl,
      controlWrite_conflict ((getLsbD_or_of_clear rfl).trans h3) ((getLsbD_or_of_clear rfl).trans h4) (hinit w h)
        (storeEnables_or ⟨rfl, rfl, rfl⟩ s) h3]
  · rw [exec_of_effect (i := .start w) rfl, exec_of_effect (i := .nudge (w &&& ~~~0x07)) rfl,
      controlWrite_conflict ((getLsbD_or_of_clear rfl).trans h3) ((getLsbD_or_of_clear rfl).trans h4) (hstart w h)
        (storeEnables_or ⟨rfl, rfl, rfl⟩ s) h3]
  · rw [exec_of_effect (i := .stop w) rfl, exec_of_effect (i := .nudge (w &&& ~~~0x07)) rfl,
      controlWrite_conflict ((getLsbD_or_of_clear rfl).trans h3) ((getLsbD_or_of_clear rfl).trans h4) (hstop w h)
        (storeEnables_or ⟨rfl, rfl, rfl⟩ s) h3]

/-! ## Reads of the registers (R171 to R173, R184, R185) -/

theorem bitAt_getLsbD (b : Bool) (n i : Nat) : (bitAt b n).getLsbD i = (b && (decide (n < 32) && decide (n = i))) := by
  unfold bitAt
  cases b
  · simp
  · simp [BitVec.getLsbD_twoPow]

/-- A flag at a free position adds its weight. -/
theorem or_bitAt_toNat {x : Word} {n : Nat} (b : Bool) (hn : n < 32) (h : x.getLsbD n = false) :
    (x ||| bitAt b n).toNat = x.toNat + 2 ^ n * b.toNat := by
  unfold bitAt
  cases b
  · simp
  · have hand : x &&& BitVec.twoPow 32 n = 0#32 := by
      rw [BitVec.and_twoPow, h]
      rfl
    rw [if_pos rfl, ← BitVec.add_eq_or_of_and_eq_zero _ _ hand, BitVec.toNat_add_of_and_eq_zero hand, BitVec.toNat_twoPow,
      Nat.mod_eq_of_lt (Nat.pow_lt_pow_right (by omega) hn)]
    simp

theorem controlWord_toNat (e : Engine) :
    e.controlWord.toNat = 2 ^ 8 * e.noticeIE.toNat + 2 ^ 9 * e.loadIE.toNat + 2 ^ 10 * e.faultIE.toNat := by
  unfold Engine.controlWord
  rw [or_bitAt_toNat _ (by omega) (by rw [BitVec.getLsbD_or, bitAt_getLsbD, bitAt_getLsbD]; simp),
    or_bitAt_toNat _ (by omega) (by rw [bitAt_getLsbD]; simp)]
  congr 2
  cases e.noticeIE <;> rfl

theorem engineState_code_lt (x : EngineState) : x.code < 5 := by cases x <;> decide
theorem loadError_code_lt (x : LoadError) : x.code < 12 := by cases x <;> decide
theorem resetCause_code_lt (x : ResetCause) : x.code < 3 := by cases x <;> decide

theorem statusWord_toNat (e : Engine) :
    e.statusWord.toNat = e.state.code + 2 ^ 4 * e.loaded.toNat + 2 ^ 8 * e.loadError.code + 2 ^ 12 * e.loadDone.toNat
      + 2 ^ 13 * e.notice.toNat + 2 ^ 14 * e.fault.toNat + 2 ^ 16 * e.resetCause.code := by
  have hs := engineState_code_lt e.state
  have hl := loadError_code_lt e.loadError
  have hc := resetCause_code_lt e.resetCause
  have hcodes : e.state.code + e.loadError.code * 2 ^ 8 + e.resetCause.code * 2 ^ 16 < 2 ^ 32 := by omega
  have hfree : ∀ i, i = 4 ∨ i = 12 ∨ i = 13 ∨ i = 14 →
      (BitVec.ofNat 32 (e.state.code + e.loadError.code * 2 ^ 8 + e.resetCause.code * 2 ^ 16)).getLsbD i = false := by
    intro i hi
    rw [BitVec.getLsbD_ofNat, Nat.testBit_eq_decide_div_mod_eq]
    rcases hi with rfl | rfl | rfl | rfl <;> simp <;> omega
  unfold Engine.statusWord
  rw [or_bitAt_toNat (n := 14) _ (by omega) (by simp only [BitVec.getLsbD_or, bitAt_getLsbD, hfree 14 (by omega)]; simp),
    or_bitAt_toNat (n := 13) _ (by omega) (by simp only [BitVec.getLsbD_or, bitAt_getLsbD, hfree 13 (by omega)]; simp),
    or_bitAt_toNat (n := 12) _ (by omega) (by simp only [BitVec.getLsbD_or, bitAt_getLsbD, hfree 12 (by omega)]; simp),
    or_bitAt_toNat (n := 4) _ (by omega) (hfree 4 (.inl rfl)),
    BitVec.toNat_ofNat, Nat.mod_eq_of_lt hcodes]
  omega

theorem faultInfoWord_toNat (e : Engine) :
    e.faultInfoWord.toNat = ((e.faultRecord.map fun x => x.1.code + 2 ^ 8 * x.2.code).getD 0) := by
  unfold Engine.faultInfoWord
  cases e.faultRecord with
  | none => rfl
  | some x =>
    obtain ⟨r, k⟩ := x
    cases r <;> cases k <;> rfl

/-- A half written reads back, and the other half stays (R173). -/
theorem replaceHalf_halves (v : Word) (a : Addr) :
    (replaceHalf .lo v a).extractLsb' 0 32 = v ∧ (replaceHalf .lo v a).extractLsb' 32 32 = a.extractLsb' 32 32
      ∧ (replaceHalf .hi v a).extractLsb' 32 32 = v ∧ (replaceHalf .hi v a).extractLsb' 0 32 = a.extractLsb' 0 32 :=
  ⟨BitVec.extractLsb'_append_eq_right, BitVec.extractLsb'_append_eq_left, BitVec.extractLsb'_append_eq_left,
    BitVec.extractLsb'_append_eq_right⟩

/-- Settles O8: each register's positions are disjoint, and a write of half of the setup address reads back. -/
theorem setupAddressWrittenInHalted : Obligations.SetupAddressWrittenInHalted := by
  refine ⟨fun e => ⟨?_, ?_, ?_, ?_, ?_, fun offset h => ?_⟩, fun half v s => ⟨fun hstate hs => ?_, fun hstate => ?_⟩⟩
  · exact controlWord_toNat e
  · refine (statusWord_toNat e).trans ?_
    cases e.state <;> cases e.resetCause <;> cases e.loadError <;> rfl
  · show (e.setupAddr.extractLsb' 0 32).toNat = _
    simp
  · show (e.setupAddr.extractLsb' 32 32).toNat = _
    have := e.setupAddr.isLt
    rw [BitVec.extractLsb'_toNat, Nat.shiftRight_eq_div_pow]
    omega
  · refine (faultInfoWord_toNat e).trans ?_
    cases e.faultRecord with
    | none => rfl
    | some x => obtain ⟨r, k⟩ := x; cases r <;> cases k <;> rfl
  · simp only [List.mem_cons, List.not_mem_nil, or_false, not_or] at h
    obtain ⟨h1, h2, h3, h4, h5⟩ := h
    simp only [Engine.readRegister, if_neg h1, if_neg h2, if_neg h3, if_neg h4, if_neg h5]
  · have heffect : effectOf (.setupAddrWrite half v) s
        = some (s.setEngine { s.engine with setupAddr := replaceHalf half v s.engine.setupAddr }) := if_pos hstate
    obtain ⟨hll, hlh, hhh, hhl⟩ := replaceHalf_halves v s.engine.setupAddr
    refine answers_of_effect heffect ?_
    rw [settle_setEngine (e := { s.engine with setupAddr := replaceHalf half v s.engine.setupAddr }) hs s rfl]
    refine ⟨?_, ?_, ?_⟩
    · cases half
      · exact hll
      · exact hhh
    · cases half
      · exact hlh
      · exact hhl
    · have hirq := hs.2.2
      show ({ s with
        engine := { s.engine with setupAddr := replaceHalf half v s.engine.setupAddr }
        irq := s.engine.interrupt } : State) = _
      rw [← hirq]
  · exact exec_of_no_effect (if_neg hstate)

/-! ## Ignored events (R173, R180, R184) -/

theorem acknowledged_none {s : State} (h : s.port.outstanding = none) (p : Purpose) : acknowledged p s = none := by
  simp [acknowledged, h]

theorem returned_none {s : State} (h : s.port.outstanding = none) (p : Purpose) (n : Nat) : returned p n s = none := by
  simp [returned, h]

/-- With nothing at the link a response is none (R180). -/
theorem effectOf_response_none {i : Instr} {s : State} (h : s.port.outstanding = none) (hi : isResponse i = true) :
    effectOf i s = none := by
  have ha := acknowledged_none h
  have hr := returned_none h
  cases i with
  | setupReadDone data => simp [effectOf, setupRead, hr]
  | transactionErrorResponse => simp [effectOf, errorResponse, h]
  | responseTimerExpiry => simp [effectOf, responseExpires, h]
  | lateResponse which => cases which <;> simp [effectOf, lateResponse, hr]
  | mapReadDone v => simp [effectOf, mapRead, hr]
  | mapWriteDone => simp [effectOf, mapWritten, ha]
  | tallyRecordWriteDone => simp [effectOf, tallyWritten, ha]
  | scanReadDone data => simp [effectOf, scanData, hr]
  | headerReadDone data => simp [effectOf, headerRead, hr]
  | bodyReadDone data => simp [effectOf, bodyRead, hr]
  | cellRecordWriteDone => simp [effectOf, cellRecordWritten, ha]
  | resultWordWriteDone => simp [effectOf, resultWritten, ha]
  | stateWriteDone => simp [effectOf, stateWritten, ha]
  | linkReadDone v => simp [effectOf, linkRead, hr]
  | chainPositionWriteDone => simp [effectOf, positionWritten, ha]
  | noticeRecordWriteDone => simp [effectOf, recordWritten, ha]
  | countWriteDone => simp [effectOf, countWritten, ha]
  | consumedReadDone v => simp [effectOf, consumedRead, hr]
  | takenWriteDone => simp [effectOf, takenWritten, ha]
  | _ => cases hi

/-- Settles O9: none of these events has an effect. -/
theorem ignoredEventsChangeNothing : Obligations.IgnoredEventsChangeNothing := by
  intro i offset v s
  refine ⟨fun h => exec_of_no_effect ?_, exec_of_no_effect rfl, fun ho hi => exec_of_no_effect (effectOf_response_none ho hi)⟩
  simp only [ignoredOffset, Bool.and_eq_true, bne_iff_ne] at h
  obtain ⟨⟨⟨h1, h2⟩, h3⟩, h4⟩ := h
  simp only [effectOf, registerWrite, if_neg h1, if_neg h2, if_neg h3, if_neg h4]

/-! ## Edges (R23, R25) -/

theorem active_iff (c : CellNo) (s : State) : Active c s ↔ receiverActive s.engine.state (s.cell c).line = true :=
  (receiverActive_iff _ _).symm

/-- On a line whose receiver is not active nothing arises (R25). -/
theorem effectOf_inactive {c : CellNo} {s : State} (h : receiverActive s.engine.state (s.cell c).line = false) {i : Instr}
    (hi : lineEvent i = some c) : effectOf i s = none := by
  have hchar : ∀ data parity stop, characterDone c data parity stop s = none := fun _ _ _ => by simp [characterDone, h]
  have hmsg : ∀ m, messageDone c m s = none := fun _ => by simp [messageDone, h]
  cases i with
  | fallingEdge d => obtain rfl := Option.some.inj hi; simp [effectOf, edgeFalls, h]
  | startBitNoise d => obtain rfl := Option.some.inj hi; simp [effectOf, startBitHigh, h]
  | gapError d => obtain rfl := Option.some.inj hi; simp [effectOf, gapExpires, h]
  | qualityWindowEnd d => obtain rfl := Option.some.inj hi; simp [effectOf, windowEnds, h]
  | byte d b => obtain rfl := Option.some.inj hi; exact hchar _ _ _
  | characterError d data parity stop => obtain rfl := Option.some.inj hi; exact hchar _ _ _
  | typeError d b => obtain rfl := Option.some.inj hi; exact hchar _ _ _
  | lengthError d b => obtain rfl := Option.some.inj hi; exact hchar _ _ _
  | checkError d b => obtain rfl := Option.some.inj hi; exact hchar _ _ _
  | openMsg d number declared => obtain rfl := Option.some.inj hi; exact hmsg _
  | unitMsg d site key wafer x y bin attempt => obtain rfl := Option.some.inj hi; exact hmsg _
  | closeMsg d number => obtain rfl := Option.some.inj hi; exact hmsg _
  | helloMsg d => obtain rfl := Option.some.inj hi; exact hmsg _
  | _ => cases hi

/-- Settles O21: an edge moves the receiver of an active line alone. -/
theorem edgesBeginCharacters : Obligations.EdgesBeginCharacters := by
  intro c s
  refine ⟨fun h i hi => exec_of_no_effect (effectOf_inactive ?_ hi), fun h hrx hs => ?_, fun h hrx hs => ?_⟩
  · rw [active_iff] at h
    simpa using h
  · have heffect : effectOf (.fallingEdge c) s = some (s.modLine c fun l => { l with rx := .character }) := by
      simp [effectOf, edgeFalls, (active_iff c s).1 h, hrx]
    rw [exec_of_effect heffect, settle_modLine hs]
  · have heffect : effectOf (.startBitNoise c) s = some (s.modLine c fun l => { l with rx := .idle }) := by
      simp [effectOf, startBitHigh, (active_iff c s).1 h, hrx]
    rw [exec_of_effect heffect, settle_modLine hs]

end Sys2Proof.Machine
end

