-- ==== Sys2Proof/Proofs/SettledCells.lean ====
section
/-! SUPPORT. What the end of an event leaves of a cell, of its hold content and of the other parts, and what a
transmitter's look leaves of its cell (R40, R169, R177, R179). -/

namespace Sys2Proof.Machine

/-! ## The transmitter's look -/

@[simp] theorem transmit_asm (eng : EngineState) (lots : List Lot) (cs : CellState) :
    (transmit eng lots cs).asm = cs.asm := (transmit_frame eng lots cs).1.1

@[simp] theorem transmit_guard (eng : EngineState) (lots : List Lot) (cs : CellState) :
    (transmit eng lots cs).guard = cs.guard := (transmit_frame eng lots cs).1.2

@[simp] theorem transmit_holds (eng : EngineState) (lots : List Lot) (cs : CellState) :
    (transmit eng lots cs).holds = cs.holds := (transmit_frame eng lots cs).2

/-- The items of a line that a transmitter's look leaves. -/
theorem transmit_receiver (eng : EngineState) (lots : List Lot) (cs : CellState) :
    (transmit eng lots cs).line.state = cs.line.state ∧ (transmit eng lots cs).line.rx = cs.line.rx
      ∧ (transmit eng lots cs).line.decoder = cs.line.decoder ∧ (transmit eng lots cs).line.errors = cs.line.errors
      ∧ (transmit eng lots cs).line.clean = cs.line.clean ∧ (transmit eng lots cs).line.windowEnd = cs.line.windowEnd
      ∧ (transmit eng lots cs).line.txRate = cs.line.txRate := by
  obtain ⟨tx, last, forced, owed, h⟩ := transmit_line eng lots cs
  rw [h]
  exact ⟨rfl, rfl, rfl, rfl, rfl, rfl, rfl⟩

@[simp] theorem transmit_state (eng : EngineState) (lots : List Lot) (cs : CellState) :
    (transmit eng lots cs).line.state = cs.line.state := (transmit_receiver eng lots cs).1

/-- Two cells with the same holds and the same line state hold the same content. -/
theorem holdContent_congr_cell (eng : EngineState) (lots : List Lot) {x y : CellState} (hh : y.holds = x.holds)
    (hl : y.line.state = x.line.state) : holdContent eng lots y = holdContent eng lots x := by
  simp only [holdContent, reasonByte, hh, hl]

@[simp] theorem holdContent_transmit (eng eng' : EngineState) (lots lots' : List Lot) (cs : CellState) :
    holdContent eng lots (transmit eng' lots' cs) = holdContent eng lots cs :=
  holdContent_congr_cell eng lots (transmit_holds _ _ _) (transmit_state _ _ _)

/-- A transmitter has nothing to begin exactly where it is not IDLE or nothing is due (R40, R42). -/
theorem transmit_eq_self_iff (eng : EngineState) (lots : List Lot) (cs : CellState) :
    transmit eng lots cs = cs ↔
      (cs.line.tx = .idle → cs.line.finalOwed = false ∧ sendDue eng lots cs = false) := by
  have hbegun : ∀ final, cs.line.tx = .idle → beginMessage eng lots final cs ≠ cs := fun final htx h => by
    have := congrArg (fun x => x.line.tx) h
    rw [htx] at this
    cases this
  unfold transmit
  cases htx : cs.line.tx with
  | silent => simp
  | sending final rate m => simp
  | idle =>
    cases howed : cs.line.finalOwed with
    | true => simp [hbegun true htx]
    | false =>
      cases hdue : sendDue eng lots cs with
      | true => simp [hbegun false htx]
      | false => simp

/-- A transmitter with nothing to begin has nothing to begin after a change of the receiver. -/
theorem transmit_of_quiet {eng : EngineState} {lots : List Lot} {cs : CellState} {l : Line}
    (hq : transmit eng lots cs = cs) (hstate : l.state = cs.line.state) (htx : l.tx = cs.line.tx)
    (hforced : l.forced = cs.line.forced) (hlast : l.lastSent = cs.line.lastSent) (howed : l.finalOwed = cs.line.finalOwed) :
    transmit eng lots { cs with line := l } = { cs with line := l } := by
  have hcontent : holdContent eng lots { cs with line := l } = holdContent eng lots cs :=
    holdContent_congr_cell eng lots rfl hstate
  rw [transmit_eq_self_iff] at hq ⊢
  simp only [sendDue, hstate, htx, hforced, hlast, howed, hcontent] at hq ⊢
  exact hq

theorem modCell_modCell (s : State) (c : CellNo) (f g : CellState → CellState) :
    (s.modCell c f).modCell c g = s.modCell c fun cs => g (f cs) := by
  simp [State.modCell, State.setCell, State.cell]

theorem modLine_modLine (s : State) (c : CellNo) (f g : Line → Line) :
    (s.modLine c f).modLine c g = s.modLine c fun l => g (f l) := modCell_modCell s c _ _

/-- Two changes of a cell that agree on it are the same. -/
theorem modCell_congr {s : State} {c : CellNo} {f g : CellState → CellState} (h : f (s.cell c) = g (s.cell c)) :
    s.modCell c f = s.modCell c g := by
  simp only [State.modCell, h]

theorem modLine_congr {s : State} {c : CellNo} {f g : Line → Line} (h : f (s.cell c).line = g (s.cell c).line) :
    s.modLine c f = s.modLine c g := modCell_congr (by simp only [h])

/-- A line with nothing to begin has nothing to begin after a change of its receiver. -/
theorem refresh_modLine_of_quiet {c : CellNo} {s : State} {f : Line → Line} (hq : LineQuiet c s)
    (hstate : (f (s.cell c).line).state = (s.cell c).line.state) (htx : (f (s.cell c).line).tx = (s.cell c).line.tx)
    (hforced : (f (s.cell c).line).forced = (s.cell c).line.forced)
    (hlast : (f (s.cell c).line).lastSent = (s.cell c).line.lastSent)
    (howed : (f (s.cell c).line).finalOwed = (s.cell c).line.finalOwed) :
    refresh c (s.modLine c f) = s.modLine c f := by
  have h : transmit s.engine.state s.coll.lots ((s.modLine c f).cell c) = (s.modLine c f).cell c := by
    rw [cell_modLine]
    exact transmit_of_quiet hq hstate htx hforced hlast howed
  show (s.modLine c f).setCell c (transmit s.engine.state s.coll.lots ((s.modLine c f).cell c)) = _
  rw [h, setCell_cell]

/-- A forced send on a line in service stays forced or has been begun (R40). -/
theorem transmit_forced {eng : EngineState} {lots : List Lot} {cs : CellState} (hf : cs.line.forced = true)
    (hs : cs.line.state ≠ .offline) :
    if cs.line.tx = .idle then (transmit eng lots cs).line.tx ≠ .idle
        ∧ (transmit eng lots cs).line.lastSent = some (holdContent eng lots cs)
    else (transmit eng lots cs).line.forced = true := by
  unfold transmit
  cases htx : cs.line.tx with
  | silent => simpa using hf
  | sending final rate m => simpa using hf
  | idle =>
    have hdue : sendDue eng lots cs = true := (sendDue_iff _ _ _).2 ⟨hs, .inl hf⟩
    cases howed : cs.line.finalOwed <;> simp [hdue, beginMessage]

/-! ## The end of an event -/

/-- A cell when the event has ended: as it was, but that a drain that completed has stopped its receiver. -/
theorem settle_cell_frame (before s : State) (c : CellNo) :
    ∃ rx d w, (settle before s).cell c =
        { s.cell c with line := { (s.cell c).line with rx := rx, decoder := d, windowEnd := w } }
      ∧ (rx = (s.cell c).line.rx ∨ rx = .idle) ∧ (d = (s.cell c).line.decoder ∨ d = .hunt) := by
  rw [settle_cell]
  obtain h | h := cell_judgeDrain s c <;> rw [h]
  · exact ⟨(s.cell c).line.rx, (s.cell c).line.decoder, (s.cell c).line.windowEnd, rfl, .inl rfl, .inl rfl⟩
  · exact ⟨.idle, .hunt, none, rfl, .inr rfl, .inr rfl⟩

@[simp] theorem settle_asm (before s : State) (c : CellNo) : ((settle before s).cell c).asm = (s.cell c).asm := by
  obtain ⟨rx, d, w, h, -, -⟩ := settle_cell_frame before s c
  rw [h]

@[simp] theorem settle_holds (before s : State) (c : CellNo) : ((settle before s).cell c).holds = (s.cell c).holds := by
  obtain ⟨rx, d, w, h, -, -⟩ := settle_cell_frame before s c
  rw [h]

@[simp] theorem settle_guard (before s : State) (c : CellNo) : ((settle before s).cell c).guard = (s.cell c).guard := by
  obtain ⟨rx, d, w, h, -, -⟩ := settle_cell_frame before s c
  rw [h]

/-- The items of a line that the end of an event leaves. -/
theorem settle_line (before s : State) (c : CellNo) :
    ((settle before s).cell c).line.state = (s.cell c).line.state
      ∧ ((settle before s).cell c).line.errors = (s.cell c).line.errors
      ∧ ((settle before s).cell c).line.clean = (s.cell c).line.clean
      ∧ ((settle before s).cell c).line.tx = (s.cell c).line.tx
      ∧ ((settle before s).cell c).line.forced = (s.cell c).line.forced
      ∧ ((settle before s).cell c).line.lastSent = (s.cell c).line.lastSent := by
  obtain ⟨rx, d, w, h, -, -⟩ := settle_cell_frame before s c
  rw [h]
  exact ⟨rfl, rfl, rfl, rfl, rfl, rfl⟩

@[simp] theorem settle_line_state (before s : State) (c : CellNo) :
    ((settle before s).cell c).line.state = (s.cell c).line.state := (settle_line before s c).1

theorem settle_rx_idle {s : State} (before : State) {c : CellNo} (h : (s.cell c).line.rx = .idle) :
    ((settle before s).cell c).line.rx = .idle := by
  obtain ⟨rx, d, w, he, hrx, -⟩ := settle_cell_frame before s c
  rw [he]
  rcases hrx with rfl | rfl
  · exact h
  · rfl

theorem settle_decoder_hunt {s : State} (before : State) {c : CellNo} (h : (s.cell c).line.decoder = .hunt) :
    ((settle before s).cell c).line.decoder = .hunt := by
  obtain ⟨rx, d, w, he, -, hd⟩ := settle_cell_frame before s c
  rw [he]
  rcases hd with rfl | rfl
  · exact h
  · rfl

/-- A drain that completes leaves the engine as little RUNNING as it was. -/
theorem settle_notRunning (before s : State) :
    ((settle before s).engine.state != .running) = (s.engine.state != .running) := by
  obtain ⟨p, rs, n, h⟩ := settle_frame before s
  rw [h]
  obtain ⟨-, hj⟩ | ⟨-, hd, hj⟩ := judgeDrain_cases s <;> rw [hj]
  rw [hd]
  rfl

/-- The end of an event leaves every cell's hold content (R40). -/
@[simp] theorem settle_holdContent (before s : State) (c : CellNo) :
    holdContent (settle before s).engine.state (settle before s).coll.lots ((settle before s).cell c)
      = holdContent s.engine.state s.coll.lots (s.cell c) := by
  rw [holdContent_congr_cell _ _ (settle_holds before s c) (settle_line_state before s c), settle_coll]
  exact holdContent_congr (settle_notRunning before s) rfl

theorem settle_reasonByte (before s : State) (c : CellNo) :
    reasonByte (settle before s).engine.state (settle before s).coll.lots ((settle before s).cell c)
      = reasonByte s.engine.state s.coll.lots (s.cell c) := congrArg Content.reasons (settle_holdContent before s c)

/-- Where no drain completes the end of an event touches the port, the interrupt and the race fields alone. -/
theorem keeps_settle {l : List Part} {s t : State} (before : State) (h : Keeps l s t) (hd : drainReady t = false)
    (hport : .port ∈ l) (hirq : .irq ∉ l → t.engine.interrupt = s.irq) : Keeps l s (settle before t) := by
  obtain ⟨p, rs, n, he⟩ := settle_frame before t
  rw [he, judgeDrain_of_not_ready hd]
  obtain ⟨h1, -, h3, -, h5, h6, h7, h8, h9, h10⟩ := h
  exact ⟨h1, hirq, h3, fun hp => absurd hport hp, h5, h6, h7, h8, h9, h10⟩

section
variable {c : CellNo} {f : CellState → CellState} {ds : List Occurrence} {s t : State}

theorem OnCell.notDraining (h : OnCell c f ds s t) (hs : s.engine.state ≠ .draining) : drainReady t = false :=
  drainReady_of_not_draining (by rw [h.engine_eq]; exact hs)

/-- A cell's change that empties no assembler completes no drain (R177). -/
theorem OnCell.drainReady_eq (h : OnCell c f ds s t) (hs : drainReady s = false)
    (hasm : (f (s.cell c)).asm.touchdown = none → (f (s.cell c)).asm.queue = [] →
      (s.cell c).asm.touchdown = none ∧ (s.cell c).asm.queue = []) : drainReady t = false := by
  by_contra hc
  rw [Bool.not_eq_false, drainReady_iff] at hc
  obtain ⟨hstate, hcells, hreq, hwork, hscan, hserv, hbusy, hbusy'⟩ := hc
  have hback : ∀ r, portBusy r t = false → portBusy r s = false := fun r hr => by
    simp only [portBusy, Bool.or_eq_false_iff, h.outstanding] at hr ⊢
    refine ⟨?_, hr.2⟩
    by_contra hw
    rw [h.busy r (Bool.eq_true_of_not_eq_false hw)] at hr
    cases hr.1
  have : drainReady s = true := by
    rw [drainReady_iff]
    refine ⟨by rw [← h.engine_eq]; exact hstate, fun d => ?_, by rw [← h.coll_eq]; exact hreq,
      by rw [← h.coll_eq]; exact hwork, by rw [← h.scanner_eq]; exact hscan, by rw [← h.order_eq]; exact hserv,
      hback _ hbusy, hback _ hbusy'⟩
    have hd := hcells d
    by_cases hdc : d = c
    · subst hdc
      rw [h.cell] at hd
      exact hasm hd.1 hd.2
    · rwa [h.others d hdc] at hd
  rw [hs] at this
  cases this

theorem OnCell.keepsCells_settle (h : OnCell c f ds s t) (before : State) (hd : drainReady t = false) :
    KeepsCells c s (settle before t) := fun d hdc => by
  rw [settle_cell_of_running before hd]
  exact h.others d hdc

/-- A cell's event that completes no drain changes the cell, the notice unit, the port and the interrupt alone. -/
theorem OnCell.keeps_settle (h : OnCell c f ds s t) (before : State) (hd : drainReady t = false) :
    Keeps [.port, .cells, .notice, .irq] s (settle before t) :=
  Machine.keeps_settle before (h.keeps.mono (by simp)) hd (by simp) (fun hn => absurd (by simp) hn)

theorem OnCell.keeps_settle_irq (h : OnCell c f ds s t) (before : State) (hd : drainReady t = false)
    (hirq : s.irq = s.engine.interrupt) : Keeps [.port, .cells, .notice] s (settle before t) :=
  Machine.keeps_settle before h.keeps hd (by simp) fun _ => by rw [h.engine_eq, hirq]

end

/-! ## The bits of the reason byte (R110 to R114, R192) -/

theorem reasonByte_bits (eng : EngineState) (lots : List Lot) (cs : CellState) :
    (reasonByte eng lots cs).getLsbD 0 = cs.holds.buffer ∧ (reasonByte eng lots cs).getLsbD 1 = cs.holds.cellGuard
      ∧ (reasonByte eng lots cs).getLsbD 2 = cs.holds.ordered
      ∧ (reasonByte eng lots cs).getLsbD 3 = (cs.line.state != .offline && eng != .running)
      ∧ (reasonByte eng lots cs).getLsbD 4 = (cs.line.state == .quarantined)
      ∧ (reasonByte eng lots cs).getLsbD 5 = lotFloorHeld lots cs.holds.currentLot
      ∧ (reasonByte eng lots cs).getLsbD 6 = (cs.line.state == .offline)
      ∧ (reasonByte eng lots cs).getLsbD 7 = false := by
  refine ⟨?_, ?_, ?_, ?_, ?_, ?_, ?_, ?_⟩
  · exact (BitVec.getLsbD_ofFnLE ..).trans rfl
  · exact (BitVec.getLsbD_ofFnLE ..).trans rfl
  · exact (BitVec.getLsbD_ofFnLE ..).trans rfl
  · exact (BitVec.getLsbD_ofFnLE ..).trans rfl
  · exact (BitVec.getLsbD_ofFnLE ..).trans rfl
  · exact (BitVec.getLsbD_ofFnLE ..).trans rfl
  · exact (BitVec.getLsbD_ofFnLE ..).trans rfl
  · exact (BitVec.getLsbD_ofFnLE ..).trans rfl

end Sys2Proof.Machine
end

