-- ==== Sys2Proof/Proofs/Lines.lean ====
section
/-! SUPPORT and the statements about the lines (R22 to R34, R40 to R43): bytes, errors, quarantine, quality windows and the
transmitter. -/

namespace Sys2Proof.Machine

/-! ## Bytes (R27, R28) -/

theorem evenParity_completed (b : Byte) : evenParity b (!evenParity b false) = true := by
  unfold evenParity
  rcases Nat.mod_two_eq_zero_or_one (ones b) with h | h <;> simp [h, Nat.add_mod]

theorem ofByte_code (ty : MsgType) : MsgType.ofByte ty.code = some ty := by cases ty <;> rfl

theorem effectOf_byte {c : CellNo} {b : Byte} {s : State} (h : Active c s) (hrx : (s.cell c).line.rx = .character) :
    effectOf (.byte c b) s = some (refresh c (takeByte c b (s.modLine c fun l => { l with rx := .idle }))) := by
  have hact := (active_iff c s).1 h
  simp [effectOf, byteDone, characterDone, hact, hrx, evenParity_completed]

/-- On a line with nothing to begin a byte that sets the decoder changes the receiver alone. -/
theorem exec_byte_moves {c : CellNo} {b : Byte} {s : State} {d : Decoder} (h : Active c s)
    (hrx : (s.cell c).line.rx = .character) (hs : Settled s) (hq : LineQuiet c s)
    (htake : takeByte c b (s.modLine c fun l => { l with rx := .idle })
      = s.modLine c fun l => { l with rx := .idle, decoder := d }) :
    exec (.byte c b) s = .next (s.modLine c fun l => { l with rx := .idle, decoder := d }) := by
  rw [exec_of_effect (effectOf_byte h hrx), htake, refresh_modLine_of_quiet hq rfl rfl rfl rfl rfl, settle_modLine hs]

theorem setDecoder_idle (c : CellNo) (d : Decoder) (s : State) :
    setDecoder c d (s.modLine c fun l => { l with rx := .idle }) = s.modLine c fun l => { l with rx := .idle, decoder := d } :=
  modLine_modLine s c _ _

/-- Settles O22: each decoder state takes its byte by one branch of `takeByte`. -/
theorem bytesMoveDecoder : Obligations.BytesMoveDecoder := by
  intro c b s h hrx hs hq moves
  refine ⟨fun hd => ?_, fun y hd ty hb => ?_, fun y ty hd hb => ?_, fun y ty sum bs hd => ?_⟩
  · refine exec_byte_moves h hrx hs hq ?_
    unfold takeByte
    rw [cell_modLine]
    dsimp only
    rw [hd]
    dsimp only
    by_cases hb : b = 0xA5
    · rw [if_pos hb, if_pos hb]
      exact setDecoder_idle c _ s
    · rw [if_neg hb, if_neg hb]
      exact modLine_congr (by rw [← hd])
  · refine exec_byte_moves h hrx hs hq ?_
    unfold takeByte
    rw [cell_modLine]
    dsimp only
    rw [hd, hb, ofByte_code]
    exact setDecoder_idle c _ s
  · refine exec_byte_moves h hrx hs hq ?_
    unfold takeByte
    rw [cell_modLine]
    dsimp only
    rw [hd]
    dsimp only
    rw [if_pos hb, setDecoder_idle]
    cases ty <;> rfl
  · refine exec_byte_moves h hrx hs hq ?_
    unfold takeByte
    rw [cell_modLine]
    dsimp only
    rw [hd]
    dsimp only
    rw [setDecoder_idle, List.length_append, List.length_singleton]

/-! ## Errors (R24, R27 to R33) -/

/-- The line as its error event meets it: the character that carried the error is complete (R31). -/
def errorMet (kind : LineError) (l : Line) : Line := { l with rx := if kind = .gap then l.rx else .idle }

theorem errorMet_of_character {kind : LineError} (h : kind ≠ .gap) : errorMet kind = fun l => { l with rx := .idle } := by
  funext l
  simp [errorMet, h]

/-- The effect of a character that carries an error. -/
theorem effectOf_character {c : CellNo} {data : Byte} {parity stop : Bool} {s : State} {kind : LineError}
    (hact : receiverActive s.engine.state (s.cell c).line = true) (hrx : (s.cell c).line.rx = .character)
    (h : (if !stop then countError .framing c (s.modLine c fun l => { l with rx := .idle })
        else if !evenParity data parity then countError .parity c (s.modLine c fun l => { l with rx := .idle })
        else takeByte c data (s.modLine c fun l => { l with rx := .idle }))
      = countError kind c (s.modLine c fun l => { l with rx := .idle })) (hk : kind ≠ .gap) :
    characterDone c data parity stop s = some (refresh c (countError kind c (s.modLine c (errorMet kind)))) := by
  unfold characterDone
  rw [hact, hrx, errorMet_of_character hk, ← h]
  rfl

/-- The effect of an error event (R31). -/
theorem effectOf_lineError {i : Instr} {c : CellNo} {kind : LineError} {s : State} (h : lineErrorOf c s i = some kind) :
    receiverActive s.engine.state (s.cell c).line = true
      ∧ effectOf i s = some (refresh c (countError kind c (s.modLine c (errorMet kind)))) := by
  have htake : ∀ {d : CellNo} {b : Byte} {k : LineError}, k ≠ .gap →
      receiverActive s.engine.state (s.cell d).line = true → (s.cell d).line.rx = .character →
      takeByte d b (s.modLine d fun l => { l with rx := .idle }) = countError k d (s.modLine d fun l => { l with rx := .idle }) →
      byteDone d b s = some (refresh d (countError k d (s.modLine d (errorMet k)))) := by
    intro d b k hk hact hrx ht
    refine effectOf_character hact hrx ?_ hk
    simp [evenParity_completed, ht]
  unfold lineErrorOf at h
  split at h
  case h_1 d data parity stop =>
    split at h
    case isFalse => cases h
    case isTrue hd =>
      obtain ⟨rfl, hact, hrx⟩ := hd
      refine ⟨hact, ?_⟩
      show characterDone d data parity stop s = _
      split at h
      · rename_i hstop
        obtain rfl := Option.some.inj h
        exact effectOf_character hact hrx (by simp [hstop]) LineError.noConfusion
      · rename_i hstop
        split at h
        · cases h
        · rename_i hpar
          obtain rfl := Option.some.inj h
          exact effectOf_character hact hrx (by simp [hstop, hpar]) LineError.noConfusion
  case h_2 d b =>
    split at h
    case isFalse => cases h
    case isTrue hd =>
      obtain ⟨rfl, hact, hrx⟩ := hd
      refine ⟨hact, ?_⟩
      split at h
      case h_2 => cases h
      case h_1 y hdec =>
        split at h
        case isFalse => cases h
        case isTrue hb =>
          obtain rfl := Option.some.inj h
          exact htake LineError.noConfusion hact hrx (by simp [takeByte, hdec, hb])
  case h_3 d b =>
    split at h
    case isFalse => cases h
    case isTrue hd =>
      obtain ⟨rfl, hact, hrx⟩ := hd
      refine ⟨hact, ?_⟩
      split at h
      case h_2 => cases h
      case h_1 y ty hdec =>
        split at h
        case isTrue => cases h
        case isFalse hb =>
          obtain rfl := Option.some.inj h
          exact htake LineError.noConfusion hact hrx (by simp [takeByte, hdec, hb])
  case h_4 d b =>
    split at h
    case isFalse => cases h
    case isTrue hd =>
      obtain ⟨rfl, hact, hrx⟩ := hd
      refine ⟨hact, ?_⟩
      split at h
      case h_2 => cases h
      case h_1 y ty sum bs hdec =>
        split at h
        case isTrue => cases h
        case isFalse hb =>
          obtain rfl := Option.some.inj h
          exact htake LineError.noConfusion hact hrx (by
            simp only [takeByte, cell_modLine, hdec]
            rw [if_neg hb])
  case h_5 d =>
    split at h
    case isFalse => cases h
    case isTrue hd =>
      obtain ⟨rfl, hact, hexp⟩ := hd
      obtain rfl := Option.some.inj h
      refine ⟨hact, ?_⟩
      have hmet : s.modLine d (errorMet .gap) = s := by
        show s.setCell d { s.cell d with line := (s.cell d).line } = s
        exact setCell_cell d s
      rw [hmet]
      simp [effectOf, gapExpires, hact, hexp]
  case h_6 => cases h

/-- The line's errors after an error event reach its threshold, or not (R33). -/
theorem reachesQ_iff (l : Line) : l.reachesQ = true ↔ l.state = .online ∧ l.q ≠ 0 ∧ l.q ≤ l.errors := by
  simp [Line.reachesQ, and_assoc]

/-- Settles O23: below the threshold an error event counts and looks. -/
theorem lineErrorsCounted : Obligations.LineErrorsCounted := by
  intro i c kind s h hs hq hbelow
  obtain ⟨hact, heffect⟩ := effectOf_lineError h
  have hcount : countError kind c (s.modLine c (errorMet kind)) = s.modLine c (errorCounted kind) := by
    unfold countError
    dsimp only
    rw [modLine_modLine, if_neg]
    · rfl
    · rw [cell_modLine, reachesQ_iff]
      rintro ⟨hstate, hq0, hqe⟩
      rcases hbelow with hb | hb | hb
      · have : (s.cell c).line.state = .online := hstate
        rw [hb] at this
        cases this
      · exact hq0 hb
      · exact absurd hqe (Nat.not_le.2 hb)
  rw [exec_of_effect heffect, hcount, refresh_modLine_of_quiet hq rfl rfl rfl rfl rfl, settle_modLine hs]

/-- The kinds of a close's notices. -/
theorem closeNotices_kinds {kind : CloseKind} {now : Time} {c : CellNo} {a : Assembler} {x : Occurrence}
    (h : x ∈ closeNotices kind now c a) :
    x.1 = .cell c ∧ (x.2.kind = .shortTouchdown ∨ x.2.kind = .touchdownLoss) := by
  unfold closeNotices queueNotices at h
  split at h
  · cases h
  · rw [List.mem_append] at h
    rcases h with h | h
    · split at h
      · obtain rfl := List.mem_singleton.1 h
        exact ⟨rfl, .inl rfl⟩
      · cases h
    · split at h
      · obtain rfl := List.mem_singleton.1 h
        exact ⟨rfl, .inr rfl⟩
      · cases h

theorem closeNotices_nodup (kind : CloseKind) (now : Time) (c : CellNo) (a : Assembler) :
    ((closeNotices kind now c a).map Occurrence.key).Nodup := by
  unfold closeNotices queueNotices
  split
  · exact List.nodup_nil
  · split <;> split <;> simp [Occurrence.key, Detail.kind]

/-- The occurrences of a close and of what follows it have different keys, where what follows is no notice of a close. -/
theorem nodup_closeNotices_append {kind : CloseKind} {now : Time} {c : CellNo} {a : Assembler} {es : List Occurrence}
    (hes : (es.map Occurrence.key).Nodup)
    (hne : ∀ x ∈ es, x.2.kind ≠ .shortTouchdown ∧ x.2.kind ≠ .touchdownLoss) :
    ((closeNotices kind now c a ++ es).map Occurrence.key).Nodup := by
  rw [List.map_append, List.nodup_append]
  refine ⟨closeNotices_nodup kind now c a, hes, fun k hk k' hk' he => ?_⟩
  obtain ⟨x, hx, rfl⟩ := List.mem_map.1 hk
  obtain ⟨y, hy, rfl⟩ := List.mem_map.1 hk'
  have hkind : x.2.kind = y.2.kind := congrArg NoticeKey.kind he
  obtain ⟨-, h | h⟩ := closeNotices_kinds hx
  · exact (hne y hy).1 (hkind ▸ h)
  · exact (hne y hy).2 (hkind ▸ h)

/-- A close that is not NORMAL is short. -/
theorem short_of_abnormal {kind : CloseKind} (h : kind ≠ .normal) (t : Touchdown) (now : Time) :
    (t.closed kind now).short = true := by
  simp [Touchdown.short, Touchdown.closed, h]

/-- A close that is not NORMAL has its notices, whatever other notices its event raises (R54, R55). -/
theorem closeNoted_of_tells {kind : CloseKind} {c : CellNo} {s t : State} {es : List Occurrence}
    (h : Tells (closeNotices kind s.clock c (s.cell c).asm ++ es) s t) (hkind : kind ≠ .normal)
    (hes : (es.map Occurrence.key).Nodup)
    (hne : ∀ x ∈ es, x.2.kind ≠ .shortTouchdown ∧ x.2.kind ≠ .touchdownLoss) (before : State) :
    CloseNoted kind c s (settle before t) := by
  intro td htd
  have hdiff := nodup_closeNotices_append (kind := kind) (now := s.clock) (c := c) (a := (s.cell c).asm) hes hne
  refine ⟨noted_settle before (h.noted hdiff (List.mem_append_left _ ?_)), fun hlost =>
    noted_settle before (h.noted hdiff (List.mem_append_left _ ?_))⟩
  · rw [closeNotices, Option.mem_def.1 htd]
    simp only [short_of_abnormal hkind td s.clock, if_true]
    exact List.mem_append_left _ List.mem_cons_self
  · rw [closeNotices, Option.mem_def.1 htd]
    refine List.mem_append_right _ ?_
    rw [queueNotices, closed_reports, if_pos hlost]
    exact List.mem_cons_self

/-- An error event is one of its cell (R31). -/
theorem onCell_lineError (c : CellNo) (kind : LineError) (s : State) :
    OnCell c (fun cs => transmit s.engine.state s.coll.lots
        (({ cs with line := errorMet kind cs.line } : CellState).countError s.clock))
      (errorNotices kind s.clock c { s.cell c with line := errorMet kind (s.cell c).line }) s
      (refresh c (countError kind c (s.modLine c (errorMet kind)))) := by
  have hcount := onCell_countError kind c (s.modLine c (errorMet kind))
  rw [cell_modLine] at hcount
  exact ((onCell_modLine c (errorMet kind) s).trans hcount).refreshed

/-- Settles O24: the line that reaches Q is quarantined by `countError`, and its record is closed. -/
theorem quarantineAtThreshold : Obligations.QuarantineAtThreshold := by
  intro i c kind s h hon hq hreach hasm
  obtain ⟨hact, heffect⟩ := effectOf_lineError h
  have hcell := onCell_lineError c kind s
  set u := refresh c (countError kind c (s.modLine c (errorMet kind)))
  have hreaches : ({ errorMet kind (s.cell c).line with
      decoder := .hunt, errors := min ((s.cell c).line.errors + 1) 255 } : Line).reachesQ = true :=
    (reachesQ_iff _).2 ⟨hon, hq, hreach⟩
  have hnotices : errorNotices kind s.clock c { s.cell c with line := errorMet kind (s.cell c).line }
      = closeNotices .quarantined s.clock c (s.cell c).asm
        ++ [(.cell c, .lineQuarantined (min ((s.cell c).line.errors + 1) 255) kind)] :=
    if_pos (show ({ errorMet kind (s.cell c).line with
      errors := min ((s.cell c).line.errors + 1) 255 } : Line).reachesQ = true from (reachesQ_iff _).2 ⟨hon, hq, hreach⟩)
  let withdrawn : CellState := { s.cell c with line := { errorMet kind (s.cell c).line with
    decoder := .hunt, errors := min ((s.cell c).line.errors + 1) 255, state := .quarantined, clean := 0 } }
  have hu : u.cell c = transmit s.engine.state s.coll.lots (withdrawn.closeRecord .quarantined s.clock) := by
    rw [hcell.cell]
    exact congrArg _ (if_pos hreaches)
  obtain ⟨hline, -, -, -, -⟩ := closeRecord_asmOnly .quarantined s.clock withdrawn
  obtain ⟨hidle, hsilence, hsame, hqueue⟩ := closeRecord_asm .quarantined s.clock withdrawn
  obtain ⟨hstate, -, hdec, herr, hclean, hwin, -⟩ :=
    transmit_receiver s.engine.state s.coll.lots (withdrawn.closeRecord .quarantined s.clock)
  rw [← hu, hline] at hstate hdec herr hclean hwin
  have hasm' : (u.cell c).asm = (withdrawn.closeRecord .quarantined s.clock).asm := by rw [hu, transmit_asm]
  have htells := hcell.tells
  rw [hnotices] at htells
  refine answers_of_effect heffect ⟨?_, ?_, ?_, settle_decoder_hunt s hdec, ?_, ?_, ?_, ?_, ?_, ?_, fun hd => ?_⟩
  · rw [settle_line_state]
    exact hstate
  · rw [(settle_line s u c).2.1]
    exact herr
  · rw [(settle_line s u c).2.2.1]
    exact hclean
  · rw [settle_asm, hasm']
    exact hidle
  · rw [settle_asm, hasm']
    cases htd : (s.cell c).asm.touchdown with
    | none =>
      rw [hsame htd]
      have hopen : (s.cell c).asm.touchdown.isSome = (s.cell c).asm.silence.isSome := hasm.2.2.1
      rw [htd] at hopen
      simpa using hopen.symm
    | some td => exact hsilence (by simp [withdrawn, htd])
  · rw [settle_asm, hasm']
    exact hqueue
  · exact closeNoted_of_tells htells CloseKind.noConfusion (by simp) (by simp [Detail.kind]) s
  · exact raised_settle s htells.raised
  · rw [settle_reasonByte, (reasonByte_bits _ _ _).2.2.2.2.1, hstate]
    rfl
  · have hready := hcell.notDraining hd
    refine ⟨hcell.keeps_settle s hready, hcell.keepsCells_settle s hready, ?_⟩
    rw [settle_cell_of_running s hready, hwin]
    rfl


/-! ## Quality windows (R32, R34) -/

theorem effectOf_window {c : CellNo} {s : State} (h : Active c s) (hexp : expired s.clock (s.cell c).line.windowEnd = true) :
    effectOf (.qualityWindowEnd c) s = some (refresh c
      (if (s.cell c).line.state = .quarantined ∧ (judgeWindow (s.cell c).line).state = .online then
        raise (.cell c) .lineRestored (s.modLine c fun l => nextWindow (judgeWindow l))
      else s.modLine c fun l => nextWindow (judgeWindow l))) := by
  have hact := (active_iff c s).1 h
  simp [effectOf, windowEnds, hact, hexp]

/-- A window that restores no line changes its counts alone. -/
theorem exec_window_counts {c : CellNo} {s : State} {f : Line → Line} (h : Active c s)
    (hexp : expired s.clock (s.cell c).line.windowEnd = true) (hs : Settled s) (hq : LineQuiet c s)
    (hjudge : nextWindow (judgeWindow (s.cell c).line) = f (s.cell c).line)
    (hstate : (judgeWindow (s.cell c).line).state = (s.cell c).line.state)
    (hforced : (judgeWindow (s.cell c).line).forced = (s.cell c).line.forced) :
    exec (.qualityWindowEnd c) s = .next (s.modLine c f) := by
  obtain ⟨st, clean, forced, hj, -⟩ := judgeWindow_frame (s.cell c).line
  have hkeeps : ¬((s.cell c).line.state = .quarantined ∧ (judgeWindow (s.cell c).line).state = .online) := by
    rintro ⟨hquar, hon⟩
    rw [hstate, hquar] at hon
    cases hon
  rw [exec_of_effect (effectOf_window h hexp), if_neg hkeeps,
    refresh_modLine_of_quiet (f := fun l => nextWindow (judgeWindow l)) hq hstate (by rw [hj]; rfl) hforced
      (by rw [hj]; rfl) (by rw [hj]; rfl), settle_modLine hs,
    modLine_congr hjudge]

/-- Settles O25: the window is judged by `judgeWindow` and the next begins. -/
theorem windowEndJudged : Obligations.WindowEndJudged := by
  intro c s h hexp l next
  refine ⟨fun hon hs hq => ?_, fun hquar herr hs hq => ?_, fun hquar herr hclean hs hq => ?_,
    fun hquar herr hclean hs => ?_⟩
  · have hj : judgeWindow (s.cell c).line = (s.cell c).line := if_neg (by rw [show (s.cell c).line.state = .online from hon]; decide)
    refine exec_window_counts h hexp hs hq ?_ ?_ ?_ <;> rw [hj]
    rfl
  · have hj : judgeWindow (s.cell c).line = { (s.cell c).line with clean := 0 } :=
      (if_pos hquar).trans (if_neg herr)
    refine exec_window_counts h hexp hs hq ?_ ?_ ?_ <;> rw [hj]
    rfl
  · have hclean' : (s.cell c).line.clean = 0 := hclean
    have hj : judgeWindow (s.cell c).line = { (s.cell c).line with clean := 1 } := by
      refine (if_pos hquar).trans ((if_pos herr).trans ((if_neg ?_).trans ?_))
      · rw [hclean']
        decide
      · rw [hclean']
    refine exec_window_counts h hexp hs hq ?_ ?_ ?_ <;> rw [hj]
    rfl
  · have hj : judgeWindow (s.cell c).line = { (s.cell c).line with state := .online, clean := 0, forced := true } :=
      (if_pos hquar).trans ((if_pos herr).trans (if_pos (Nat.succ_le_succ hclean)))
    have heffect := effectOf_window h hexp
    obtain ⟨-, hcell⟩ := windowEnds_inv heffect
    set u := refresh c _ with hudef
    have htells := hcell.tells
    rw [if_pos ⟨hquar, by rw [hj]⟩] at htells
    have hready : drainReady u = false := hcell.drainReady_eq hs.1 fun h1 h2 => by
      rw [transmit_asm] at h1 h2
      exact ⟨h1, h2⟩
    have hstay : (settle s u).cell c = u.cell c := settle_cell_of_running s hready c
    have hu := hcell.cell
    rw [hj] at hu
    obtain ⟨hstate, -, -, herr', hclean', hwin, -⟩ := transmit_receiver s.engine.state s.coll.lots
      { s.cell c with line := nextWindow { (s.cell c).line with state := .online, clean := 0, forced := true } }
    have hforced := transmit_forced (eng := s.engine.state) (lots := s.coll.lots)
      (cs := { s.cell c with line := nextWindow { (s.cell c).line with state := .online, clean := 0, forced := true } })
      rfl LineState.noConfusion
    rw [← hu] at hstate herr' hclean' hwin hforced
    refine answers_of_effect heffect ⟨?_, ?_, ?_, ?_, raised_settle s (Tells.raised (ds := []) htells), ?_, ?_, ?_, ?_,
      hcell.keeps_settle_irq s hready hs.2.2, hcell.keepsCells_settle s hready⟩
    · rw [hstay, hstate]
      rfl
    · rw [hstay, hclean']
      rfl
    · rw [hstay, herr']
      rfl
    · rw [hstay, hwin]
      rfl
    · rw [settle_holdContent, hstay]
      split at hforced
      · refine .inr ?_
        rw [hforced.2, hu, holdContent_transmit, hcell.engine_eq, hcell.coll_eq]
      · exact .inl hforced
    · rw [hstay, hu, transmit_asm]
    · rw [hstay, hu, transmit_holds]
    · rw [hstay, hu, transmit_guard]

/-! ## The transmitter (R40 to R43) -/

/-- The bytes of a HOLD_STATE (R43, R192). -/
theorem message_eq (k : Content) : ∃ check : Byte,
    k.message = [0xA5, 0x81, 0x03, k.reasons, BitVec.ofNat 8 k.held.toNat, BitVec.ofNat 8 (k.held.toNat / 256), check]
    ∧ (0x81 + 0x03 + k.reasons.toNat + k.held.toNat % 256 + k.held.toNat / 256 + check.toNat) % 256 = 0 := by
  refine ⟨-(0 + 0x81 + 0x03 + k.reasons + BitVec.ofNat 8 k.held.toNat + BitVec.ofNat 8 (k.held.toNat / 256)), rfl, ?_⟩
  have hlt := k.held.isLt
  have hr := k.reasons.isLt
  have h0 : (0 : Byte).toNat = 0 := rfl
  have h1 : (0x81 : Byte).toNat = 0x81 := rfl
  have h2 : (0x03 : Byte).toNat = 0x03 := rfl
  simp only [BitVec.toNat_neg, BitVec.toNat_add, BitVec.toNat_ofNat, h0, h1, h2]
  omega

theorem tripped_iff (lots : List Lot) (current : Option Word) :
    lotFloorHeld lots current = true ↔ ∃ key ∈ current, ∃ l ∈ findLot lots key, l.tripped = true := by
  unfold lotFloorHeld
  cases current with
  | none => simp
  | some key => cases h : findLot lots key <;> simp [h]

/-- What follows the last character of a message, its final flag aside where the line is in service (R41, R42). -/
theorem afterSent_eq (eng : EngineState) (lots : List Lot) {final : Bool} {cs : CellState}
    (h : final = true ∨ cs.line.state ≠ .offline ∨ cs.line.finalOwed = true) :
    afterSent eng lots final cs = { cs with line :=
      if cs.line.finalOwed then
        { cs.line with tx := .sending true cs.line.txRate (holdContent eng lots cs).message
                       lastSent := some (holdContent eng lots cs), forced := false, finalOwed := false }
      else if cs.line.state = .offline then { cs.line with tx := .silent, lastSent := none }
      else if cs.line.forced ∨ cs.line.lastSent ≠ some (holdContent eng lots cs) then
        { cs.line with tx := .sending false cs.line.txRate (holdContent eng lots cs).message
                       lastSent := some (holdContent eng lots cs), forced := false }
      else { cs.line with tx := .idle } } := by
  unfold afterSent
  cases howed : cs.line.finalOwed with
  | true => simp [beginMessage]
  | false =>
    have hend : (final && cs.line.state == .offline) = decide (cs.line.state = .offline) := by
      rcases h with rfl | h | h
      · by_cases hs : cs.line.state = .offline <;> simp [hs]
      · simp [h]
      · rw [howed] at h
        cases h
    rw [hend]
    by_cases hs : cs.line.state = .offline
    · simp [hs]
    · by_cases hdue : cs.line.forced = true ∨ cs.line.lastSent ≠ some (holdContent eng lots cs)
      · rw [if_pos ((sendDue_iff _ _ _).2 ⟨hs, hdue⟩), if_pos hdue]
        simp [hs, beginMessage, howed]
      · rw [if_neg fun hd => hdue ((sendDue_iff _ _ _).1 hd).2, if_neg hdue]
        simp [hs]

/-- What an IDLE transmitter does (R40, R42). -/
theorem transmit_idle (eng : EngineState) (lots : List Lot) {cs : CellState} (h : cs.line.tx = .idle) :
    transmit eng lots cs = { cs with line :=
      if cs.line.finalOwed then
        { cs.line with tx := .sending true cs.line.txRate (holdContent eng lots cs).message
                       lastSent := some (holdContent eng lots cs), forced := false, finalOwed := false }
      else if cs.line.state ≠ .offline ∧ (cs.line.forced ∨ cs.line.lastSent ≠ some (holdContent eng lots cs)) then
        { cs.line with tx := .sending false cs.line.txRate (holdContent eng lots cs).message
                       lastSent := some (holdContent eng lots cs), forced := false }
      else cs.line } := by
  unfold transmit
  rw [h]
  dsimp only
  cases howed : cs.line.finalOwed with
  | true => simp [beginMessage]
  | false =>
    by_cases hdue : cs.line.state ≠ .offline ∧ (cs.line.forced = true ∨ cs.line.lastSent ≠ some (holdContent eng lots cs))
    · rw [if_pos ((sendDue_iff _ _ _).2 hdue), if_pos hdue]
      simp [beginMessage, howed]
    · rw [if_neg fun hd => hdue ((sendDue_iff _ _ _).1 hd), if_neg hdue]
      simp

/-- Settles O26: the message by its layout, and each look of the transmitter by `transmit`. -/
theorem transmitterSendsLatestContent : Obligations.TransmitterSendsLatestContent := by
  refine ⟨message_eq, fun eng lots cs => ?_, fun c final rate m s hs htx hfinal => ?_, fun eng lots cs => ⟨fun htx => ?_, ?_⟩⟩
  · obtain ⟨h0, h1, h2, h3, h4, h5, h6, h7⟩ := reasonByte_bits eng lots cs
    refine ⟨rfl, h0, h1, h2, ?_, ?_, ?_, ?_, h7⟩
    · refine Eq.to_iff (congrArg (· = true) h3) |>.trans ?_
      simp
    · refine Eq.to_iff (congrArg (· = true) h4) |>.trans ?_
      simp
    · exact Eq.to_iff (congrArg (· = true) h5) |>.trans (tripped_iff lots cs.holds.currentLot)
    · refine Eq.to_iff (congrArg (· = true) h6) |>.trans ?_
      simp
  · have heffect : effectOf (.holdStateSent c) s = some (s.modCell c (afterSent s.engine.state s.coll.lots final)) := by
      simp only [effectOf, messageSent, htx]
    rw [exec_of_effect heffect]
    refine congrArg _ (Eq.trans ?_ (settle_modLine hs s c _))
    exact congrArg (settle s) (modCell_congr (afterSent_eq _ _ hfinal))
  · exact (transmit_eq_self_iff eng lots cs).2 fun h => absurd h htx
  · exact transmit_idle eng lots

end Sys2Proof.Machine
end

