-- ==== Sys2Proof/Proofs/Touchdowns.lean ====
section
/-! SUPPORT and the statements about touchdowns (R29, R44 to R60): OPEN, UNIT, CLOSE, HELLO and silence. -/

namespace Sys2Proof.Machine

/-! ## A good message (R29) -/

/-- A cell as its assembler meets a good message: the receiver at rest, and a HELLO's send forced (R29). -/
def CellState.met (m : Message) (cs : CellState) : CellState :=
  ({ cs with line := { cs.line with rx := .idle, decoder := .hunt } } : CellState).force m

theorem met_frame (m : Message) (cs : CellState) :
    (cs.met m).asm = cs.asm ∧ (cs.met m).holds = cs.holds ∧ (cs.met m).guard = cs.guard
      ∧ (cs.met m).line = { cs.line with rx := .idle, decoder := .hunt, forced := (cs.met m).line.forced } := by
  unfold CellState.met CellState.force
  split <;> exact ⟨rfl, rfl, rfl, rfl⟩

/-- What a good message's event leaves when it has ended: the cell its assembler took it on, the line at rest. -/
structure MessageEnds (c : CellNo) (m : Message) (s t : State) : Prop where
  onCell : OnCell c (fun cs => transmit s.engine.state s.coll.lots
      (if cs.line.state = .online then (cs.met m).takeMessage s.engine.state s.clock m else cs.met m))
    (if (s.cell c).line.state = .online then
      messageNotices s.engine.state s.clock m c ((s.cell c).met m) else []) s t
  active : receiverActive s.engine.state (s.cell c).line = true

theorem messageEnds {c : CellNo} {m : Message} {s t : State} (h : messageDone c m s = some t) : MessageEnds c m s t := by
  obtain ⟨hact, hcell⟩ := messageDone_inv h
  exact ⟨hcell, hact⟩

namespace MessageEnds

variable {c : CellNo} {m : Message} {s t : State}

/-- The line after a good message: at rest, its state, its count and its window as they were (R29). -/
theorem line (h : MessageEnds c m s t) : (t.cell c).line.state = (s.cell c).line.state
    ∧ (t.cell c).line.rx = .idle ∧ (t.cell c).line.decoder = .hunt
    ∧ (t.cell c).line.errors = (s.cell c).line.errors := by
  rw [h.onCell.cell]
  obtain ⟨hstate, hrx, hdec, herr, -, -, -⟩ := transmit_receiver s.engine.state s.coll.lots
    (if (s.cell c).line.state = .online then ((s.cell c).met m).takeMessage s.engine.state s.clock m else (s.cell c).met m)
  have hline : (if (s.cell c).line.state = .online then ((s.cell c).met m).takeMessage s.engine.state s.clock m
      else (s.cell c).met m).line = ((s.cell c).met m).line := by
    split
    · exact (takeMessage_asmOnly _ _ _ _).line
    · rfl
  obtain ⟨-, -, -, hmet⟩ := met_frame m (s.cell c)
  rw [hstate, hrx, hdec, herr, hline, hmet]
  exact ⟨rfl, rfl, rfl, rfl⟩

theorem guard (h : MessageEnds c m s t) : (t.cell c).guard = (s.cell c).guard := by
  obtain ⟨-, -, hguard, -⟩ := met_frame m (s.cell c)
  rw [h.onCell.cell, transmit_guard]
  split
  · exact (takeMessage_asmOnly _ _ _ _).guard.trans hguard
  · exact hguard

/-- On a line that is not ONLINE the assembler does not hear of a message (R29). -/
theorem of_not_online (h : MessageEnds c m s t) (hs : (s.cell c).line.state ≠ .online) :
    (t.cell c).asm = (s.cell c).asm ∧ (t.cell c).holds = (s.cell c).holds ∧ Tells [] s t := by
  obtain ⟨hasm, hholds, -, -⟩ := met_frame m (s.cell c)
  have htells := h.onCell.tells
  rw [if_neg hs] at htells
  refine ⟨?_, ?_, htells⟩
  · rw [h.onCell.cell, transmit_asm, if_neg hs, hasm]
  · rw [h.onCell.cell, transmit_holds, if_neg hs, hholds]

/-- On an ONLINE line the assembler takes it (R46). -/
theorem of_online (h : MessageEnds c m s t) (hs : (s.cell c).line.state = .online) :
    (t.cell c).asm = (((s.cell c).met m).takeMessage s.engine.state s.clock m).asm
      ∧ (t.cell c).holds = (((s.cell c).met m).takeMessage s.engine.state s.clock m).holds
      ∧ Tells (messageNotices s.engine.state s.clock m c ((s.cell c).met m)) s t := by
  have htells := h.onCell.tells
  rw [if_pos hs] at htells
  refine ⟨?_, ?_, htells⟩
  · rw [h.onCell.cell, transmit_asm, if_pos hs]
  · rw [h.onCell.cell, transmit_holds, if_pos hs]

end MessageEnds

theorem quarantined_ne_online {l : Line} (h : l.state = .quarantined) : l.state ≠ .online := by
  rw [h]
  exact LineState.noConfusion

/-! ## OPEN (R47, R48) -/

/-- An OPEN taken in IDLE leaves the queue; it opens a touchdown where the engine does not drain and a site is left. -/
theorem openIdle_asm (eng : EngineState) (now : Time) (number declared : Half) (cs : CellState) :
    (cs.openIdle eng now number declared).asm.queue = cs.asm.queue
      ∧ (eng = .draining ∨ declared &&& cs.asm.enabled = 0 → cs.openIdle eng now number declared = cs)
      ∧ (eng ≠ .draining → declared &&& cs.asm.enabled ≠ 0 →
          (cs.openIdle eng now number declared).asm.touchdown = some (Touchdown.opened number (declared &&& cs.asm.enabled))
          ∧ (cs.openIdle eng now number declared).asm.silence = some (Time.plus now cs.asm.timeout)) := by
  unfold CellState.openIdle
  split
  · rename_i h
    exact ⟨rfl, fun _ => rfl, fun hd hz => absurd h (not_or.2 ⟨hd, hz⟩)⟩
  · rename_i h
    exact ⟨rfl, fun h' => absurd h' h, fun _ _ => ⟨rfl, rfl⟩⟩

/-- Settles O27: an open touchdown closes SUPERSEDED, then the new one opens or is refused. -/
theorem openTaken : Obligations.OpenTaken := by
  intro c number declared s hcomp a clamped
  obtain ⟨u, hu⟩ := Option.isSome_iff_exists.1 hcomp
  have hends := messageEnds hu
  obtain ⟨-, hrx, hdec, herr⟩ := hends.line
  refine answers_of_effect hu ⟨settle_rx_idle s hrx, settle_decoder_hunt s hdec, ?_, ?_, ?_, ?_, ?_, ?_, fun hd => ?_, ?_,
    fun hquar => ?_, fun hon => ?_⟩
  · rw [(settle_line s u c).2.1, herr]
  · rw [settle_order, hends.onCell.order_eq]
  · rw [settle_coll, hends.onCell.coll_eq]
  · rw [settle_scanner, hends.onCell.scanner_eq]
  · rw [settle_clock, hends.onCell.clock_eq]
  · rw [settle_pending, hends.onCell.pending_eq]
  · have hready := hends.onCell.notDraining hd
    exact ⟨hends.onCell.keeps_settle s hready, hends.onCell.keepsCells_settle s hready⟩
  · rw [settle_guard, hends.guard]
  · obtain ⟨hasm, -, htells⟩ := hends.of_not_online (quarantined_ne_online hquar)
    exact ⟨by rw [settle_asm, hasm], sameNotices_settle s htells⟩
  · obtain ⟨hasm, -, htells⟩ := hends.of_online hon
    obtain ⟨hmet, -, -, -⟩ := met_frame (.openMsg number declared) (s.cell c)
    set cs := (s.cell c).met (.openMsg number declared)
    obtain ⟨hidle, -, hsame, hqueue⟩ := closeRecord_asm .superseded s.clock cs
    obtain ⟨-, -, henabled, htimeout, -⟩ := closeRecord_asmOnly .superseded s.clock cs
    obtain ⟨hoq, hstay, hopen⟩ := openIdle_asm s.engine.state s.clock number declared (cs.closeRecord .superseded s.clock)
    rw [henabled, hmet] at hstay hopen
    rw [htimeout, hmet] at hopen
    rw [hmet] at hqueue
    have htold : Tells (closeNotices .superseded s.clock c (s.cell c).asm
        ++ openNotices s.engine.state declared c (cs.closeRecord .superseded s.clock)) s u := by
      rw [← hmet]
      exact htells
    have hopenNotices : openNotices s.engine.state declared c (cs.closeRecord .superseded s.clock)
        = if s.engine.state = .draining then [(.cell c, .messageRefused .draining 0xFF 0)]
          else if clamped = 0 then [(.cell c, .messageRefused .emptyTouchdown 0xFF 0)] else [] := by
      unfold openNotices refusal
      rw [hidle, henabled, hmet]
    rw [hopenNotices] at htold
    refine ⟨?_, ?_, fun hd hz => ⟨?_, ?_, fun hnone => ?_⟩, fun hd hz => ⟨?_, ?_⟩, fun hd => ⟨?_, ?_⟩⟩
    · rw [settle_asm, hasm]
      exact hoq.trans hqueue
    · refine closeNoted_of_tells htold CloseKind.noConfusion ?_ ?_ s
      · split
        · simp
        · split <;> simp
      · intro x hx
        split at hx
        · obtain rfl := List.mem_singleton.1 hx
          simp [Detail.kind]
        · split at hx
          · obtain rfl := List.mem_singleton.1 hx
            simp [Detail.kind]
          · cases hx
    · rw [settle_asm, hasm]
      exact (hopen hd hz).1
    · rw [settle_asm, hasm]
      exact (hopen hd hz).2
    · have hnone' : (s.cell c).asm.touchdown = none := hnone
      rw [if_neg hd, if_neg hz, closeNotices, hnone'] at htold
      exact sameNotices_settle s htold
    · rw [settle_asm, hasm]
      exact (congrArg (fun x => x.asm.touchdown) (hstay (.inr hz))).trans hidle
    · rw [if_neg hd, if_pos hz] at htold
      exact raised_settle s htold.raised
    · rw [settle_asm, hasm]
      exact (congrArg (fun x => x.asm.touchdown) (hstay (.inl hd))).trans hidle
    · rw [if_pos hd] at htold
      exact raised_settle s htold.raised

/-! ## UNIT (R49, R50) -/

/-- The report of a UNIT's fields, its site and attempt taken as in range (R45). -/
def UnitFields.report (u : UnitFields) : Report :=
  ⟨Fin.ofNat 16 u.site.toNat, u.key, u.wafer, u.x, u.y, u.bin, if u.attempt = 0 then .first else .retest⟩

/-- The checks of a UNIT in their order (R49). -/
theorem checkUnit_eq (td : Touchdown) (u : UnitFields) :
    checkUnit td u =
      if 15 < u.site.toNat ∨ td.declared.getLsbD u.site.toNat = false then .error .straySite
      else if td.heard.getLsbD u.site.toNat = true then .error .repeatSite
      else if 1 < u.attempt.toNat then .error .badKind
      else .ok u.report := by
  have hattempt : Attempt.ofByte u.attempt
      = if 1 < u.attempt.toNat then none else some (if u.attempt = 0 then .first else .retest) := by
    unfold Attempt.ofByte
    by_cases h0 : u.attempt = 0
    · simp [h0]
    · by_cases h1 : u.attempt = 1
      · simp [h1]
      · have hlt : 1 < u.attempt.toNat := by
          have h0' : u.attempt.toNat ≠ 0 := fun h => h0 (BitVec.eq_of_toNat_eq h)
          have h1' : u.attempt.toNat ≠ 1 := fun h => h1 (BitVec.eq_of_toNat_eq h)
          omega
        rw [if_neg h0, if_neg h1, if_pos hlt]
  unfold checkUnit
  split
  · rename_i hsite
    have hfin : (Fin.ofNat 16 u.site.toNat : Site) = ⟨u.site.toNat, hsite⟩ := Fin.ext (Nat.mod_eq_of_lt hsite)
    have hle : ¬15 < u.site.toNat := by omega
    rw [hattempt]
    cases hd : td.declared.getLsbD u.site.toNat with
    | false => simp [hasSite, hd]
    | true =>
      cases hh : td.heard.getLsbD u.site.toNat with
      | true => simp [hasSite, hd, hh, hle]
      | false =>
        by_cases ha : 1 < u.attempt.toNat
        · simp [hasSite, hd, hh, hle, ha]
        · rw [UnitFields.report, hfin]
          simp [hasSite, hd, hh, hle, ha]
  · rename_i hsite
    rw [if_pos (.inl (by omega))]

/-- The assembler after a UNIT that passes the checks (R50). -/
theorem storeReport_asm (now : Time) (td : Touchdown) (r : Report) (cs : CellState) :
    (cs.storeReport now td r).asm =
      if cs.asm.slots < 64 then { cs.asm with
        touchdown := some { td with reports := insertReport r td.reports, heard := td.heard ||| siteBit r.site }
        silence := some (Time.plus now cs.asm.timeout) }
      else { cs.asm with touchdown := some { td with heard := td.heard ||| siteBit r.site, lost := td.lost + 1 } } := by
  unfold CellState.storeReport
  split <;> rfl

/-- A UNIT leaves an assembler IDLE or OPEN, and its queue. -/
theorem takeUnit_open (now : Time) (u : UnitFields) (cs : CellState) :
    ((cs.takeUnit now u).asm.touchdown = none → cs.asm.touchdown = none)
      ∧ (cs.takeUnit now u).asm.queue = cs.asm.queue := by
  unfold CellState.takeUnit
  split
  · exact ⟨id, rfl⟩
  · split
    · exact ⟨id, rfl⟩
    · rw [storeReport_asm]
      split
      · exact ⟨fun h => (by cases h), rfl⟩
      · exact ⟨fun h => (by cases h), rfl⟩

/-- Settles O28: a unit joins the touchdown or is refused, and the message ends as every message does. -/
theorem unitTaken : Obligations.UnitTaken := by
  intro c site key wafer x y bin attempt s hcomp hs a
  obtain ⟨u, hu⟩ := Option.isSome_iff_exists.1 hcomp
  have hends := messageEnds hu
  obtain ⟨-, hrx, hdec, herr⟩ := hends.line
  let fields : UnitFields := ⟨site, key, wafer, x, y, bin, attempt⟩
  obtain ⟨hmet, -, -, -⟩ := met_frame (.unitMsg site key wafer x y bin attempt) (s.cell c)
  have hready : drainReady u = false := hends.onCell.drainReady_eq hs.1 fun h1 h2 => by
    rw [transmit_asm] at h1 h2
    split at h1
    · rename_i hon
      rw [if_pos hon] at h2
      obtain ⟨htd, hq⟩ := takeUnit_open s.clock fields ((s.cell c).met (.unitMsg site key wafer x y bin attempt))
      have h2' : (((s.cell c).met (.unitMsg site key wafer x y bin attempt)).takeUnit s.clock fields).asm.queue = [] := h2
      rw [hq, hmet] at h2'
      have h1' := htd h1
      rw [hmet] at h1'
      exact ⟨h1', h2'⟩
    · rename_i hon
      rw [if_neg hon, hmet] at h2
      rw [hmet] at h1
      exact ⟨h1, h2⟩
  refine answers_of_effect hu ⟨settle_rx_idle s hrx, settle_decoder_hunt s hdec, ?_,
    hends.onCell.keeps_settle_irq s hready hs.2.2, hends.onCell.keepsCells_settle s hready, ?_, fun hquar => ?_, fun hon => ?_⟩
  · rw [(settle_line s u c).2.1, herr]
  · rw [settle_guard, hends.guard]
  · obtain ⟨hasm, -, htells⟩ := hends.of_not_online (quarantined_ne_online hquar)
    exact ⟨by rw [settle_asm, hasm], sameNotices_settle s htells⟩
  · obtain ⟨hasm, -, htells⟩ := hends.of_online hon
    set cs := (s.cell c).met (.unitMsg site key wafer x y bin attempt)
    have htake : (u.cell c).asm = (cs.takeUnit s.clock fields).asm := hasm
    have htold : Tells (unitNotices fields c cs) s u := htells
    rw [settle_asm, htake]
    refine ⟨fun hnone => ?_, fun td htd => ?_⟩
    · have hnone' : cs.asm.touchdown = none := by rw [hmet]; exact hnone
      have hstay : cs.takeUnit s.clock fields = cs := by simp only [CellState.takeUnit, hnone']
      have hnotices : unitNotices fields c cs = [(.cell c, .messageRefused .noTouchdown site 0)] := by
        simp only [unitNotices, refusal, hnone', fields]
      rw [hnotices] at htold
      exact ⟨by rw [hstay, hmet], raised_settle s (Tells.raised (ds := []) htold)⟩
    · have htd' : cs.asm.touchdown = some td := by rw [hmet]; exact htd
      have hrefused : ∀ code, checkUnit td fields = .error code →
          (cs.takeUnit s.clock fields).asm = a ∧ Raised (.cell c) (.messageRefused code site td.number) s (settle s u) := by
        intro code hc
        have hstay : cs.takeUnit s.clock fields = cs := by simp only [CellState.takeUnit, htd', hc]
        have hnotices : unitNotices fields c cs = [(.cell c, .messageRefused code site td.number)] := by
          simp only [unitNotices, refusal, htd', hc, fields]
        rw [hnotices] at htold
        exact ⟨by rw [hstay, hmet], raised_settle s (Tells.raised (ds := []) htold)⟩
      have hcheck := checkUnit_eq td fields
      split
      · rename_i h
        rw [if_pos h] at hcheck
        exact hrefused _ hcheck
      · rename_i h
        rw [if_neg h] at hcheck
        split
        · rename_i h'
          rw [if_pos h'] at hcheck
          exact hrefused _ hcheck
        · rename_i h'
          rw [if_neg h'] at hcheck
          split
          · rename_i h''
            rw [if_pos h''] at hcheck
            exact hrefused _ hcheck
          · rename_i h''
            rw [if_neg h''] at hcheck
            intro n r
            have hstore : (cs.takeUnit s.clock fields).asm = (cs.storeReport s.clock td fields.report).asm := by
              simp only [CellState.takeUnit, htd', hcheck]
            have hnotices : unitNotices fields c cs = if a.slots < 64 then [] else [(.cell c, .touchdownLoss td.number 1)] := by
              simp only [unitNotices, htd', hcheck]
              rw [hmet]
            rw [hnotices] at htold
            rw [hstore, storeReport_asm, hmet]
            split
            · rename_i hslots
              rw [if_pos hslots] at htold
              refine ⟨rfl, ?_, sameNotices_settle s htold⟩
              have htd'' : (s.cell c).asm.touchdown = some td := htd
              rw [slots_of_open rfl, slots_of_open htd'']
              simp only [length_insertReport]
              omega
            · rename_i hslots
              rw [if_neg hslots] at htold
              exact ⟨rfl, raised_settle s (Tells.raised (ds := []) htold)⟩


/-! ## CLOSE (R51, R54, R55) -/

theorem siteBit_getLsbD (s q : Site) : (siteBit s).getLsbD q.val = (s == q) := by
  unfold siteBit
  rw [BitVec.getLsbD_twoPow]
  have hq := q.isLt
  by_cases h : s = q
  · subst h
    simp
  · have hv : s.val ≠ q.val := fun e => h (Fin.ext e)
    simp [h, hv]

theorem noSite_getLsbD (i : Nat) : (0 : Half).getLsbD i = false := BitVec.getLsbD_zero

/-- The site set of a report list. -/
theorem reportSites_getLsbD (rs : List Report) (q : Site) :
    (reportSites rs).getLsbD q.val = rs.any fun r => r.site == q := by
  have hfold : ∀ (rs : List Report) (m : Half),
      (rs.foldl (fun m r => m ||| siteBit r.site) m).getLsbD q.val = (m.getLsbD q.val || rs.any fun r => r.site == q) := by
    intro rs
    induction rs with
    | nil => simp
    | cons r rs ih =>
      intro m
      rw [List.foldl_cons, ih, BitVec.getLsbD_or, siteBit_getLsbD, List.any_cons, Bool.or_assoc]
  rw [reportSites, hfold, noSite_getLsbD, Bool.false_or]

/-- The missing set of a close: the declared sites without a report (R54). -/
theorem missing_getLsbD (td : Touchdown) (q : Site) :
    (td.declared &&& ~~~reportSites td.reports).getLsbD q.val
      = (td.declared.getLsbD q.val && !td.reports.any fun r => r.site == q) := by
  rw [BitVec.getLsbD_and, BitVec.getLsbD_not, reportSites_getLsbD, decide_eq_true q.isLt, Bool.true_and]

theorem ne_zero_iff_site (m : Half) : m ≠ 0 ↔ ∃ q : Site, m.getLsbD q.val = true := by
  constructor
  · intro h
    by_contra hc
    refine h (BitVec.eq_of_getLsbD_eq fun i hi => ?_)
    rw [noSite_getLsbD]
    by_contra hb
    exact hc ⟨⟨i, hi⟩, by simpa using hb⟩
  · rintro ⟨q, hq⟩ rfl
    rw [noSite_getLsbD] at hq
    cases hq

/-- A close is short where a site is missing, its kind is not NORMAL or the numbers differ (R54). -/
theorem short_iff (td : Touchdown) (kind : CloseKind) (now : Time) :
    (td.closed kind now).short = true
      ↔ (∃ q : Site, (td.declared.getLsbD q.val && !td.reports.any fun r => r.site == q) = true)
        ∨ kind ≠ .normal ∨ td.mismatch = true := by
  have hmissing := ne_zero_iff_site (td.declared &&& ~~~reportSites td.reports)
  simp only [missing_getLsbD] at hmissing
  rw [← hmissing]
  simp [Touchdown.short, Touchdown.closed, or_assoc]

/-- The occurrences of a close of an OPEN assembler (R54, R55). -/
theorem closeNotices_open {kind : CloseKind} {now : Time} {c : CellNo} {a : Assembler} {td : Touchdown}
    (h : a.touchdown = some td) :
    closeNotices kind now c a = (if (td.closed kind now).short then
        [(.cell c, .shortTouchdown td.number kind ((td.closed kind now).missing.getD 0) td.lost td.mismatch)] else [])
      ++ if td.reports ≠ [] ∧ 15 ≤ a.queue.length then [(.cell c, .touchdownLoss td.number td.reports.length)] else [] := by
  simp only [closeNotices, h, queueNotices, closed_reports]
  rfl

/-- What stands of the notices of a close alone (R54, R55). -/
theorem close_told {kind : CloseKind} {c : CellNo} {s t : State} {a : Assembler} {td : Touchdown}
    (h : Tells (closeNotices kind s.clock c a) s t) (htd : a.touchdown = some td) (before : State) :
    (td.reports ≠ [] ∧ 15 ≤ a.queue.length →
        Raised (.cell c) (.touchdownLoss td.number td.reports.length) s (settle before t))
      ∧ ((td.closed kind s.clock).short = true → Noted (.cell c)
        (.shortTouchdown td.number kind ((td.closed kind s.clock).missing.getD 0) td.lost td.mismatch) s (settle before t))
      ∧ (¬(td.reports ≠ [] ∧ 15 ≤ a.queue.length) →
        if (td.closed kind s.clock).short then Raised (.cell c)
          (.shortTouchdown td.number kind ((td.closed kind s.clock).missing.getD 0) td.lost td.mismatch) s (settle before t)
        else SameNotices s (settle before t)) := by
  have hdiff := closeNotices_nodup kind s.clock c a
  rw [closeNotices_open htd] at h hdiff
  refine ⟨fun hlost => ?_, fun hshort => ?_, fun hlost => ?_⟩
  · rw [if_pos hlost] at h
    exact raised_settle before h.raised
  · rw [if_pos hshort] at h hdiff
    exact noted_settle before (h.noted hdiff (List.mem_append_left _ List.mem_cons_self))
  · rw [if_neg hlost, List.append_nil] at h
    split
    · rename_i hshort
      rw [if_pos hshort] at h
      exact raised_settle before (Tells.raised (ds := []) h)
    · rename_i hshort
      rw [if_neg hshort] at h
      exact sameNotices_settle before h

/-- Settles O29: an ONLINE line with a touchdown closes it NORMAL; else nothing is taken. -/
theorem closeTaken : Obligations.CloseTaken := by
  refine ⟨fun td kind now => ⟨⟨_, rfl, missing_getLsbD td⟩, short_iff td kind now⟩, fun c number s hcomp => ?_⟩
  obtain ⟨u, hu⟩ := Option.isSome_iff_exists.1 hcomp
  have hends := messageEnds hu
  obtain ⟨-, hrx, hdec, herr⟩ := hends.line
  obtain ⟨hmet, hmetHolds, -, -⟩ := met_frame (.closeMsg number) (s.cell c)
  refine ⟨fun h => answers_of_effect hu ?_, fun td htd hon => answers_of_effect hu ?_⟩
  · rw [settle_asm, settle_holds, settle_guard, (settle_line s u c).2.1]
    suffices hrest : (u.cell c).asm = (s.cell c).asm ∧ (u.cell c).holds = (s.cell c).holds ∧ Tells [] s u from
      ⟨hrest.1, sameNotices_settle s hrest.2.2, herr, hrest.2.1, hends.guard⟩
    by_cases hon : (s.cell c).line.state = .online
    · obtain ⟨hasm, hholds, htells⟩ := hends.of_online hon
      have hidle : (s.cell c).asm.touchdown = none := h.resolve_left (fun hq => quarantined_ne_online hq hon)
      have hcompare : ((s.cell c).met (.closeMsg number)).asm.compareNumber number = (s.cell c).asm := by
        rw [hmet, Assembler.compareNumber, hidle, Option.map_none, ← hidle]
      have hstay : ((s.cell c).met (.closeMsg number)).takeMessage s.engine.state s.clock (.closeMsg number)
          = { (s.cell c).met (.closeMsg number) with asm := (s.cell c).asm } := by
        unfold CellState.takeMessage
        dsimp only
        rw [hcompare]
        exact (closeRecord_asm _ _ _).2.2.1 hidle
      have hnotices : messageNotices s.engine.state s.clock (.closeMsg number) c ((s.cell c).met (.closeMsg number)) = [] := by
        unfold messageNotices
        dsimp only
        rw [hcompare, closeNotices, hidle]
      rw [hstay] at hasm hholds
      rw [hnotices] at htells
      exact ⟨hasm, hholds.trans hmetHolds, htells⟩
    · exact hends.of_not_online hon
  · obtain ⟨hasm, -, htells⟩ := hends.of_online hon
    rw [settle_asm]
    set cs := (s.cell c).met (.closeMsg number)
    let met : CellState := { cs with asm := cs.asm.compareNumber number }
    let told : Touchdown := { td with mismatch := td.mismatch || number != td.number }
    have hopen : met.asm.touchdown = some told := by
      show (cs.asm.compareNumber number).touchdown = some told
      rw [hmet, Assembler.compareNumber, Option.mem_def.1 htd, Option.map_some]
    have hqueue : met.asm.queue = (s.cell c).asm.queue := by
      show cs.asm.queue = _
      rw [hmet]
    have hclose : (u.cell c).asm = (met.closeRecord .normal s.clock).asm := hasm
    obtain ⟨hidle, hsilence, -, hafter⟩ := closeRecord_asm .normal s.clock met
    have htold : Tells (closeNotices .normal s.clock c met.asm) s u := htells
    obtain ⟨hloss, hshort, hrest⟩ := close_told htold hopen s
    rw [hqueue] at hloss hrest
    rw [queueAfterClose, hopen, hqueue] at hafter
    rw [hclose]
    refine ⟨hidle, hsilence (by rw [hopen]; rfl), ?_⟩
    intro td' lost
    refine ⟨rfl, rfl, rfl, rfl, fun hne => ?_, fun hreports hlen => ?_, fun hlost => ?_, hloss, hshort, hrest⟩
    · show (td.mismatch || number != td.number) = true
      simp [hne]
    · rw [hafter]
      exact if_neg (not_or.2 ⟨hreports, Nat.not_le.2 hlen⟩)
    · rw [hafter]
      exact if_pos (hlost.imp_right And.right)

/-! ## HELLO and silence (R29, R40, R52, R53) -/

/-- Settles O30: HELLO closes the touchdown of an ONLINE line and forces a send; silence closes it TIMED_OUT. -/
theorem helloAndSilenceTaken : Obligations.HelloAndSilenceTaken := by
  intro c s a short lost
  refine ⟨fun hcomp => ?_, fun td htd hexp => ?_⟩
  · obtain ⟨u, hu⟩ := Option.isSome_iff_exists.1 hcomp
    have hends := messageEnds hu
    obtain ⟨hmet, -, -, hmetLine⟩ := met_frame .helloMsg (s.cell c)
    have hstate := active_state hends.active
    refine answers_of_effect hu ⟨?_, ?_⟩
    · rw [settle_asm]
      split
      · rename_i hon
        obtain ⟨hasm, -, htells⟩ := hends.of_online hon
        obtain ⟨hidle, -, -, hqueue⟩ := closeRecord_asm .cellRestart s.clock ((s.cell c).met .helloMsg)
        rw [hmet] at hqueue
        have htold : Tells (closeNotices .cellRestart s.clock c (s.cell c).asm ++ [(.cell c, .cellRestart)]) s u := by
          rw [← hmet]
          exact htells
        rw [hasm]
        exact ⟨hidle, hqueue, raised_settle s htold.raised,
          closeNoted_of_tells htold CloseKind.noConfusion (by simp) (by simp [Detail.kind]) s⟩
      · rename_i hon
        obtain ⟨hasm, -, htells⟩ := hends.of_not_online hon
        exact ⟨hasm, sameNotices_settle s htells⟩
    · obtain ⟨-, -, -, htx, hforced, hlast⟩ := settle_line s u c
      rw [htx, hforced, hlast, settle_holdContent, hends.onCell.engine_eq, hends.onCell.coll_eq, hends.onCell.cell,
        holdContent_transmit]
      have hline : (if (s.cell c).line.state = .online then
          ((s.cell c).met .helloMsg).takeMessage s.engine.state s.clock .helloMsg else (s.cell c).met .helloMsg).line
          = { (s.cell c).line with rx := .idle, decoder := .hunt, forced := true } := by
        split
        · exact (takeMessage_asmOnly _ _ _ _).line.trans hmetLine
        · exact hmetLine
      have hbegun := transmit_forced (eng := s.engine.state) (lots := s.coll.lots)
        (cs := if (s.cell c).line.state = .online then
          ((s.cell c).met .helloMsg).takeMessage s.engine.state s.clock .helloMsg else (s.cell c).met .helloMsg)
        (by rw [hline]) (by rw [hline]; exact hstate)
      rw [hline] at hbegun
      exact hbegun
  · have hopen : (s.cell c).asm.touchdown = some td := htd
    have heffect : effectOf (.silenceTimerExpiry c) s = some (refresh c (closeTouchdown .timedOut c s)) := by
      have hexp' : expired s.clock (s.cell c).asm.silence = true := hexp
      simp [effectOf, silenceExpires, hopen, hexp']
    obtain ⟨-, hcell⟩ := silenceExpires_inv heffect
    set u := refresh c (closeTouchdown .timedOut c s)
    obtain ⟨hidle, hsilence, -, hqueue⟩ := closeRecord_asm .timedOut s.clock (s.cell c)
    have hasm : (u.cell c).asm = ((s.cell c).closeRecord .timedOut s.clock).asm := by
      rw [hcell.cell]
      exact transmit_asm _ _ _
    obtain ⟨hloss, hshort, hrest⟩ := close_told hcell.tells hopen s
    have habnormal : (td.closed .timedOut s.clock).short = true := short_of_abnormal CloseKind.noConfusion td s.clock
    rw [if_pos habnormal] at hrest
    refine answers_of_effect heffect ⟨?_, ?_, ?_, hrest, fun hlost => ⟨hshort habnormal, hloss hlost⟩⟩
    · rw [settle_asm, hasm]
      exact hidle
    · rw [settle_asm, hasm]
      exact hsilence (by rw [hopen]; rfl)
    · rw [settle_asm, hasm]
      exact hqueue

end Sys2Proof.Machine
end

