-- ==== Sys2Proof/Proofs/Loads.lean ====
section
/-! SUPPORT and the statements about CONTROL writes with an action and the load (R171, R174, R175, R178, R180). -/

namespace Sys2Proof.Machine

/-! ## The action positions of a CONTROL write (R171) -/

theorem getLsbD_of_low {w a : Word} (h : w &&& 0x1F = a) {i : Nat} (hi : (0x1F : Word).getLsbD i = true) :
    w.getLsbD i = a.getLsbD i := by
  rw [← h, BitVec.getLsbD_and, hi, Bool.and_true]

/-- The action positions after a position is written 1. -/
theorem low_or {w v a : Word} (h : w &&& 0x1F = a) (hv : v &&& 0x1F = v) (ha : a ||| v = a) : (w ||| v) &&& 0x1F = a := by
  rw [BitVec.and_or_distrib_right, h, hv, ha]

/-- The action positions after some are cleared. -/
theorem low_without {w a : Word} (h : w &&& 0x1F = a) (v : Word) : (w &&& ~~~v) &&& 0x1F = a &&& ~~~v := by
  rw [BitVec.and_assoc, BitVec.and_comm (~~~v), ← BitVec.and_assoc, h]

theorem high_of_low {v : Word} (hv : v &&& 0x1F = v) :
    v.getLsbD 8 = false ∧ v.getLsbD 9 = false ∧ v.getLsbD 10 = false := by
  refine ⟨?_, ?_, ?_⟩ <;> rw [← hv, BitVec.getLsbD_and]
  · exact Bool.and_false _
  · exact Bool.and_false _
  · exact Bool.and_false _

/-- A CONTROL write performs the action and the NUDGE of its action positions, after its enables are stored (R171). -/
theorem controlWrite_low {w a : Word} (h : w &&& 0x1F = a) (h3 : a.getLsbD 3 = false) (s : State) :
    controlWrite w s = if a.getLsbD 4 then nudgeNotice (nudgeOrder (performAction a (storeEnables w s)))
      else performAction a (storeEnables w s) := by
  have hact : ∀ t, performAction w t = performAction a t := fun t => by
    unfold performAction
    rw [getLsbD_of_low h (i := 0) rfl, getLsbD_of_low h (i := 1) rfl, getLsbD_of_low h (i := 2) rfl]
  have h3' : w.getLsbD 3 = false := (getLsbD_of_low h rfl).trans h3
  cases h4 : a.getLsbD 4 with
  | false => rw [controlWrite_plain h3' ((getLsbD_of_low h rfl).trans h4), hact, if_neg Bool.false_ne_true]
  | true => rw [controlWrite_nudge h3' ((getLsbD_of_low h rfl).trans h4), hact, if_pos rfl]

/-- A CONTROL write whose row's position is among its action positions. -/
theorem controlWrite_row {w v a : Word} (h : w &&& 0x1F = a) (hv : v &&& 0x1F = v) (ha : a ||| v = a)
    (h3 : a.getLsbD 3 = false) (s : State) :
    controlWrite (w ||| v) s = if a.getLsbD 4 then nudgeNotice (nudgeOrder (performAction a (storeEnables w s)))
      else performAction a (storeEnables w s) := by
  rw [controlWrite_low (low_or h hv ha) h3, storeEnables_or (high_of_low hv)]

theorem effectOf_init {w : Word} (h : w &&& 0x1F = 0x01) (s : State) :
    effectOf (.init w) s = some (performInit (storeEnables w s)) := congrArg some (controlWrite_row h rfl rfl rfl s)

theorem effectOf_start {w : Word} (h : w &&& 0x1F = 0x02) (s : State) :
    effectOf (.start w) s = some (performStart (storeEnables w s)) := congrArg some (controlWrite_row h rfl rfl rfl s)

theorem effectOf_stop {w : Word} (h : w &&& 0x1F = 0x04) (s : State) :
    effectOf (.stop w) s = some (performStop (storeEnables w s)) := congrArg some (controlWrite_row h rfl rfl rfl s)

theorem effectOf_nudge {w : Word} (h : w &&& 0x1F = 0x10) (s : State) :
    effectOf (.nudge w) s = some (nudgeNotice (nudgeOrder (storeEnables w s))) :=
  congrArg some (controlWrite_row h rfl rfl rfl s)

/-- A CONTROL write that only stores its enables (R171). -/
theorem settle_storeEnables {s : State} (hs : Settled s) (before : State) (w : Word) :
    settle before (storeEnables w s) = s.withEngine (storedEnables w s.engine) :=
  settle_setEngine (e := storedEnables w s.engine) hs before rfl

/-! ## INIT (R174) -/

/-- Settles O12: INIT by the state of engine control and the alignment of the block. -/
theorem initBeginsLoad : Obligations.InitBeginsLoad := by
  intro w s hw hs
  have heffect := effectOf_init hw s
  refine ⟨fun hstate hal => ?_, fun hstate hal => ?_, fun hstate => ?_⟩
  · have hinit : performInit (storeEnables w s) = portRequest (readOf .setupRead s.engine.setupAddr 64)
        (s.setEngine { storedEnables w s.engine with state := .loading, loaded := false, loadError := .none }) := by
      unfold performInit
      exact (if_pos hstate).trans (if_pos (beq_iff_eq.2 hal))
    rw [hinit] at heffect
    set u := portRequest (readOf .setupRead s.engine.setupAddr 64) _ with hu
    have hready : drainReady u = false := drainReady_of_not_draining EngineState.noConfusion
    refine answers_of_effect heffect ⟨?_, requested_settle s (.inr (portRequest_waiting _ _)), settle_irq s u, ?_⟩
    · rw [settle_engine_of_running s hready]
      rfl
    · exact keeps_settle s (by simp [Keeps, hu, State.setEngine]) hready (by simp) (fun h => absurd (by simp) h)
  · have hinit : performInit (storeEnables w s) = s.setEngine { storedEnables w s.engine with
        state := .halted, loaded := false, loadError := .setupMisaligned, loadDone := true } := by
      unfold performInit
      exact (if_pos hstate).trans (if_neg fun h => hal (beq_iff_eq.1 h))
    rw [exec_of_effect heffect, hinit, settle_setEngine hs s hstate.symm]
  · have hinit : performInit (storeEnables w s) = storeEnables w s := if_neg hstate
    rw [exec_of_effect heffect, hinit, settle_storeEnables hs]

/-! ## The setup block (R157, R167, R175, R186) -/

/-- The checks of R175 as pairs of what is wrong and its code, in order. -/
def setupChecks (bs : List Byte) : List (Bool × LoadError) :=
  [(field bs 0x00 2 != 64, .badBlockLength), (!goodSlotCount (setupOf bs).slots, .badSlotCount),
    ((setupOf bs).interval == 0 || 1000 < (setupOf bs).interval, .badInterval),
    ((setupOf bs).chainHead == 0 || !aligned (setupOf bs).chainHead 8, .badChainHead),
    (!aligned (setupOf bs).listAddr 32, .badListAddress), (!aligned (setupOf bs).consumedAddr 4, .badConsumedAddress),
    (!aligned (setupOf bs).statusAddr 8, .badStatusAddress)]

/-- The value of the first check that is true, or a default. -/
def firstTrue {α : Type} (default : α) : List (Bool × α) → α
  | [] => default
  | (b, a) :: rest => if b then a else firstTrue default rest

theorem firstTrue_eq {α : Type} (default : α) (l : List (Bool × α)) :
    (∀ i : Fin l.length, (∀ j : Fin l.length, j < i → l[j].1 = false) → l[i].1 = true → firstTrue default l = l[i].2)
      ∧ ((∀ i : Fin l.length, l[i].1 = false) → firstTrue default l = default) := by
  induction l with
  | nil => exact ⟨fun i => i.elim0, fun _ => rfl⟩
  | cons x rest ih =>
    obtain ⟨b, a⟩ := x
    obtain ⟨ih1, ih2⟩ := ih
    refine ⟨fun i hbefore hi => ?_, fun hall => ?_⟩
    · cases i using Fin.cases with
      | zero => exact if_pos hi
      | succ i =>
        have hb : b = false := hbefore 0 (Fin.succ_pos i)
        refine (if_neg (by simp [hb])).trans (ih1 i (fun j hj => ?_) hi)
        exact hbefore j.succ (Fin.succ_lt_succ_iff.2 hj)
    · have hb : b = false := hall 0
      exact (if_neg (by simp [hb])).trans (ih2 fun i => hall i.succ)

theorem setupError_eq (bs : List Byte) : setupError bs = firstTrue .none (setupChecks bs) := by
  simp only [setupError, setupChecks, firstTrue, bne_iff_ne, Bool.or_eq_true, beq_iff_eq, decide_eq_true_eq]

theorem goodSlotCount_iff (n : Nat) : goodSlotCount n = true ↔ ∃ k, 4 ≤ k ∧ k ≤ 12 ∧ n = 2 ^ k := by
  constructor
  · intro h
    simp only [goodSlotCount, List.contains_iff_mem, List.mem_cons, List.not_mem_nil, or_false] at h
    rcases h with rfl | rfl | rfl | rfl | rfl | rfl | rfl | rfl | rfl
    · exact ⟨4, by omega, by omega, rfl⟩
    · exact ⟨5, by omega, by omega, rfl⟩
    · exact ⟨6, by omega, by omega, rfl⟩
    · exact ⟨7, by omega, by omega, rfl⟩
    · exact ⟨8, by omega, by omega, rfl⟩
    · exact ⟨9, by omega, by omega, rfl⟩
    · exact ⟨10, by omega, by omega, rfl⟩
    · exact ⟨11, by omega, by omega, rfl⟩
    · exact ⟨12, by omega, by omega, rfl⟩
  · rintro ⟨k, h4, h12, rfl⟩
    interval_cases k <;> rfl

theorem field_eight_lt (bs : List Byte) (off : Nat) : field bs off 8 < 2 ^ 64 := by
  have h := leNat_lt ((bs.drop off).take 8)
  have hlen : ((bs.drop off).take 8).length ≤ 8 := List.length_take_le _ _
  have hpow : 256 ^ ((bs.drop off).take 8).length ≤ 256 ^ 8 := Nat.pow_le_pow_right (by omega) hlen
  unfold field
  omega

/-- An address field holds its value. -/
theorem toNat_addressField (bs : List Byte) (off : Nat) : (BitVec.ofNat 64 (field bs off 8)).toNat = field bs off 8 := by
  rw [BitVec.toNat_ofNat, Nat.mod_eq_of_lt (field_eight_lt bs off)]

theorem aligned_addressField (bs : List Byte) (off n : Nat) :
    aligned (BitVec.ofNat 64 (field bs off 8)) n = true ↔ field bs off 8 % n = 0 := by
  rw [aligned, toNat_addressField, beq_iff_eq]

theorem addressField_eq_zero (bs : List Byte) (off : Nat) :
    (BitVec.ofNat 64 (field bs off 8) : Addr) = 0 ↔ field bs off 8 = 0 := by
  rw [← BitVec.toNat_inj, toNat_addressField]
  exact Iff.rfl

/-- Settles O14: each check is one of the list, in its order. -/
theorem setupChecksInOrder : Obligations.SetupChecksInOrder := by
  intro bs n head bad
  have hiff : ∀ i : Fin 7, bad[i].1 ↔ ((setupChecks bs)[i]).1 = true := by
    intro i
    have h0 : field bs 0x00 2 ≠ 64 ↔ (field bs 0x00 2 != 64) = true := bne_iff_ne.symm
    have h1 : (¬∃ k, 4 ≤ k ∧ k ≤ 12 ∧ n = 2 ^ k) ↔ (!goodSlotCount (setupOf bs).slots) = true := by
      rw [Bool.not_eq_true', ← Bool.not_eq_true]
      exact not_congr (goodSlotCount_iff _).symm
    have h2 : (field bs 0x04 2 < 1 ∨ 1000 < field bs 0x04 2)
        ↔ ((setupOf bs).interval == 0 || 1000 < (setupOf bs).interval) = true := by
      rw [Bool.or_eq_true, beq_iff_eq, decide_eq_true_iff, Nat.lt_one_iff]
      exact Iff.rfl
    have h3 : (head = 0 ∨ head % 8 ≠ 0) ↔ ((setupOf bs).chainHead == 0 || !aligned (setupOf bs).chainHead 8) = true := by
      rw [Bool.or_eq_true, beq_iff_eq, Bool.not_eq_true', ← Bool.not_eq_true]
      exact or_congr (addressField_eq_zero bs 8).symm (not_congr (aligned_addressField bs 8 8).symm)
    have haddr : ∀ off m, field bs off 8 % m ≠ 0 ↔ (!aligned (BitVec.ofNat 64 (field bs off 8)) m) = true := fun off m => by
      rw [Bool.not_eq_true', ← Bool.not_eq_true]
      exact not_congr (aligned_addressField bs off m).symm
    match i with
    | 0 => exact h0
    | 1 => exact h1
    | 2 => exact h2
    | 3 => exact h3
    | 4 => exact haddr 0x10 32
    | 5 => exact haddr 0x18 4
    | 6 => exact haddr 0x20 8
  have hcode : ∀ i : Fin 7, bad[i].2 = ((setupChecks bs)[i]).2 := by
    intro i
    match i with
    | 0 | 1 | 2 | 3 | 4 | 5 | 6 => rfl
  obtain ⟨hfirst, hnone⟩ := firstTrue_eq LoadError.none (setupChecks bs)
  rw [setupError_eq]
  refine ⟨fun i hbefore hi => ?_, fun hall => ?_⟩
  · rw [hcode i]
    exact hfirst i (fun j hj => Bool.eq_false_of_not_eq_true (mt (hiff j).2 (hbefore j hj))) ((hiff i).1 hi)
  · exact hnone fun i => Bool.eq_false_of_not_eq_true (mt (hiff i).2 (hall i))

/-- What a successful load makes of the notice unit's counts (R167). -/
theorem loadNotice_counts (n : NoticeUnit) : (loadNotice n).table = n.table ∧ (loadNotice n).written = 0
    ∧ (loadNotice n).consumed = 0 ∧ (loadNotice n).countOwed = true := by
  unfold loadNotice
  split <;> exact ⟨rfl, rfl, rfl, rfl⟩

/-- Settles O13: the block is judged, and a judged block leaves the engine HALTED. -/
theorem setupBlockJudged : Obligations.SetupBlockJudged := by
  intro data s hstate hout
  have heffect : effectOf (.setupReadDone data) s = some (judgeSetup data (portFree s)) := by
    show setupRead data s = _
    unfold setupRead
    rw [returned_of hout]
    exact congrArg some (if_pos hstate)
  refine ⟨fun hok => ?_, fun hbad => ?_⟩
  · rw [judgeSetup, if_pos hok] at heffect
    set u := finishLoad (setupOf data) (portFree s) with hu
    have hready : drainReady u = false := drainReady_of_not_draining EngineState.noConfusion
    have hnotice : (settle s u).notice = loadNotice s.notice := settle_notice_of_running s hready
    refine answers_of_effect heffect ?_
    rw [hnotice, settle_order, settle_engine_of_running s hready]
    obtain ⟨htable, hwritten, hconsumed, howed⟩ := loadNotice_counts s.notice
    refine ⟨rfl, rfl, rfl, rfl, rfl, ?_, htable, hwritten, hconsumed, howed, fun hphase hpost => ?_, fun hphase => ?_, ?_, ?_⟩
    · show (s.order.service.map fun v => { v with stale := true }).map (·.record) = _
      rw [Option.map_map]
      rfl
    · obtain ⟨p, hp⟩ := Option.isSome_iff_exists.1 hpost
      unfold loadNotice
      rw [hphase, hp]
      exact ⟨rfl, rfl⟩
    · unfold loadNotice
      split
      · exact absurd ‹_› hphase
      · exact ⟨rfl, rfl⟩
    · rw [settle_irq, settle_engine_of_running s hready]
    · exact keeps_settle s (by simp [Keeps, hu, finishLoad]) hready (by simp) (fun h => absurd (by simp) h)
  · rw [judgeSetup, if_neg hbad] at heffect
    set u := failLoad (setupError data) (portFree s) with hu
    have hready : drainReady u = false := drainReady_of_not_draining EngineState.noConfusion
    refine answers_of_effect heffect ⟨?_, settle_irq s u, ?_⟩
    · rw [settle_engine_of_running s hready]
      rfl
    · exact keeps_settle s (by simp [Keeps, hu, failLoad, State.setEngine]) hready (by simp) (fun h => absurd (by simp) h)

/-! ## Faults of the setup read (R175, R178, R180) -/

/-- The outstanding transaction, by its purpose. -/
theorem outstanding_of_purpose {p : Purpose} {s : State} (h : OutstandingFor p s) :
    ∃ tr, s.port.outstanding = some tr ∧ tr.purpose = p := by
  obtain ⟨tr, htr, hp⟩ := Option.map_eq_some_iff.1 h
  exact ⟨tr, htr, hp⟩

/-- The effect of a fault of the outstanding transaction: an error, or the end of the wait (R180). -/
theorem effectOf_fault {i : Instr} {k : FaultKind} {tr : Transaction} {s : State} (ho : s.port.outstanding = some tr)
    (hi : i = .transactionErrorResponse ∧ k = .errorResponse
      ∨ i = .responseTimerExpiry ∧ k = .timeout ∧ expired s.clock s.port.timer = true) :
    effectOf i s = some (transactionFaults tr k s) := by
  rcases hi with ⟨rfl, rfl⟩ | ⟨rfl, rfl, hexp⟩
  · simp only [effectOf, errorResponse, ho, Option.map_some]
  · simp only [effectOf, responseExpires, hexp, if_true, ho, Option.map_some]

/-- A fault of the setup read in LOADING fails the load (R175). -/
theorem setupRead_faults {i : Instr} {k : FaultKind} {s : State} (hstate : s.engine.state = .loading)
    (ho : OutstandingFor .setupRead s) (hi : i = .transactionErrorResponse ∧ k = .errorResponse
      ∨ i = .responseTimerExpiry ∧ k = .timeout ∧ expired s.clock s.port.timer = true) :
    Answers i s fun t =>
      t.engine = { s.engine with state := .halted, loaded := false, loadError := k.loadError, loadDone := true }
      ∧ Keeps [.engine, .irq, .port] s t := by
  obtain ⟨tr, htr, hp⟩ := outstanding_of_purpose ho
  have heffect := effectOf_fault htr hi
  have hfail : transactionFaults tr k s = failLoad k.loadError (portFree s) := by
    unfold transactionFaults
    rw [hstate]
    exact if_pos hp
  rw [hfail] at heffect
  have hready : drainReady (failLoad k.loadError (portFree s)) = false :=
    drainReady_of_not_draining EngineState.noConfusion
  refine answers_of_effect heffect ⟨?_, ?_⟩
  · rw [settle_engine_of_running s hready]
    rfl
  · exact keeps_settle s (by simp [Keeps, failLoad, State.setEngine]) hready (by simp) (fun h => absurd (by simp) h)

/-- The effect of any end of a setup read that a STOP abandoned: the port is free (R178). -/
theorem effectOf_abandoned {i : Instr} {s : State} (ho : Outstanding .abandonedSetupRead 64 s)
    (hstate : s.engine.state = .halted ∨ s.engine.state = .loading)
    (hi : i = .lateResponse .abandonedSetupRead ∨ i = .transactionErrorResponse
      ∨ (i = .responseTimerExpiry ∧ expired s.clock s.port.timer = true)) : effectOf i s = some (portFree s) := by
  obtain ⟨tr, htr, hp⟩ := Option.map_eq_some_iff.1 ho
  have hpurpose : tr.purpose = .abandonedSetupRead := congrArg Prod.fst hp
  have hfree : ∀ k, transactionFaults tr k s = portFree s := fun k => by
    unfold transactionFaults
    rcases hstate with h | h <;> rw [h]
    dsimp only
    rw [if_neg (by rw [hpurpose]; exact Purpose.noConfusion)]
  rcases hi with rfl | rfl | ⟨rfl, hexp⟩
  · exact returned_of ho
  · rw [effectOf_fault htr (.inl ⟨rfl, rfl⟩), hfree]
  · rw [effectOf_fault htr (.inr ⟨rfl, rfl, hexp⟩), hfree]

/-- Settles O15: a fault fails the load, and the abandoned read frees the port alone. -/
theorem setupReadFaults : Obligations.SetupReadFaults := by
  intro s
  refine ⟨fun hstate ho => setupRead_faults hstate ho (.inl ⟨rfl, rfl⟩),
    fun hstate ho hexp => setupRead_faults hstate ho (.inr ⟨rfl, rfl, hexp⟩), fun i ho hstate hi hirq => ?_⟩
  have heffect := effectOf_abandoned ho hstate hi
  have hready : drainReady (portFree s) = false := drainReady_of_not_draining (by
    show s.engine.state ≠ .draining
    rcases hstate with h | h <;> rw [h] <;> exact EngineState.noConfusion)
  refine answers_of_effect heffect ⟨?_, ?_, fun tr htr hreq => ?_⟩
  · exact keeps_settle s (by simp [Keeps]) hready (by simp) fun _ => hirq.symm
  · show (portGrant s (judgeDrain (portFree s))).port.outstanding ∈ _
    rw [judgeDrain_of_not_ready hready]
    obtain he | ⟨q, tr, rs, n, -, hq, he⟩ := portGrant_cases s (portFree s) <;> rw [he]
    · exact List.mem_cons_self
    · show some tr ∈ _
      rw [← hq]
      cases q <;> simp [Waiting.get]
  · refine requested_settle s (.inr ?_)
    rw [hreq]
    exact htr

end Sys2Proof.Machine
end

