-- ==== Sys2Proof/Proofs/StopsAndFaults.lean ====
section
/-! SUPPORT and the statements about STOP and memory faults (R20, R25, R54, R60, R86, R112, R155, R156, R166, R177, R178,
R180, R181). -/

namespace Sys2Proof.Machine

/-! ## The drain as an event ends (R177) -/

theorem nothingToDrain_congr {s t : State} (hasm : ∀ c, (t.cell c).asm = (s.cell c).asm) (hcoll : t.coll = s.coll)
    (hscan : t.scanner = s.scanner) (hserv : t.order.service = s.order.service) (hport : t.port = s.port) :
    NothingToDrain t ↔ NothingToDrain s := by
  simp only [NothingToDrain, hasm, hcoll, hscan, hserv, portBusy, hport]

/-- Judging the drain twice is judging it once. -/
theorem settle_judgeDrain (before s : State) : settle before (judgeDrain s) = settle before s := by
  rw [settle, settle, judgeDrain_of_not_ready (drainReady_judgeDrain s)]

/-- Engine control when an event has ended: HALTED where a drain has completed. -/
theorem settle_engine (before s : State) :
    (settle before s).engine = if drainReady s then { s.engine with state := .halted } else s.engine := by
  obtain ⟨p, rs, n, he⟩ := settle_frame before s
  rw [he]
  obtain ⟨h, hj⟩ | ⟨h, -, hj⟩ := judgeDrain_cases s <;> rw [hj, h]
  · rfl
  · rfl

theorem sameNotices_settle_of_eq {s t : State} (before : State) (h : t.notice = s.notice) :
    SameNotices s (settle before t) := by
  obtain ⟨r, hr⟩ := settle_notice before t
  rw [SameNotices, hr, h]
  exact ⟨rfl, rfl, rfl, rfl, rfl, rfl⟩

/-- A line in service under an engine that does not run holds ENGINE (R112). -/
theorem engineReason_settle {s : State} (before : State) {c : CellNo} (hrun : s.engine.state ≠ .running)
    (hon : (s.cell c).line.state ≠ .offline) : engineReason c (settle before s) = true := by
  rw [engineReason, settle_reasonByte, (reasonByte_bits _ _ _).2.2.2.1]
  simp [hon, hrun]

/-! ## STOP in RUNNING and LOADING (R155, R177, R178) -/

/-- The part as a STOP in RUNNING leaves it, its drain not yet judged. -/
theorem beginDrain_eq (s : State) : ∃ u, beginDrain s = judgeDrain u
    ∧ u.engine = { s.engine with state := .draining } ∧ u.order = { s.order with pollTimer := none }
    ∧ u.notice = s.notice ∧ u.port = s.port ∧ u.coll = s.coll ∧ u.scanner = s.scanner ∧ u.clock = s.clock
    ∧ u.pending = s.pending ∧ ∀ c, u.cell c = transmit .draining s.coll.lots (s.cell c) :=
  ⟨_, rfl, rfl, rfl, rfl, rfl, rfl, rfl, rfl, rfl, fun c => cell_refreshAll _ c⟩

theorem drainReady_begun {s u : State} (he : u.engine.state = .draining)
    (ho : u.order.service = s.order.service) (hp : u.port = s.port) (hc : u.coll = s.coll) (hsc : u.scanner = s.scanner)
    (hcell : ∀ c, (u.cell c).asm = (s.cell c).asm) : drainReady u = true ↔ NothingToDrain s := by
  rw [drainReady_iff, nothingToDrain_congr hcell hc hsc ho hp]
  exact and_iff_right he

/-- Settles O17: STOP in RUNNING by `beginDrain`, in LOADING by `abandonLoad`, and else ignored. -/
theorem stopByEngineState : Obligations.StopByEngineState := by
  intro w s hw
  have heffect := effectOf_stop hw s
  refine ⟨fun hstate => ?_, fun hstate => ?_, fun hstate hs => ?_⟩
  · have hstop : performStop (storeEnables w s) = beginDrain (storeEnables w s) := by
      unfold performStop
      rw [show (storeEnables w s).engine.state = .running from hstate]
    obtain ⟨u, hu, he, ho, hn, hp, hc, hsc, hcl, hpe, hcell⟩ := beginDrain_eq (storeEnables w s)
    rw [hstop, hu] at heffect
    have hasm : ∀ c, (u.cell c).asm = (s.cell c).asm := fun c => by
      rw [hcell, transmit_asm]
      rfl
    have hready := drainReady_begun (s := s) (u := u) (by rw [he]) (by rw [ho]; rfl) hp hc hsc hasm
    refine answers_of_effect heffect ?_
    rw [settle_judgeDrain]
    refine ⟨?_, settle_irq s u, (settle_order s u).trans ho, sameNotices_settle_of_eq s hn, (settle_coll s u).trans hc,
      (settle_scanner s u).trans hsc, (settle_clock s u).trans hcl, (settle_pending s u).trans hpe,
      fun c => ⟨?_, ?_, ?_, ?_, fun hon => ?_⟩⟩
    · rw [settle_engine, he]
      by_cases hnone : NothingToDrain s
      · rw [if_pos (hready.2 hnone), if_pos hnone]
        rfl
      · rw [if_neg (mt hready.1 hnone), if_neg hnone]
        rfl
    · rw [settle_asm, hasm]
    · rw [settle_holds, hcell, transmit_holds]
      rfl
    · rw [settle_guard, hcell, transmit_guard]
      rfl
    · rw [settle_line_state, hcell, transmit_state]
      rfl
    · refine engineReason_settle s (by rw [he]; exact EngineState.noConfusion) ?_
      rw [hcell, transmit_state]
      exact hon
  · have hstop : performStop (storeEnables w s) = abandonLoad (storeEnables w s) := by
      unfold performStop
      rw [show (storeEnables w s).engine.state = .loading from hstate]
    rw [hstop] at heffect
    set u := abandonLoad (storeEnables w s) with hu
    have hready : drainReady u = false := drainReady_of_not_draining EngineState.noConfusion
    have hport : (settle s u).port = (portGrant s u).port := by
      rw [settle, judgeDrain_of_not_ready hready]
      rfl
    refine answers_of_effect heffect ⟨?_, settle_irq s u, ?_, ?_, fun hout => ?_⟩
    · rw [settle_engine_of_running s hready]
      rfl
    · exact keeps_settle s (by simp [Keeps, hu, abandonLoad, failLoad, State.setEngine, storeEnables]) hready (by simp)
        (fun h => absurd (by simp) h)
    · have hwait : u.port.waiting.get .orderUnit = none := rfl
      rw [hport]
      obtain he | ⟨q, tr, rs, n, -, -, he⟩ := portGrant_cases s u <;> rw [he]
      · exact hwait
      · show (u.port.waiting.put q none).get .orderUnit = none
        cases hg : (u.port.waiting.put q none).get .orderUnit with
        | none => rfl
        | some x =>
          rw [waiting_put_none hg] at hwait
          cases hwait
    · have hout' : u.port.outstanding = s.port.outstanding.map fun tr =>
          if tr.purpose = .setupRead then { tr with purpose := .abandonedSetupRead } else tr := rfl
      rw [hport, portGrant_of_rest s u fun hn => absurd (Option.map_eq_none_iff.1 (hout' ▸ hn)) hout]
      exact hout'
  · have hstop : performStop (storeEnables w s) = storeEnables w s := by
      unfold performStop
      rcases hstate with h | h <;> rw [show (storeEnables w s).engine.state = _ from h]
    rw [exec_of_effect heffect, hstop, settle_storeEnables hs]

/-! ## STOP in FAULTED (R25, R54, R60, R181) -/

/-- Occurrences that meet a unit under way, or one that may not issue, change its table alone (R162, R165). -/
theorem foldl_raised_of_busy {runs : Bool} {slots : Nat} {now : Time} (ds : List Occurrence) {n : NoticeUnit}
    (h : n.Busy runs) : ∃ table, ds.foldl (NoticeUnit.raised runs slots now) n = { n with table := table } := by
  induction ds generalizing n with
  | nil => exact ⟨n.table, rfl⟩
  | cons x ds ih =>
    obtain ⟨table, ht⟩ := ih (n := n.raised runs slots now x) (busy_raised _ _ _ _ _)
    rw [List.foldl_cons, ht, raised_of_busy h]
    exact ⟨table, rfl⟩

theorem Tells.table {ds : List Occurrence} {s t : State} (h : Tells ds s t) (hb : s.notice.Busy (noticeRuns s)) :
    ∃ table, t.notice = { s.notice with table := table } := by
  obtain ⟨table, ht⟩ := foldl_raised_of_busy (slots := s.loadedSetup.slots) (now := s.clock) ds hb
  exact ⟨table, h.notice.trans ht⟩

/-- The occurrences of a close on every cell have different keys: each names its cell. -/
theorem nodup_closeNotices_cells (kind : CloseKind) (now : Time) (a : CellNo → Assembler) :
    ((allCells.flatMap fun c => closeNotices kind now c (a c)).map Occurrence.key).Nodup := by
  rw [List.map_flatMap, List.nodup_flatMap]
  refine ⟨fun c _ => closeNotices_nodup kind now c (a c), (List.nodup_finRange 24).imp fun {c d} hne => ?_⟩
  show List.Disjoint _ _
  intro k hc hd
  obtain ⟨x, hx, rfl⟩ := List.mem_map.1 hc
  obtain ⟨y, hy, he⟩ := List.mem_map.1 hd
  have hsubject : y.1 = x.1 := congrArg NoticeKey.subject he
  rw [(closeNotices_kinds hx).1, (closeNotices_kinds hy).1] at hsubject
  exact hne (Subject.cell.inj hsubject).symm

/-- A noted occurrence is read off the clock before and the notice unit after alone. -/
theorem noted_congr {subject : Subject} {d : Detail} {s u t v : State} (h : u.clock = s.clock) (hn : v.notice = t.notice)
    (hnoted : Noted subject d u t) : Noted subject d s v := by
  rw [Noted, ← h, hn]
  exact hnoted

/-- The part as a STOP in FAULTED halts it, before the touchdowns are closed (R181). -/
theorem recover_eq (s : State) : ∃ u, recover s = refreshAll (stopTouchdowns u)
    ∧ u.engine = { s.engine with state := .halted, fault := false } ∧ u.notice = { s.notice with retry := none }
    ∧ Keeps [.engine, .notice, .cells] s u
    ∧ ∀ c, u.cell c = { s.cell c with line := (s.cell c).line.stopReceiver } :=
  ⟨_, rfl, rfl, rfl, by simp [Keeps, enterHalted, setEngineState, State.setEngine], fun c => cell_enterHalted _ c⟩

/-- The part after a STOP in FAULTED: every open touchdown closed, every receiver stopped (R25, R60, R181). -/
theorem recover_spec (s : State) :
    (recover s).engine = { s.engine with state := .halted, fault := false }
      ∧ Keeps [.engine, .notice, .cells, .port] s (recover s)
      ∧ (∃ table, (recover s).notice = { s.notice with retry := none, table := table })
      ∧ (∀ x ∈ allCells.flatMap fun c => closeNotices .stopped s.clock c (s.cell c).asm, Noted x.1 x.2 s (recover s))
      ∧ ∀ c, (recover s).cell c = transmit .halted s.coll.lots
        (({ s.cell c with line := (s.cell c).line.stopReceiver } : CellState).closeRecord .stopped s.clock) := by
  obtain ⟨u, hu, hengine, hnotice, hkeeps, hcell⟩ := recover_eq s
  have hclose := onCells_stopTouchdowns u
  have hframe := hkeeps.mono (m := [.engine, .notice, .cells, .port]) (by simp)
  obtain ⟨-, -, hclock, -, -, -, hcoll, -, -, -⟩ := hkeeps
  have htells := hclose.tells
  simp only [hcell, hclock (by simp)] at htells
  have hbusy : u.notice.Busy (noticeRuns u) := fun h => by
    simp [noticeRuns, hengine] at h
  obtain ⟨table, htable⟩ := htells.table hbusy
  rw [hu]
  refine ⟨?_, ?_, ⟨table, ?_⟩, fun x hx => ?_, fun c => ?_⟩
  · rw [refreshAll_engine, hclose.engine_eq, hengine]
  · exact hframe.trans ((hclose.keeps.mono (by simp)).trans (by simp [Keeps, refreshAll, State.mapCells]))
  · rw [refreshAll_notice, htable, hnotice]
  · obtain ⟨subject, d⟩ := x
    have hdiff : ((allCells.flatMap fun c => closeNotices .stopped s.clock c (s.cell c).asm).map Occurrence.key).Nodup :=
      nodup_closeNotices_cells .stopped s.clock _
    exact noted_congr (hclock (by simp)) (refreshAll_notice _) (htells.noted hdiff hx)
  · rw [cell_refreshAll, hclose.engine_eq, hclose.coll_eq, hclose.cell, if_pos (show c ∈ allCells from List.mem_finRange c), hcell, hengine,
      hcoll (by simp), hclock (by simp)]

/-- Settles O18: the recovery closes every touchdown, by `recover_spec`. -/
theorem stopInFaultedRecovers : Obligations.StopInFaultedRecovers := by
  intro w s hw hstate hasm
  have heffect := effectOf_stop hw s
  have hstop : performStop (storeEnables w s) = recover (storeEnables w s) := by
    unfold performStop
    rw [show (storeEnables w s).engine.state = .faulted from hstate]
  rw [hstop] at heffect
  obtain ⟨hengine, hkeeps, ⟨table, htable⟩, hnoted, hucell⟩ := recover_spec (storeEnables w s)
  generalize recover (storeEnables w s) = u at heffect hengine hkeeps htable hnoted hucell
  have hready : drainReady u = false := drainReady_of_not_draining (by rw [hengine]; exact EngineState.noConfusion)
  have hnotice : (settle s u).notice = { s.notice with retry := none, table := table } :=
    (settle_notice_of_running s hready).trans htable
  obtain ⟨-, -, hclock, -, horder, -, hcoll, hscan, -, hpending⟩ := hkeeps
  refine answers_of_effect heffect ⟨?_, settle_irq s u, ?_, ?_, ?_, ?_, ?_, ?_, ?_, ?_, ?_, fun c => ?_⟩
  · exact (settle_engine_of_running s hready).trans hengine
  · exact (settle_order s u).trans (horder (by simp))
  · exact (settle_coll s u).trans (hcoll (by simp))
  · exact (settle_scanner s u).trans (hscan (by simp))
  · exact (settle_clock s u).trans (hclock (by simp))
  · exact (settle_pending s u).trans hpending
  · rw [hnotice]
  · rw [hnotice]
  · rw [hnotice]
  · rw [hnotice]
  · obtain ⟨hidle, hsilence, hsame, hqueue⟩ := closeRecord_asm .stopped s.clock
      { s.cell c with line := (s.cell c).line.stopReceiver }
    obtain ⟨hline, -, -, -, -⟩ := closeRecord_asmOnly .stopped s.clock
      { s.cell c with line := (s.cell c).line.stopReceiver }
    have hcell : u.cell c = transmit .halted s.coll.lots
        (({ s.cell c with line := (s.cell c).line.stopReceiver } : CellState).closeRecord .stopped s.clock) := hucell c
    obtain ⟨hst, hrx, hdec, -, -, hwin, -⟩ := transmit_receiver .halted s.coll.lots
      (({ s.cell c with line := (s.cell c).line.stopReceiver } : CellState).closeRecord .stopped s.clock)
    rw [← hcell, hline] at hst hrx hdec hwin
    have hasm' : (u.cell c).asm = (({ s.cell c with line := (s.cell c).line.stopReceiver } : CellState).closeRecord
        .stopped s.clock).asm := by rw [hcell, transmit_asm]
    have hstay : (settle s u).cell c = u.cell c := settle_cell_of_running s hready c
    rw [hstay, hasm']
    refine ⟨hidle, ?_, hqueue, fun td htd => ?_, hrx, hdec, hwin, hst⟩
    · cases htd : (s.cell c).asm.touchdown with
      | none =>
        rw [hsame htd]
        have hopen : (s.cell c).asm.touchdown.isSome = (s.cell c).asm.silence.isSome := (hasm c).2.2.1
        rw [htd] at hopen
        simpa using hopen.symm
      | some td => exact hsilence (by simp [htd])
    · have hmem : ∀ x ∈ closeNotices .stopped s.clock c (s.cell c).asm, ∀ subject d, x = (subject, d) →
          Noted subject d s (settle s u) := by
        rintro x hx subject d rfl
        exact noted_settle s (hnoted _ (List.mem_flatMap.2 ⟨c, List.mem_finRange c, hx⟩))
      have hopen : (s.cell c).asm.touchdown = some td := htd
      rw [closeNotices_open hopen, if_pos (short_of_abnormal CloseKind.noConfusion td s.clock)] at hmem
      refine ⟨hmem _ (List.mem_append_left _ List.mem_cons_self) _ _ rfl, fun hlost => hmem _ ?_ _ _ rfl⟩
      rw [if_pos hlost]
      exact List.mem_append_right _ List.mem_cons_self

/-! ## Memory faults (R180, R181) -/

/-- The collation unit in FAULTED: a scan abandoned, a snapshot ended (R20, R86). -/
theorem enterFaulted_coll (r : Requester) (k : FaultKind) (s : State) :
    (enterFaulted r k s).coll.requests = s.coll.requests ++ (s.scanner.map fun sc => Request.scanAbandoned sc.key).toList
      ∧ (enterFaulted r k s).coll.lots = s.coll.lots ∧ (enterFaulted r k s).coll.plans = s.coll.plans
      ∧ (enterFaulted r k s).coll.inProgress = s.coll.inProgress := by
  refine ⟨?_, rfl, rfl, rfl⟩
  cases h : s.scanner <;> simp [enterFaulted, h]

/-- Settles O20: no request waits in FAULTED, so nothing is granted. -/
theorem memoryFaultEntersFaulted : Obligations.MemoryFaultEntersFaulted := by
  intro i k tr s hstate ho hp hi
  have heffect := effectOf_fault ho hi
  have hfault : transactionFaults tr k s = enterFaulted tr.purpose.requester k (portFree s) := by
    unfold transactionFaults
    rcases hstate with h | h <;> rw [h] <;> exact if_neg hp
  rw [hfault] at heffect
  set u := enterFaulted tr.purpose.requester k (portFree s) with hu
  have hend : settle s u = { u with irq := u.engine.interrupt } :=
    settle_of_rest s u (drainReady_of_not_draining EngineState.noConfusion) fun _ => rfl
  have hcell : ∀ c, (settle s u).cell c = transmit .faulted s.coll.lots (s.cell c) := fun c => by
    rw [hend]
    exact cell_refreshAll _ c
  obtain ⟨hreq, hlots, hplans, hprogress⟩ := enterFaulted_coll tr.purpose.requester k (portFree s)
  have hcoll : (settle s u).coll = u.coll := settle_coll s u
  refine answers_of_effect heffect ⟨?_, settle_irq s u, ?_, ?_, ?_, ?_, ?_, ?_, ?_, ?_, ?_, ?_, ?_, ?_, ?_, ?_, ?_, fun c => ?_⟩
  · rw [hend]; rfl
  · rw [hend]; rfl
  · rw [hend]; rfl
  · rw [hend]; rfl
  · rw [hend]; rfl
  · rw [hend]; rfl
  · rw [hend]; rfl
  · exact (congrArg Collation.requests hcoll).trans hreq
  · refine (congrArg Collation.work hcoll).trans ?_
    cases hw : s.coll.work with
    | none => simp [hu, enterFaulted, hw]
    | some work => cases work <;> simp [hu, enterFaulted, hw]
  · exact (congrArg Collation.lots hcoll).trans hlots
  · exact (congrArg Collation.plans hcoll).trans hplans
  · exact (congrArg Collation.inProgress hcoll).trans hprogress
  · rw [hend]; rfl
  · rw [hend]; exact ⟨rfl, rfl, rfl, rfl, rfl, rfl⟩
  · rw [hend]; rfl
  · rw [hend]; rfl
  · obtain ⟨hst, hrx, hdec, -, -, -, -⟩ := transmit_receiver .faulted s.coll.lots (s.cell c)
    rw [hcell, transmit_asm, transmit_holds, transmit_guard]
    refine ⟨rfl, rfl, rfl, hst, hrx, hdec, fun hon => ?_⟩
    refine engineReason_settle s EngineState.noConfusion ?_
    rw [show u.cell c = transmit .faulted s.coll.lots (s.cell c) from cell_refreshAll _ c, transmit_state]
    exact hon

end Sys2Proof.Machine
end

