-- ==== Sys2Proof/Proofs/RecordFrames.lean ====
section
/-! SUPPORT. What the application of a record's reports leaves alone (R67 to R83): engine control, the order unit, the
scanner, the receivers of the lines and the other requesters' requests. -/

namespace Sys2Proof.Machine

/-- The collation unit has moved its own items, cells' holds, guards and queues, notices, its own request and the
notice unit's; nothing else. -/
structure Applies (s t : State) : Prop where
  keeps : Keeps [.port, .cells, .coll, .notice] s t
  outstanding : t.port.outstanding = s.port.outstanding
  waiting : ∀ r, r ≠ .noticeUnit → r ≠ .collation → t.port.waiting.get r = s.port.waiting.get r
  heard : ∀ d, Heard (s.cell d).line (t.cell d).line
  told : ∃ ds, Tells ds s t
  coll : t.coll.requests = s.coll.requests ∧ t.coll.plans = s.coll.plans ∧ t.coll.pointer = s.coll.pointer
  work : t.coll.work = s.coll.work ∨ t.coll.work = none

namespace Applies

variable {s t u : State}

theorem refl (s : State) : Applies s s :=
  ⟨Keeps.refl _ _, rfl, fun _ _ _ => rfl, fun _ => Heard.refl _, ⟨[], Tells.refl s⟩, ⟨rfl, rfl, rfl⟩, .inl rfl⟩

theorem trans (h : Applies s t) (k : Applies t u) : Applies s u where
  keeps := h.keeps.trans k.keeps
  outstanding := k.outstanding.trans h.outstanding
  waiting r hr hr' := (k.waiting r hr hr').trans (h.waiting r hr hr')
  heard d := (h.heard d).trans (k.heard d)
  told := by
    obtain ⟨ds, hd⟩ := h.told
    obtain ⟨es, he⟩ := k.told
    exact ⟨ds ++ es, hd.trans he⟩
  coll := ⟨k.coll.1.trans h.coll.1, k.coll.2.1.trans h.coll.2.1, k.coll.2.2.trans h.coll.2.2⟩
  work := by
    rcases k.work with hk | hk
    · rw [hk]
      exact h.work
    · exact .inr hk

theorem engine_eq (h : Applies s t) : t.engine = s.engine := h.keeps.1 (by simp)
theorem irq_eq (h : Applies s t) : t.irq = s.irq := h.keeps.2.1 (by simp)
theorem clock_eq (h : Applies s t) : t.clock = s.clock := h.keeps.2.2.1 (by simp)
theorem order_eq (h : Applies s t) : t.order = s.order := h.keeps.2.2.2.2.1 (by simp)
theorem scanner_eq (h : Applies s t) : t.scanner = s.scanner := h.keeps.2.2.2.2.2.2.2.1 (by simp)
theorem pending_eq (h : Applies s t) : t.pending = s.pending := h.keeps.2.2.2.2.2.2.2.2.2

/-- A change of one cell that its receiver does not feel. -/
theorem of_onCell {c : CellNo} {f : CellState → CellState} {ds : List Occurrence} (h : OnCell c f ds s t)
    (hf : Heard (s.cell c).line (f (s.cell c)).line) : Applies s t where
  keeps := h.keeps.mono (by simp)
  outstanding := h.outstanding
  waiting r hr _ := h.waiting r hr
  heard d := by
    by_cases hd : d = c
    · subst hd
      rw [h.cell]
      exact hf
    · rw [h.others d hd]
      exact Heard.refl _
  told := ⟨ds, h.tells⟩
  coll := by
    rw [h.coll_eq]
    exact ⟨rfl, rfl, rfl⟩
  work := .inl (by rw [h.coll_eq])

theorem of_raise (subject : Subject) (d : Detail) (s : State) : Applies s (raise subject d s) :=
  of_onCell (c := 0) (f := id) (onCell_raise 0 subject d s) (Heard.refl _)

/-- A change of the collation unit's own items. -/
theorem of_coll (s : State) {k : Collation} (hk : k.requests = s.coll.requests ∧ k.plans = s.coll.plans
      ∧ k.pointer = s.coll.pointer) (hw : k.work = s.coll.work ∨ k.work = none) : Applies s { s with coll := k } :=
  ⟨by simp [Keeps], rfl, fun _ _ _ => rfl, fun _ => Heard.refl _, ⟨[], Tells.of_eq rfl rfl rfl⟩, hk, hw⟩

theorem of_modLot (key : Word) (f : Lot → Lot) (s : State) : Applies s (modLot key f s) :=
  of_coll s ⟨rfl, rfl, rfl⟩ (.inl rfl)

theorem of_setProgress (p : Option ReportStage) (s : State) : Applies s (setProgress p s) :=
  of_coll s ⟨rfl, rfl, rfl⟩ (.inl rfl)

theorem of_request (tr : Transaction) (s : State) (h : tr.purpose.requester = .collation) : Applies s (portRequest tr s) where
  keeps := by simp [Keeps]
  outstanding := rfl
  waiting r _ hr := by
    unfold portRequest
    dsimp only
    rw [waiting_put_get_ne]
    rw [h]
    exact hr
  heard _ := Heard.refl _
  told := ⟨[], Tells.of_eq rfl rfl rfl⟩
  coll := ⟨rfl, rfl, rfl⟩
  work := .inl rfl

theorem of_settles {key : Word} {b : Bool} {ds : List Occurrence} (h : Settles key b ds s t) : Applies s t where
  keeps := h.frame.1
  outstanding := h.frame.2.2.1
  waiting r hr _ := h.frame.2.2.2 r hr
  heard := h.heard
  told := ⟨ds, h.tells⟩
  coll := by
    rw [h.coll]
    split <;> exact ⟨rfl, rfl, rfl⟩
  work := .inl (by
    rw [h.coll]
    split <;> rfl)

end Applies

/-! ## The steps of a report's end (R83) -/

theorem applies_completeWafer (key : Word) (n : Nat) (s : State) : Applies s (completeWafer key n s) := by
  unfold completeWafer
  split
  · exact Applies.refl s
  · split
    · exact (Applies.of_modLot _ _ _).trans (Applies.of_raise _ _ _)
    · exact Applies.refl s

theorem applies_finishTallies (r : Report) (e : Ending) (s : State) : Applies s (finishTallies r e s) := by
  unfold finishTallies
  split
  · exact Applies.refl s
  · exact Applies.of_modLot _ _ _
  · extract_lets s1
    have h1 : Applies s s1 := Applies.of_modLot _ _ _
    split
    · exact h1.trans (applies_completeWafer _ _ _)
    · exact h1

/-- The occurrence of a report's own notice, if it has one (R83, step 3). -/
def ownNotice (c : CellNo) (t : RecordId) (r : Report) : Ending → List Occurrence
  | .unknownLot => [(.cell c, .reportRefused .unknownLot r t.number t.stamp none)]
  | .refused code fault _ => [(.cell c, .reportRefused code r t.number t.stamp fault)]
  | .written _ .overLimit => [(.cell c, .reportRefused .overLimit r t.number t.stamp none)]
  | .written was .duplicate =>
    [(.lot r.key r.wafer.toNat, .duplicateDie r.key c r.site t.number t.stamp r.x r.y r.bin (cellBin was))]
  | .written _ _ => []

/-- A report's own notice is one of its cell alone (R83, step 3). -/
theorem onCell_finishNotice (c : CellNo) (t : RecordId) (r : Report) (e : Ending) (s : State) :
    OnCell c id (ownNotice c t r e) s (finishNotice c t r e s) := by
  cases e with
  | unknownLot => exact onCell_raise c _ _ s
  | refused code fault outcome => exact onCell_raise c _ _ s
  | written was case =>
    cases case with
    | overLimit => exact onCell_raise c _ _ s
    | duplicate => exact onCell_raise c _ _ s
    | firstResult => exact OnCell.rfl_id c s
    | stands => exact OnCell.rfl_id c s
    | changed => exact OnCell.rfl_id c s

/-- A cell that takes a report's lot as its current lot, unless the report names none (R80). -/
def CellState.takeLot (key : Word) (e : Ending) (cs : CellState) : CellState :=
  if e = .unknownLot then cs else { cs with holds := { cs.holds with currentLot := some key } }

theorem finishCurrentLot_of_known (c : CellNo) (r : Report) {e : Ending} (s : State) (he : e ≠ .unknownLot) :
    finishCurrentLot c r e s = refresh c (s.modCell c (CellState.takeLot r.key e)) := by
  have htake : CellState.takeLot r.key e = fun cs => { cs with holds := { cs.holds with currentLot := some r.key } } :=
    funext fun _ => if_neg he
  rw [htake]
  cases e with
  | unknownLot => exact absurd rfl he
  | refused => rfl
  | written => rfl

theorem onCell_finishCurrentLot (c : CellNo) (r : Report) (e : Ending) (s : State) :
    OnCell c (fun cs => if e = .unknownLot then cs
      else transmit s.engine.state s.coll.lots (cs.takeLot r.key e)) [] s (finishCurrentLot c r e s) := by
  by_cases he : e = .unknownLot
  · subst he
    exact (OnCell.rfl_id c s).congr rfl rfl
  · rw [finishCurrentLot_of_known c r s he]
    refine (onCell_modCell c (CellState.takeLot r.key e) s).refreshed.congr ?_ rfl
    simp only [if_neg he, Function.comp_apply]

theorem line_takeLot (key : Word) (e : Ending) (cs : CellState) : (cs.takeLot key e).line = cs.line := by
  unfold CellState.takeLot
  split <;> rfl

theorem applies_finishCurrentLot (c : CellNo) (r : Report) (e : Ending) (s : State) :
    Applies s (finishCurrentLot c r e s) := by
  by_cases he : e = .unknownLot
  · subst he
    exact Applies.refl s
  · refine Applies.of_onCell (onCell_finishCurrentLot c r e s) ?_
    rw [if_neg he]
    have h := heard_transmit s.engine.state s.coll.lots ((s.cell c).takeLot r.key e)
    rwa [line_takeLot] at h

theorem applies_takeHandOff (c : CellNo) (before : Guard) (s : State) : Applies s (takeHandOff c before s) :=
  Applies.of_onCell (onCell_modCell c _ s) (by rw [(handOffFrom_frame _ _).2]; exact Heard.refl _)

theorem applies_guardTaken (c : CellNo) (r : Report) (e : Ending) (s : State) : Applies s (guardTaken c r e s) := by
  unfold guardTaken finishGuard
  split
  · exact Applies.refl s
  · exact Applies.of_onCell (onCell_modCell c _ s) (by rw [(takeOutcome_frame _ _ _).2.1]; exact Heard.refl _)

theorem applies_finishHolds (c : CellNo) (r : Report) (e : Ending) (s : State) : Applies s (finishHolds c r e s) := by
  obtain ⟨u, early, late, ds, h1, h2, -⟩ := finishHolds_inv c r e s
  exact (((applies_guardTaken c r e s).trans (Applies.of_settles h1)).trans (applies_takeHandOff _ _ _)).trans
    (Applies.of_settles h2)

theorem applies_advanceMark (c : CellNo) (s : State) : Applies s (advanceMark c s) := by
  rw [advanceMark_eq]
  exact Applies.of_onCell (onCell_modAsm c _ s) (Heard.refl _)

/-- The report's own part of its end: the tallies, its own notice and the cell's current lot (R83, steps 1 to 4). -/
def ownPart (c : CellNo) (t : RecordId) (r : Report) (e : Ending) (s : State) : State :=
  finishCurrentLot c r e (finishNotice c t r e (finishTallies r e s))

theorem finishReport_eq (c : CellNo) (t : RecordId) (r : Report) (e : Ending) (s : State) :
    finishReport c t r e s = advanceMark c (setProgress none (finishHolds c r e (ownPart c t r e s))) := rfl

theorem applies_ownPart (c : CellNo) (t : RecordId) (r : Report) (e : Ending) (s : State) :
    Applies s (ownPart c t r e s) := by
  have h1 := applies_finishTallies r e s
  have h2 : Applies (finishTallies r e s) (finishNotice c t r e (finishTallies r e s)) :=
    Applies.of_onCell (onCell_finishNotice c t r e _) (Heard.refl _)
  exact (h1.trans h2).trans (applies_finishCurrentLot c r e _)

theorem applies_finishReport (c : CellNo) (t : RecordId) (r : Report) (e : Ending) (s : State) :
    Applies s (finishReport c t r e s) := by
  rw [finishReport_eq]
  have h := applies_ownPart c t r e s
  generalize ownPart c t r e s = u at h ⊢
  have h2 := h.trans (applies_finishHolds c r e u)
  generalize finishHolds c r e u = v at h2 ⊢
  exact (h2.trans (Applies.of_setProgress none v)).trans (applies_advanceMark c _)

/-! ## The way through a record (R67) -/

/-- A cell whose head record has left its queue (R56, R67). -/
def CellState.dropHead (cs : CellState) : CellState := judgeBuffer { cs with asm := { cs.asm with queue := cs.asm.queue.tail } }

theorem line_dropHead (cs : CellState) : cs.dropHead.line = cs.line := by
  unfold CellState.dropHead
  exact judgeBuffer_line _

theorem onCell_dropHead (c : CellNo) (s : State) :
    OnCell c (fun cs => transmit s.engine.state s.coll.lots cs.dropHead) [] s (refresh c (s.modCell c CellState.dropHead)) :=
  (onCell_modCell c CellState.dropHead s).refreshed

theorem finishRecord_eq (c : CellNo) (s : State) :
    finishRecord c s = setWork none (refresh c (s.modCell c CellState.dropHead)) := rfl

theorem applies_finishRecord (c : CellNo) (s : State) : Applies s (finishRecord c s) := by
  rw [finishRecord_eq]
  have hdrop : Applies s (refresh c (s.modCell c CellState.dropHead)) := by
    refine Applies.of_onCell (onCell_dropHead c s) ?_
    have h := heard_transmit s.engine.state s.coll.lots (s.cell c).dropHead
    rwa [line_dropHead] at h
  generalize refresh c (s.modCell c CellState.dropHead) = u at hdrop ⊢
  exact hdrop.trans (Applies.of_coll _ ⟨rfl, rfl, rfl⟩ (.inr rfl))

theorem applies_beginReports (c : CellNo) (t : RecordId) (rs : List Report) (s : State) :
    Applies s (beginReports c t rs s) := by
  induction rs generalizing s with
  | nil => exact applies_finishRecord c s
  | cons r rs ih =>
    unfold beginReports
    split
    · exact (applies_finishReport c t r _ s).trans (ih _)
    · exact (Applies.of_setProgress _ s).trans (Applies.of_request _ _ rfl)

theorem applies_continueRecord (c : CellNo) (s : State) : Applies s (continueRecord c s) := by
  unfold continueRecord
  split
  · exact Applies.of_coll s ⟨rfl, rfl, rfl⟩ (.inr rfl)
  · exact applies_beginReports _ _ _ _

/-! ## Lookup and the identity checks (R69, R70) -/

/-- A lot that is the same to the identity checks. -/
structure SameDies (l m : Lot) : Prop where
  key : m.key = l.key
  plan : m.plan = l.plan
  grid : m.columns = l.columns ∧ m.rows = l.rows
  wafers : m.wafers.map (fun w => (w.number, w.map)) = l.wafers.map fun w => (w.number, w.map)

theorem SameDies.refl (l : Lot) : SameDies l l := ⟨rfl, rfl, ⟨rfl, rfl⟩, rfl⟩

theorem SameDies.trans {l m n : Lot} (h : SameDies l m) (k : SameDies m n) : SameDies l n :=
  ⟨k.key.trans h.key, k.plan.trans h.plan, ⟨k.grid.1.trans h.grid.1, k.grid.2.trans h.grid.2⟩, k.wafers.trans h.wafers⟩

/-- The map of a wafer is that of the first entry of its number. -/
theorem wafer_map (l : Lot) (n : Nat) :
    (l.wafer n).map (·.map) = ((l.wafers.map fun w => (w.number, w.map)).find? fun x => x.1 == n).map (·.2) := by
  unfold Lot.wafer
  induction l.wafers with
  | nil => rfl
  | cons w ws ih =>
    rw [List.map_cons, List.find?_cons, List.find?_cons]
    split
    · rename_i h
      simp only [h, if_true, Option.map_some]
    · rename_i h
      simp only [h]
      exact ih

/-- The address that the identity checks give a report in a lot. -/
def Lot.dieAddr (coll : Collation) (l : Lot) (r : Report) : Except Ending Addr :=
  match (l.wafer r.wafer.toNat).map (·.map) with
  | none => .error (.refused .unknownWafer none none)
  | some a =>
    if l.columns ≤ r.x.toNat ∨ l.rows ≤ r.y.toNat then .error (.refused .badCoord none none)
    else if (coll.plan l.plan).info r.bin = none then .error (.refused .binUndefined none none)
    else .ok (mapAddr a l.columns r.x.toNat r.y.toNat)

theorem identify_eq (r : Report) (s : State) :
    identify r s = match findLot s.coll.lots r.key with
      | none => .error .unknownLot
      | some l => l.dieAddr s.coll r := by
  unfold identify
  cases findLot s.coll.lots r.key with
  | none => rfl
  | some l =>
    unfold Lot.dieAddr
    dsimp only
    cases l.wafer r.wafer.toNat <;> rfl

theorem dieAddr_congr {k k' : Collation} (hplans : k'.plans = k.plans) {l m : Lot} (h : SameDies l m) (r : Report) :
    m.dieAddr k' r = l.dieAddr k r := by
  unfold Lot.dieAddr Collation.plan
  rw [wafer_map, wafer_map, h.wafers, h.grid.1, h.grid.2, h.plan, hplans]

/-- The identity checks of a report stand while its lot's dies and the plans do. -/
theorem identify_congr {s t : State} (hplans : t.coll.plans = s.coll.plans) (r : Report)
    (hlot : ∀ l, findLot s.coll.lots r.key = some l → ∃ m, findLot t.coll.lots r.key = some m ∧ SameDies l m)
    {a : Addr} (h : identify r s = .ok a) : identify r t = .ok a := by
  rw [identify_eq] at h ⊢
  cases hl : findLot s.coll.lots r.key with
  | none =>
    rw [hl] at h
    cases h
  | some l =>
    rw [hl] at h
    obtain ⟨m, hm, hsame⟩ := hlot l hl
    rw [hm]
    exact (dieAddr_congr hplans hsame r).trans h

end Sys2Proof.Machine
end

