-- ==== Sys2Proof/Proofs/GuardFractions.lean ====
section
/-! SUPPORT. The fraction checks and what they latch (O33), and the rotation of the cells (O34). -/

namespace Sys2Proof.Machine

/-! ## Fractions (R93) -/

theorem othersOf_eq (enabled : Half) (s : Site) :
    othersOf enabled s = allSites.filter fun o => enabled.getLsbD o.val && o != s := by
  unfold othersOf sitesOf
  rw [List.filter_filter]
  refine List.filter_congr fun o _ => ?_
  rw [Bool.and_comm]
  by_cases h : o = s <;> simp [h]

/-- A fraction of no more fails than outcomes is at most 1024. -/
theorem fraction_le {f n : Nat} (h : f ≤ n) : fraction f n ≤ 1024 :=
  Nat.div_le_of_le_mul (Nat.mul_le_mul_right 1024 h)

/-- D + f_o < f_s is the signed difference above D (R96). -/
theorem add_lt_iff_lt_sub (d o f : Nat) : d + o < f ↔ (d : Int) < (f : Int) - (o : Int) := by omega

theorem limitCheck_iff (g : Guard) (s : Site) : g.limitCheck s = true ↔ g.m ≤ (g.site s).window.length
    ∧ g.l < fraction (g.site s).failCount (g.site s).window.length := by
  rw [Guard.limitCheck, Bool.and_eq_true, decide_eq_true_iff, decide_eq_true_iff]
  exact Iff.rfl

theorem spreadCheck_iff (g : Guard) (enabled : Half) (s : Site) : g.spreadCheck enabled s = true ↔
    g.m ≤ (g.site s).window.length ∧ g.m ≤ g.filled (othersOf enabled s)
      ∧ (g.d : Int) < (g.siteFraction s : Int) - (g.othersFraction enabled s : Int) := by
  rw [← add_lt_iff_lt_sub, Guard.spreadCheck, Bool.and_eq_true, Bool.and_eq_true, decide_eq_true_iff,
    decide_eq_true_iff, decide_eq_true_iff, and_assoc]

theorem cellCheck_iff (g : Guard) (enabled : Half) : g.cellCheck enabled = true ↔
    g.mc ≤ g.filled (sitesOf enabled) ∧ g.lc < g.cellFraction enabled := by
  rw [Guard.cellCheck, Bool.and_eq_true, decide_eq_true_iff, decide_eq_true_iff]

/-- Settles O33: each check by its own equivalence; a fraction is at most 1024, so a limit of 1024 is never passed. -/
theorem fractionChecksAndLatches : Obligations.FractionChecksAndLatches := by
  intro g enabled s
  rw [← othersOf_eq]
  refine ⟨limitCheck_iff g s, spreadCheck_iff g enabled s, cellCheck_iff g enabled, fun hf hl => ?_, fun hf hd => ?_,
    fun hf hl => ?_, rfl, ?_, ?_, fun o ho => site_latch_ne g enabled ho, trips_kinds g enabled s⟩
  · refine Bool.eq_false_of_not_eq_true fun h => ?_
    have hlt := ((limitCheck_iff g s).1 h).2
    have := fraction_le hf
    omega
  · refine Bool.eq_false_of_not_eq_true fun h => ?_
    have hlt := ((spreadCheck_iff g enabled s).1 h).2.2
    have : g.siteFraction s ≤ 1024 := fraction_le hf
    omega
  · refine Bool.eq_false_of_not_eq_true fun h => ?_
    have hlt := ((cellCheck_iff g enabled).1 h).2
    have : g.cellFraction enabled ≤ 1024 := fraction_le hf
    omega
  · rw [site_latch]
  · rw [site_latch]

/-! ## The rotation (R65) -/

/-- How far a cell stands behind the pointer's successor in the rotation. -/
def distanceFrom (pointer d : CellNo) : Nat := (d.val + 23 - pointer.val) % 24

theorem mem_rotation (pointer c : CellNo) : c ∈ rotation pointer := by
  unfold rotation
  rw [List.mem_append, List.mem_filter, List.mem_filter, decide_eq_true_iff, decide_eq_true_iff]
  rcases lt_or_ge pointer c with h | h
  · exact .inl ⟨List.mem_finRange c, h⟩
  · exact .inr ⟨List.mem_finRange c, h⟩

/-- The rotation is in the order of the distance. -/
theorem rotation_sorted (pointer : CellNo) :
    (rotation pointer).Pairwise fun a b => distanceFrom pointer a < distanceFrom pointer b := by
  have hsorted : allCells.Pairwise (· < ·) := List.pairwise_lt_finRange 24
  unfold rotation
  refine List.pairwise_append.2 ⟨?_, ?_, fun a ha b hb => ?_⟩
  · refine (hsorted.filter _).imp_of_mem fun {a b} ha hb hab => ?_
    have h1 : pointer.val < a.val := of_decide_eq_true (List.mem_filter.1 ha).2
    have h2 : pointer.val < b.val := of_decide_eq_true (List.mem_filter.1 hb).2
    have h3 : a.val < b.val := hab
    unfold distanceFrom
    omega
  · refine (hsorted.filter _).imp_of_mem fun {a b} ha hb hab => ?_
    have h1 : a.val ≤ pointer.val := of_decide_eq_true (List.mem_filter.1 ha).2
    have h2 : b.val ≤ pointer.val := of_decide_eq_true (List.mem_filter.1 hb).2
    have h3 : a.val < b.val := hab
    unfold distanceFrom
    omega
  · have h1 : pointer.val < a.val := of_decide_eq_true (List.mem_filter.1 ha).2
    have h2 : b.val ≤ pointer.val := of_decide_eq_true (List.mem_filter.1 hb).2
    unfold distanceFrom
    omega

/-- In a list in the order of a measure, the first element that satisfies p is the one of least measure. -/
theorem find?_eq_some_iff_least {α : Type} {m : α → Nat} {p : α → Bool} {xs : List α} (c : α)
    (hsorted : xs.Pairwise fun a b => m a < m b) (hall : ∀ a, a ∈ xs) :
    xs.find? p = some c ↔ p c = true ∧ ∀ d, m d < m c → ¬p d = true := by
  rw [List.find?_eq_some_iff_append]
  refine and_congr_right fun _ => ⟨?_, fun hleast => ?_⟩
  · rintro ⟨as, bs, rfl, has⟩ d hd
    obtain ⟨-, hbs, -⟩ := List.pairwise_append.1 hsorted
    rcases List.mem_append.1 (hall d) with hmem | hmem
    · simpa using has d hmem
    · rcases List.mem_cons.1 hmem with rfl | hmem
      · exact absurd hd (lt_irrefl _)
      · have := (List.pairwise_cons.1 hbs).1 d hmem
        omega
  · obtain ⟨as, bs, rfl⟩ := List.append_of_mem (hall c)
    refine ⟨as, bs, rfl, fun a ha => ?_⟩
    have hlt := (List.pairwise_append.1 hsorted).2.2 a ha c (List.mem_cons_self ..)
    simpa using hleast a hlt

/-- A cell is a candidate where its head record is eligible: no report still to apply names an OPENING lot (R65). -/
theorem eligible_iff (lots : List Lot) (t : Touchdown) : eligible lots t = true ↔
    ∀ r ∈ t.reports.drop t.mark, ∀ l, findLot lots r.key = some l → l.state ≠ .opening := by
  unfold eligible
  rw [List.all_eq_true]
  refine forall₂_congr fun r _ => ?_
  cases findLot lots r.key with
  | none => simp
  | some l => simp

/-- Settles O34: the rotation is in the order of the distance, so the first eligible cell in it is the nearest. -/
theorem nextCellInRotation : Obligations.NextCellInRotation := by
  intro c s
  have hcand : ∀ d : CellNo, (headRecord d s).any (eligible s.coll.lots) = true ↔
      ∃ td, (s.cell d).asm.queue.head? = some td
        ∧ ∀ r ∈ td.reports.drop td.mark, ∀ l, findLot s.coll.lots r.key = some l → l.state ≠ .opening := by
    intro d
    unfold headRecord
    cases (s.cell d).asm.queue.head? with
    | none => simp
    | some td => simp [eligible_iff]
  refine (find?_eq_some_iff_least c (rotation_sorted s.coll.pointer) (mem_rotation s.coll.pointer)).trans ?_
  exact and_congr (hcand c) (forall₂_congr fun d _ => not_congr (hcand d))

end Sys2Proof.Machine
end

