-- ==== Sys2Proof/Proofs/MapCells.lean ====
section
/-! SUPPORT. The fields of a map cell, its fault kind, and the content a report gives it (O36). -/

namespace Sys2Proof.Machine

/-! ## The fields of a map cell (R3) -/

theorem cellBin_toNat (w : Half) : (cellBin w).toNat = w.toNat % 256 := by
  simp [cellBin]

theorem cellAttempts_eq (w : Half) : cellAttempts w = w.toNat / 256 % 16 := by
  simp [cellAttempts, Nat.shiftRight_eq_div_pow]

theorem cellBin_eq (w : Half) : cellBin w = BitVec.ofNat 8 (w.toNat % 256) :=
  BitVec.eq_of_toNat_eq (by rw [cellBin_toNat]; simp)

/-- The mask of the flags, bits 12 to 15. -/
theorem getLsbD_flagMask (i : Nat) : (0xF000 : Half).getLsbD i = (decide (12 ≤ i) && decide (i < 16)) := by
  by_cases h : i < 16
  · have : ∀ i : Fin 16, (0xF000 : Half).getLsbD i.val = (decide (12 ≤ i.val) && decide (i.val < 16)) := by decide
    exact this ⟨i, h⟩
  · rw [BitVec.getLsbD_of_ge _ _ (by omega)]
    simp [h]

theorem getLsbD_mapCell (bin : Byte) (n : Nat) (flags : Half) {i : Nat} (hi : i < 16) : (mapCell bin n flags).getLsbD i =
    if i < 8 then bin.getLsbD i else if i < 12 then n.testBit (i - 8) else flags.getLsbD i := by
  have hn : (n % 16 * 256).testBit i = (decide (8 ≤ i) && (decide (i - 8 < 4) && n.testBit (i - 8))) := by
    rw [show 256 = 2 ^ 8 from rfl, show 16 = 2 ^ 4 from rfl, Nat.testBit_mul_two_pow, Nat.testBit_mod_two_pow]
  unfold mapCell
  rw [BitVec.getLsbD_or, BitVec.getLsbD_or, BitVec.getLsbD_and, getLsbD_flagMask, BitVec.getLsbD_setWidth,
    BitVec.getLsbD_ofNat, hn]
  split
  · rename_i h
    simp [hi, show ¬8 ≤ i by omega, show ¬12 ≤ i by omega]
  · rename_i h
    rw [BitVec.getLsbD_of_ge bin i (by omega)]
    split
    · simp [hi, show 8 ≤ i by omega, show i - 8 < 4 by omega, show ¬12 ≤ i by omega]
    · simp [hi, show ¬(i - 8 < 4) by omega, show 12 ≤ i by omega]

theorem cellBin_mapCell (bin : Byte) (n : Nat) (flags : Half) : cellBin (mapCell bin n flags) = bin := by
  refine BitVec.eq_of_getLsbD_eq fun i hi => ?_
  unfold cellBin
  rw [BitVec.getLsbD_extractLsb', Nat.zero_add, getLsbD_mapCell _ _ _ (by omega), if_pos hi]
  simp [hi]

theorem cellAttempts_mapCell (bin : Byte) {n : Nat} (hn : n < 16) (flags : Half) :
    cellAttempts (mapCell bin n flags) = n := by
  have h : (mapCell bin n flags).extractLsb' 8 4 = BitVec.ofNat 4 n := by
    refine BitVec.eq_of_getLsbD_eq fun i hi => ?_
    rw [BitVec.getLsbD_extractLsb', getLsbD_mapCell _ _ _ (by omega), if_neg (by omega), if_pos (by omega),
      BitVec.getLsbD_ofNat, Nat.add_sub_cancel_left]
  unfold cellAttempts
  rw [h, BitVec.toNat_ofNat, Nat.mod_eq_of_lt hn]

/-- The flags of a map cell are bits 12 to 15 of those given. -/
theorem mapCell_flags (bin : Byte) (n : Nat) (flags : Half) : mapCell bin n flags &&& 0xF000 = flags &&& 0xF000 := by
  refine BitVec.eq_of_getLsbD_eq fun i hi => ?_
  rw [BitVec.getLsbD_and, BitVec.getLsbD_and, getLsbD_flagMask, getLsbD_mapCell _ _ _ hi]
  split
  · simp [show ¬12 ≤ i by omega]
  · split
    · simp [show ¬12 ≤ i by omega]
    · rfl

/-- A flag of bits 12 to 15 stays a flag. -/
theorem or_flags (w f : Half) (h : f &&& 0xF000 = f) : (w ||| f) &&& 0xF000 = (w &&& 0xF000) ||| f := by
  refine BitVec.eq_of_getLsbD_eq fun i _ => ?_
  have hi := congrArg (BitVec.getLsbD · i) h
  rw [BitVec.getLsbD_and] at hi
  rw [BitVec.getLsbD_and, BitVec.getLsbD_or, BitVec.getLsbD_or, BitVec.getLsbD_and, Bool.and_or_distrib_right, hi]

/-! ## The fault kind (R5) -/

theorem info_none_of_high {p : Plan} {bin : Byte} (h : 240 ≤ bin.toNat) : p.info bin = none := dif_neg (by omega)

theorem mapFault_eq (p : Plan) (limit : Nat) (w : Half) : mapFault p limit w =
    if 240 ≤ w.toNat % 256 ∧ w.toNat % 256 ≤ 253 then some .badValue
    else if 254 ≤ w.toNat % 256 ∧ w.toNat / 256 % 16 ≠ 0 ∨ w.toNat % 256 ≤ 239 ∧ w.toNat / 256 % 16 = 0 then
      some .badAttempts
    else if w.toNat % 256 ≤ 239 ∧ p.info (BitVec.ofNat 8 (w.toNat % 256)) = none then some .unusedBin
    else if w.toNat % 256 ≤ 239 ∧ limit < w.toNat / 256 % 16 then some .overAttemptLimit
    else none := by
  unfold mapFault
  rw [cellBin_toNat, cellAttempts_eq, cellBin_eq]
  generalize w.toNat % 256 = b
  generalize w.toNat / 256 % 16 = n
  by_cases h1 : 240 ≤ b ∧ b ≤ 253
  · rw [if_pos h1, if_pos h1]
  · rw [if_neg h1, if_neg h1]
    by_cases h2 : 254 ≤ b
    · simp only [h2, true_and, if_true, show ¬b ≤ 239 by omega, false_and, or_false, if_false]
      by_cases h3 : n = 0 <;> simp [h3]
    · have h3 : b ≤ 239 := by omega
      simp only [h2, h3, false_and, false_or, true_and, if_false]

/-! ## The content of a decided report (R72 to R75) -/

theorem caseOf_of_first {p : Plan} {policy : Policy} {limit : Nat} {r : Report} {was : Half}
    (h : cellBin was ≠ untested) (ha : r.attempt = .first) : caseOf p policy limit r was = .duplicate := by
  unfold caseOf
  rw [if_neg h, ha]

theorem caseOf_of_retest {p : Plan} {policy : Policy} {limit : Nat} {r : Report} {was : Half}
    (h : cellBin was ≠ untested) (ha : r.attempt = .retest) : caseOf p policy limit r was =
      if limit ≤ cellAttempts was then .overLimit
      else if replaces p policy r.bin (cellBin was) then .changed else .stands := by
  unfold caseOf
  rw [if_neg h, ha]

theorem rank_of_info {p : Plan} {bin : Byte} {i : BinInfo} (h : p.info bin = some i) : p.rank bin = i.rank := by
  unfold Plan.rank
  rw [h]

theorem changed_content (r : Report) (was : Half) (h : cellAttempts was + 1 < 16) :
    cellBin (contentOf .changed r was) = r.bin ∧ cellAttempts (contentOf .changed r was) = cellAttempts was + 1
      ∧ contentOf .changed r was &&& 0xF000 = (was &&& 0xF000) ||| changedFlag :=
  ⟨cellBin_mapCell _ _ _, cellAttempts_mapCell _ h _, (mapCell_flags _ _ _).trans (or_flags _ _ (by decide))⟩

theorem stands_content (r : Report) (was : Half) (h : cellAttempts was + 1 < 16) :
    cellBin (contentOf .stands r was) = cellBin was ∧ cellAttempts (contentOf .stands r was) = cellAttempts was + 1
      ∧ contentOf .stands r was &&& 0xF000 = was &&& 0xF000 :=
  ⟨cellBin_mapCell _ _ _, cellAttempts_mapCell _ h _, mapCell_flags _ _ _⟩

/-- Settles O36: the fault kinds by `mapFault_eq`, and the content case by case of R72 to R75. -/
theorem mapCellContentDecided : Obligations.MapCellContentDecided := by
  refine ⟨fun p limit w => ⟨cellBin_toNat w, cellAttempts_eq w, mapFault_eq p limit w⟩, ?_⟩
  intro p policy limit r was i j hvalid hdie hlimit hinfo hstanding now flags
  refine ⟨fun hun => ?_, fun hun ha => ?_, fun hun ha hat => ?_, fun hun ha hat => ?_⟩
  · have hcase : caseOf p policy limit r was = .firstResult := if_pos hun
    have hnow : now = mapCell r.bin 1 (match r.attempt with | .first => 0 | .retest => orphanFlag) :=
      congrArg (contentOf · r was) hcase
    rw [hnow]
    refine ⟨cellBin_mapCell _ _ _, cellAttempts_mapCell _ (by decide) _, (mapCell_flags _ _ _).trans ?_⟩
    cases r.attempt <;> decide
  · exact congrArg (contentOf · r was) (caseOf_of_first hun ha)
  · have hcase := (caseOf_of_retest (p := p) (policy := policy) (limit := limit) hun ha).trans (if_pos hat.ge)
    exact congrArg (contentOf · r was) hcase
  · have hcase := (caseOf_of_retest (p := p) (policy := policy) (limit := limit) hun ha).trans (if_neg (by omega))
    have hroom : cellAttempts was + 1 < 16 := by omega
    have hchanged := changed_content r was hroom
    have hstands := stands_content r was hroom
    by_cases hrep : replaces p policy r.bin (cellBin was) = true
    · have hnow : now = contentOf .changed r was := congrArg (contentOf · r was) (hcase.trans (if_pos hrep))
      rw [hnow]
      refine ⟨hchanged.2.1, fun hk => ⟨hchanged.1, ?_⟩, fun hk hrank => ⟨hchanged.1, hchanged.2.2⟩, fun hk hrank => ?_⟩
      · subst hk
        have hne : r.bin ≠ cellBin was := by simpa [replaces] using hrep
        rw [if_neg hne]
        exact hchanged.2.2
      · subst hk
        have hlt : p.rank r.bin < p.rank (cellBin was) := by simpa [replaces] using hrep
        rw [rank_of_info hinfo, rank_of_info (hstanding hun)] at hlt
        omega
    · have hnow : now = contentOf .stands r was := congrArg (contentOf · r was) (hcase.trans (if_neg hrep))
      rw [hnow]
      refine ⟨hstands.2.1, fun hk => ?_, fun hk hrank => ?_, fun hk hrank => ⟨hstands.1, hstands.2.2⟩⟩
      · subst hk
        have he : r.bin = cellBin was := by simpa [replaces] using hrep
        rw [if_pos he]
        exact ⟨hstands.1.trans he.symm, hstands.2.2⟩
      · subst hk
        have hge : ¬p.rank r.bin < p.rank (cellBin was) := by simpa [replaces] using hrep
        rw [rank_of_info hinfo, rank_of_info (hstanding hun)] at hge
        omega

end Sys2Proof.Machine
end

