-- ==== Sys2Proof/Proofs/PendingTable.lean ====
section
/-! SUPPORT. Where an occurrence finds its place in the pending table (O52; R160, R161). -/

namespace Sys2Proof.Machine

theorem tableHasKey_iff (table : List Pending) (k : NoticeKey) :
    tableHasKey table k = true ↔ some k ∈ tableKeys table := by
  unfold tableHasKey tableKeys
  rw [List.any_eq_true, List.mem_map]
  refine exists_congr fun p => and_congr_right fun _ => ?_
  cases p <;> simp

theorem tableHasOverflow_iff (table : List Pending) : tableHasOverflow table = true ↔ none ∈ tableKeys table := by
  unfold tableHasOverflow tableKeys
  rw [List.any_eq_true, List.mem_map]
  refine exists_congr fun p => and_congr_right fun _ => ?_
  cases p <;> simp

/-- In a list with no key twice, a change of the elements of one key is a change of the one element that has it. -/
theorem map_change_of_nodup {α β : Type} {key : α → β} {f : α → α} {pre post : List α} {x : α}
    (hnodup : ((pre ++ x :: post).map key).Nodup) (hf : ∀ y, key y ≠ key x → f y = y) :
    (pre ++ x :: post).map f = pre ++ f x :: post := by
  rw [List.map_append, List.map_cons] at hnodup
  obtain ⟨-, hpost, hpre⟩ := List.nodup_append.1 hnodup
  have hl : pre.map f = pre := by
    refine (List.map_congr_left fun y hy => hf y ?_).trans (List.map_id pre)
    exact hpre (key y) (List.mem_map_of_mem hy) (key x) (List.mem_cons_self ..)
  have hr : post.map f = post := by
    refine (List.map_congr_left fun y hy => hf y ?_).trans (List.map_id post)
    intro h
    exact (List.nodup_cons.1 hpost).1 (h ▸ List.mem_map_of_mem hy)
  rw [List.map_append, List.map_cons, hl, hr]

/-- Settles O52: each clause is one branch of `addOccurrence`; no key stands twice, so one entry changes. -/
theorem occurrencesPlaced : Obligations.OccurrencesPlaced := by
  intro now k d table ⟨hbound, hnodup⟩ lost
  have hlost : lost = d.lost := rfl
  refine ⟨fun pre e post htable hk => ?_, fun hk hroom => ?_, fun hk hfull hover => ?_, fun pre o post htable hk hfull => ?_⟩
  · subst htable
    have hhas : tableHasKey (pre ++ .entry e :: post) k = true :=
      (tableHasKey_iff _ k).2 (List.mem_map.2 ⟨.entry e, by simp, congrArg some hk⟩)
    rw [addOccurrence, if_pos hhas]
    refine (map_change_of_nodup hnodup fun y hy => ?_).trans ?_
    · cases y with
      | overflow o => rfl
      | entry e' => exact if_neg fun h => hy (congrArg some (h.trans hk.symm))
    · rw [hlost]
      exact congrArg (fun p => pre ++ p :: post) (if_pos hk)
  · have hhas : ¬tableHasKey table k = true := fun h => hk ((tableHasKey_iff table k).1 h)
    rw [addOccurrence, if_neg hhas, if_pos hroom, hlost]
  · have hhas : ¬tableHasKey table k = true := fun h => hk ((tableHasKey_iff table k).1 h)
    have hno : ¬tableHasOverflow table = true := fun h => hover ((tableHasOverflow_iff table).1 h)
    rw [addOccurrence, if_neg hhas, if_neg (by omega), if_neg hno]
  · subst htable
    have hhas : ¬tableHasKey (pre ++ .overflow o :: post) k = true := fun h => hk ((tableHasKey_iff _ k).1 h)
    have hover : tableHasOverflow (pre ++ .overflow o :: post) = true :=
      (tableHasOverflow_iff _).2 (List.mem_map.2 ⟨.overflow o, by simp, rfl⟩)
    rw [addOccurrence, if_neg hhas, if_neg (by omega), if_pos hover]
    refine map_change_of_nodup hnodup fun y hy => ?_
    cases y with
    | overflow o' => exact absurd rfl hy
    | entry e => rfl

end Sys2Proof.Machine
end

