-- ==== Sys2Proof/Proofs/Landing.lean ====
section
/-! SUPPORT. The end of an event that completes no drain: everything but the port and the interrupt stays, and what was
requested stands at the port (R169, R177, R179). With it, the answer to the order in service (R144, R150). -/

namespace Sys2Proof.Machine

/-- From the effect of a command to the state it answers, where no drain completes. -/
structure Landed (u t : State) : Prop where
  keeps : Keeps [.port, .irq] u t
  irq : t.irq = t.engine.interrupt
  requested : ∀ {tr}, Requested tr u → Requested tr t

theorem landed_settle (before : State) {u : State} (hd : drainReady u = false) : Landed u (settle before u) where
  keeps := keeps_settle before (Keeps.refl _ u) hd (by simp) fun h => absurd (by simp) h
  irq := settle_irq before u
  requested := requested_settle before

/-- What is said of every state that an effect lands in is answered. -/
theorem answers_landed {i : Instr} {s u : State} {P : State → Prop} (he : effectOf i s = some u) (hd : drainReady u = false)
    (h : ∀ t, Landed u t → P t) : Answers i s P := answers_of_effect he (h _ (landed_settle s hd))

namespace Landed

variable {s u t : State}

theorem engine (h : Landed u t) : t.engine = u.engine := h.keeps.1 (by simp)
theorem clock (h : Landed u t) : t.clock = u.clock := h.keeps.2.2.1 (by simp)
theorem order (h : Landed u t) : t.order = u.order := h.keeps.2.2.2.2.1 (by simp)
theorem cells (h : Landed u t) : t.cells = u.cells := h.keeps.2.2.2.2.2.1 (by simp)
theorem coll (h : Landed u t) : t.coll = u.coll := h.keeps.2.2.2.2.2.2.1 (by simp)
theorem scanner (h : Landed u t) : t.scanner = u.scanner := h.keeps.2.2.2.2.2.2.2.1 (by simp)
theorem notice (h : Landed u t) : t.notice = u.notice := h.keeps.2.2.2.2.2.2.2.2.1 (by simp)

theorem cell (h : Landed u t) (c : CellNo) : t.cell c = u.cell c := cell_eq_of_cells h.cells c

theorem sameNotices (h : Landed u t) (hn : u.notice = s.notice) : SameNotices s t := by
  have : t.notice = s.notice := h.notice.trans hn
  unfold SameNotices
  rw [this]
  exact ⟨rfl, rfl, rfl, rfl, rfl, rfl⟩

/-- What an effect keeps, the state it lands in keeps, the port and the interrupt left out. -/
theorem keepsOf {l : List Part} (h : Landed u t) (hk : Keeps l s u) (hport : .port ∈ l := by simp)
    (hirq : .irq ∈ l := by simp) : Keeps l s t :=
  hk.trans (h.keeps.mono (by simp [hport, hirq]))

end Landed

theorem requested_portRequest (tr : Transaction) (s : State) : Requested tr (portRequest tr s) :=
  .inr (portRequest_waiting tr s)

/-! ## Answers (R144, R150) -/

theorem with_same_service {o : OrderUnit} {v : Service} (h : o.service = some v) : { o with service := some v } = o := by
  rw [← h]

theorem answerRecord_of_service {o : OrderUnit} {v : Service} (h : o.service = some v) : o.answerRecord = v.record := by
  unfold OrderUnit.answerRecord
  rw [h]

theorem answer_order (out : OrderOutcome) (s : State) : (answer out s).order = { s.order with
    phase := .answer, outcome := some out, service := s.order.service.map fun v => { v with stage := .answering } } := rfl

theorem requested_answer (out : OrderOutcome) (s : State) : Requested (resultWrite s.order out) (answer out s) :=
  requested_portRequest _ _

theorem returnOutcome_eq (out : OrderOutcome) {s : State} {v : Service} (h : s.order.service = some v) :
    returnOutcome out s = answer out s := by
  unfold returnOutcome
  rw [h]

theorem drainReady_answer (out : OrderOutcome) {s : State} {v : Service} (h : s.order.service = some v) :
    drainReady (answer out s) = false :=
  drainReady_of_service (by rw [answer_order, h]; exact Option.some_ne_none _)

/-- The order v is answered, from whatever state agrees with s on the rest of the order unit. -/
theorem answered_answer {v : Service} {out : OrderOutcome} {s u t : State} (ho : u.order = { s.order with service := some v })
    (hl : Landed (answer out u) t) : Answered v out s t := by
  refine ⟨?_, ?_⟩
  · rw [hl.order, answer_order, ho]
    rfl
  · have h := hl.requested (requested_answer out u)
    unfold resultWrite at h
    rwa [answerRecord_of_service (v := v) (by rw [ho])] at h

theorem keeps_answer {l : List Part} (out : OrderOutcome) {s u : State} (h : Keeps l s u) (ho : .order ∈ l)
    (hp : .port ∈ l) : Keeps l s (answer out u) :=
  h.trans ⟨fun _ => rfl, fun _ => rfl, fun _ => rfl, fun hn => absurd hp hn, fun hn => absurd ho hn, fun _ => rfl,
    fun _ => rfl, fun _ => rfl, fun _ => rfl, rfl⟩

/-- An effect that is an answer: the order v is answered, and what the answer was reached with stays. -/
theorem answers_answer {i : Instr} {v : Service} {out : OrderOutcome} {l : List Part} {s u : State} {P : State → Prop}
    (he : effectOf i s = some (answer out u)) (ho : u.order = { s.order with service := some v }) (hk : Keeps l s u)
    (hP : ∀ t, Answered v out s t → (.order ∈ l → .port ∈ l → .irq ∈ l → Keeps l s t) → P t) : Answers i s P := by
  refine answers_landed he (drainReady_answer out (v := v) (by rw [ho])) fun t hl => hP t (answered_answer ho hl) ?_
  exact fun h1 h2 h3 => hl.keepsOf (keeps_answer out hk h1 h2) h2 h3

end Sys2Proof.Machine
end

