-- ==== Sys2Proof/Proofs/ChainSteps.lean ====
section
/-! SUPPORT. The steps of the order chain on a completed transaction: the header (O45), the TAKEN write (O46), and the
link with its position and poll timer (O51). -/

namespace Sys2Proof.Machine

/-! ## Small facts -/

theorem field_two_lt (bs : List Byte) (off : Nat) : field bs off 2 < 65536 := by
  refine (leNat_lt _).trans_le (Nat.pow_le_pow_right (n := 256) (by omega) (?_ : _ ≤ 2))
  rw [List.length_take]
  exact Nat.min_le_left _ _

theorem toNat_word {n : Nat} (h : n < 65536) : (BitVec.ofNat 32 n).toNat = n := by
  rw [BitVec.toNat_ofNat]
  exact Nat.mod_eq_of_lt (by omega)

/-- A value in the low and one in the high half of a result word, both below 65,536. -/
theorem twoValues_eq {a b : Nat} (ha : a < 65536) (hb : b < 65536) : twoValues a b = BitVec.ofNat 32 (a + 65536 * b) := by
  unfold twoValues
  rw [Nat.mod_eq_of_lt ha, Nat.mod_eq_of_lt hb]

theorem keeps_portFree {l : List Part} (s : State) (h : .port ∈ l := by simp) : Keeps l s (portFree s) := by
  simp [Keeps, h]

theorem not_draining_of_running {u : State} (h : u.engine.state = .running) : drainReady u = false :=
  drainReady_of_not_draining (by rw [h]; decide)

/-! ## The header (R144 to R146) -/

theorem effectOf_headerRead {data : List Byte} {s : State} (h : Outstanding .headerRead data.length s) :
    effectOf (.headerReadDone data) s = some (
      if s.engine.state ≠ .running then (portFree s).setOrder { s.order with gathered := [] }
      else if (s.order.gathered ++ data).length < 24 then
        readHeader ((portFree s).setOrder { s.order with gathered := s.order.gathered ++ data })
      else judgeHeader (s.order.gathered ++ data) (portFree s)) := by
  change headerRead data s = _
  unfold headerRead
  rw [returned_of h]
  rfl

theorem judgeHeader_fresh {header : List Byte} (s : State) (h : headerState header = 0) :
    judgeHeader header s = takeOrder header s := if_pos h

theorem judgeHeader_notFresh {header : List Byte} (s : State) (h : headerState header ≠ 0) : judgeHeader header s =
    answer (.refused .notFresh (oneValue (headerState header))) (s.setOrder { s.order with gathered := [] }) := if_neg h

/-- Settles O45: the four branches of `headerRead`. -/
theorem headerTaken : Obligations.HeaderTaken := by
  intro data s hservice hout record header found
  have heffect := effectOf_headerRead hout
  refine ⟨fun hrun hlen hfound => ?_, fun hrun hlen hfound => ?_, fun hrun hlen => ?_, fun hdrain => ?_⟩
  · rw [if_neg (by simp [hrun]), if_neg (Nat.not_lt.2 hlen), judgeHeader_fresh _ hfound] at heffect
    refine answers_landed heffect (not_draining_of_running hrun) fun t hl => ⟨hl.order, ?_, ?_⟩
    · exact hl.requested (requested_portRequest _ _)
    · exact hl.keepsOf (by simp [Keeps, takeOrder, State.setOrder])
  · rw [if_neg (by simp [hrun]), if_neg (Nat.not_lt.2 hlen), judgeHeader_notFresh _ hfound] at heffect
    refine answers_landed heffect (not_draining_of_running hrun) fun t hl => ⟨?_, ?_, ?_⟩
    · refine hl.order.trans ?_
      rw [answer_order]
      simp only [State.setOrder, portFree_order, hservice, Option.map_none]
      rfl
    · have h := hl.requested (requested_answer _ _)
      simp only [resultWrite, OrderUnit.answerRecord, State.setOrder, portFree_order, hservice, OrderOutcome.result] at h
      have hword : (oneValue (headerState header)).toNat = found := toNat_word (field_two_lt _ _)
      rwa [hword] at h
    · exact hl.keepsOf (keeps_answer _ (by simp [Keeps, State.setOrder]) (by simp) (by simp))
  · rw [if_neg (by simp [hrun]), if_pos hlen] at heffect
    refine answers_landed heffect (not_draining_of_running hrun) fun t hl => ⟨hl.order, ?_, ?_⟩
    · exact hl.keepsOf (by simp [Keeps, State.setOrder, readHeader])
    · exact hl.requested (requested_portRequest _ _)
  · rw [if_pos (by simp [hdrain])] at heffect
    refine answers_of_effect heffect ⟨?_, ?_, ?_, ?_⟩
    · exact settle_order _ _
    · exact settle_coll _ _
    · exact settle_scanner _ _
    · exact sameNotices_settle_of_eq s rfl

/-! ## The TAKEN write (R146, R147, R149) -/

theorem effectOf_takenWrite {v : Service} {s : State} (h : OutstandingFor .takenWrite s) (hv : s.order.service = some v) :
    effectOf .takenWriteDone s = some (checkKind v (portFree s)) := by
  change takenWritten s = _
  unfold takenWritten
  rw [acknowledged_of h]
  simp [hv]

/-- The code of a kind is one of 1 to 10. -/
theorem ofCode_none_of {n : Nat} (h : n = 0 ∨ 10 < n) : OrderKind.ofCode n = none := by
  unfold OrderKind.ofCode
  split <;> first | rfl | omega

theorem checkKind_unknown {v : Service} (s : State) (h : OrderKind.ofCode (headerKind v.header) = none) :
    checkKind v s = answer (.refused .badKind (oneValue (headerKind v.header))) s := by
  unfold checkKind
  rw [h]

theorem checkKind_fixed {v : Service} {k : OrderKind} {n : Nat} (s : State)
    (h : OrderKind.ofCode (headerKind v.header) = some k) (hn : k.fixedLength = some n) : checkKind v s =
      if headerLength v.header ≠ n then answer (badLength (headerLength v.header) n) s
      else if k = .mark then answer (.done s.clock) s else readOn v (.body (8 * n - 24)) (8 * n - 24) s := by
  unfold checkKind
  rw [h]
  dsimp only
  rw [hn]
  rfl

theorem checkKind_listed {v : Service} {k : OrderKind} (s : State)
    (h : OrderKind.ofCode (headerKind v.header) = some k) (hn : k.fixedLength = none) : checkKind v s =
      if 8 * headerLength v.header < 24 + k.prefixBytes then
        answer (badLength (headerLength v.header) (Config.unreadRequiredLength (headerKind v.header)).toNat) s
      else readOn v (.bodyPrefix k.prefixBytes) k.prefixBytes s := by
  unfold checkKind
  rw [h]
  dsimp only
  rw [hn]

theorem readOn_order (v : Service) (stage : Stage) (want : Nat) (u : State) :
    (readOn v stage want u).order = { u.order with service := some { v with stage := stage } } := rfl

/-- A body read requested from the record of the order in service. -/
theorem readOn_lands {v : Service} {stage : Stage} {want : Nat} {x : Option Service} {s u t : State}
    (hk : Keeps [.order, .port, .irq] s u) (ho : u.order = { s.order with service := x })
    (hl : Landed (readOn v stage want u) t) :
    t.order = { s.order with service := some { v with stage := stage } } ∧ Keeps [.order, .port, .irq] s t
      ∧ Requested (readOf .bodyRead (addrPlus v.record (24 + v.body.length))
          (chunk (addrPlus v.record (24 + v.body.length)) (want - v.body.length))) t := by
  refine ⟨?_, ?_, hl.requested (requested_portRequest _ _)⟩
  · rw [hl.order, readOn_order, ho]
  · exact hl.keepsOf (hk.trans (by simp [Keeps, readOn, readBody, State.setOrder]))

theorem drainReady_readOn (v : Service) (stage : Stage) (want : Nat) (u : State) : drainReady (readOn v stage want u) = false :=
  drainReady_of_service (by rw [readOn_order]; exact Option.some_ne_none _)

/-- Settles O46: `checkKind`, kind by kind. -/
theorem takenOrderChecked : Obligations.TakenOrderChecked := by
  intro v s hout hv hbody kind found fixed reads answers
  have heffect := effectOf_takenWrite hout hv
  have hserv : (portFree s).order = { s.order with service := some v } := (with_same_service hv).symm
  have hanswers : ∀ out, checkKind v (portFree s) = answer out (portFree s) → answers out := fun out he =>
    answers_answer (heffect.trans (congrArg some he)) hserv (keeps_portFree (l := [.order, .port, .irq]) s)
      fun t ha hk => ⟨ha, hk (by simp) (by simp) (by simp)⟩
  have hreads : ∀ stage n, checkKind v (portFree s) = readOn v stage n (portFree s) → reads stage n :=
    fun stage n he => by
      refine answers_landed (heffect.trans (congrArg some he)) (drainReady_readOn ..) fun t hl => ?_
      obtain ⟨ho, hk, hr⟩ := readOn_lands (keeps_portFree s) hserv hl
      rw [hbody] at hr
      exact ⟨ho, hk, hr⟩
  have hfound : found < 65536 := field_two_lt _ _
  have hunknown : OrderKind.ofCode kind = none → answers (.refused .badKind (BitVec.ofNat 32 kind)) := fun h =>
    hanswers _ (checkKind_unknown _ h)
  have hfixed : ∀ k n, OrderKind.ofCode kind = some k → k.fixedLength = some n → n < 65536 →
      (found ≠ n → answers (.refused .badLength (BitVec.ofNat 32 (found + 65536 * n))))
      ∧ (found = n → k = .mark → answers (.done s.clock))
      ∧ (found = n → k ≠ .mark → reads (.body (8 * n - 24)) (8 * n - 24)) := fun k n hk hn hlt => by
    have h := checkKind_fixed (portFree s) hk hn
    refine ⟨fun hne => ?_, fun he hm => ?_, fun he hm => ?_⟩
    · rw [← twoValues_eq hfound hlt]
      exact hanswers _ (h.trans (if_pos hne))
    · exact hanswers _ (h.trans ((if_neg (not_not.2 he)).trans (if_pos hm)))
    · exact hreads _ _ (h.trans ((if_neg (not_not.2 he)).trans (if_neg hm)))
  have hlisted : ∀ k, OrderKind.ofCode kind = some k → k.fixedLength = none →
      (8 * found < 24 + k.prefixBytes →
        ∃ required, required < 65536 ∧ answers (.refused .badLength (BitVec.ofNat 32 (found + 65536 * required))))
      ∧ (¬8 * found < 24 + k.prefixBytes → reads (.bodyPrefix k.prefixBytes) k.prefixBytes) := fun k hk hn => by
    have h := checkKind_listed (portFree s) hk hn
    refine ⟨fun hshort => ⟨_, (Config.unreadRequiredLength (headerKind v.header)).isLt, ?_⟩, fun hlong => ?_⟩
    · rw [← twoValues_eq hfound (Config.unreadRequiredLength (headerKind v.header)).isLt]
      exact hanswers _ (h.trans (if_pos hshort))
    · exact hreads _ _ (h.trans (if_neg hlong))
  have hkinds : ∀ n, fixed = some n → ∃ k, OrderKind.ofCode kind = some k ∧ k.fixedLength = some n ∧ n < 65536
      ∧ (kind ≠ 1 → k ≠ .mark) := by
    clear_value kind
    intro n hn
    simp only [fixed] at hn
    split at hn <;> cases hn
    · exact ⟨.mark, rfl, rfl, by decide, fun h => absurd rfl h⟩
    · exact ⟨.closeLot, rfl, rfl, by decide, fun _ => by decide⟩
    · exact ⟨.snapshot, rfl, rfl, by decide, fun _ => by decide⟩
    · exact ⟨.releaseLot, rfl, rfl, by decide, fun _ => by decide⟩
    · exact ⟨.readCell, rfl, rfl, by decide, fun _ => by decide⟩
    · exact ⟨.configureCells, rfl, rfl, by decide, fun _ => by decide⟩
    · exact ⟨.holdCells, rfl, rfl, by decide, fun _ => by decide⟩
    · exact ⟨.releaseCells, rfl, rfl, by decide, fun _ => by decide⟩
  have hplan : kind = 2 → OrderKind.ofCode kind = some .loadPlan := fun h => by rw [h]; rfl
  have hopen : kind = 3 → OrderKind.ofCode kind = some .openLot := fun h => by rw [h]; rfl
  have hmark : kind = 1 → OrderKind.ofCode kind = some .mark := fun h => by rw [h]; rfl
  refine ⟨fun h => hunknown (ofCode_none_of h), fun n hn hne => ?_, fun hk hf => ?_, fun n hn hk hf => ?_, fun h => ?_,
    fun hk hf => ?_, fun hk hf => ?_⟩
  · obtain ⟨k, hk, hkn, hlt, -⟩ := hkinds n hn
    exact (hfixed k n hk hkn hlt).1 hne
  · exact (hfixed .mark 3 (hmark hk) rfl (by decide)).2.1 hf rfl
  · obtain ⟨k, hcode, hkn, hlt, hm⟩ := hkinds n hn
    exact (hfixed k n hcode hkn hlt).2.2 hf (hm hk)
  · rcases h with ⟨hk, hf⟩ | ⟨hk, hf⟩
    · exact (hlisted .loadPlan (hplan hk) rfl).1 (by change 8 * found < 24 + 8; omega)
    · exact (hlisted .openLot (hopen hk) rfl).1 (by change 8 * found < 24 + 24; omega)
  · exact (hlisted .loadPlan (hplan hk) rfl).2 (by change ¬8 * found < 24 + 8; omega)
  · exact (hlisted .openLot (hopen hk) rfl).2 (by change ¬8 * found < 24 + 24; omega)

/-! ## The link, the chain position and the poll timer (R151 to R153) -/

theorem effectOf_linkRead {link : Addr} {s : State} (h : Outstanding .linkRead 8 s) :
    effectOf (.linkReadDone link) s = some (
      if !orderRuns s then (portFree s).setOrder { s.order with nudgePending := false }
      else if followable link then followLink link (portFree s) else pollLink (portFree s)) := by
  change linkRead link s = _
  unfold linkRead
  rw [returned_of h]
  rfl

theorem orderRuns_iff (s : State) : orderRuns s = true ↔ s.engine.state = .running := by
  simp [orderRuns]

theorem followable_iff (link : Addr) : followable link = true ↔ link ≠ 0 ∧ link.toNat % 8 = 0 := by
  rw [← aligned_iff]
  simp [followable]

theorem pollLink_eq (s : State) : pollLink s =
    if s.order.nudgePending then readLink (s.setOrder { s.order with nudgePending := false })
    else s.setOrder { s.order with pollTimer := some (Time.plus s.clock s.loadedSetup.interval) } := rfl

theorem effectOf_positionWrite {s : State} (h : OutstandingFor .positionWrite s) :
    effectOf .chainPositionWriteDone s = some (
      if orderRuns s then readHeader ((portFree s).setOrder { s.order with posWritten := true })
      else (portFree s).setOrder { s.order with posWritten := true }) := by
  change positionWritten s = _
  unfold positionWritten
  rw [acknowledged_of h]
  rfl

theorem effectOf_pollExpiry {s : State} (h : s.order.phase = .link) (hrun : s.engine.state = .running)
    (he : expired s.clock s.order.pollTimer = true) (hfree : portBusy .orderUnit s = false) :
    effectOf .pollTimerExpiry s = some (readLink (s.setOrder { s.order with pollTimer := none })) := by
  have hruns := (orderRuns_iff s).2 hrun
  change pollExpires s = _
  unfold pollExpires
  rw [if_pos ⟨h, hruns, .inl he⟩, nudgeOrder, if_pos ⟨h, hruns⟩, if_neg (by simp [hfree])]

/-- Settles O51: the branches of `linkRead`, `positionWritten` and `pollExpires`. -/
theorem linkFollowedOrPolled : Obligations.LinkFollowedOrPolled := by
  intro s position
  refine ⟨fun v hout => ?_, fun hout => ?_, fun hphase hrun hexp hfree => ?_⟩
  · have heffect := effectOf_linkRead (link := v) hout
    refine ⟨fun hrun hv0 hv8 => ?_, fun hrun hv => ?_, fun hdrain => ?_⟩
    · rw [(orderRuns_iff s).2 hrun, if_neg (by decide), if_pos ((followable_iff v).2 ⟨hv0, hv8⟩)] at heffect
      refine answers_landed heffect (not_draining_of_running hrun) fun t hl => ⟨hl.order, ?_, ?_⟩
      · exact hl.requested (requested_portRequest _ _)
      · exact hl.keepsOf (by simp [Keeps, followLink, State.setOrder, writePosition])
    · have hnot : ¬followable v = true := by
        rw [followable_iff]
        tauto
      rw [(orderRuns_iff s).2 hrun, if_neg (by decide), if_neg hnot, pollLink_eq] at heffect
      by_cases hn : s.order.nudgePending = true
      · rw [portFree_order, if_pos hn] at heffect
        refine answers_landed heffect (not_draining_of_running hrun) fun t hl => ⟨?_, ?_⟩
        · exact hl.keepsOf (by simp [Keeps, readLink, State.setOrder])
        · rw [if_pos hn]
          exact ⟨hl.order, hl.requested (requested_portRequest _ _)⟩
      · rw [portFree_order, if_neg hn] at heffect
        refine answers_landed heffect (not_draining_of_running hrun) fun t hl => ⟨?_, ?_⟩
        · exact hl.keepsOf (by simp [Keeps, State.setOrder])
        · rw [if_neg hn]
          exact hl.order
    · have hnot : orderRuns s = false := Bool.eq_false_of_not_eq_true fun h => by
        rw [(orderRuns_iff s).1 h] at hdrain
        cases hdrain
      rw [hnot, if_pos (by decide)] at heffect
      exact answers_of_effect heffect ⟨settle_order _ _, settle_coll _ _, sameNotices_settle_of_eq s rfl⟩
  · have heffect := effectOf_positionWrite hout
    by_cases hrun : s.engine.state = .running
    · rw [if_pos ((orderRuns_iff s).2 hrun)] at heffect
      refine answers_landed heffect (not_draining_of_running hrun) fun t hl => ⟨hl.order, fun _ => ⟨?_, fun hg => ?_⟩⟩
      · exact hl.keepsOf (by simp [Keeps, readHeader, State.setOrder])
      · have h := hl.requested (requested_portRequest _ _)
        simp only [State.setOrder, portFree_order, hg, List.length_nil] at h
        rwa [addrPlus, BitVec.ofNat_eq_ofNat, BitVec.add_zero] at h
    · rw [if_neg (mt (orderRuns_iff s).1 hrun)] at heffect
      exact answers_of_effect heffect ⟨settle_order _ _, fun h => absurd h hrun⟩
  · refine answers_landed (effectOf_pollExpiry hphase hrun hexp hfree) (not_draining_of_running hrun) fun t hl => ?_
    exact ⟨hl.order, hl.requested (requested_portRequest _ _), hl.keepsOf (by simp [Keeps, readLink, State.setOrder])⟩

end Sys2Proof.Machine
end

