-- ==== Sys2Proof/Proofs/OrderBodies.lean ====
section
/-! SUPPORT. A read of the body or of its head: its next part, its length, and the hand-over of the whole body with its fields as read
(O47; R63, R147, R148, R187). -/

namespace Sys2Proof.Machine

/-! ## Fields and entries of a body (R187) -/

theorem field_lt (bs : List Byte) (off n : Nat) : field bs off n < 256 ^ n := by
  refine (leNat_lt _).trans_le (Nat.pow_le_pow_right (n := 256) (by omega) ?_)
  rw [List.length_take]
  exact Nat.min_le_left _ _

/-- A field within a part of the bytes is the field at its own place. -/
theorem field_slice (bs : List Byte) (d : Nat) {size off n : Nat} (h : off + n ≤ size) :
    field ((bs.drop d).take size) off n = field bs (d + off) n := by
  unfold field
  rw [List.drop_take, List.drop_drop, List.take_take, Nat.min_eq_left (by omega)]

theorem length_entriesOf (size n : Nat) (bs : List Byte) : (entriesOf size n bs).length = n := by
  induction n generalizing bs with
  | zero => rfl
  | succ n ih => rw [entriesOf, List.length_cons, ih]

theorem getElem?_entriesOf {size n i : Nat} (bs : List Byte) (h : i < n) :
    (entriesOf size n bs)[i]? = some ((bs.drop (size * i)).take size) := by
  induction n generalizing i bs with
  | zero => cases h
  | succ n ih =>
    cases i with
    | zero => rfl
    | succ i =>
      rw [entriesOf, List.getElem?_cons_succ, ih _ (by omega), List.drop_drop, Nat.mul_succ, Nat.add_comm]

theorem getElem?_loadPlanEntries {b : List Byte} {i : Nat} (h : i < loadPlanCount b) :
    (loadPlanEntries b)[i]? = some ⟨field b (8 + 4 * i) 1, field b (9 + 4 * i) 1, field b (10 + 4 * i) 1,
      field b (11 + 4 * i) 1⟩ := by
  unfold loadPlanEntries
  rw [List.getElem?_map, getElem?_entriesOf _ h, Option.map_some, List.drop_drop, field_slice _ _ (by omega),
    field_slice _ _ (by omega), field_slice _ _ (by omega), field_slice _ _ (by omega)]
  simp only [Nat.add_zero, Option.some.injEq, PlanEntry.mk.injEq, true_and]
  refine ⟨?_, ?_, ?_⟩ <;> congr 1 <;> omega

theorem getElem?_openLotWafers {b : List Byte} {i : Nat} (h : i < openLotCount b) :
    (openLotBody b).wafers[i]? = some (field b (24 + 16 * i) 1, BitVec.ofNat 64 (field b (32 + 16 * i) 8)) := by
  change ((entriesOf 16 (openLotCount b) (b.drop 24)).map _)[i]? = _
  rw [List.getElem?_map, getElem?_entriesOf _ h, Option.map_some, List.drop_drop, field_slice _ _ (by omega),
    field_slice _ _ (by omega), Nat.add_zero, Nat.add_right_comm]

theorem floorGroup_flagAt (b : List Byte) (off figure minimum : Nat) :
    floorGroup (flagAt b off) figure minimum = if field b off 1 % 2 = 1 then some ⟨figure, minimum⟩ else none := by
  unfold floorGroup flagAt
  exact if_congr (by rw [beq_iff_eq]) rfl rfl

/-! ## The read (R147) -/

section
variable {data : List Byte} {v : Service} {k : OrderKind} {s : State}

/-- The order in service with what has been read of its body. -/
def Service.withBody (v : Service) (data : List Byte) : Service := { v with body := v.body ++ data }

theorem bodySoFar_more (k : OrderKind) (v : Service) {want : Nat} (s : State) (h : v.body.length < want) :
    bodySoFar k v want s = readOn v (.body want) want s := if_pos h

theorem bodySoFar_whole (k : OrderKind) (v : Service) {want : Nat} (s : State) (h : want ≤ v.body.length) :
    bodySoFar k v want s = handOver k v.body (s.setOrder { s.order with service := some v }) := if_neg (Nat.not_lt.2 h)

theorem effectOf_body {want : Nat} (hout : Outstanding .bodyRead data.length s) (hv : s.order.service = some v)
    (hk : OrderKind.ofCode (headerKind v.header) = some k) (hstage : v.stage = .body want) :
    effectOf (.bodyReadDone data) s = some (bodySoFar k (v.withBody data) want (portFree s)) := by
  obtain ⟨record, header, body, stage, stale⟩ := v
  obtain rfl : stage = .body want := hstage
  change bodyRead data s = _
  unfold bodyRead
  rw [returned_of hout]
  simp only [Option.bind_eq_bind, Option.bind_some, portFree_order, hv, hk]
  rfl

/-- What a read of the body's head makes of the bytes read so far. -/
def prefixSoFar (k : OrderKind) (v : Service) (want : Nat) (s : State) : State :=
  if v.body.length < want then readOn v (.bodyPrefix want) want s
  else if headerLength v.header ≠ requiredLength k v.body then
    answer (badLength (headerLength v.header) (requiredLength k v.body)) (s.setOrder { s.order with service := some v })
  else bodySoFar k v (8 * headerLength v.header - 24) s

theorem effectOf_bodyPrefix {want : Nat} (hout : Outstanding .bodyRead data.length s) (hv : s.order.service = some v)
    (hk : OrderKind.ofCode (headerKind v.header) = some k) (hstage : v.stage = .bodyPrefix want) :
    effectOf (.bodyReadDone data) s = some (prefixSoFar k (v.withBody data) want (portFree s)) := by
  obtain ⟨record, header, body, stage, stale⟩ := v
  obtain rfl : stage = .bodyPrefix want := hstage
  change bodyRead data s = _
  unfold bodyRead
  rw [returned_of hout]
  simp only [Option.bind_eq_bind, Option.bind_some, portFree_order, hv, hk]
  unfold prefixSoFar
  rw [apply_ite some, apply_ite some]
  rfl

theorem prefixSoFar_more (k : OrderKind) (v : Service) {want : Nat} (s : State) (h : v.body.length < want) :
    prefixSoFar k v want s = readOn v (.bodyPrefix want) want s := if_pos h

theorem prefixSoFar_badLength (k : OrderKind) (v : Service) {want : Nat} (s : State) (h : want ≤ v.body.length)
    (hne : headerLength v.header ≠ requiredLength k v.body) : prefixSoFar k v want s =
      answer (badLength (headerLength v.header) (requiredLength k v.body)) (s.setOrder { s.order with service := some v }) :=
  (if_neg (Nat.not_lt.2 h)).trans (if_pos hne)

theorem prefixSoFar_length (k : OrderKind) (v : Service) {want : Nat} (s : State) (h : want ≤ v.body.length)
    (he : headerLength v.header = requiredLength k v.body) : prefixSoFar k v want s =
      bodySoFar k v (8 * headerLength v.header - 24) s :=
  (if_neg (Nat.not_lt.2 h)).trans (if_neg (not_not.2 he))

end

/-- The order in service joins the collation unit's requests, and the order unit waits (R63, R148). -/
theorem handToCollation_lands {r : Request} {v : Service} {s u t : State} (hk : Keeps [.order, .coll, .port, .irq] s u)
    (ho : u.order = { s.order with service := some v }) (hc : u.coll = s.coll) (hl : Landed (handToCollation r u) t) :
    t.coll = { s.coll with requests := s.coll.requests ++ [r] }
      ∧ t.order = { s.order with service := some { v with stage := .waiting } }
      ∧ Keeps [.order, .coll, .port, .irq] s t := by
  have horder : (handToCollation r u).order = { u.order with service := u.order.service.map fun v => { v with stage := .waiting } } := rfl
  have hcoll : (handToCollation r u).coll = { u.coll with requests := u.coll.requests ++ [r] } := rfl
  refine ⟨?_, ?_, ?_⟩
  · rw [hl.coll, hcoll, hc]
  · rw [hl.order, horder, ho]
    rfl
  · exact hl.keepsOf (hk.trans (by simp [Keeps, handToCollation, modService, joinRequests, State.setOrder]))

theorem drainReady_handToCollation {r : Request} {u : State} : drainReady (handToCollation r u) = false :=
  drainReady_of_requests (List.append_ne_nil_of_right_ne_nil _ (List.cons_ne_nil _ _))

/-- The length that a listed kind's count requires is one the length field can hold (R147). -/
theorem requiredLength_lt (k : OrderKind) (b : List Byte) : requiredLength k b < 65536 := by
  unfold requiredLength
  split
  · dsimp only
    split <;> omega
  · have := field_one_le b 0x10
    change field b 0x10 1 ≤ 255 at this
    unfold openLotCount
    omega
  · decide

/-- Settles O47: the branches of `bodyRead`; a whole body is handed over with the fields of its kind. -/
theorem bodyReadAndHandedOver : Obligations.BodyReadAndHandedOver := by
  intro data v s hout hv kind found body goesOn joins count badCount required whole
  have hserv : ((portFree s).setOrder { s.order with service := some (v.withBody data) }).order =
      { s.order with service := some (v.withBody data) } := rfl
  have hkeeps : ∀ {l : List Part}, .order ∈ l → .port ∈ l →
      Keeps l s ((portFree s).setOrder { s.order with service := some (v.withBody data) }) := fun h1 h2 => by
    simp [Keeps, State.setOrder, h1, h2]
  have hgoes : ∀ stage want, effectOf (.bodyReadDone data) s = some (readOn (v.withBody data) stage want (portFree s)) →
      goesOn stage want := fun stage want he =>
    answers_landed he (drainReady_readOn ..) fun t hl =>
      readOn_lands (keeps_portFree s) (with_same_service hv).symm hl
  have hjoins : ∀ r, effectOf (.bodyReadDone data) s =
      some (handToCollation r ((portFree s).setOrder { s.order with service := some (v.withBody data) })) → joins r :=
    fun r he => answers_landed he drainReady_handToCollation fun t hl =>
      handToCollation_lands (hkeeps (by simp) (by simp)) hserv rfl hl
  have hrequired : ∀ k, OrderKind.ofCode kind = some k → kind = 2 ∨ kind = 3 → required = requiredLength k body := by
    intro k hk hkind
    rcases hkind with h | h
    · rw [h] at hk
      obtain rfl := Option.some.inj hk
      simp only [required, badCount, count, h, true_and, if_true, requiredLength, Nat.lt_one_iff]
      rfl
    · rw [h] at hk
      obtain rfl := Option.some.inj hk
      simp only [required, badCount, count, h, requiredLength]
      rfl
  have hkinds : kind = 2 ∨ kind = 3 → ∃ k, OrderKind.ofCode kind = some k := by
    rintro (h | h) <;> rw [h]
    · exact ⟨.loadPlan, rfl⟩
    · exact ⟨.openLot, rfl⟩
  have hwhole : whole → ∀ k, OrderKind.ofCode kind = some k → effectOf (.bodyReadDone data) s =
      some (handOver k body ((portFree s).setOrder { s.order with service := some (v.withBody data) })) := by
    rintro (⟨want, hwant, hstage⟩ | ⟨⟨want, hwant, hstage⟩, hkind, -, hf, hlen⟩) k hk
    · rw [effectOf_body hout hv hk hstage, bodySoFar_whole k _ _ hwant]
      rfl
    · have hr : headerLength v.header = requiredLength k (v.withBody data).body := hf.trans (hrequired k hk hkind)
      have hbody := bodySoFar_whole k (v.withBody data) (portFree s) hlen
      exact (effectOf_bodyPrefix hout hv hk hstage).trans
        (congrArg some ((prefixSoFar_length k _ _ hwant hr).trans hbody))
  refine ⟨fun want hstage h1 h10 hlt => ?_, fun want hstage hkind => ⟨fun hlt => ?_, fun hge => ⟨fun hne => ?_,
    fun hgood hf hlt => ?_⟩⟩, fun hw => ⟨fun h => ?_, fun h => ?_, fun h => ?_, fun h => ?_, fun h => ?_⟩⟩
  · obtain ⟨k, hk⟩ : ∃ k, OrderKind.ofCode kind = some k := by
      cases hc : OrderKind.ofCode kind with
      | some k => exact ⟨k, rfl⟩
      | none =>
        clear_value kind
        have hn : kind = 1 ∨ kind = 2 ∨ kind = 3 ∨ kind = 4 ∨ kind = 5 ∨ kind = 6 ∨ kind = 7 ∨ kind = 8 ∨ kind = 9
            ∨ kind = 10 := by omega
        rcases hn with rfl | rfl | rfl | rfl | rfl | rfl | rfl | rfl | rfl | rfl <;> cases hc
    exact hgoes _ _ ((effectOf_body hout hv hk hstage).trans (congrArg some (bodySoFar_more k _ _ hlt)))
  · obtain ⟨k, hk⟩ := hkinds hkind
    exact hgoes _ _ ((effectOf_bodyPrefix hout hv hk hstage).trans (congrArg some (prefixSoFar_more k _ _ hlt)))
  · obtain ⟨k, hk⟩ := hkinds hkind
    have hr := hrequired k hk hkind
    rw [hr] at hne
    have he := (effectOf_bodyPrefix hout hv hk hstage).trans (congrArg some (prefixSoFar_badLength k _ _ hge hne))
    refine answers_answer he hserv (hkeeps (l := [.order, .port, .irq]) (by simp) (by simp)) fun t ha hk' => ⟨?_, hk' (by simp) (by simp) (by simp)⟩
    rw [hr, ← twoValues_eq (field_two_lt _ _) (requiredLength_lt _ _)]
    exact ha
  · obtain ⟨k, hk⟩ := hkinds hkind
    have hr : headerLength v.header = requiredLength k (v.withBody data).body := hf.trans (hrequired k hk hkind)
    have hbody := bodySoFar_more k (v.withBody data) (portFree s) hlt
    exact hgoes _ _ ((effectOf_bodyPrefix hout hv hk hstage).trans
      (congrArg some ((prefixSoFar_length k _ _ hge hr).trans hbody)))
  · refine ⟨loadPlanEntries body, hjoins _ (hwhole hw .loadPlan (by rw [h]; rfl)), ?_, fun i hi => ?_⟩
    · rw [loadPlanEntries, List.length_map, length_entriesOf]
      rfl
    · rw [loadPlanEntries, List.length_map, length_entriesOf] at hi
      exact getElem?_loadPlanEntries hi
  · refine ⟨openLotBody body, hjoins _ (hwhole hw .openLot (by rw [h]; rfl)), ?_, rfl, rfl, rfl, rfl, rfl, rfl, ?_, ?_,
      fun i hi => getElem?_openLotWafers hi⟩
    · exact (BitVec.toNat_ofNat ..).trans (Nat.mod_eq_of_lt (field_lt body 0 4))
    · change ((entriesOf 16 _ _).map _).length = _
      rw [List.length_map, length_entriesOf]
      rfl
    · exact floorGroup_flagAt body 7 _ _
  · exact hjoins _ (hwhole hw .closeLot (by rw [h]; rfl))
  · exact hjoins _ (hwhole hw .snapshot (by rw [h]; rfl))
  · rw [← floorGroup_flagAt]
    exact hjoins _ (hwhole hw .releaseLot (by rw [h]; rfl))

end Sys2Proof.Machine
end

