-- ==== Sys2Proof/Proofs/Layouts.lean ====
section
/-! SUPPORT. Records as fields written one after another: where a field of them stands (R189 to R191). -/

namespace Sys2Proof.Machine

/-- Fields, each a size and a value, written one after another. -/
def encode (fs : List (Nat × Nat)) : List Byte := fs.flatMap fun x => leBytes x.1 x.2

/-- The sizes of fields together. -/
def sizeOf (fs : List (Nat × Nat)) : Nat := (fs.map (·.1)).sum

/-- Fields with the offsets they stand at from an offset on. -/
def placedFrom : Nat → List (Nat × Nat) → List (Nat × Nat × Nat)
  | _, [] => []
  | off, (size, value) :: rest => (off, size, value) :: placedFrom (off + size) rest

@[simp] theorem length_encode (fs : List (Nat × Nat)) : (encode fs).length = sizeOf fs := by
  simp [encode, sizeOf, List.length_flatMap]

theorem encode_append (fs gs : List (Nat × Nat)) : encode (fs ++ gs) = encode fs ++ encode gs := List.flatMap_append

/-- A single byte is a field of one. -/
theorem byte_eq_leBytes (b : Byte) : [b] = leBytes 1 b.toNat := by
  simp [leBytes]

/-- Fields that stand one after another from an offset on stand each at its place. -/
theorem field_of_fieldsAt {bs : List Byte} {off : Nat} {fs : List (Nat × Nat)} (h : FieldsAt bs off fs) :
    ∀ x ∈ placedFrom off fs, field bs x.1 x.2.1 = x.2.2 % 256 ^ x.2.1 := by
  induction fs generalizing off with
  | nil => exact fun x hx => absurd hx List.not_mem_nil
  | cons f fs ih =>
    obtain ⟨size, value⟩ := f
    obtain ⟨hfirst, hrest⟩ := h
    intro x hx
    rcases List.mem_cons.1 hx with rfl | hx
    · exact hfirst
    · exact ih hrest x hx

theorem fieldsAt_append {bs : List Byte} {off : Nat} {fs gs : List (Nat × Nat)} :
    FieldsAt bs off (fs ++ gs) ↔ FieldsAt bs off fs ∧ FieldsAt bs (off + sizeOf fs) gs := by
  induction fs generalizing off with
  | nil => simp [FieldsAt, sizeOf]
  | cons f fs ih =>
    obtain ⟨size, value⟩ := f
    have hoff : off + sizeOf ((size, value) :: fs) = off + size + sizeOf fs := by
      simp [sizeOf, Nat.add_assoc]
    rw [hoff]
    exact (and_congr_right fun _ => ih).trans and_assoc.symm

/-- The fields of a record begun with them. -/
theorem fieldsAt_encode (fs : List (Nat × Nat)) (post : List Byte) : FieldsAt (encode fs ++ post) 0 fs :=
  fieldsAt_leBytes [] post fs

/-- A field within the first part of a record. -/
theorem field_append_of_le {a b : List Byte} {off size : Nat} (h : off + size ≤ a.length) :
    field (a ++ b) off size = field a off size := by
  unfold field
  rw [List.drop_append_of_le_length (by omega), List.take_append_of_le_length (by rw [List.length_drop]; omega)]

theorem length_flatMap_const {α : Type} {f : α → List Byte} {k : Nat} (hf : ∀ x, (f x).length = k) (xs : List α) :
    (xs.flatMap f).length = k * xs.length := by
  simp [List.length_flatMap, hf, Nat.mul_comm]

/-- A field of one of several parts of one size. -/
theorem field_flatMap {α : Type} {f : α → List Byte} {k : Nat} (hf : ∀ x, (f x).length = k) {xs : List α} {n : Nat} {x : α}
    (hx : xs[n]? = some x) {off size : Nat} (h : off + size ≤ k) :
    field (xs.flatMap f) (k * n + off) size = field (f x) off size := by
  induction xs generalizing n with
  | nil => cases hx
  | cons y ys ih =>
    rw [List.flatMap_cons]
    cases n with
    | zero =>
      obtain rfl := Option.some.inj hx
      rw [Nat.mul_zero, Nat.zero_add, field_append_of_le (by rw [hf]; exact h)]
    | succ n =>
      have hn : k * (n + 1) + off = (f y).length + (k * n + off) := by
        rw [hf, Nat.mul_succ]
        omega
      rw [hn, field_append_right]
      exact ih hx

/-- A field of one of several parts of one size that follow the fixed part of a record. -/
theorem field_part {α : Type} {f : α → List Byte} {k : Nat} (hf : ∀ x, (f x).length = k) (pre : List Byte) {xs : List α}
    {n : Nat} {x : α} (hx : xs[n]? = some x) {off size : Nat} (h : off + size ≤ k) :
    field (pre ++ xs.flatMap f) (pre.length + k * n + off) size = field (f x) off size := by
  rw [Nat.add_assoc, field_append_right, field_flatMap hf hx h]

/-- The fields of a part of fields alone. -/
theorem field_encode {fs : List (Nat × Nat)} : ∀ x ∈ placedFrom 0 fs, field (encode fs) x.1 x.2.1 = x.2.2 % 256 ^ x.2.1 := by
  have h := fieldsAt_encode fs []
  rw [List.append_nil] at h
  exact field_of_fieldsAt h

theorem placedFrom_le {fs : List (Nat × Nat)} {off : Nat} :
    ∀ x ∈ placedFrom off fs, x.1 + x.2.1 ≤ off + sizeOf fs := by
  induction fs generalizing off with
  | nil => exact fun x hx => absurd hx List.not_mem_nil
  | cons f fs ih =>
    obtain ⟨size, value⟩ := f
    have hsize : sizeOf ((size, value) :: fs) = size + sizeOf fs := by simp [sizeOf]
    intro x hx
    rcases List.mem_cons.1 hx with rfl | hx
    · dsimp only
      omega
    · have := ih x hx
      omega

/-- A write no longer than what is left of a 64-byte block takes as much of a record as there is. -/
theorem take_chunk (a : Addr) (bs : List Byte) : bs.take (chunk a bs.length) = bs.take (64 - a.toNat % 64) := by
  unfold chunk
  rw [List.take_eq_take_iff]
  omega

end Sys2Proof.Machine
end

