-- ==== Sys2Proof/Proofs/CellRecords.lean ====
section
/-! SUPPORT. READ_CELL with its record and the layout of that, and the answer's two writes (O50; R120 to R124, R144, R150,
R155, R157, R191). -/

namespace Sys2Proof.Machine

/-! ## The layout (R122 to R124, R191) -/

/-- The fields of the open touchdown in a cell status record (R123). -/
def Assembler.openFields (a : Assembler) : List (Nat × Nat) :=
  let ofOpen (f : Touchdown → Nat) := (a.touchdown.map f).getD 0
  [(2, ofOpen fun td => td.number.toNat), (2, ofOpen fun td => td.declared.toNat), (1, ofOpen fun td => td.reports.length),
    (1, ofOpen fun td => td.lost)]

/-- The fields of the line part up to the current lot's key (R122). -/
def CellState.lineFields (c : CellNo) (stamp : Time) (k : Content) (cs : CellState) : List (Nat × Nat) :=
  [(1, c.val), (1, cs.line.state.code), (1, cs.line.decoder.code), (1, cs.line.rate.val), (4, stamp.toNat),
    (1, cs.line.q), (1, cs.line.errors), (1, cs.line.clean), (1, k.reasons.toNat), (2, k.held.toNat),
    (1, cs.holds.currentLot.isSome.toNat), (1, cs.asm.touchdown.isSome.toNat)]

/-- The fields after the open touchdown's: the rest of the assembler part and the guard part (R123, R124). -/
def CellState.restFields (cs : CellState) : List (Nat × Nat) :=
  [(1, cs.asm.queue.length), (1, cs.asm.slots), (2, cs.asm.timeout), (2, cs.asm.enabled.toNat), (2, cs.guard.w),
    (2, cs.guard.m), (2, cs.guard.l), (2, cs.guard.mc), (2, cs.guard.lc), (2, cs.guard.d), (1, cs.guard.k),
    (1, cs.guard.cellFlag.toNat), (1, (sitesOf cs.asm.enabled).length), (1, 0)]

/-- The fields of a site entry (R124). -/
def SiteGuard.fields (s : Site) (g : SiteGuard) : List (Nat × Nat) :=
  [(1, s.val), (1, g.window.length), (1, g.failCount), (1, g.run),
    (1, g.runFlag.toNat + 2 * g.limitFlag.toNat + 4 * g.spreadFlag.toNat), (3, 0)]

theorem entry_eq (s : Site) (g : SiteGuard) : g.entry s = encode (g.fields s) := by
  simp [SiteGuard.entry, encode, SiteGuard.fields, List.append_assoc]

theorem length_entry (s : Site) (g : SiteGuard) : (g.entry s).length = 8 := by
  rw [entry_eq, length_encode]
  rfl

theorem openRecord_eq (a : Assembler) : a.record = encode a.openFields
    ++ (leBytes 1 a.queue.length ++ leBytes 1 a.slots ++ leBytes 2 a.timeout ++ leBytes 2 a.enabled.toNat) := by
  unfold Assembler.record Assembler.openFields
  cases a.touchdown with
  | none => rfl
  | some t => simp [encode, List.append_assoc]

/-- The fixed part of a cell status record as its fields (R191). -/
def cellFields (c : CellNo) (s : State) : List (Nat × Nat) :=
  (s.cell c).lineFields c s.clock (holdContent s.engine.state s.coll.lots (s.cell c))
    ++ [(4, ((s.cell c).holds.currentLot.getD 0).toNat)] ++ (s.cell c).asm.openFields ++ (s.cell c).restFields

theorem cellRecord_eq (c : CellNo) (s : State) : cellRecord c s = encode (cellFields c s)
    ++ (sitesOf (s.cell c).asm.enabled).flatMap fun q => ((s.cell c).guard.site q).entry q := by
  unfold cellRecord cellFields
  dsimp only
  rw [openRecord_eq, encode_append, encode_append, encode_append]
  simp only [CellState.lineRecord, CellState.guardRecord, CellState.lineFields, CellState.restFields, encode,
    List.flatMap_cons, List.flatMap_nil, List.append_nil, List.append_assoc, byte_eq_leBytes]

theorem sizeOf_lineFields (c : CellNo) (stamp : Time) (k : Content) (cs : CellState) :
    sizeOf (cs.lineFields c stamp k) = 16 := by simp [sizeOf, CellState.lineFields]

theorem sizeOf_openFields (a : Assembler) : sizeOf a.openFields = 6 := by simp [sizeOf, Assembler.openFields]

theorem sizeOf_append (fs gs : List (Nat × Nat)) : sizeOf (fs ++ gs) = sizeOf fs + sizeOf gs := by simp [sizeOf]

theorem sizeOf_cellFields (c : CellNo) (s : State) : sizeOf (cellFields c s) = 48 := by
  unfold cellFields
  rw [sizeOf_append, sizeOf_append, sizeOf_append, sizeOf_lineFields, sizeOf_openFields]
  simp [sizeOf, CellState.restFields]

/-- Where the parts of the fixed part stand in a cell status record. -/
theorem fieldsAt_cellRecord (c : CellNo) (s : State) :
    FieldsAt (cellRecord c s) 0
        ((s.cell c).lineFields c s.clock (holdContent s.engine.state s.coll.lots (s.cell c)))
      ∧ FieldsAt (cellRecord c s) 16 [(4, ((s.cell c).holds.currentLot.getD 0).toNat)]
      ∧ FieldsAt (cellRecord c s) 20 (s.cell c).asm.openFields ∧ FieldsAt (cellRecord c s) 26 (s.cell c).restFields := by
  have hfields : FieldsAt (cellRecord c s) 0 (cellFields c s) := cellRecord_eq c s ▸ fieldsAt_encode _ _
  obtain ⟨hfront, hrest⟩ := fieldsAt_append.1 hfields
  obtain ⟨hkeyed, hopen⟩ := fieldsAt_append.1 hfront
  obtain ⟨hline, hkey⟩ := fieldsAt_append.1 hkeyed
  rw [sizeOf_append, sizeOf_append, sizeOf_lineFields, sizeOf_openFields] at hrest
  rw [sizeOf_append, sizeOf_lineFields] at hopen
  rw [sizeOf_lineFields] at hkey
  exact ⟨hline, hkey, hopen, hrest⟩

/-! ## The captured record and its writes (R120, R121) -/

theorem recordWrite_eq (p : Purpose) (w : RecordWrite) :
    w.write p = writeOf p w.next (w.rest.take (64 - w.next.toNat % 64)) := by
  unfold RecordWrite.write
  rw [take_chunk]

theorem serveReadCell_badCell {cell : Nat} (addr : Addr) (s : State) (h : 24 ≤ cell) :
    serveReadCell cell addr s = answer (.refused .badCell (oneValue cell)) s := dif_neg (Nat.not_lt.2 h)

theorem serveReadCell_badAddress {cell : Nat} {addr : Addr} (s : State) (h : cell < 24) (ha : addr.toNat % 8 ≠ 0) :
    serveReadCell cell addr s = answer (.refused .badAddress 0) s := by
  have hal : (!aligned addr 8) = true := by
    rw [Bool.not_eq_true', Bool.eq_false_iff, ne_eq, aligned_iff]
    exact ha
  unfold serveReadCell
  rw [dif_pos h, if_pos hal]

/-- The capture and first write of a READ_CELL that passes its checks. -/
theorem serveReadCell_passes {c : CellNo} {addr : Addr} (s : State) (ha : addr.toNat % 8 = 0) :
    serveReadCell c.val addr s =
      portRequest (RecordWrite.write .cellRecordWrite ⟨addr, cellRecord c s, (cellRecord c s).length⟩)
        (modService (fun v => { v with
          stage := .cellRecord ⟨addr, cellRecord c s, (cellRecord c s).length⟩ (cellRecordEntries c s) }) s) := by
  have hal : ¬(!aligned addr 8) = true := by
    rw [(aligned_iff addr 8).2 ha]
    decide
  unfold serveReadCell
  rw [dif_pos c.isLt, if_neg hal]

theorem modService_order (f : Service → Service) (s : State) :
    (modService f s).order = { s.order with service := s.order.service.map f } := rfl

theorem effectOf_cellRecordWrite {v : Service} {w : RecordWrite} {n : Nat} {s : State}
    (hout : OutstandingFor .cellRecordWrite s) (hv : s.order.service = some v) (hstage : v.stage = .cellRecord w n) :
    effectOf .cellRecordWriteDone s = some (
      if w.after.rest = [] then answer (.done (oneValue n)) (portFree s)
      else portRequest (w.after.write .cellRecordWrite)
        (modService (fun v => { v with stage := .cellRecord w.after n }) (portFree s))) := by
  obtain ⟨record, header, body, stage, stale⟩ := v
  obtain rfl : stage = .cellRecord w n := hstage
  change cellRecordWritten s = _
  unfold cellRecordWritten
  rw [acknowledged_of hout]
  simp only [Option.bind_eq_bind, Option.bind_some, portFree_order, hv]
  rw [apply_ite some]
  rfl

/-! ## The answer's writes (R144, R150) -/

theorem effectOf_resultWrite {out : OrderOutcome} {s : State} (hout : OutstandingFor .resultWrite s)
    (ho : s.order.outcome = some out) :
    effectOf .resultWordWriteDone s = some (portRequest (stateWrite s.order out) (portFree s)) := by
  change resultWritten s = _
  unfold resultWritten
  rw [acknowledged_of hout]
  simp only [Option.bind_eq_bind, Option.bind_some, portFree_order, ho]
  rfl

/-- The record an answer is written to. -/
theorem answerRecord_eq (o : OrderUnit) : o.answerRecord = (o.service.map (·.record)).getD (o.position.getD 0) := by
  unfold OrderUnit.answerRecord
  cases o.service <;> rfl

theorem stateBytes_done (r : Word) : (OrderOutcome.done r).stateBytes = [0x02, 0x00, 0x00, 0x00] := rfl

theorem stateBytes_refused (code : Code) (r : Word) :
    (OrderOutcome.refused code r).stateBytes = [0x03, 0x00, BitVec.ofNat 8 code.value, 0x00] := by
  cases code <;> rfl

/-- The order unit as an answered order leaves it (R150). -/
def OrderUnit.answered (o : OrderUnit) : OrderUnit :=
  { o with service := none, outcome := none, phase := if o.service.any (·.stale) then .fetch else .link }

theorem effectOf_stateWrite {s : State} (hout : OutstandingFor .stateWrite s) : effectOf .stateWriteDone s = some (
    if orderRuns s then
      if s.order.service.any (·.stale) then writePosition ((portFree s).setOrder s.order.answered)
      else readLink ((portFree s).setOrder s.order.answered)
    else (portFree s).setOrder s.order.answered) := by
  change stateWritten s = _
  unfold stateWritten
  rw [acknowledged_of hout]
  rfl

/-- A grant leaves a requester as busy as it was. -/
theorem portBusy_portGrant_eq {s : State} (before : State) (r : Requester) (hp : Placed s) :
    portBusy r (portGrant before s) = portBusy r s := by
  refine Bool.eq_iff_iff.2 ⟨fun h => ?_, portBusy_portGrant before r hp⟩
  obtain he | ⟨q, tr, rs, n, ho, hq, he⟩ := portGrant_cases before s
  · rwa [he] at h
  · have hplace : tr.purpose.requester = q := by
      have := hp q
      rw [hq] at this
      simpa using this
    rw [he] at h
    by_cases hr : r = q
    · subst hr
      simp [portBusy, hq]
    · have hne : q ≠ r := fun e => hr e.symm
      simpa [portBusy, waiting_put_get_ne _ _ hr, hplace, hne, ho] using h

theorem portBusy_settle {s : State} (before : State) (r : Requester) (hp : Placed s) :
    portBusy r (settle before s) = portBusy r s := by
  have hp' : Placed (judgeDrain s) := (moves_judgeDrain s).asks.placed hp
  refine (portBusy_portGrant_eq before r hp').trans ?_
  unfold portBusy
  rw [judgeDrain_port]

/-- Settles O50: `serveReadCell`, the layout of `cellRecord`, and the completions of its writes and of the answer's. -/
theorem recordsAndAnswersWritten : Obligations.RecordsAndAnswersWritten := by
  refine ⟨?_, ?_, ?_, ?_, ?_⟩
  · intro data v want s hout hv hstage hwant hkind body cell addr refused
    have heffect : effectOf (.bodyReadDone data) s = some (serveReadCell cell addr
        ((portFree s).setOrder { s.order with service := some (v.withBody data) })) :=
      (effectOf_body hout hv (k := .readCell) (by rw [headerKind, hkind]; rfl) hstage).trans
        (congrArg some (bodySoFar_whole .readCell (v.withBody data) (portFree s) hwant))
    have hrefused : ∀ code result, serveReadCell cell addr
        ((portFree s).setOrder { s.order with service := some (v.withBody data) }) = answer (.refused code (BitVec.ofNat 32 result))
          ((portFree s).setOrder { s.order with service := some (v.withBody data) }) → refused code result :=
      fun code result he => answers_answer (l := [.order, .port, .irq]) (heffect.trans (congrArg some he)) rfl
        (by simp [Keeps, State.setOrder]) fun t ha hk => ⟨ha, hk (by simp) (by simp) (by simp)⟩
    refine ⟨fun h => hrefused _ _ (serveReadCell_badCell _ _ h),
      fun h haddr => hrefused .badAddress 0 (serveReadCell_badAddress _ h haddr), fun c hc haddr => ?_⟩
    · rw [← hc] at heffect
      have hserve := serveReadCell_passes (c := c)
        ((portFree s).setOrder { s.order with service := some (v.withBody data) }) haddr
      refine answers_landed (heffect.trans (congrArg some hserve)) ?_ fun t hl => ⟨?_, ?_, ?_⟩
      · exact drainReady_of_service (Option.some_ne_none _)
      · exact hl.order
      · have h := hl.requested (requested_portRequest _ _)
        rwa [recordWrite_eq] at h
      · exact hl.keepsOf (by simp [Keeps, State.setOrder, modService])
  · intro c s l a g content sites lineState decoder ofOpen bs
    have hstate : lineState = l.state.code := by
      simp only [lineState]
      cases l.state <;> rfl
    have hdecoder : decoder = l.decoder.code := by
      simp only [decoder]
      cases l.decoder <;> rfl
    have hrecord : bs = encode (cellFields c s) ++ sites.flatMap fun q => (g.site q).entry q := cellRecord_eq c s
    obtain ⟨hline, hkey, hopen, hrest⟩ := fieldsAt_cellRecord c s
    refine ⟨?_, ?_, fun key hk => ?_, fun n q hq x hx => ?_⟩
    · rw [hrecord, List.length_append, length_encode, sizeOf_cellFields, length_flatMap_const fun q => length_entry q _]
    · rw [hstate, hdecoder]
      have h := List.forall_mem_append.2 ⟨field_of_fieldsAt hline,
        List.forall_mem_append.2 ⟨field_of_fieldsAt hopen, field_of_fieldsAt hrest⟩⟩
      exact h
    · have h := hkey.1
      have hc : (s.cell c).holds.currentLot = some key := hk
      rw [hc] at h
      exact h.trans (Nat.mod_eq_of_lt key.isLt)
    · have hx' : x ∈ placedFrom 0 ((g.site q).fields q) := hx
      have hle : x.1 + x.2.1 ≤ 8 := (placedFrom_le x hx').trans (by simp [sizeOf, SiteGuard.fields])
      have h := field_part (f := fun q => (g.site q).entry q) (fun q => length_entry q _) (encode (cellFields c s)) hq hle
      rw [length_encode, sizeOf_cellFields] at h
      rw [hrecord]
      refine h.trans ?_
      rw [entry_eq]
      exact field_encode x hx'
  · intro v w n s hout hv hstage
    have heffect := effectOf_cellRecordWrite hout hv hstage
    refine ⟨fun hrest => ?_, fun hrest => ?_⟩
    · rw [if_pos hrest] at heffect
      exact answers_answer heffect (with_same_service hv).symm (keeps_portFree (l := [.order, .port, .irq]) s)
        fun t ha hk => ⟨ha, hk (by simp) (by simp) (by simp)⟩
    · rw [if_neg hrest] at heffect
      refine answers_landed heffect ?_ fun t hl => ⟨?_, ?_, ?_⟩
      · exact drainReady_of_service (by simp [modService, State.setOrder, hv])
      · rw [hl.order, portRequest_order, modService_order, portFree_order, hv]
        rfl
      · exact hl.requested (requested_portRequest _ _)
      · exact hl.keepsOf (by simp [Keeps, State.setOrder, modService])
  · intro out s hout ho
    have hbusy : portBusy .orderUnit (portRequest (stateWrite s.order out) (portFree s)) = true :=
      portBusy_of_requested (requested_portRequest (stateWrite s.order out) (portFree s))
    refine answers_landed (effectOf_resultWrite hout ho) (drainReady_of_busy (.inl rfl) hbusy) fun t hl => ⟨?_, ?_⟩
    · have h := hl.requested (requested_portRequest _ _)
      unfold stateWrite at h
      rw [answerRecord_eq] at h
      cases out with
      | done r => rwa [stateBytes_done] at h
      | refused code r => rwa [stateBytes_refused] at h
    · exact hl.keepsOf (by simp [Keeps])
  · intro s hout
    have heffect := effectOf_stateWrite hout
    by_cases hrun : s.engine.state = .running
    · rw [if_pos ((orderRuns_iff s).2 hrun)] at heffect
      by_cases hstale : s.order.service.any (·.stale) = true
      · rw [if_pos hstale] at heffect
        refine answers_landed heffect (not_draining_of_running hrun) fun t hl => ⟨hl.order, hl.coll, hl.scanner,
          hl.sameNotices rfl, fun h => ?_, fun _ => ⟨?_, fun h => ?_, fun _ => ?_⟩⟩
        · rw [hrun] at h
          cases h
        · exact hl.keepsOf (by simp [Keeps, State.setOrder])
        · rw [hstale] at h
          cases h
        · exact hl.requested (requested_portRequest _ _)
      · rw [if_neg hstale] at heffect
        refine answers_landed heffect (not_draining_of_running hrun) fun t hl => ⟨hl.order, hl.coll, hl.scanner,
          hl.sameNotices rfl, fun h => ?_, fun _ => ⟨?_, fun _ => ?_, fun h => absurd h hstale⟩⟩
        · rw [hrun] at h
          cases h
        · exact hl.keepsOf (by simp [Keeps, State.setOrder, readLink])
        · exact hl.requested (requested_portRequest _ _)
    · rw [if_neg (mt (orderRuns_iff s).1 hrun)] at heffect
      refine answers_of_effect heffect ⟨settle_order _ _, settle_coll _ _, settle_scanner _ _,
        sameNotices_settle_of_eq s rfl, fun _ hp => ?_, fun h => absurd h hrun⟩
      have hplaced : Placed ((portFree s).setOrder s.order.answered) := hp
      exact (portBusy_settle s .orderUnit hplaced).trans (Bool.or_false _)

end Sys2Proof.Machine
end

