-- ==== Sys2Proof/Proofs/HoldOrders.lean ====
section
/-! SUPPORT. HOLD_CELLS and RELEASE_CELLS as served: their cells one by one, and the answer (O48; R105 to R107, R117 to
R119). -/

namespace Sys2Proof.Machine

/-! ## Orders on cells that raise no notice -/

/-- The cells a set names, taken one by one with a refresh, change as they would alone. -/
theorem onCells_refreshed (f : CellState → CellState) (cells : Word) (s : State) :
    OnCells (cellsOf cells) (transmit s.engine.state s.coll.lots ∘ f) [] s
      (eachCell (fun c u => refresh c (u.modCell c f)) (cellsOf cells) s) := by
  have hnodup : (cellsOf cells).Nodup := (List.nodup_finRange 24).filter _
  have h := onCells_eachCell (g := transmit s.engine.state s.coll.lots ∘ f) (ds := fun _ _ => []) hnodup
    fun c t (he : t.engine = s.engine) _ (hk : t.coll = s.coll) => by
      have h := (onCell_modCell c f t).refreshed
      rwa [he, hk] at h
  rwa [List.flatMap_eq_nil_iff.2 fun _ _ => rfl] at h

theorem mem_cellsOf (cells : Word) (c : CellNo) : c ∈ cellsOf cells ↔ cells.getLsbD c.val = true := by
  unfold cellsOf
  rw [List.mem_filter]
  exact and_iff_right (List.mem_finRange c)

theorem cellsOf_eq_nil (cells : Word) : cellsOf cells = [] ↔ ∀ c : CellNo, cells.getLsbD c.val = false := by
  rw [List.eq_nil_iff_forall_not_mem]
  refine forall_congr' fun c => ?_
  rw [mem_cellsOf, Bool.not_eq_true]

/-- Several cells changed without a notice: nothing else but the port. -/
theorem OnCells.keeps_cells {cs : List CellNo} {f : CellState → CellState} {s t : State} (h : OnCells cs f [] s t) :
    Keeps [.port, .cells] s t := by
  obtain ⟨h1, h2, h3, -, h5, h6, h7, h8, -, h10⟩ := h.keeps
  exact ⟨fun _ => h1 (by simp), fun _ => h2 (by simp), fun _ => h3 (by simp), fun hn => absurd (by simp) hn,
    fun _ => h5 (by simp), fun hn => absurd (by simp) hn, fun _ => h7 (by simp), fun _ => h8 (by simp),
    fun _ => h.tells.notice, h10⟩

theorem OnCells.order_eq {cs : List CellNo} {f : CellState → CellState} {ds : List Occurrence} {s t : State}
    (h : OnCells cs f ds s t) : t.order = s.order := h.keeps.2.2.2.2.1 (by simp)

/-! ## RELEASE_CELLS on a cell (R105 to R107) -/

theorem released_ordered (b : ReleaseBody) (cs : CellState) :
    (cs.released b).holds.ordered = (cs.holds.ordered && !namesOrdered b.reasons) := by
  obtain ⟨k, m, h⟩ := handOffFrom_holds cs.guard { cs with guard := cs.guard.release b }
  unfold CellState.released
  dsimp only
  rw [h]

theorem release_cellFlag (b : ReleaseBody) (g : Guard) :
    (g.release b).cellFlag = (g.cellFlag && !namesCellGuard b.reasons) := by
  obtain ⟨sites, h⟩ := release_frame b g
  rw [h]

/-- A flag of a site is cleared where SITE_GUARD and the site are named. -/
theorem release_flags (b : ReleaseBody) (g : Guard) (q : Site) :
    ((g.release b).site q).runFlag = ((g.site q).runFlag && !(namesSiteGuard b.reasons && hasSite b.sites q))
      ∧ ((g.release b).site q).limitFlag = ((g.site q).limitFlag && !(namesSiteGuard b.reasons && hasSite b.sites q))
      ∧ ((g.release b).site q).spreadFlag = ((g.site q).spreadFlag && !(namesSiteGuard b.reasons && hasSite b.sites q)) := by
  rw [site_release]
  cases namesSiteGuard b.reasons && hasSite b.sites q <;> cases clearScope b q <;>
    simp [SiteGuard.unflagged, SiteGuard.emptied]

theorem release_window (b : ReleaseBody) (g : Guard) (q : Site) :
    if clearScope b q = true then ((g.release b).site q).window = [] ∧ ((g.release b).site q).failCount = 0
        ∧ ((g.release b).site q).run = 0
      else ((g.release b).site q).window = (g.site q).window := by
  rw [site_release]
  split
  · exact ⟨rfl, rfl, rfl⟩
  · dsimp only
    split <;> rfl

/-- The held site set loses the sites named, where SITE_GUARD is. -/
theorem release_heldSites (b : ReleaseBody) (g : Guard) :
    (g.release b).heldSites = if namesSiteGuard b.reasons = true then g.heldSites &&& ~~~b.sites else g.heldSites := by
  refine BitVec.eq_of_getLsbD_eq fun i hi => ?_
  have hbit := heldSites_getLsbD (g.release b) ⟨i, hi⟩
  have hold := heldSites_getLsbD g ⟨i, hi⟩
  obtain ⟨h1, h2, h3⟩ := release_flags b g ⟨i, hi⟩
  rw [h1, h2, h3, ← Bool.and_or_distrib_right, ← Bool.and_or_distrib_right, ← hold] at hbit
  refine hbit.trans ?_
  cases hn : namesSiteGuard b.reasons with
  | false => simp
  | true => simp [hi]

/-- Settles O48: the cells by `onCells_refreshed`, a released cell's holds by the guard they follow. -/
theorem holdAndReleaseServed : Obligations.HoldAndReleaseServed := by
  intro data v want s hout hv hstage hwant body kind cells answers content sites reasons clears
  have heffect : ∀ k, OrderKind.ofCode kind = some k → effectOf (.bodyReadDone data) s =
      some (handOver k body ((portFree s).setOrder { s.order with service := some (v.withBody data) })) := fun k hk =>
    (effectOf_body hout hv hk hstage).trans (congrArg some (bodySoFar_whole k (v.withBody data) (portFree s) hwant))
  have hhold : kind = 8 → OrderKind.ofCode kind = some .holdCells := fun h => by rw [h]; rfl
  have hrelease : kind = 9 → OrderKind.ofCode kind = some .releaseCells := fun h => by rw [h]; rfl
  have hsome : (∃ c : CellNo, cells.getLsbD c.val = true) → ¬cellsOf cells = [] := fun ⟨c, hc⟩ h => by
    rw [(cellsOf_eq_nil cells).1 h c] at hc
    cases hc
  have hrefused : ∀ k out, OrderKind.ofCode kind = some k →
      handOver k body ((portFree s).setOrder { s.order with service := some (v.withBody data) }) =
        answer out ((portFree s).setOrder { s.order with service := some (v.withBody data) }) →
      Answers (.bodyReadDone data) s fun t => answers out t ∧ Keeps [.order, .port, .irq] s t := fun k out hk he =>
    answers_answer (l := [.order, .port, .irq]) ((heffect k hk).trans (congrArg some he)) rfl
      (by simp [Keeps, State.setOrder]) fun t ha hkeep => ⟨ha, hkeep (by simp) (by simp) (by simp)⟩
  have hserved : ∀ k out f, OrderKind.ofCode kind = some k →
      handOver k body ((portFree s).setOrder { s.order with service := some (v.withBody data) }) =
        answer out (eachCell (fun c u => refresh c (u.modCell c f)) (cellsOf cells)
          ((portFree s).setOrder { s.order with service := some (v.withBody data) })) →
      Answers (.bodyReadDone data) s fun t => answers out t ∧ Keeps [.order, .cells, .port, .irq] s t
        ∧ t.engine = s.engine ∧ t.coll = s.coll
        ∧ ∀ c, t.cell c = if cells.getLsbD c.val = true then transmit s.engine.state s.coll.lots (f (s.cell c)) else s.cell c := by
    intro k out f hk he
    have hcells := onCells_refreshed f cells ((portFree s).setOrder { s.order with service := some (v.withBody data) })
    have hkeeps : Keeps [.order, .cells, .port, .irq] s ((portFree s).setOrder { s.order with service := some (v.withBody data) }) := by
      simp [Keeps, State.setOrder]
    have hkept := hkeeps.trans (hcells.keeps_cells.mono (by simp))
    have horder := hcells.order_eq
    have hcell := hcells.cell
    have heff := (heffect k hk).trans (congrArg some he)
    generalize eachCell (fun c u => refresh c (u.modCell c f)) (cellsOf cells)
      ((portFree s).setOrder { s.order with service := some (v.withBody data) }) = w at heff hkept horder hcell
    refine answers_landed heff (drainReady_answer out (v := v.withBody data) (by rw [horder]; rfl)) fun t hl => ?_
    refine ⟨answered_answer horder hl, hl.keepsOf (keeps_answer out hkept (by simp) (by simp)), ?_, ?_, fun c => ?_⟩
    · rw [hl.engine, answer_engine]
      exact hkept.1 (by simp)
    · rw [hl.coll, answer_coll]
      exact hkept.2.2.2.2.2.2.1 (by simp)
    · rw [hl.cell, cell_eq_of_cells (answer_cells out w), hcell]
      exact if_congr (mem_cellsOf cells c) rfl rfl
  refine ⟨fun hk hempty => ?_, fun hk hnamed => ?_, fun hk hnamed hbad => ?_, fun hk hnamed hgood hok => ?_⟩
  · have hnil := (cellsOf_eq_nil cells).2 hempty
    rcases hk with hk | hk
    · exact hrefused .holdCells _ (hhold hk) (congrArg answerServed (if_pos hnil))
    · exact hrefused .releaseCells _ (hrelease hk) (congrArg answerServed (if_pos hnil))
  · obtain ⟨t, ht, ha, hkeep, -, -, hcell⟩ := hserved .holdCells _ _ (hhold hk) (congrArg answerServed (if_neg (hsome hnamed)))
    refine ⟨t, ht, ?_, fun c => ?_, hkeep⟩
    · rw [cellsOf, List.filter_filter] at ha
      rw [List.filter_congr fun c _ => Bool.and_comm _ _]
      exact ha
    · rw [hcell]
      cases cells.getLsbD c.val with
      | false => simp
      | true => simp
  · exact hrefused .releaseCells _ (hrelease hk) (congrArg answerServed ((if_neg (hsome hnamed)).trans (if_pos hbad)))
  · obtain ⟨t, ht, ha, hkeep, heng, hcoll, hcell⟩ := hserved .releaseCells _ _ (hrelease hk)
      (congrArg answerServed ((if_neg (hsome hnamed)).trans (if_neg (not_not.2 hgood))))
    refine ⟨t, ht, ?_, hkeep, fun c => ?_⟩
    · have hcount : ((allCells.filter fun c => content s c != content t c)).length =
          ((cellsOf cells).filter (releaseChanges (releaseBody body) s)).length := by
        rw [cellsOf, List.filter_filter]
        refine congrArg List.length (List.filter_congr fun c _ => ?_)
        simp only [content, heng, hcoll, hcell]
        cases hc : cells.getLsbD c.val with
        | false => simp [hasCell, hc]
        | true => simp [hasCell, hc, releaseChanges]
      rw [hcount]
      exact ha
    · by_cases hc : cells.getLsbD c.val = true
      · obtain ⟨hasm, -, hguard⟩ := released_frame (releaseBody body) (s.cell c)
        obtain ⟨-, hflag', hheld'⟩ := (guardOk_iff _).1 (released_guardOk (releaseBody body) (hok c))
        obtain ⟨-, hflag, hheld⟩ := (guardOk_iff _).1 (hok c)
        rw [(hcell c).trans (if_pos hc), if_pos hc, transmit_asm, transmit_holds, transmit_guard, hflag', hheld', hguard,
          hflag, hheld]
        refine ⟨hasm, released_ordered _ _, release_cellFlag _ _, release_cellFlag _ _, release_heldSites _ _, fun q => ?_⟩
        obtain ⟨h1, h2, h3⟩ := release_flags (releaseBody body) (s.cell c).guard q
        refine ⟨h1, h2, h3, ?_⟩
        have hscope : clearScope (releaseBody body) q = true ↔
            clears ∧ (reasons.getLsbD 1 = true ∨ reasons.getLsbD 7 = true ∧ sites.getLsbD q.val = true) := by
          unfold clearScope
          rw [Bool.and_eq_true, Bool.or_eq_true, Bool.and_eq_true]
          refine and_congr_left fun _ => ?_
          exact beq_iff_eq
        rw [← if_congr hscope rfl rfl]
        exact release_window _ _ _
      · rw [(hcell c).trans (if_neg hc), if_neg hc]
        exact ⟨rfl, rfl, rfl⟩

end Sys2Proof.Machine
end

