-- ==== Sys2Proof/Proofs/ConfiguredCells.lean ====
section
/-! SUPPORT. What CONFIGURE_CELLS makes of one cell: its line, its assembler, its guard and what its transmitter has to
send (R25, R35 to R39, R42, R58, R100 to R104). -/

namespace Sys2Proof.Machine

/-! ## What a transmitter has to send (R40 to R42) -/

theorem woken_of_ne_silent {t : Transmitter} (h : t ≠ .silent) : t.woken = t := by
  cases t with
  | silent => exact absurd rfl h
  | idle => rfl
  | sending final rate m => rfl

/-- After its look a transmitter that had a HOLD_STATE forced, or the final one owed, is sending it or has it to send. -/
theorem hasToSend_transmit {eng : EngineState} {lots : List Lot} {final : Bool} {old : Line} {cs : CellState}
    (htx : cs.line.tx = old.tx.woken) (hfinal : final = true → cs.line.finalOwed = true)
    (hforced : final = false → cs.line.forced = true ∧ cs.line.finalOwed = false ∧ cs.line.state ≠ .offline) :
    HasToSend final old (holdContent eng lots (transmit eng lots cs)) (transmit eng lots cs).line := by
  rw [holdContent_transmit]
  have hidle : cs.line.tx = .idle → (transmit eng lots cs).line.tx = .sending final (transmit eng lots cs).line.txRate
        (holdContent eng lots cs).message
      ∧ (transmit eng lots cs).line.lastSent = some (holdContent eng lots cs)
      ∧ (transmit eng lots cs).line.forced = false ∧ (transmit eng lots cs).line.finalOwed = false := by
    intro h
    rw [transmit_idle eng lots h]
    cases final with
    | true => simp [hfinal rfl]
    | false =>
      obtain ⟨hf, ho, hs⟩ := hforced rfl
      simp [hf, ho, hs]
  cases hold : old.tx with
  | silent =>
    rw [hold] at htx
    simp only [HasToSend, hold]
    exact hidle htx
  | idle =>
    rw [hold] at htx
    simp only [HasToSend, hold]
    exact hidle htx
  | sending f rate m =>
    rw [hold] at htx
    have hstay : transmit eng lots cs = cs := by
      unfold transmit
      rw [htx]
      rfl
    simp only [HasToSend, hold, hstay]
    refine ⟨htx, ?_⟩
    cases final with
    | true => exact hfinal rfl
    | false => exact (hforced rfl).1

theorem transmit_finalOwed {eng : EngineState} {lots : List Lot} {cs : CellState} (h : cs.line.finalOwed = false) :
    (transmit eng lots cs).line.finalOwed = false := by
  unfold transmit
  split
  · rw [h]
    split
    · simp [beginMessage, h]
    · split
      · simp [beginMessage, h]
      · exact h
  · exact h

theorem transmit_of_busy {eng : EngineState} {lots : List Lot} {cs : CellState} (h : cs.line.tx ≠ .idle) :
    transmit eng lots cs = cs := by
  unfold transmit
  split
  · rename_i hidle
    exact absurd hidle h
  · rfl

theorem transmit_rate_q (eng : EngineState) (lots : List Lot) (cs : CellState) :
    (transmit eng lots cs).line.rate = cs.line.rate ∧ (transmit eng lots cs).line.q = cs.line.q := by
  obtain ⟨tx, last, forced, owed, h⟩ := transmit_line eng lots cs
  rw [h]
  exact ⟨rfl, rfl⟩

/-! ## The line (R25, R36 to R39, R42) -/

/-- The line group takes effect on a line in service alone (R38). -/
theorem takeRate_eq (b : ConfigureBody) (l : Line) : takeRate b.rate l = { l with
    rate := (b.rate.map (Fin.ofNat 8)).getD l.rate
    txRate := if b.changesRate l = true ∧ l.state ≠ .offline then (b.rate.map (Fin.ofNat 8)).getD l.rate else l.txRate
    rx := if b.changesRate l = true ∧ l.state ≠ .offline then .idle else l.rx
    decoder := if b.changesRate l = true ∧ l.state ≠ .offline then .hunt else l.decoder
    forced := if b.changesRate l = true ∧ l.state ≠ .offline then true else l.forced } := by
  unfold takeRate ConfigureBody.changesRate
  cases b.rate with
  | none => simp
  | some r =>
    by_cases hr : r = l.rate.val
    · have : Fin.ofNat 8 r = l.rate := Fin.ext (by rw [hr]; exact Nat.mod_eq_of_lt l.rate.isLt)
      simp [hr]
    · by_cases hs : l.state = .offline
      · simp [hr, hs]
      · simp [hr, hs]

theorem takeTiming_line (timing : Option (Nat × Nat)) (cs : CellState) :
    (takeTiming timing cs).line = { cs.line with q := (timing.map (·.2)).getD cs.line.q } := by
  unfold takeTiming
  cases timing <;> rfl

theorem takeTiming_asm (timing : Option (Nat × Nat)) (cs : CellState) : (takeTiming timing cs).asm =
    { cs.asm with timeout := (timing.map fun x => clampTimeout x.1).getD cs.asm.timeout } := by
  unfold takeTiming
  cases timing <;> rfl

/-- A line with the settings of the order, its mode aside (R38, R39). -/
def ConfigureBody.setLine (b : ConfigureBody) (l : Line) : Line :=
  { takeRate b.rate l with q := (b.timing.map (·.2)).getD (takeRate b.rate l).q }

theorem setLine_eq (b : ConfigureBody) (l : Line) : b.setLine l = { l with
    rate := (b.rate.map (Fin.ofNat 8)).getD l.rate
    txRate := if b.changesRate l = true ∧ l.state ≠ .offline then (b.rate.map (Fin.ofNat 8)).getD l.rate else l.txRate
    rx := if b.changesRate l = true ∧ l.state ≠ .offline then .idle else l.rx
    decoder := if b.changesRate l = true ∧ l.state ≠ .offline then .hunt else l.decoder
    forced := if b.changesRate l = true ∧ l.state ≠ .offline then true else l.forced
    q := (b.timing.map (·.2)).getD l.q } := by
  unfold ConfigureBody.setLine
  rw [takeRate_eq]

theorem setLine_state (b : ConfigureBody) (l : Line) : (b.setLine l).state = l.state := by rw [setLine_eq]

/-- A cell's line after the order: its settings, then its mode. -/
theorem configured_line (b : ConfigureBody) (eng : EngineState) (now : Time) (cs : CellState) :
    (cs.configured b eng now).line = takeMode b.online eng now (b.setLine cs.line) := by
  unfold CellState.configured
  dsimp only
  rw [(handOffFrom_frame _ _).2, takeTiming_line]
  rfl

theorem configured_asm (b : ConfigureBody) (eng : EngineState) (now : Time) (cs : CellState) :
    (cs.configured b eng now).asm = { cs.asm with
      enabled := b.sites.getD cs.asm.enabled
      timeout := (b.timing.map fun x => clampTimeout x.1).getD cs.asm.timeout } := by
  obtain ⟨-, ha, -, -⟩ := configured_frame b eng now cs
  rw [ha, takeTiming_asm]
  rfl

/-- A line that goes ONLINE. -/
theorem takeMode_goes_online {eng : EngineState} {now : Time} {l : Line} (h : l.state = .offline) :
    takeMode true eng now l = l.goOnline eng now := by
  unfold takeMode
  rw [h]

theorem takeMode_stays_online {eng : EngineState} {now : Time} {l : Line} (h : l.state ≠ .offline) :
    takeMode true eng now l = l := by
  unfold takeMode
  cases hs : l.state with
  | offline => exact absurd hs h
  | online => rfl
  | quarantined => rfl

theorem takeMode_stays_offline {eng : EngineState} {now : Time} {l : Line} (h : l.state = .offline) :
    takeMode false eng now l = l := by
  unfold takeMode
  rw [h]

theorem takeMode_goes_offline {eng : EngineState} {now : Time} {l : Line} (h : l.state ≠ .offline) :
    takeMode false eng now l = l.goOffline := by
  unfold takeMode
  cases hs : l.state with
  | offline => exact absurd hs h
  | online => rfl
  | quarantined => rfl

/-- A line's state, rate and Q after the order. -/
theorem configured_settings (b : ConfigureBody) (eng : EngineState) (now : Time) (cs : CellState) :
    (cs.configured b eng now).line.state =
        (if b.online then if cs.line.state = .offline then .online else cs.line.state else .offline)
      ∧ (cs.configured b eng now).line.rate = (b.rate.map (Fin.ofNat 8)).getD cs.line.rate
      ∧ (cs.configured b eng now).line.txRate =
        (if cs.line.state = .offline then
          if b.online then (b.rate.map (Fin.ofNat 8)).getD cs.line.rate else cs.line.txRate
        else if b.changesRate cs.line = true then (b.rate.map (Fin.ofNat 8)).getD cs.line.rate else cs.line.txRate)
      ∧ (cs.configured b eng now).line.q = (b.timing.map (·.2)).getD cs.line.q := by
  rw [configured_line]
  cases hon : b.online with
  | true =>
    by_cases hoff : cs.line.state = .offline
    · rw [takeMode_goes_online (l := b.setLine cs.line) (by rw [setLine_state]; exact hoff), goOnline_eq, setLine_eq]
      simp [hoff]
    · rw [takeMode_stays_online (l := b.setLine cs.line) (by rw [setLine_state]; exact hoff), setLine_eq]
      simp [hoff]
  | false =>
    by_cases hoff : cs.line.state = .offline
    · rw [takeMode_stays_offline (l := b.setLine cs.line) (by rw [setLine_state]; exact hoff), setLine_eq]
      simp [hoff]
    · rw [takeMode_goes_offline (l := b.setLine cs.line) (by rw [setLine_state]; exact hoff), setLine_eq]
      simp [hoff, Line.goOffline, Line.stopReceiver]

/-- A line that goes ONLINE starts afresh with a HOLD_STATE forced (R25, R36, R42). -/
theorem configured_goes_online {b : ConfigureBody} (eng : EngineState) (now : Time) {cs : CellState} (hon : b.online = true)
    (hoff : cs.line.state = .offline) :
    (cs.configured b eng now).line.decoder = .hunt ∧ (cs.configured b eng now).line.errors = 0
      ∧ (cs.configured b eng now).line.clean = 0 ∧ (cs.configured b eng now).line.finalOwed = false
      ∧ (cs.configured b eng now).line.forced = true ∧ (cs.configured b eng now).line.tx = cs.line.tx.woken
      ∧ (cs.configured b eng now).line.rx = (if Hears eng then .idle else cs.line.rx)
      ∧ (cs.configured b eng now).line.windowEnd = (if Hears eng then some (Time.plus now 1000) else cs.line.windowEnd) := by
  rw [configured_line, hon, takeMode_goes_online (l := b.setLine cs.line) (by rw [setLine_state]; exact hoff), goOnline_eq, setLine_eq]
  simp [hoff]

/-- A line that goes OFFLINE stops its receiver and owes the final message (R37, R42). -/
theorem configured_goes_offline {b : ConfigureBody} (eng : EngineState) (now : Time) {cs : CellState} (hon : b.online = false)
    (hoff : cs.line.state ≠ .offline) :
    (cs.configured b eng now).line.rx = .idle ∧ (cs.configured b eng now).line.decoder = .hunt
      ∧ (cs.configured b eng now).line.windowEnd = none ∧ (cs.configured b eng now).line.errors = cs.line.errors
      ∧ (cs.configured b eng now).line.clean = cs.line.clean ∧ (cs.configured b eng now).line.tx = cs.line.tx
      ∧ (cs.configured b eng now).line.finalOwed = true := by
  rw [configured_line, hon, takeMode_goes_offline (l := b.setLine cs.line) (by rw [setLine_state]; exact hoff), setLine_eq]
  exact ⟨rfl, rfl, rfl, rfl, rfl, rfl, rfl⟩

/-- A line that stays in service: a changed rate ends its partial message and forces a send (R38). -/
theorem configured_stays_online {b : ConfigureBody} (eng : EngineState) (now : Time) {cs : CellState} (hon : b.online = true)
    (hoff : cs.line.state ≠ .offline) :
    (cs.configured b eng now).line.errors = cs.line.errors ∧ (cs.configured b eng now).line.clean = cs.line.clean
      ∧ (cs.configured b eng now).line.windowEnd = cs.line.windowEnd
      ∧ (cs.configured b eng now).line.tx = cs.line.tx ∧ (cs.configured b eng now).line.finalOwed = cs.line.finalOwed
      ∧ if b.changesRate cs.line = true then (cs.configured b eng now).line.rx = .idle
          ∧ (cs.configured b eng now).line.decoder = .hunt ∧ (cs.configured b eng now).line.forced = true
        else (cs.configured b eng now).line.rx = cs.line.rx ∧ (cs.configured b eng now).line.decoder = cs.line.decoder := by
  rw [configured_line, hon, takeMode_stays_online (l := b.setLine cs.line) (by rw [setLine_state]; exact hoff), setLine_eq]
  refine ⟨rfl, rfl, rfl, rfl, rfl, ?_⟩
  split
  · rename_i h
    simp [h, hoff]
  · rename_i h
    simp [h]

/-- A line that stays OFFLINE keeps its receiver and its transmitter (R38). -/
theorem configured_stays_offline {b : ConfigureBody} (eng : EngineState) (now : Time) {cs : CellState} (hon : b.online = false)
    (hoff : cs.line.state = .offline) :
    (cs.configured b eng now).line.rx = cs.line.rx ∧ (cs.configured b eng now).line.decoder = cs.line.decoder
      ∧ (cs.configured b eng now).line.errors = cs.line.errors ∧ (cs.configured b eng now).line.clean = cs.line.clean
      ∧ (cs.configured b eng now).line.windowEnd = cs.line.windowEnd ∧ (cs.configured b eng now).line.tx = cs.line.tx := by
  rw [configured_line, hon, takeMode_stays_offline (l := b.setLine cs.line) (by rw [setLine_state]; exact hoff), setLine_eq]
  simp [hoff]

/-! ## The guard (R100 to R103) -/

theorem configured_guard_some {b : ConfigureBody} {p : GuardGroup} (h : b.guard = some p) (eng : EngineState) (now : Time)
    (cs : CellState) : (cs.configured b eng now).guard =
      (cs.guard.takeSites cs.asm.enabled (b.sites.getD cs.asm.enabled)).takeGroup p.clamped := by
  refine (configured_frame b eng now cs).1.trans ?_
  unfold takeGuardGroups
  rw [h]

theorem configured_guard_none {b : ConfigureBody} (h : b.guard = none) (eng : EngineState) (now : Time)
    (cs : CellState) : (cs.configured b eng now).guard =
      cs.guard.takeSites cs.asm.enabled (b.sites.getD cs.asm.enabled) := by
  refine (configured_frame b eng now cs).1.trans ?_
  unfold takeGuardGroups
  rw [h]

theorem emptied_unflagged (q : SiteGuard) : q.emptied.unflagged = SiteGuard.reset := rfl

/-- A site stays as it is where W and the site stay (R102, R103). -/
theorem configured_site_kept {b : ConfigureBody} (eng : EngineState) (now : Time) {cs : CellState} {q : Site}
    (hw : ∀ p ∈ b.guard, p.w = cs.guard.w)
    (hq : hasSite cs.asm.enabled q = true → hasSite (b.sites.getD cs.asm.enabled) q = true) :
    (cs.configured b eng now).guard.site q = cs.guard.site q := by
  have hsites : (cs.guard.takeSites cs.asm.enabled (b.sites.getD cs.asm.enabled)).site q = cs.guard.site q := by
    rw [site_takeSites, if_neg]
    rw [Bool.and_eq_true, Bool.not_eq_true']
    rintro ⟨h1, h2⟩
    rw [hq h1] at h2
    cases h2
  cases hg : b.guard with
  | none => rw [configured_guard_none hg, hsites]
  | some p =>
    have hw' : p.clamped.w = (cs.guard.takeSites cs.asm.enabled (b.sites.getD cs.asm.enabled)).w := hw p hg
    rw [configured_guard_some hg, site_takeGroup, if_pos hw', hsites]

theorem configured_cellFlag_kept {b : ConfigureBody} (eng : EngineState) (now : Time) {cs : CellState}
    (hw : ∀ p ∈ b.guard, p.w = cs.guard.w) : (cs.configured b eng now).guard.cellFlag = cs.guard.cellFlag := by
  cases hg : b.guard with
  | none =>
    rw [configured_guard_none hg]
    rfl
  | some p =>
    have hw' : p.clamped.w = (cs.guard.takeSites cs.asm.enabled (b.sites.getD cs.asm.enabled)).w := hw p hg
    rw [configured_guard_some hg, Guard.takeGroup, if_pos hw']
    rfl

/-- A site that leaves the enabled set is as reset (R103). -/
theorem configured_site_left {b : ConfigureBody} (eng : EngineState) (now : Time) {cs : CellState} {q : Site}
    (h1 : hasSite cs.asm.enabled q = true) (h2 : hasSite (b.sites.getD cs.asm.enabled) q = false) :
    (cs.configured b eng now).guard.site q = SiteGuard.reset := by
  have hsites : (cs.guard.takeSites cs.asm.enabled (b.sites.getD cs.asm.enabled)).site q = SiteGuard.reset := by
    rw [site_takeSites, h1, h2]
    rfl
  cases hg : b.guard with
  | none => rw [configured_guard_none hg, hsites]
  | some p =>
    rw [configured_guard_some hg, site_takeGroup, hsites]
    exact ite_self _

/-- A new W empties and clears the whole guard (R102). -/
theorem configured_new_window {b : ConfigureBody} {p : GuardGroup} (hg : b.guard = some p) (eng : EngineState) (now : Time)
    {cs : CellState} (hw : p.w ≠ cs.guard.w) : (cs.configured b eng now).guard.cellFlag = false
      ∧ ∀ q : Site, (cs.configured b eng now).guard.site q = SiteGuard.reset := by
  have hw' : ¬p.clamped.w = (cs.guard.takeSites cs.asm.enabled (b.sites.getD cs.asm.enabled)).w := hw
  rw [configured_guard_some hg]
  refine ⟨?_, fun q => ?_⟩
  · rw [Guard.takeGroup, if_neg hw']
  · rw [site_takeGroup, if_neg hw', emptied_unflagged]

/-- The parameters of a guard group are taken clamped (R101, R102). -/
theorem configured_parameters {b : ConfigureBody} {p : GuardGroup} (hg : b.guard = some p) (eng : EngineState) (now : Time)
    (cs : CellState) : (cs.configured b eng now).guard.w = p.w ∧ (cs.configured b eng now).guard.m = max 1 (min p.m p.w)
      ∧ (cs.configured b eng now).guard.l = min p.l 1024 ∧ (cs.configured b eng now).guard.mc = max 1 (min p.mc 2048)
      ∧ (cs.configured b eng now).guard.lc = min p.lc 1024 ∧ (cs.configured b eng now).guard.d = min p.d 1024
      ∧ (cs.configured b eng now).guard.k = p.k := by
  rw [configured_guard_some hg, Guard.takeGroup]
  split <;> exact ⟨rfl, rfl, rfl, rfl, rfl, rfl, rfl⟩

theorem configured_guard_sites {b : ConfigureBody} (hg : b.guard = none) (eng : EngineState) (now : Time)
    (cs : CellState) : (cs.configured b eng now).guard =
      { cs.guard with sites := (cs.configured b eng now).guard.sites } := by
  rw [configured_guard_none hg]
  rfl

end Sys2Proof.Machine
end

