-- ==== Sys2Proof/Proofs/ConfigureServed.lean ====
section
/-! SUPPORT. CONFIGURE_CELLS as served: its refusals, its clamps, and its cells one by one with their notices (O49). -/

namespace Sys2Proof.Machine

/-! ## The body as read (R187) -/

theorem groupBit_iff (v : Nat) {n : Nat} (h : n < 8) : (BitVec.ofNat 8 v).getLsbD n = true ↔ v / 2 ^ n % 2 = 1 := by
  rw [BitVec.getLsbD_ofNat, Nat.testBit_eq_decide_div_mod_eq]
  simp [h]

theorem configureBody_rate (bs : List Byte) : (configureBody bs).rate =
    if field bs 5 1 / 2 ^ 0 % 2 = 1 then some (field bs 6 1) else none :=
  if_congr (groupBit_iff _ (by decide)) rfl rfl

theorem configureBody_sites (bs : List Byte) : (configureBody bs).sites =
    if field bs 5 1 / 2 ^ 1 % 2 = 1 then some (BitVec.ofNat 16 (field bs 8 2)) else none :=
  if_congr (groupBit_iff _ (by decide)) rfl rfl

theorem configureBody_guard (bs : List Byte) : (configureBody bs).guard =
    if field bs 5 1 / 2 ^ 2 % 2 = 1 then
      some ⟨field bs 0x0C 2, field bs 0x0E 2, field bs 0x10 2, field bs 0x12 2, field bs 0x14 2, field bs 0x16 2,
        field bs 0x18 1⟩
    else none :=
  if_congr (groupBit_iff _ (by decide)) rfl rfl

theorem configureBody_timing (bs : List Byte) : (configureBody bs).timing =
    if field bs 5 1 / 2 ^ 3 % 2 = 1 then some (field bs 0x0A 2, field bs 7 1) else none :=
  if_congr (groupBit_iff _ (by decide)) rfl rfl

theorem configureBody_online (bs : List Byte) : (configureBody bs).online = true ↔ field bs 4 1 % 2 = 1 := by
  change flagAt bs 4 = true ↔ _
  unfold flagAt
  rw [beq_iff_eq]

theorem goodWindow_iff (w : Nat) : goodWindow w = true ↔ w = 16 ∨ w = 32 ∨ w = 64 ∨ w = 128 := by
  simp [goodWindow]

/-! ## Clamps (R58, R101) -/

/-- A value differs from its clamp where it lies outside the range. -/
theorem clampTo_ne {low high v : Nat} (h : low ≤ high) :
    (clampTo low high v != v).toNat = if v < low ∨ high < v then 1 else 0 := by
  unfold clampTo
  by_cases hv : v < low ∨ high < v
  · have hne : max low (min v high) ≠ v := by omega
    rw [if_pos hv, bne_iff_ne.2 hne]
    rfl
  · have he : max low (min v high) = v := by omega
    rw [if_neg hv, he, bne_self_eq_false]
    rfl

theorem min_ne (high v : Nat) : (min v high != v).toNat = if v < 0 ∨ high < v then 1 else 0 := by
  have h := clampTo_ne (v := v) (Nat.zero_le high)
  rwa [clampTo, Nat.zero_max] at h

theorem guard_clamps {p : GuardGroup} (hw : 1 ≤ p.w) : p.clamps =
    (if p.m < 1 ∨ p.w < p.m then 1 else 0) + (if p.l < 0 ∨ 1024 < p.l then 1 else 0)
      + (if p.mc < 1 ∨ 2048 < p.mc then 1 else 0) + (if p.lc < 0 ∨ 1024 < p.lc then 1 else 0)
      + (if p.d < 0 ∨ 1024 < p.d then 1 else 0) := by
  have hclamps : p.clamps = (clampTo 1 p.w p.m != p.m).toNat + (clampTo 1 2048 p.mc != p.mc).toNat
      + (min p.l 1024 != p.l).toNat + (min p.lc 1024 != p.lc).toNat + (min p.d 1024 != p.d).toNat := rfl
  rw [hclamps, clampTo_ne hw, clampTo_ne (by decide), min_ne, min_ne, min_ne]
  omega

/-! ## The cells (R35) -/

/-- A cell whose open touchdown has been closed first, where the order closes it. -/
def ConfigureBody.closedFirst (b : ConfigureBody) (now : Time) (cs : CellState) : CellState :=
  if b.closes cs then cs.closeRecord .reconfigured now else cs

theorem closedFirst_asmOnly (b : ConfigureBody) (now : Time) (cs : CellState) : AsmOnly cs (b.closedFirst now cs) := by
  unfold ConfigureBody.closedFirst
  split
  · exact closeRecord_asmOnly _ _ _
  · exact AsmOnly.refl cs

theorem closedFirst_asm (b : ConfigureBody) (now : Time) (cs : CellState) :
    (b.closedFirst now cs).asm.touchdown = (if b.closes cs then none else cs.asm.touchdown)
      ∧ (b.closedFirst now cs).asm.queue = (if b.closes cs then queueAfterClose .reconfigured now cs.asm else cs.asm.queue) := by
  unfold ConfigureBody.closedFirst
  obtain ⟨htd, -, -, hq⟩ := closeRecord_asm .reconfigured now cs
  split
  · exact ⟨htd, hq⟩
  · exact ⟨rfl, rfl⟩

/-- The notices of one cell's close. -/
def ConfigureBody.notices (b : ConfigureBody) (now : Time) (c : CellNo) (cs : CellState) : List Occurrence :=
  if b.closes cs then closeNotices .reconfigured now c cs.asm else []

/-- The cells of the order, each as it takes it, with the notices of their closes. -/
theorem onCells_configure (b : ConfigureBody) (s : State) :
    OnCells (cellsOf b.cells)
      (fun cs => transmit s.engine.state s.coll.lots ((b.closedFirst s.clock cs).configured b s.engine.state s.clock))
      ((cellsOf b.cells).flatMap fun c => b.notices s.clock c (s.cell c)) s
      (eachCell (configureCell b) (cellsOf b.cells) s) := by
  refine onCells_eachCell (ds := fun c cs => b.notices s.clock c cs) ((List.nodup_finRange 24).filter _)
    fun c t (he : t.engine = s.engine) (hclock : t.clock = s.clock) (hk : t.coll = s.coll) => ?_
  have h := onCell_configureCell b c t
  rw [he, hclock, hk] at h
  exact h

/-- Occurrences that each name their cell are of different keys where each cell's are. -/
theorem nodup_cells {f : CellNo → List Occurrence} (hf : ∀ c, ((f c).map Occurrence.key).Nodup)
    (hsubject : ∀ c, ∀ x ∈ f c, x.1 = .cell c) {cs : List CellNo} (hcs : cs.Nodup) :
    ((cs.flatMap f).map Occurrence.key).Nodup := by
  rw [List.map_flatMap, List.nodup_flatMap]
  refine ⟨fun c _ => hf c, hcs.imp fun {c d} hne => ?_⟩
  show List.Disjoint _ _
  intro k hc hd
  obtain ⟨x, hx, rfl⟩ := List.mem_map.1 hc
  obtain ⟨y, hy, he⟩ := List.mem_map.1 hd
  have hsame : y.1 = x.1 := congrArg NoticeKey.subject he
  rw [hsubject _ x hx, hsubject _ y hy] at hsame
  exact hne (Subject.cell.inj hsame).symm

theorem nodup_configure (b : ConfigureBody) (s : State) :
    (((cellsOf b.cells).flatMap fun c => b.notices s.clock c (s.cell c)).map Occurrence.key).Nodup := by
  refine nodup_cells (fun c => ?_) (fun c x hx => ?_) ((List.nodup_finRange 24).filter _)
  · unfold ConfigureBody.notices
    split
    · exact closeNotices_nodup _ _ _ _
    · exact List.nodup_nil
  · unfold ConfigureBody.notices at hx
    split at hx
    · exact (closeNotices_kinds hx).1
    · cases hx

/-- The notices of an abnormal close, each noted, are those of the close (R54, R55). -/
theorem closeNoted_of_noted {kind : CloseKind} {c : CellNo} {s t : State} (hkind : kind ≠ .normal)
    (h : ∀ x ∈ closeNotices kind s.clock c (s.cell c).asm, Noted x.1 x.2 s t) : CloseNoted kind c s t := by
  intro td htd
  rw [closeNotices_open htd, if_pos (short_of_abnormal hkind td s.clock)] at h
  refine ⟨h _ (List.mem_append_left _ List.mem_cons_self), fun hlost => h (.cell c, .touchdownLoss td.number td.reports.length) ?_⟩
  rw [if_pos hlost]
  exact List.mem_append_right _ List.mem_cons_self

/-- CONFIGURE_CELLS accepted, from the order's body read whole to the state it answers. -/
theorem configure_answers {data : List Byte} {v : Service} {want : Nat} {s : State}
    (hout : Outstanding .bodyRead data.length s) (hv : s.order.service = some v) (hstage : v.stage = .body want)
    (hwant : want ≤ (v.body ++ data).length) (hkind : field v.header 0x08 2 = 7)
    (hok : (configureBody (v.body ++ data)).error = none) :
    let b := configureBody (v.body ++ data)
    Answers (.bodyReadDone data) s fun t =>
      Answered { v with body := v.body ++ data } (.done (oneValue b.clamps)) s t
      ∧ Keeps [.order, .cells, .notice, .port, .irq] s t
      ∧ (∀ c, t.cell c = if b.cells.getLsbD c.val = true then
          transmit s.engine.state s.coll.lots ((b.closedFirst s.clock (s.cell c)).configured b s.engine.state s.clock)
        else s.cell c)
      ∧ ∀ c, b.cells.getLsbD c.val = true → b.closes (s.cell c) = true → CloseNoted .reconfigured c s t := by
  intro b
  have hserve : serveConfigure b ((portFree s).setOrder { s.order with service := some (v.withBody data) }) =
      (.done (oneValue b.clamps), eachCell (configureCell b) (cellsOf b.cells)
        ((portFree s).setOrder { s.order with service := some (v.withBody data) })) := by
    unfold serveConfigure
    rw [hok]
  have heffect := (effectOf_body hout hv (k := .configureCells) (by rw [headerKind, hkind]; rfl) hstage).trans
    (congrArg some ((bodySoFar_whole .configureCells (v.withBody data) (portFree s) hwant).trans
      (congrArg answerServed hserve)))
  have hcells := onCells_configure b ((portFree s).setOrder { s.order with service := some (v.withBody data) })
  have hdiff := nodup_configure b ((portFree s).setOrder { s.order with service := some (v.withBody data) })
  have hkeeps : Keeps [.order, .cells, .notice, .port, .irq] s
      ((portFree s).setOrder { s.order with service := some (v.withBody data) }) := by
    simp [Keeps, State.setOrder]
  have hkept := hkeeps.trans (hcells.keeps.mono (by simp))
  have horder := hcells.order_eq
  generalize eachCell (configureCell b) (cellsOf b.cells)
    ((portFree s).setOrder { s.order with service := some (v.withBody data) }) = w at heffect hkept horder hcells
  refine answers_landed heffect (drainReady_answer _ (v := v.withBody data) (by rw [horder]; rfl)) fun t hl => ?_
  refine ⟨answered_answer horder hl, hl.keepsOf (keeps_answer _ hkept (by simp) (by simp)), fun c => ?_, fun c hc hclose => ?_⟩
  · rw [hl.cell]
    refine (hcells.cell c).trans (if_congr (mem_cellsOf b.cells c) rfl rfl)
  · refine closeNoted_of_noted CloseKind.noConfusion fun x hx => ?_
    have hmem : x ∈ (cellsOf b.cells).flatMap fun c => b.notices s.clock c (s.cell c) := by
      refine List.mem_flatMap.2 ⟨c, (mem_cellsOf b.cells c).2 hc, ?_⟩
      unfold ConfigureBody.notices
      rw [if_pos hclose]
      exact hx
    exact noted_congr (v := t) (t := w) (u := (portFree s).setOrder { s.order with service := some (v.withBody data) }) rfl
      hl.notice (hcells.tells.noted hdiff hmem)

end Sys2Proof.Machine
end

