-- ==== Sys2Proof/Proofs/ConfigureStatement.lean ====
section
/-! SUPPORT. The statement about CONFIGURE_CELLS (O49), from what it makes of one cell. -/

namespace Sys2Proof.Machine

/-! ## The checks in order (R35, R58, R100) -/

section
variable {b : ConfigureBody}

theorem configure_emptySet (h : cellsOf b.cells = []) : b.error = some (.emptySet, 0) := if_pos h

theorem configure_badRate (h : ¬cellsOf b.cells = []) (hr : b.rate.any (fun r => 7 < r) = true) :
    b.error = some (.badRate, oneValue (b.rate.getD 0)) := (if_neg h).trans (if_pos hr)

theorem configure_noSites (h : ¬cellsOf b.cells = []) (hr : ¬b.rate.any (fun r => 7 < r) = true)
    (hs : b.sites = some 0) : b.error = some (.noSites, 0) := (if_neg h).trans ((if_neg hr).trans (if_pos hs))

theorem configure_badWindow (h : ¬cellsOf b.cells = []) (hr : ¬b.rate.any (fun r => 7 < r) = true)
    (hs : ¬b.sites = some 0) (hw : b.guard.any (fun g => !goodWindow g.w) = true) :
    b.error = some (.badWindow, oneValue ((b.guard.map (·.w)).getD 0)) :=
  (if_neg h).trans ((if_neg hr).trans ((if_neg hs).trans (if_pos hw)))

theorem configure_accepted (h : ¬cellsOf b.cells = []) (hr : ¬b.rate.any (fun r => 7 < r) = true)
    (hs : ¬b.sites = some 0) (hw : ¬b.guard.any (fun g => !goodWindow g.w) = true) : b.error = none :=
  (if_neg h).trans ((if_neg hr).trans ((if_neg hs).trans (if_neg hw)))

end

theorem serveConfigure_refused {b : ConfigureBody} {code : Code} {result : Word} (s : State)
    (h : b.error = some (code, result)) : serveConfigure b s = (.refused code result, s) := by
  unfold serveConfigure
  rw [h]

theorem rate_toNat {r : Nat} (h : r ≤ 7) : (Fin.ofNat 8 r).val = r := Nat.mod_eq_of_lt (by omega)

theorem clamps_eq (b : ConfigureBody) : b.clamps = (b.guard.map (·.clamps)).getD 0
    + (b.timing.map fun x => (clampTimeout x.1 != x.1).toNat).getD 0 := by
  unfold ConfigureBody.clamps
  cases b.guard <;> cases b.timing <;> rfl

/-- Settles O49: the checks in order, then the cells of the set by the laws of `CellState.configured`. -/
theorem configureCellsServed : Obligations.ConfigureCellsServed := by
  intro data v want s hout hv hstage hwant hkind body cells online group rate sites timeout w badW named refused changed
  have hb : ∃ b, b = configureBody body := ⟨_, rfl⟩
  obtain ⟨b, hb⟩ := hb
  have hcells : b.cells = cells := congrArg ConfigureBody.cells hb
  have hrate : b.rate = if group 0 then some rate else none := by rw [hb]; exact configureBody_rate body
  have hsites : b.sites = if group 1 then some sites else none := by rw [hb]; exact configureBody_sites body
  have hguard : b.guard = if group 2 then some ⟨w, field body 0x0E 2, field body 0x10 2, field body 0x12 2, field body 0x14 2,
      field body 0x16 2, field body 0x18 1⟩ else none := by rw [hb]; exact configureBody_guard body
  have htiming : b.timing = if group 3 then some (timeout, field body 7 1) else none := by
    rw [hb]; exact configureBody_timing body
  have honline : b.online = true ↔ online := by rw [hb]; exact configureBody_online body
  have hnamed : named ↔ ¬cellsOf b.cells = [] := by
    rw [hcells, cellsOf_eq_nil]
    simp [named]
  have hbadRate : b.rate.any (fun r => 7 < r) = true ↔ group 0 ∧ 7 < rate := by
    rw [hrate]
    by_cases h : group 0
    · rw [if_pos h]; simp [h]
    · rw [if_neg h]; simp [h]
  have hnoSites : b.sites = some 0 ↔ group 1 ∧ sites = 0 := by
    rw [hsites]
    by_cases h : group 1
    · rw [if_pos h]; simp [h]
    · rw [if_neg h]; simp [h]
  have hbadWindow : b.guard.any (fun g => !goodWindow g.w) = true ↔ group 2 ∧ badW := by
    have hw : goodWindow w = false ↔ badW := by
      rw [Bool.eq_false_iff, ne_eq, goodWindow_iff]
    rw [hguard]
    by_cases h : group 2
    · rw [if_pos h, Option.any_some, Bool.not_eq_true', hw]
      exact (and_iff_right h).symm
    · rw [if_neg h]; simp [h]
  have hrefused : ∀ code result, b.error = some (code, oneValue result) → refused code result := fun code result he => by
    have hserve := serveConfigure_refused ((portFree s).setOrder { s.order with service := some (v.withBody data) }) he
    rw [hb] at hserve
    exact answers_answer (l := [.order, .port, .irq])
      ((effectOf_body hout hv (k := .configureCells) (by rw [headerKind, hkind]; rfl) hstage).trans
        (congrArg some ((bodySoFar_whole .configureCells (v.withBody data) (portFree s) hwant).trans
          (congrArg answerServed hserve)))) rfl (by simp [Keeps, State.setOrder])
      fun t ha hk => ⟨ha, hk (by simp) (by simp) (by simp)⟩
  refine ⟨fun hn => ?_, fun hn h0 hlt => ?_, fun hn h0 h1 hz => ?_, fun hn h0 h1 h2 hw => ?_, fun hn h0 h1 h2 => ?_⟩
  · exact hrefused _ _ (configure_emptySet (not_not.1 (mt hnamed.2 hn)))
  · have he := configure_badRate (hnamed.1 hn) (hbadRate.2 ⟨h0, hlt⟩)
    rw [hrate, if_pos h0] at he
    exact hrefused _ _ he
  · exact hrefused _ _ (configure_noSites (hnamed.1 hn) (mt hbadRate.1 h0) (hnoSites.2 ⟨h1, hz⟩))
  · have he := configure_badWindow (hnamed.1 hn) (mt hbadRate.1 h0) (mt hnoSites.1 h1) (hbadWindow.2 ⟨h2, hw⟩)
    rw [hguard, if_pos h2] at he
    exact hrefused _ _ he
  · have hok := configure_accepted (hnamed.1 hn) (mt hbadRate.1 h0) (mt hnoSites.1 h1) (mt hbadWindow.1 h2)
    rw [hb] at hok
    obtain ⟨t, ht, hanswer, hkeeps, hcell, hclosed⟩ := configure_answers hout hv hstage hwant hkind hok
    change Answered { v with body := body } (.done (oneValue (configureBody body).clamps)) s t at hanswer
    change ∀ c, t.cell c = if (configureBody body).cells.getLsbD c.val = true then
      transmit s.engine.state s.coll.lots (((configureBody body).closedFirst s.clock (s.cell c)).configured
        (configureBody body) s.engine.state s.clock) else s.cell c at hcell
    change ∀ c, (configureBody body).cells.getLsbD c.val = true → (configureBody body).closes (s.cell c) = true →
      CloseNoted .reconfigured c s t at hclosed
    rw [← hb] at hanswer hcell hclosed
    rw [hcells] at hcell hclosed
    refine ⟨t, ht, ?_, hkeeps, fun c => ?_⟩
    · have hclamps : b.clamps =
          (if group 2 then changed 1 w 0x0E + changed 0 1024 0x10 + changed 1 2048 0x12 + changed 0 1024 0x14
              + changed 0 1024 0x16 else 0)
            + (if group 3 then changed 10 10000 0x0A else 0) := by
        rw [clamps_eq, hguard, htiming]
        refine congrArg₂ (· + ·) ?_ ?_
        · by_cases h : group 2
          · have hgood : ¬badW := fun hbad => h2 ⟨h, hbad⟩
            have hpos : 1 ≤ w := by
              simp only [badW, not_not] at hgood
              omega
            rw [if_pos h, if_pos h]
            exact guard_clamps hpos
          · rw [if_neg h, if_neg h]
            rfl
        · by_cases h : group 3
          · rw [if_pos h, if_pos h]
            exact clampTo_ne (by decide)
          · rw [if_neg h, if_neg h]
            rfl
      rw [hclamps] at hanswer
      exact hanswer
    · by_cases hc : cells.getLsbD c.val = true
      swap
      · rw [if_neg hc]
        exact (hcell c).trans (if_neg hc)
      rw [if_pos hc]
      intro l a g l' newRate closes content heard
      have hct := (hcell c).trans (if_pos hc)
      have hfirst := closedFirst_asmOnly b s.clock (s.cell c)
      obtain ⟨htd, hq⟩ := closedFirst_asm b s.clock (s.cell c)
      generalize b.closedFirst s.clock (s.cell c) = cs1 at hct hfirst htd hq
      have hline : cs1.line = l := hfirst.line
      have hen : cs1.asm.enabled = a.enabled := hfirst.enabled
      have hg : cs1.guard = g := hfirst.guard
      obtain ⟨hstate, hrateX, htxRate, hqX⟩ := configured_settings b s.engine.state s.clock cs1
      have hasm := configured_asm b s.engine.state s.clock cs1
      obtain ⟨hst', hrx', hdec', herr', hclean', hwin', htxr'⟩ := transmit_receiver s.engine.state s.coll.lots
        (cs1.configured b s.engine.state s.clock)
      obtain ⟨hrate', hq'⟩ := transmit_rate_q s.engine.state s.coll.lots (cs1.configured b s.engine.state s.clock)
      have hnewRate : b.changesRate l = true ↔ newRate := by
        unfold ConfigureBody.changesRate
        rw [hrate]
        by_cases h : group 0
        · rw [if_pos h]; simp [newRate, h]
        · rw [if_neg h]; simp [newRate, h]
      have hnewSites : b.changesSites a = true ↔ group 1 ∧ sites ≠ a.enabled := by
        unfold ConfigureBody.changesSites
        rw [hsites]
        by_cases h : group 1
        · rw [if_pos h]; simp [h]
        · rw [if_neg h]; simp [h]
      have hcloses : b.closes (s.cell c) = true ↔ closes := by
        unfold ConfigureBody.closes
        rw [Bool.or_eq_true, Bool.or_eq_true, Bool.not_eq_true', ← Bool.not_eq_true, honline, hnewRate, hnewSites, or_assoc]
      have hrateVal : ((b.rate.map (Fin.ofNat 8)).getD l.rate).val = if group 0 then rate else l.rate.val := by
        rw [hrate]
        by_cases h : group 0
        · rw [if_pos h, if_pos h]
          exact rate_toNat (by by_contra hlt; exact h0 ⟨h, by omega⟩)
        · rw [if_neg h, if_neg h]
          rfl
      have hsitesD : b.sites.getD a.enabled = if group 1 then sites else a.enabled := by
        rw [hsites]
        by_cases h : group 1
        · rw [if_pos h, if_pos h]
          rfl
        · rw [if_neg h, if_neg h]
          rfl
      rw [hline] at hstate hrateX htxRate hqX
      rw [hen, hsitesD] at hasm
      have hholds : (cs1.configured b s.engine.state s.clock).holds.ordered = (s.cell c).holds.ordered := by
        obtain ⟨-, -, ⟨k, m, hh⟩, -⟩ := configured_frame b s.engine.state s.clock cs1
        rw [hh]
        change cs1.holds.ordered = _
        rw [hfirst.holds]
      have hsend : ∀ final, (cs1.configured b s.engine.state s.clock).line.tx = l.tx.woken →
          (final = true → (cs1.configured b s.engine.state s.clock).line.finalOwed = true) →
          (final = false → (cs1.configured b s.engine.state s.clock).line.forced = true
            ∧ (cs1.configured b s.engine.state s.clock).line.finalOwed = false
            ∧ (cs1.configured b s.engine.state s.clock).line.state ≠ .offline) → HasToSend final l content l' := by
        intro final h1 h2 h3
        have h := hasToSend_transmit (eng := s.engine.state) (lots := s.coll.lots) (old := l) h1 h2 h3
        rwa [← hct] at h
      have howed : (cs1.configured b s.engine.state s.clock).line.finalOwed = false → l'.finalOwed = false := fun h => by
        have h := transmit_finalOwed (eng := s.engine.state) (lots := s.coll.lots) h
        rwa [← hct] at h
      have htx : (cs1.configured b s.engine.state s.clock).line.tx ≠ .idle →
          l'.tx = (cs1.configured b s.engine.state s.clock).line.tx := fun h => by
        have h := congrArg (fun x : CellState => x.line.tx) (transmit_of_busy (eng := s.engine.state) (lots := s.coll.lots) h)
        rwa [← hct] at h
      have hguardT : (t.cell c).guard = (cs1.configured b s.engine.state s.clock).guard := by rw [hct, transmit_guard]
      have hasmT : (t.cell c).asm = (cs1.configured b s.engine.state s.clock).asm := by rw [hct, transmit_asm]
      have hwindow : (group 2 → w = g.w) → ∀ p ∈ b.guard, p.w = cs1.guard.w := fun hw p hp => by
        by_cases h : group 2
        · rw [hguard, if_pos h] at hp
          obtain rfl := Option.mem_some.1 hp
          rw [hg]
          exact hw h
        · rw [hguard, if_neg h] at hp
          cases hp
      rw [← hct] at hst' hrx' hdec' herr' hclean' hwin' htxr' hrate' hq'
      refine ⟨?_, ?_, ?_, ?_, ?_, ?_, ?_, ?_, ?_, fun hcl => hclosed c hc (hcloses.2 hcl), fun hoff hon => ?_,
        fun hoff hon => ?_, fun hoff hon => ?_, fun hoff hon => ?_, fun hw => ⟨?_, fun q hkeep => ?_⟩, ?_, fun q h1 hold hnew => ?_⟩
      · rw [hst', hstate]
        exact if_congr honline rfl rfl
      · rw [hrate', hrateX, hrateVal]
      · rw [htxr', htxRate, hrate', hrateX]
        by_cases hoff : l.state = .offline
        · rw [if_pos hoff, if_pos hoff]
          exact congrArg Fin.val (if_congr honline rfl rfl)
        · rw [if_neg hoff, if_neg hoff]
          by_cases hr : newRate
          · rw [if_pos (hnewRate.2 hr), if_pos hr, hrateVal, if_pos hr.1]
          · rw [if_neg (mt hnewRate.1 hr), if_neg hr]
      · rw [hq', hqX, htiming]
        by_cases h : group 3
        · rw [if_pos h, if_pos h]
          rfl
        · rw [if_neg h, if_neg h]
          rfl
      · rw [hasmT, hasm]
      · rw [hasmT, hasm, htiming]
        by_cases h : group 3
        · rw [if_pos h, if_pos h]
          rfl
        · rw [if_neg h, if_neg h]
          exact hfirst.timeout
      · rw [hasmT, hasm]
        exact htd.trans (if_congr hcloses rfl rfl)
      · rw [hasmT, hasm]
        exact hq.trans (if_congr hcloses rfl rfl)
      · rw [hct, transmit_holds]
        exact hholds
      · obtain ⟨hd, he, hcl, ho, hf, htx1, hrx, hwin⟩ := configured_goes_online s.engine.state s.clock
          (honline.2 hon) (show cs1.line.state = .offline from hline ▸ hoff)
        rw [hline] at htx1 hrx hwin
        refine ⟨hdec'.trans hd, herr'.trans he, hclean'.trans hcl, howed ho, ?_, hsend false htx1 (fun h => by cases h)
          fun _ => ⟨hf, ho, ?_⟩⟩
        · rw [show l'.rx = _ from hrx'.trans hrx, show l'.windowEnd = _ from hwin'.trans hwin]
          by_cases hh : heard
          · rw [if_pos hh, if_pos hh, if_pos hh]
            exact ⟨rfl, rfl⟩
          · rw [if_neg hh, if_neg hh, if_neg hh]
            exact ⟨rfl, rfl⟩
        · rw [hstate, if_pos (honline.2 hon), if_pos hoff]
          exact LineState.noConfusion
      · obtain ⟨hrx, hd, hwin, he, hcl, htx1, ho⟩ := configured_goes_offline s.engine.state s.clock
          (Bool.eq_false_of_not_eq_true (mt honline.1 hon)) (show cs1.line.state ≠ .offline from hline ▸ hoff)
        rw [hline] at he hcl htx1
        refine ⟨hrx'.trans hrx, hdec'.trans hd, hwin'.trans hwin, herr'.trans he, hclean'.trans hcl, fun hsil => ?_⟩
        exact hsend true (htx1.trans (woken_of_ne_silent hsil).symm) (fun _ => ho) (fun h => by cases h)
      · obtain ⟨he, hcl, hwin, htx1, ho, hnew⟩ := configured_stays_online s.engine.state s.clock
          (honline.2 hon) (show cs1.line.state ≠ .offline from hline ▸ hoff)
        rw [hline] at he hcl hwin htx1 ho hnew
        refine ⟨herr'.trans he, hclean'.trans hcl, hwin'.trans hwin, ?_⟩
        by_cases hr : newRate
        · rw [if_pos (hnewRate.2 hr)] at hnew
          rw [if_pos hr]
          obtain ⟨hrx, hd, hf⟩ := hnew
          refine ⟨hrx'.trans hrx, hdec'.trans hd, fun hsil hno => ?_⟩
          refine hsend false (htx1.trans (woken_of_ne_silent hsil).symm) (fun h => by cases h) fun _ => ⟨hf, ho.trans hno, ?_⟩
          rw [hstate, if_pos (honline.2 hon), if_neg hoff]
          exact hoff
        · rw [if_neg (mt hnewRate.1 hr)] at hnew
          rw [if_neg hr]
          exact ⟨hrx'.trans hnew.1, hdec'.trans hnew.2⟩
      · obtain ⟨hrx, hd, he, hcl, hwin, htx1⟩ := configured_stays_offline s.engine.state s.clock
          (Bool.eq_false_of_not_eq_true (mt honline.1 hon)) (show cs1.line.state = .offline from hline ▸ hoff)
        rw [hline] at hrx hd he hcl hwin htx1
        refine ⟨hrx'.trans hrx, hdec'.trans hd, herr'.trans he, hclean'.trans hcl, hwin'.trans hwin, fun hbusy => ?_⟩
        exact (htx (fun h => hbusy (htx1.symm.trans h))).trans htx1
      · rw [hguardT]
        exact (configured_cellFlag_kept _ _ (hwindow hw)).trans (congrArg Guard.cellFlag hg)
      · rw [hguardT]
        refine (configured_site_kept _ _ (hwindow hw) fun h => ?_).trans (congrArg (Guard.site · q) hg)
        rw [hen] at h
        rw [hen, hsitesD]
        by_cases h1 : group 1
        · rw [if_pos h1]
          exact hkeep h1 h
        · rw [if_neg h1]
          exact h
      · rw [hguardT]
        by_cases h : group 2
        · rw [if_pos h]
          have hp := hguard.trans (if_pos h)
          obtain ⟨p1, p2, p3, p4, p5, p6, p7⟩ := configured_parameters hp s.engine.state s.clock cs1
          refine ⟨p1, p2, p3, p4, p5, p6, p7, fun hne => configured_new_window hp _ _ ?_⟩
          rw [hg]
          exact hne
        · rw [if_neg h]
          exact (configured_guard_sites (hguard.trans (if_neg h)) _ _ cs1).trans (by rw [hg])
      · rw [hguardT]
        refine configured_site_left _ _ (hen ▸ hold) ?_
        rw [hen, hsitesD, if_pos h1]
        exact hnew

end Sys2Proof.Machine
end

