-- ==== Sys2Proof/Proofs/NoticeRecords.lean ====
section
/-! SUPPORT. The layout of a notice record (O53; 12.4, R162, R189). -/

namespace Sys2Proof.Machine

theorem leBytes_zero (n : Nat) : leBytes n 0 = List.replicate n 0 := by
  induction n with
  | zero => rfl
  | succ n ih => rw [leBytes, Nat.zero_div, ih, List.replicate_succ]; rfl

/-- Fields cut or filled to a length that holds them end in a field of zeros. -/
theorem padTo_encode {n : Nat} {fs : List (Nat × Nat)} (h : sizeOf fs ≤ n) :
    padTo n (encode fs) = encode (fs ++ [(n - sizeOf fs, 0)]) := by
  have hzero : encode [(n - sizeOf fs, 0)] = List.replicate (n - sizeOf fs) 0 := by
    simp [encode, leBytes_zero]
  rw [encode_append, hzero]
  unfold padTo
  rw [List.take_append, List.take_of_length_le (by rw [length_encode]; exact h), length_encode, List.take_replicate]
  congr 2
  omega

/-- The fields of a record stand where they were written, the last ones zeros. -/
theorem fieldsAt_padTo {n : Nat} {fs : List (Nat × Nat)} (h : sizeOf fs ≤ n) :
    FieldsAt (padTo n (encode fs)) 0 (fs ++ [(n - sizeOf fs, 0)]) := by
  have hfields := fieldsAt_encode (fs ++ [(n - sizeOf fs, 0)]) []
  rwa [List.append_nil, ← padTo_encode h] at hfields

theorem detail_code (lost : Nat) (d : Detail) : (noticeDetail lost d).1 = d.kind.code := by
  cases d <;> rfl

theorem detail_size (lost : Nat) (d : Detail) : sizeOf (noticeDetail lost d).2 ≤ 18 := by
  cases d <;> simp [noticeDetail, sizeOf]

/-- A notice's detail bytes are its detail fields (R189). -/
theorem detail_bytes (lost : Nat) (d : Detail) : d.bytes lost = encode (noticeDetail lost d).2 := by
  cases d with
  | lotFloor key tested passed y figure minimum reporter =>
    cases reporter with
    | none => simp [Detail.bytes, noticeDetail, encode, leBytes]
    | some r => simp [Detail.bytes, noticeDetail, encode]
  | lineQuarantined errors kind => cases kind <;> rfl
  | shortTouchdown number kind missing lostReports mismatch =>
    cases kind <;> simp [Detail.bytes, noticeDetail, encode, CloseKind.code]
  | reportRefused code r number stamp fault =>
    have hbytes : [r.wafer, r.bin] = leBytes 1 r.wafer.toNat ++ leBytes 1 r.bin.toNat := by
      rw [← byte_eq_leBytes, ← byte_eq_leBytes]
      rfl
    cases ha : r.attempt with
    | first =>
      rcases fault with - | (_ | _ | _ | _) <;>
        simp [Detail.bytes, noticeDetail, encode, hbytes, ha, Attempt.code, MapFault.code]
    | retest =>
      rcases fault with - | (_ | _ | _ | _) <;>
        simp [Detail.bytes, noticeDetail, encode, hbytes, ha, Attempt.code, MapFault.code]
  | duplicateDie => simp [Detail.bytes, noticeDetail, encode, leBytes]
  | messageRefused => simp [Detail.bytes, noticeDetail, encode, leBytes]
  | waferComplete => simp [Detail.bytes, noticeDetail, encode]
  | lotClosed => simp [Detail.bytes, noticeDetail, encode]
  | siteRun => simp [Detail.bytes, noticeDetail, encode]
  | siteLimit => simp [Detail.bytes, noticeDetail, encode]
  | siteSpread => simp [Detail.bytes, noticeDetail, encode]
  | cellLimit => simp [Detail.bytes, noticeDetail, encode]
  | lineRestored => rfl
  | touchdownLoss => simp [Detail.bytes, noticeDetail, encode]
  | cellRestart => rfl

/-- The header fields of an entry's record, with the subject's byte (12.4, R162). -/
def headFields (seq : Word) (count : Nat) (first last : Time) (kind subject : Nat) : List (Nat × Nat) :=
  [(2, seq.toNat), (2, count), (4, first.toNat), (4, last.toNat), (1, kind), (1, subject)]

theorem entryRecord_eq (e : Entry) (seq : Word) : Post.record ⟨.entry e, seq⟩ = padTo 32 (encode
    (headFields seq e.count e.first e.last e.key.kind.code e.key.subject.byte ++ (noticeDetail e.lostTotal e.detail).2)) := by
  unfold Post.record
  dsimp only
  rw [detail_bytes, encode_append]
  simp [encode, headFields]

/-- What a key shows in the OVERFLOW detail (R189). -/
def NoticeKey.fields (k : NoticeKey) : List (Nat × Nat) := [(1, k.kind.code), (1, k.subject.byte), (4, k.subject.tail)]

theorem overflowRecord_eq (o : Overflow) (seq : Word) : Post.record ⟨.overflow o, seq⟩ = padTo 32 (encode
    (headFields seq o.count o.first o.last 0x0F 0 ++ o.firstKey.fields ++ o.latestKey.fields)) := by
  unfold Post.record
  dsimp only
  simp [encode, headFields, NoticeKey.bytes, NoticeKey.fields, NoticeKind.code]

theorem entryRecord_fields (k : NoticeKey) (count lost : Nat) (first last : Time) (d : Detail) (seq : Word)
    (h : d.kind = k.kind) : FieldsAt (Post.record ⟨.entry ⟨k, count, first, last, d, lost⟩, seq⟩) 0
      (headFields seq count first last (noticeDetail lost d).1 k.subject.byte ++ (noticeDetail lost d).2
        ++ [(18 - sizeOf (noticeDetail lost d).2, 0)]) := by
  have hsize : sizeOf (headFields seq count first last k.kind.code k.subject.byte ++ (noticeDetail lost d).2) =
      14 + sizeOf (noticeDetail lost d).2 := by
    rw [sizeOf_append]
    rfl
  have hle := detail_size lost d
  have hfields := fieldsAt_padTo (n := 32) (by rw [hsize]; omega)
  rw [← entryRecord_eq ⟨k, count, first, last, d, lost⟩ seq, hsize, Nat.sub_add_eq] at hfields
  rw [detail_code, h]
  exact hfields

theorem overflowRecord_fields (o : Overflow) (seq : Word) : FieldsAt (Post.record ⟨.overflow o, seq⟩) 0
    (headFields seq o.count o.first o.last 0x0F 0 ++ o.firstKey.fields ++ o.latestKey.fields ++ [(6, 0)]) := by
  have hsize : sizeOf (headFields seq o.count o.first o.last 0x0F 0 ++ o.firstKey.fields ++ o.latestKey.fields) = 26 := rfl
  have hfields := fieldsAt_padTo (n := 32) (by rw [hsize]; decide)
  rwa [← overflowRecord_eq, hsize] at hfields

end Sys2Proof.Machine
end

