-- ==== Sys2Proof/Proofs/NoticePhases.lean ====
section
/-! SUPPORT. The notice unit's completions: the next step it takes, and its rest where the drain completes (O53; R162 to
R165, R168). -/

namespace Sys2Proof.Machine

/-! ## Room judged, and the consumed word read (R162, R164) -/

theorem noticeRuns_iff (s : State) : noticeRuns s = true ↔ s.engine.state = .running ∨ s.engine.state = .draining := by
  simp [noticeRuns]

theorem drainReady_readConsumed (s : State) : drainReady (readConsumed s) = false := by
  refine drainReady_of_busy (.inr rfl) ?_
  have h := portBusy_of_requested (requested_portRequest (readOf .consumedRead s.loadedSetup.consumedAddr 4)
    { s with notice := { s.notice with phase := .room, retry := none } })
  exact h

theorem requested_readConsumed (s : State) :
    Requested (readOf .consumedRead s.loadedSetup.consumedAddr 4) (readConsumed s) := requested_portRequest _ _

theorem keeps_readConsumed {l : List Part} (s : State) (hn : .notice ∈ l) (hp : .port ∈ l) : Keeps l s (readConsumed s) := by
  simp [Keeps, readConsumed, hn, hp]

theorem readConsumed_notice (s : State) :
    (readConsumed s).notice = { s.notice with phase := .room, retry := none } := rfl

theorem waitForRoom_nudged {s : State} (h : s.notice.nudgePending = true) :
    waitForRoom s = readConsumed (s.setNotice { s.notice with nudgePending := false }) := if_pos h

theorem waitForRoom_timed {s : State} (h : ¬s.notice.nudgePending = true) : waitForRoom s =
    s.setNotice { s.notice with phase := .wait, retry := some (Time.plus s.clock s.loadedSetup.interval) } := if_neg h

theorem judgeRoom_nil {s : State} (h : s.notice.table = []) : judgeRoom s = s := by
  unfold judgeRoom
  rw [h]

theorem judgeRoom_post {s : State} {e : Pending} {rest : List Pending} (h : s.notice.table = e :: rest)
    (hroom : noticeRoom s = true) : judgeRoom s = portRequest (postWrite ⟨e, s.notice.written⟩ s)
      { s with notice := { s.notice with table := rest, post := some ⟨e, s.notice.written⟩, phase := .record } } := by
  unfold judgeRoom
  rw [h]
  exact if_pos hroom

theorem judgeRoom_full {s : State} {e : Pending} {rest : List Pending} (h : s.notice.table = e :: rest)
    (hroom : ¬noticeRoom s = true) : judgeRoom s = readConsumed s := by
  unfold judgeRoom
  rw [h]
  exact if_neg hroom

theorem noticeRoom_iff (s : State) :
    noticeRoom s = true ↔ (s.notice.written - s.notice.consumed).toNat < s.loadedSetup.slots := by
  simp [noticeRoom]

/-- Room judged in IDLE by the unit u: it rests, posts, or reads the consumed word. -/
theorem posts_judgeRoom {u : NoticeUnit} {s v t : State} (hv : v.notice = { u with phase := .idle })
    (hs : v.loadedSetup = s.loadedSetup) (hl : Landed (judgeRoom v) t) : Posts u s t := by
  have hwritten : v.notice.written = u.written := by rw [hv]
  have hconsumed : v.notice.consumed = u.consumed := by rw [hv]
  refine ⟨fun htable => ?_, fun e rest htable => ?_⟩
  · rw [judgeRoom_nil (show v.notice.table = [] by rw [hv]; exact htable)] at hl
    exact hl.notice.trans hv
  · have ht : v.notice.table = e :: rest := by
      rw [hv]
      exact htable
    have hroom := noticeRoom_iff v
    rw [hwritten, hconsumed, hs] at hroom
    by_cases hr : noticeRoom v = true
    · rw [if_pos (hroom.1 hr)]
      rw [judgeRoom_post ht hr] at hl
      refine ⟨hl.notice.trans ?_, ?_⟩
      · rw [portRequest_notice, hv]
      · have h := hl.requested (requested_portRequest _ _)
        unfold postWrite at h
        rw [hwritten, hs] at h
        exact h
    · rw [if_neg (mt hroom.2 hr)]
      rw [judgeRoom_full ht hr] at hl
      refine ⟨hl.notice.trans ?_, ?_⟩
      · rw [readConsumed_notice, hv]
      · have h := hl.requested (requested_readConsumed v)
        rwa [hs] at h

theorem drainReady_judgeRoom {s : State} (h : drainReady s = false) : drainReady (judgeRoom s) = false := by
  cases ht : s.notice.table with
  | nil => rwa [judgeRoom_nil ht]
  | cons e rest =>
    by_cases hr : noticeRoom s = true
    · rw [judgeRoom_post ht hr]
      exact drainReady_of_busy (.inr rfl) (portBusy_of_requested (requested_portRequest (postWrite ⟨e, s.notice.written⟩ s) _))
    · rw [judgeRoom_full ht hr]
      exact drainReady_readConsumed s

theorem keeps_judgeRoom {l : List Part} (s : State) (hn : .notice ∈ l) (hp : .port ∈ l) : Keeps l s (judgeRoom s) := by
  cases ht : s.notice.table with
  | nil =>
    rw [judgeRoom_nil ht]
    exact Keeps.refl l s
  | cons e rest =>
    by_cases hr : noticeRoom s = true
    · rw [judgeRoom_post ht hr]
      simp [Keeps, hn, hp]
    · rw [judgeRoom_full ht hr]
      exact keeps_readConsumed s hn hp

/-! ## The completions (R163 to R165, R168) -/

/-- A completion that differs from the freed state in the notice unit and the NOTICE flag alone: what of the notice unit
follows it is judged as the freed state's drain is. -/
structure AfterOwn (s v : State) : Prop where
  engine : v.engine.state = s.engine.state
  setup : v.loadedSetup = s.loadedSetup
  cells : v.cells = s.cells
  coll : v.coll = s.coll
  scanner : v.scanner = s.scanner
  order : v.order = s.order
  port : v.port = (portFree s).port
  clock : v.clock = s.clock

theorem AfterOwn.drainReady {s v : State} (h : AfterOwn s v) : drainReady v = drainReady (portFree s) :=
  drainReady_congr h.engine h.cells h.coll h.scanner (by rw [h.order]; rfl) h.port

/-- The unit takes its next step where it still runs (R165). -/
theorem noticeNext_goesOn {next : State → State} {s v : State} (h : AfterOwn s v)
    (hgo : s.engine.state = .running ∨ s.engine.state = .draining ∧ ¬NothingToDrain (portFree s)) :
    noticeNext next v = next v ∧ drainReady v = false := by
  have hready : drainReady v = false := by
    rw [h.drainReady]
    refine Bool.eq_false_of_not_eq_true fun hd => ?_
    obtain ⟨hstate, hnothing⟩ := (drainReady_iff (portFree s)).1 hd
    rcases hgo with hrun | ⟨-, hn⟩
    · rw [portFree_engine, hrun] at hstate
      cases hstate
    · exact hn hnothing
  refine ⟨(noticeNext_cases next v).2 hready ((noticeRuns_iff v).2 ?_), hready⟩
  rw [h.engine]
  exact hgo.imp_right fun hd => hd.1

/-- The unit of a drain that completes rests, Nudge pending cleared, and issues nothing (R165, R177). -/
theorem noticeNext_rests {next : State → State} {i : Instr} {s v : State} {u : NoticeUnit} (h : AfterOwn s v)
    (hv : v.notice = u) (he : effectOf i s = some (noticeNext next v)) (hstate : s.engine.state = .draining)
    (hp : Placed s) (hnothing : NothingToDrain (portFree s)) :
    Answers i s fun t => t.engine.state = .halted ∧ portBusy .noticeUnit t = false
      ∧ t.notice = { u with nudgePending := false, retry := none } := by
  have hready : drainReady v = true := by
    rw [h.drainReady]
    exact (drainReady_iff (portFree s)).2 ⟨hstate, hnothing⟩
  rw [(noticeNext_cases next v).1 hready] at he
  have hhalted : drainReady ((enterHalted v).setNotice { (enterHalted v).notice with nudgePending := false }) = false :=
    drainReady_of_not_draining EngineState.noConfusion
  refine answers_of_effect he ⟨?_, ?_, ?_⟩
  · rw [settle_engine_of_running s hhalted]
    rfl
  · have hport : ((enterHalted v).setNotice { (enterHalted v).notice with nudgePending := false }).port = (portFree s).port :=
      h.port
    have hplaced : Placed ((enterHalted v).setNotice { (enterHalted v).notice with nudgePending := false }) := by
      unfold Placed
      rw [hport]
      exact hp
    rw [portBusy_settle s .noticeUnit hplaced]
    unfold portBusy
    rw [hport]
    exact hnothing.2.2.2.2.2.2
  · rw [settle_notice_of_running s hhalted]
    change { v.notice with retry := none, nudgePending := false } = _
    rw [hv]

/-- The notice unit after a record write (R163). -/
def NoticeUnit.recorded (n : NoticeUnit) : NoticeUnit := { n with written := n.written + 1, countOwed := true, phase := .count }

theorem effectOf_recordWritten {s : State} (h : OutstandingFor .noticeWrite s) : effectOf .noticeRecordWriteDone s =
    some (noticeNext (fun s2 => portRequest (countWrite s2) s2) ((portFree s).setNotice s.notice.recorded)) := by
  change recordWritten s = _
  unfold recordWritten
  rw [acknowledged_of h]
  rfl

/-- The state after a count write, before room is judged (R163, R168). -/
def counted (s : State) : State :=
  { portFree s with
    engine := { s.engine with notice := s.engine.notice || s.notice.post.isSome }
    notice := { s.notice with countOwed := false, post := none, phase := .idle } }

theorem effectOf_countWritten {s : State} (h : OutstandingFor .countWrite s) :
    effectOf .countWriteDone s = some (noticeNext judgeRoom (counted s)) := by
  change countWritten s = _
  unfold countWritten
  rw [acknowledged_of h]
  rfl

/-- The notice unit with a value read taken as the consumed count, where it is one (R164). -/
def NoticeUnit.accepting (n : NoticeUnit) (slots : Nat) (v : Word) : NoticeUnit :=
  { n with consumed := if (n.written - v).toNat ≤ slots then v else n.consumed }

/-- The notice unit at rest in a phase (R165). -/
def NoticeUnit.resting (n : NoticeUnit) (p : NoticePhase) : NoticeUnit :=
  { n with phase := p, nudgePending := false, retry := none }

theorem acceptConsumed_eq (v : Word) (s : State) :
    acceptConsumed v s = s.setNotice (s.notice.accepting s.loadedSetup.slots v) := by
  unfold acceptConsumed NoticeUnit.accepting
  split
  · rfl
  · rfl

theorem effectOf_consumedRead {v : Word} {s : State} (h : Outstanding .consumedRead 4 s) :
    effectOf (.consumedReadDone v) s = some (
      if ((s.notice.accepting s.loadedSetup.slots v).written - (s.notice.accepting s.loadedSetup.slots v).consumed).toNat
          < s.loadedSetup.slots then
        noticeNext judgeRoom ((portFree s).setNotice { s.notice.accepting s.loadedSetup.slots v with phase := .idle })
      else noticeNext waitForRoom ((portFree s).setNotice { s.notice.accepting s.loadedSetup.slots v with phase := .wait })) := by
  have haccept := acceptConsumed_eq v (portFree s)
  change consumedRead v s = _
  unfold consumedRead
  rw [returned_of h, Option.map_some]
  dsimp only
  rw [haccept]
  exact congrArg some (if_congr (noticeRoom_iff _) rfl rfl)

theorem effectOf_retryExpiry {s : State} (hphase : s.notice.phase = .wait)
    (hruns : s.engine.state = .running ∨ s.engine.state = .draining) (he : expired s.clock s.notice.retry = true) :
    effectOf .retryTimerExpiry s = some (readConsumed s) := if_pos ⟨hphase, (noticeRuns_iff s).2 hruns, he⟩

theorem afterOwn_setNotice (s : State) (n : NoticeUnit) : AfterOwn s ((portFree s).setNotice n) :=
  ⟨rfl, rfl, rfl, rfl, rfl, rfl, rfl, rfl⟩

theorem afterOwn_counted (s : State) : AfterOwn s (counted s) := ⟨rfl, rfl, rfl, rfl, rfl, rfl, rfl, rfl⟩

/-- Settles O53: the layouts by their fields, and each completion by `noticeNext`. -/
theorem noticesPosted : Obligations.NoticesPosted := by
  refine ⟨fun k count lost first last d seq hk => ⟨length_record _, ?_⟩, fun o seq => ⟨length_record _, ?_⟩,
    fun s => ⟨fun hgo hout => ?_, fun hgo hout => ?_, fun v hgo hout => ?_, fun hphase hruns hexp => ?_,
      fun hstate hp hnothing => ⟨fun hout => ?_, fun hout => ?_, fun v hout => ?_⟩⟩⟩
  · have h := entryRecord_fields k count lost first last d seq hk
    cases hsub : k.subject <;> rw [hsub] at h <;> exact h
  · obtain ⟨count, first, last, ⟨k1, s1⟩, ⟨k2, s2⟩⟩ := o
    have h := overflowRecord_fields ⟨count, first, last, ⟨k1, s1⟩, ⟨k2, s2⟩⟩ seq
    cases s1 <;> cases s2 <;> exact h
  · obtain ⟨hnext, hready⟩ := noticeNext_goesOn (next := fun s2 => portRequest (countWrite s2) s2)
      (afterOwn_setNotice s s.notice.recorded) hgo
    have heffect := (effectOf_recordWritten hout).trans (congrArg some hnext)
    refine answers_landed heffect ?_ fun t hl => ⟨hl.notice, hl.requested (requested_portRequest _ _), ?_⟩
    · exact drainReady_of_busy (.inr rfl) (portBusy_of_requested (requested_portRequest (countWrite _) _))
    · exact hl.keepsOf (by simp [Keeps, State.setNotice])
  · obtain ⟨hnext, hready⟩ := noticeNext_goesOn (next := judgeRoom) (afterOwn_counted s) hgo
    have heffect := (effectOf_countWritten hout).trans (congrArg some hnext)
    have hengine : (judgeRoom (counted s)).engine = (counted s).engine :=
      (keeps_judgeRoom (l := [.notice, .port]) (counted s) (by simp) (by simp)).1 (by simp)
    refine answers_landed heffect (drainReady_judgeRoom hready) fun t hl => ⟨hl.engine.trans hengine, hl.irq, ?_, ?_⟩
    · exact posts_judgeRoom (v := counted s) rfl rfl hl
    · have hcounted : Keeps [.engine, .notice, .port, .irq] s (counted s) := by simp [Keeps, counted]
      exact hl.keepsOf (hcounted.trans (keeps_judgeRoom _ (by simp) (by simp)))
  · have heffect := effectOf_consumedRead (v := v) hout
    by_cases hroom : ((s.notice.accepting s.loadedSetup.slots v).written
        - (s.notice.accepting s.loadedSetup.slots v).consumed).toNat < s.loadedSetup.slots
    · obtain ⟨hnext, hready⟩ := noticeNext_goesOn (next := judgeRoom)
        (afterOwn_setNotice s { s.notice.accepting s.loadedSetup.slots v with phase := .idle }) hgo
      rw [if_pos hroom, hnext] at heffect
      refine answers_landed heffect (drainReady_judgeRoom hready) fun t hl => ⟨?_, ?_⟩
      · have hset : Keeps [.notice, .port, .irq] s
            ((portFree s).setNotice { s.notice.accepting s.loadedSetup.slots v with phase := .idle }) := by
          simp [Keeps, State.setNotice]
        exact hl.keepsOf (hset.trans (keeps_judgeRoom _ (by simp) (by simp)))
      · refine (if_pos hroom).mpr ?_
        exact posts_judgeRoom (v := (portFree s).setNotice _) rfl rfl hl
    · have hown := afterOwn_setNotice s { s.notice.accepting s.loadedSetup.slots v with phase := .wait }
      obtain ⟨hnext, hready⟩ := noticeNext_goesOn (next := waitForRoom) hown hgo
      rw [if_neg hroom, hnext] at heffect
      by_cases hnudge : s.notice.nudgePending = true
      · have hwait := waitForRoom_nudged (s := (portFree s).setNotice
          { s.notice.accepting s.loadedSetup.slots v with phase := .wait }) hnudge
        rw [hwait] at heffect
        refine answers_landed heffect (drainReady_readConsumed _) fun t hl =>
          ⟨hl.keepsOf (by simp [Keeps, State.setNotice, readConsumed]), ?_⟩
        refine (if_neg hroom).mpr ((if_pos hnudge).mpr ⟨hl.notice, hl.requested (requested_readConsumed _)⟩)
      · have hwait := waitForRoom_timed (s := (portFree s).setNotice
          { s.notice.accepting s.loadedSetup.slots v with phase := .wait }) hnudge
        rw [hwait] at heffect
        refine answers_landed heffect ?_ fun t hl => ⟨hl.keepsOf (by simp [Keeps, State.setNotice]), ?_⟩
        · exact (afterOwn_setNotice s _).drainReady.trans (hown.drainReady.symm.trans hready)
        · exact (if_neg hroom).mpr ((if_neg hnudge).mpr hl.notice)
  · refine answers_landed (effectOf_retryExpiry hphase hruns hexp) (drainReady_readConsumed s) fun t hl => ?_
    exact ⟨hl.notice, hl.requested (requested_readConsumed s), hl.keepsOf (keeps_readConsumed s (by simp) (by simp))⟩
  · exact noticeNext_rests (afterOwn_setNotice s _) rfl (effectOf_recordWritten hout) hstate hp hnothing
  · exact noticeNext_rests (afterOwn_counted s) rfl (effectOf_countWritten hout) hstate hp hnothing
  · have heffect := effectOf_consumedRead (v := v) hout
    by_cases hroom : ((s.notice.accepting s.loadedSetup.slots v).written
        - (s.notice.accepting s.loadedSetup.slots v).consumed).toNat < s.loadedSetup.slots
    · rw [if_pos hroom] at heffect
      obtain ⟨t, ht, hhalted, hport, hnotice⟩ :=
        noticeNext_rests (afterOwn_setNotice s _) rfl heffect hstate hp hnothing
      refine ⟨t, ht, hhalted, hport, hnotice.trans ?_⟩
      exact congrArg (NoticeUnit.resting (s.notice.accepting s.loadedSetup.slots v)) (if_pos hroom).symm
    · rw [if_neg hroom] at heffect
      obtain ⟨t, ht, hhalted, hport, hnotice⟩ :=
        noticeNext_rests (afterOwn_setNotice s _) rfl heffect hstate hp hnothing
      refine ⟨t, ht, hhalted, hport, hnotice.trans ?_⟩
      exact congrArg (NoticeUnit.resting (s.notice.accepting s.loadedSetup.slots v)) (if_neg hroom).symm

end Sys2Proof.Machine
end

