-- ==== Sys2Proof/Proofs/MapScans.lean ====
section
/-! SUPPORT. The scanner: the cells of a read examined and counted, and what a read's data brings (O39; R15 to R18). -/

namespace Sys2Proof.Machine

/-! ## The cells of a read (R15 to R17) -/

theorem cellsOfBytes_half (w : Half) (bs : List Byte) :
    cellsOfBytes (leBytes 2 w.toNat ++ bs) = w :: cellsOfBytes bs := by
  have hcell : (BitVec.ofNat 8 (w.toNat / 256) ++ BitVec.ofNat 8 w.toNat : BitVec 16) = w := by
    refine BitVec.eq_of_toNat_eq ?_
    have := w.isLt
    rw [BitVec.toNat_append, BitVec.toNat_ofNat, BitVec.toNat_ofNat, Nat.shiftLeft_eq,
      Nat.mod_eq_of_lt (show w.toNat / 256 < 2 ^ 8 by omega), Nat.mul_comm, ← Nat.two_pow_add_eq_or_of_lt (by omega)]
    omega
  exact congrArg (· :: cellsOfBytes bs) hcell

theorem cellsOfBytes_flatMap (ws : List Half) : cellsOfBytes (ws.flatMap fun w => leBytes 2 w.toNat) = ws := by
  induction ws with
  | nil => rfl
  | cons w ws ih => rw [List.flatMap_cons, cellsOfBytes_half, ih]

theorem examine_valid {p : Plan} {sc : Scan} {w : Half} (h : mapFault p sc.limit w = none) (ws : List Half) :
    sc.examine p (w :: ws) = (sc.count p w).examine p ws := by
  rw [Scan.examine, h]

theorem examine_invalid {p : Plan} {sc : Scan} {w : Half} {f : MapFault} (h : mapFault p sc.limit w = some f)
    (ws : List Half) : sc.examine p (w :: ws) = (sc, some f) := by
  rw [Scan.examine, h]

/-- What counting a cell changes: the position and the counts alone. -/
theorem count_form (p : Plan) (w : Half) (sc : Scan) :
    ∃ n k m j g, sc.count p w = { sc with index := n, candidates := k, tested := m, passed := j, groups := g } := by
  unfold Scan.count
  split
  · exact ⟨_, _, _, _, _, rfl⟩
  · split
    · exact ⟨_, _, _, _, _, rfl⟩
    · exact ⟨_, _, _, _, _, rfl⟩

theorem count_limit (p : Plan) (w : Half) (sc : Scan) : (sc.count p w).limit = sc.limit := by
  obtain ⟨n, k, m, j, g, h⟩ := count_form p w sc
  rw [h]

theorem examine_append {p : Plan} (pre post : List Half) (sc : Scan) (h : ∀ w ∈ pre, mapFault p sc.limit w = none) :
    sc.examine p (pre ++ post) = (pre.foldl (fun sc w => sc.count p w) sc).examine p post := by
  induction pre generalizing sc with
  | nil => rfl
  | cons w ws ih =>
    rw [List.cons_append, examine_valid (h w (List.mem_cons_self ..)), List.foldl_cons]
    refine ih _ fun v hv => ?_
    rw [count_limit]
    exact h v (List.mem_cons_of_mem _ hv)

theorem foldl_count_limit (p : Plan) (ws : List Half) (sc : Scan) :
    (ws.foldl (fun sc w => sc.count p w) sc).limit = sc.limit := by
  induction ws generalizing sc with
  | nil => rfl
  | cons w ws ih => rw [List.foldl_cons, ih, count_limit]

/-! ## The count of a cell (R16) -/

theorem count_notADie {p : Plan} {w : Half} {sc : Scan} (h : cellBin w = notADie) :
    sc.count p w = { sc with index := sc.index + 1 } := if_pos h

theorem count_untested {p : Plan} {w : Half} {sc : Scan} (h : cellBin w ≠ notADie) (hi : p.info (cellBin w) = none) :
    sc.count p w = { sc with index := sc.index + 1, candidates := sc.candidates + 1 } := by
  unfold Scan.count
  rw [if_neg h, hi]

theorem count_tested {p : Plan} {w : Half} {sc : Scan} {i : BinInfo} (h : cellBin w ≠ notADie)
    (hi : p.info (cellBin w) = some i) : sc.count p w = { sc with
      index := sc.index + 1
      candidates := sc.candidates + 1
      tested := sc.tested + 1
      passed := sc.passed + (if i.cls = .pass then 1 else 0)
      groups := sc.groups.set i.group.val (sc.groups[i.group.val] + 1) i.group.isLt } := by
  unfold Scan.count
  rw [if_neg h, hi]
  obtain ⟨cls, rank, group⟩ := i
  cases cls <;> rfl

theorem lt_of_info {p : Plan} {bin : Byte} {i : BinInfo} (h : p.info bin = some i) : bin.toNat < 240 := by
  by_contra hge
  rw [info_none_of_high (by omega)] at h
  cases h

/-- A valid cell whose bin no plan entry describes is untested or no die. -/
theorem high_of_valid {p : Plan} {limit : Nat} {w : Half} (h : mapFault p limit w = none)
    (hi : p.info (cellBin w) = none) : 240 ≤ (cellBin w).toNat := by
  rw [cellBin_eq] at hi
  rw [cellBin_toNat]
  rw [mapFault_eq] at h
  by_contra hlt
  by_cases h1 : 240 ≤ w.toNat % 256 ∧ w.toNat % 256 ≤ 253
  · omega
  · rw [if_neg h1] at h
    split at h
    · cases h
    · rw [if_pos ⟨by omega, hi⟩] at h
      cases h

theorem count_spec {p : Plan} {w : Half} {sc : Scan} (hvalid : mapFault p sc.limit w = none) :
    (sc.count p w).index = sc.index + 1
    ∧ (sc.count p w).candidates = sc.candidates + (if cellBin w = notADie then 0 else 1)
    ∧ (sc.count p w).tested = sc.tested + (if (cellBin w).toNat < 240 then 1 else 0)
    ∧ (sc.count p w).passed = sc.passed + (if (p.info (cellBin w)).map (·.cls) = some .pass then 1 else 0)
    ∧ ∀ g : Fin 16, (sc.count p w).groups[g] =
        sc.groups[g] + if (p.info (cellBin w)).map (·.group) = some g then 1 else 0 := by
  by_cases hdie : cellBin w = notADie
  · have hhigh : ¬(cellBin w).toNat < 240 := by
      rw [hdie]
      decide
    rw [count_notADie hdie, if_pos hdie, if_neg hhigh, info_none_of_high (by omega)]
    exact ⟨rfl, rfl, rfl, rfl, fun _ => rfl⟩
  · cases hi : p.info (cellBin w) with
    | none =>
      have hhigh := high_of_valid hvalid hi
      rw [count_untested hdie hi, if_neg hdie, if_neg (by omega)]
      exact ⟨rfl, rfl, rfl, rfl, fun _ => rfl⟩
    | some i =>
      rw [count_tested hdie hi, if_neg hdie, if_pos (lt_of_info hi)]
      refine ⟨rfl, rfl, rfl, ?_, fun g => ?_⟩
      · simp
      · have h : (sc.groups.set i.group.val (sc.groups[i.group.val] + 1) i.group.isLt)[g.val] =
            if i.group.val = g.val then sc.groups[i.group.val] + 1 else sc.groups[g.val] :=
          Vector.getElem_set ..
        refine h.trans ?_
        by_cases hg : i.group = g
        · subst hg
          simp
        · have hv : i.group.val ≠ g.val := fun e => hg (Fin.ext e)
          simp [hg, hv]

/-! ## A read's data (R15 to R18) -/

section
variable {data : List Byte} {sc sc' : Scan} {s : State}

theorem effectOf_scanRead_invalid {f : MapFault} (hout : Outstanding .scanRead data.length s) (hsc : s.scanner = some sc)
    (h : sc.examine (s.coll.plan sc.plan) (cellsOfBytes data) = (sc', some f)) :
    effectOf (.scanReadDone data) s = some (endScan (sc'.invalid f) (portFree s)) := by
  change scanData data s = _
  unfold scanData
  rw [returned_of hout]
  simp only [Option.bind_eq_bind, Option.bind_some, portFree_scanner, hsc, portFree_coll, h]
  rfl

/-- A scan goes on in its wafer, with the next wafer, or ends with SUCCESS. -/
def scanOn (sc : Scan) (s : State) : State :=
  if sc.index < sc.columns * sc.rows then continueScan sc s
  else if sc.nextWafer.todo = [] then endScan (.scanSuccess sc.key sc.nextWafer.finished sc.groups) s
  else continueScan sc.nextWafer s

theorem effectOf_scanRead_valid (hout : Outstanding .scanRead data.length s) (hsc : s.scanner = some sc)
    (h : sc.examine (s.coll.plan sc.plan) (cellsOfBytes data) = (sc', none)) :
    effectOf (.scanReadDone data) s = some (scanOn sc' (portFree s)) := by
  change scanData data s = _
  unfold scanData scanOn
  rw [returned_of hout]
  simp only [Option.bind_eq_bind, Option.bind_some, portFree_scanner, hsc, portFree_coll, h]
  split
  · rfl
  · split
    · rfl
    · rfl

end

theorem nextWafer_eq {sc : Scan} {n : Nat} {map : Addr} {rest : List (Nat × Addr)} (h : sc.todo = (n, map) :: rest) :
    sc.nextWafer = { sc with
      todo := rest, index := 0, candidates := 0, tested := 0, passed := 0
      finished := sc.finished ++ [⟨n, sc.candidates, sc.tested, sc.passed⟩] } := by
  unfold Scan.nextWafer Scan.wafer
  rw [h]
  rfl

/-- The read of a scan with a wafer to read (R15). -/
def Scan.cellRead (sc : Scan) (map : Addr) : Transaction :=
  readOf .scanRead (addrPlus map (2 * sc.index))
    (chunk (addrPlus map (2 * sc.index)) (2 * (sc.columns * sc.rows - sc.index)))

theorem continueScan_eq {sc : Scan} {n : Nat} {map : Addr} {rest : List (Nat × Addr)} (h : sc.todo = (n, map) :: rest)
    (s : State) : continueScan sc s = portRequest (sc.cellRead map) { s with scanner := some sc } := by
  unfold continueScan Scan.read
  rw [h]
  rfl

/-- A scan that goes on has its read requested. -/
theorem continueScan_lands {i : Instr} {sc : Scan} {n : Nat} {map : Addr} {rest : List (Nat × Addr)} {s : State}
    {P : State → Prop} (h : sc.todo = (n, map) :: rest) (he : effectOf i s = some (continueScan sc (portFree s)))
    (hP : ∀ t, t.scanner = some sc → Keeps [.scanner, .port, .irq] s t → Requested (sc.cellRead map) t → P t) :
    Answers i s P := by
  rw [continueScan_eq h] at he
  refine answers_landed he (drainReady_of_scanner (Option.some_ne_none sc)) fun t hl => hP t hl.scanner ?_ ?_
  · exact hl.keepsOf (by simp [Keeps])
  · exact hl.requested (requested_portRequest _ _)

/-- A scan that ends hands its completion to the catalogue queue. -/
theorem endScan_lands {i : Instr} {r : Request} {s : State} (he : effectOf i s = some (endScan r (portFree s))) :
    Answers i s fun t => t.scanner = none ∧ t.coll = { s.coll with requests := s.coll.requests ++ [r] }
      ∧ Keeps [.scanner, .coll, .port, .irq] s t := by
  refine answers_landed he (drainReady_of_requests ?_) fun t hl => ⟨hl.scanner, hl.coll, hl.keepsOf ?_⟩
  · exact List.append_ne_nil_of_right_ne_nil _ (List.cons_ne_nil _ _)
  · simp [Keeps, endScan]

/-- Settles O39: the cells by `examine_append` and `count_spec`, and each continuation of the scan. -/
theorem scanCountsAndCompletes : Obligations.ScanCountsAndCompletes := by
  refine ⟨cellsOfBytes_flatMap, fun p sc pre hpre => ⟨?_, fun w post f hf => ?_⟩,
    fun p w sc hvalid => ⟨count_form p w sc, count_spec hvalid⟩,
    fun data sc sc' s hout hsc => ⟨fun f h => endScan_lands (effectOf_scanRead_invalid hout hsc h), fun h => ?_⟩⟩
  · have h := examine_append pre [] sc hpre
    rwa [List.append_nil] at h
  · refine (examine_append pre (w :: post) sc hpre).trans (examine_invalid ?_ post)
    rwa [foldl_count_limit]
  · have he := effectOf_scanRead_valid hout hsc h
    unfold scanOn at he
    refine ⟨fun n map rest htodo hleft => ?_, fun n map n' map' rest htodo hdone => ?_, fun n map htodo hdone => ?_⟩
    · rw [if_pos hleft] at he
      exact continueScan_lands htodo he fun t h1 h2 h3 => ⟨h1, h2, h3⟩
    · have hnext := nextWafer_eq htodo
      rw [if_neg (by omega), if_neg (by rw [hnext]; exact List.cons_ne_nil _ _), hnext] at he
      refine continueScan_lands (sc := { sc' with
        todo := (n', map') :: rest, index := 0, candidates := 0, tested := 0, passed := 0
        finished := sc'.finished ++ [⟨n, sc'.candidates, sc'.tested, sc'.passed⟩] }) rfl he fun t h1 h2 h3 => ⟨h1, h2, ?_⟩
      have haddr : addrPlus map' (2 * 0) = map' := BitVec.add_zero map'
      unfold Scan.cellRead chunk at h3
      rwa [haddr] at h3
    · have hnext := nextWafer_eq htodo
      rw [if_neg (by omega), if_pos (by rw [hnext]), hnext] at he
      exact endScan_lands he

end Sys2Proof.Machine
end

