-- ==== Sys2Proof/Proofs/CatalogueRequests.lean ====
section
/-! SUPPORT. A catalogue request taken from the queue and the answer its service gives; and LOAD_PLAN (O40; R10, R11, R64,
R66). -/

namespace Sys2Proof.Machine

/-! ## A request taken, and answered (R64, R66) -/

/-- The state in which a request taken from the queue is served. -/
def State.taken (rest : List Request) (s : State) : State := { s with coll := { s.coll with requests := rest } }

theorem effectOf_takeWork {r : Request} {rest : List Request} {s : State} (h : Serves r rest s) :
    effectOf .collationTakeWork s = some (serve r (s.taken rest)) := by
  obtain ⟨hwork, hruns, hrequests⟩ := h
  change takeWork s = _
  unfold takeWork
  have hruns : collationRuns s = true := by simpa [collationRuns] using hruns
  rw [hwork, hruns, hrequests]
  rfl

theorem keeps_taken {l : List Part} (rest : List Request) (s : State) (h : .coll ∈ l) : Keeps l s (s.taken rest) := by
  simp [Keeps, State.taken, h]

/-- An effect that is an outcome returned: the order in service is answered. -/
theorem answers_outcome {i : Instr} {v : Service} {out : OrderOutcome} {s u : State} {P : State → Prop}
    (he : effectOf i s = some (returnOutcome out u)) (hv : s.order.service = some v) (ho : u.order = s.order)
    (hP : ∀ t, Answered v out s t → Landed (answer out u) t → P t) : Answers i s P := by
  have hu : u.order.service = some v := by rw [ho, hv]
  rw [returnOutcome_eq out hu] at he
  refine answers_landed he (drainReady_answer out hu) fun t hl => hP t (answered_answer ?_ hl) hl
  rw [ho, with_same_service hv]

/-- A refusal: the order is answered with it, and the catalogue stays. -/
theorem answers_refusal {v : Service} {code : Code} {result : Word} {rest : List Request} {s : State} {P : State → Prop}
    (he : effectOf .collationTakeWork s = some (returnOutcome (.refused code result) (s.taken rest)))
    (hv : s.order.service = some v)
    (hP : ∀ t, t.coll = { s.coll with requests := rest } → Answered v (.refused code result) s t →
      Keeps [.coll, .order, .port, .irq] s t → P t) : Answers .collationTakeWork s P :=
  answers_outcome he hv rfl fun t ha hl =>
    hP t hl.coll ha (hl.keepsOf (keeps_answer _ (keeps_taken rest s (by simp)) (by simp) (by simp)))

/-! ## Lists of checks -/

theorem firstTrue_none_iff {α : Type} {l : List (Bool × Option α)} (h : ∀ x ∈ l, x.2 ≠ none) :
    firstTrue none l = none ↔ ∀ x ∈ l, ¬x.1 = true := by
  induction l with
  | nil => simp [firstTrue]
  | cons x l ih =>
    obtain ⟨b, a⟩ := x
    have hl := ih fun y hy => h y (List.mem_cons_of_mem _ hy)
    rw [List.forall_mem_cons, ← hl]
    cases b with
    | false => simp [firstTrue]
    | true => simpa [firstTrue] using h _ (List.mem_cons_self ..)

theorem find?_range'_succ (q : Nat → Bool) (k n : Nat) :
    (List.range' k (n + 1)).find? q = if q k then some k else (List.range' (k + 1) n).find? q := by
  rw [List.range'_succ, List.find?_cons]
  cases q k <;> rfl

/-! ## The checks of LOAD_PLAN (R10) -/

theorem classOf_pass (n : Nat) : (classOf n == some .pass) = (n == 1) := by
  match n with
  | 0 | 1 | 2 => rfl
  | n + 3 => rfl

theorem classOf_fail (n : Nat) : (classOf n == some .fail) = (n == 2) := by
  match n with
  | 0 | 1 | 2 => rfl
  | n + 3 => rfl

theorem classOf_none (n : Nat) : (classOf n == none) = (n != 1 && n != 2) := by
  match n with
  | 0 | 1 | 2 => rfl
  | n + 3 => rfl

/-- The ranks of the entries of a class code. -/
abbrev ranksOfCode (cls : Nat) (es : List PlanEntry) : List Nat := (es.filter fun e => e.cls == cls).map (·.rank)

theorem ranksOf_pass (es : List PlanEntry) : ranksOf .pass es = ranksOfCode 1 es := by
  simp only [ranksOf, classOf_pass]

theorem ranksOf_fail (es : List PlanEntry) : ranksOf .fail es = ranksOfCode 2 es := by
  simp only [ranksOf, classOf_fail]

/-- The entry at an index breaks check 3. -/
def badEntryAt (es : List PlanEntry) (i : Nat) : Bool := es[i]?.any fun e =>
  239 < e.bin || (e.cls != 1 && e.cls != 2) || 15 < e.rank || 15 < e.group || ((es.take i).map (·.bin)).contains e.bin

/-- The index of the first entry that breaks check 3. -/
abbrev firstBadIndex (es : List PlanEntry) : Option Nat := (List.range es.length).find? (badEntryAt es)

theorem badEntryAt_append (pre es : List PlanEntry) (e : PlanEntry) :
    badEntryAt (pre ++ e :: es) pre.length = e.bad (pre.map (·.bin)).reverse := by
  have hcontains : (pre.map (·.bin)).reverse.contains e.bin = (pre.map (·.bin)).contains e.bin := by
    rw [Bool.eq_iff_iff]
    simp
  unfold badEntryAt PlanEntry.bad
  rw [List.getElem?_append_right (Nat.le_refl _), Nat.sub_self, List.getElem?_cons_zero, Option.any_some,
    List.take_left, classOf_none, hcontains]

/-- The recursion of the model finds the first index. -/
theorem firstBadEntry_append (pre es : List PlanEntry) :
    firstBadEntry pre.length (pre.map (·.bin)).reverse es =
      ((List.range' pre.length es.length).find? (badEntryAt (pre ++ es))).map fun i =>
        (i, ((pre ++ es)[i]?.map (·.bin)).getD 0) := by
  induction es generalizing pre with
  | nil => rfl
  | cons e es ih =>
    have h := ih (pre ++ [e])
    rw [List.length_append, List.length_singleton, List.map_append, List.reverse_append, List.append_assoc] at h
    rw [firstBadEntry, List.length_cons, find?_range'_succ, badEntryAt_append]
    split
    · simp
    · exact h

theorem firstBadEntry_eq (es : List PlanEntry) : firstBadEntry 0 [] es =
    (firstBadIndex es).map fun i => (i, (es[i]?.map (·.bin)).getD 0) := by
  have h := firstBadEntry_append [] es
  rwa [List.length_nil, ← List.range_eq_range'] at h

/-- An entry in range with a named class (R10). -/
abbrev PlanEntry.InRange (e : PlanEntry) : Prop := e.bin ≤ 239 ∧ (e.cls = 1 ∨ e.cls = 2) ∧ e.rank ≤ 15 ∧ e.group ≤ 15

theorem bad_iff (seen : List Nat) (e : PlanEntry) : ¬e.bad seen = true ↔ e.InRange ∧ e.bin ∉ seen := by
  unfold PlanEntry.bad PlanEntry.InRange
  rw [classOf_none]
  simp only [Bool.or_eq_true, decide_eq_true_eq, Bool.and_eq_true, bne_iff_ne, List.contains_iff_mem]
  grind

theorem firstBadEntry_none_iff (k : Nat) (seen : List Nat) (es : List PlanEntry) : firstBadEntry k seen es = none ↔
    (∀ e ∈ es, e.InRange) ∧ (es.map (·.bin)).Nodup ∧ ∀ e ∈ es, e.bin ∉ seen := by
  induction es generalizing k seen with
  | nil => simp [firstBadEntry]
  | cons e es ih =>
    rw [firstBadEntry]
    by_cases hbad : e.bad seen = true
    · rw [if_pos hbad]
      refine iff_of_false (Option.some_ne_none _) fun ⟨hrange, _, hseen⟩ => ?_
      exact (bad_iff seen e).2 ⟨hrange e (List.mem_cons_self ..), hseen e (List.mem_cons_self ..)⟩ hbad
    · obtain ⟨hrange, hseen⟩ := (bad_iff seen e).1 hbad
      rw [if_neg hbad, ih, List.map_cons, List.nodup_cons, List.forall_mem_cons, List.forall_mem_cons]
      simp only [List.mem_cons, not_or, List.mem_map, not_exists, not_and]
      grind

theorem firstBadIndex_none_iff (es : List PlanEntry) : firstBadIndex es = none ↔
    (∀ e ∈ es, e.InRange) ∧ (es.map (·.bin)).Nodup := by
  have h := firstBadEntry_none_iff 0 [] es
  rw [firstBadEntry_eq, Option.map_eq_none_iff] at h
  simpa using h

theorem highest_eq (rs : List Nat) : highest rs = rs.max?.getD 0 := by
  cases rs with
  | nil => rfl
  | cons r rs =>
    rw [List.max?_cons', Option.getD_some, highest, List.foldl_cons, Nat.zero_max]

theorem lowest_eq {rs : List Nat} (hne : rs ≠ []) (h : ∀ r ∈ rs, r ≤ 15) : lowest rs = rs.min?.getD 0 := by
  cases rs with
  | nil => exact absurd rfl hne
  | cons r rs =>
    rw [List.min?_cons', Option.getD_some, lowest, List.foldl_cons, Nat.min_eq_right (h r (List.mem_cons_self ..))]

theorem min_le_max_iff {ps fs : List Nat} (hp : ps ≠ []) (hf : fs ≠ []) :
    fs.min?.getD 0 ≤ ps.max?.getD 0 ↔ ∃ p ∈ ps, ∃ f ∈ fs, f ≤ p := by
  obtain ⟨m, hm⟩ := Option.ne_none_iff_exists'.1 (mt List.max?_eq_none_iff.1 hp)
  obtain ⟨n, hn⟩ := Option.ne_none_iff_exists'.1 (mt List.min?_eq_none_iff.1 hf)
  obtain ⟨hmem, hmax⟩ := List.max?_eq_some_iff.1 hm
  obtain ⟨hnmem, hmin⟩ := List.min?_eq_some_iff.1 hn
  rw [hm, hn, Option.getD_some, Option.getD_some]
  refine ⟨fun h => ⟨m, hmem, n, hnmem, h⟩, fun ⟨p, hp, f, hf, h⟩ => ?_⟩
  have := hmax p hp
  have := hmin f hf
  omega

/-- The checks of R10 in order, each with the code and result word it refuses with. -/
def loadPlanChecks (lots : List Lot) (slot : Nat) (es : List PlanEntry) : List (Bool × Option (Code × Word)) :=
  [(7 < slot, some (.badSlot, 0)),
    (lotsNaming lots slot ≠ 0, some (.planInUse, oneValue (lotsNaming lots slot))),
    ((firstBadIndex es).isSome, some (.badEntry,
      twoValues ((firstBadIndex es).getD 0) ((es[(firstBadIndex es).getD 0]?.map (·.bin)).getD 0))),
    (ranksOfCode 1 es = [], some (.noPass, oneValue (ranksOfCode 2 es).length)),
    (ranksOfCode 2 es ≠ [] ∧ (ranksOfCode 2 es).min?.getD 0 ≤ (ranksOfCode 1 es).max?.getD 0,
      some (.rankOrder, twoValues ((ranksOfCode 1 es).max?.getD 0) ((ranksOfCode 2 es).min?.getD 0)))]

theorem loadPlanError_eq (lots : List Lot) (slot : Nat) (es : List PlanEntry) :
    loadPlanError lots slot es = firstTrue none (loadPlanChecks lots slot es) := by
  unfold loadPlanError
  simp only [loadPlanChecks, firstTrue, decide_eq_true_eq, Nat.pos_iff_ne_zero]
  rw [firstBadEntry_eq, ranksOf_pass, ranksOf_fail, highest_eq]
  refine if_congr Iff.rfl rfl (if_congr Iff.rfl rfl ?_)
  cases hbad : firstBadIndex es with
  | some i => rfl
  | none =>
    obtain ⟨hrange, -⟩ := (firstBadIndex_none_iff es).1 hbad
    have hlow : ranksOfCode 2 es ≠ [] → lowest (ranksOfCode 2 es) = (ranksOfCode 2 es).min?.getD 0 := fun hne =>
      lowest_eq hne fun r hr => by
        obtain ⟨e, he, rfl⟩ := List.mem_map.1 hr
        exact (hrange e (List.mem_filter.1 he).1).2.2.1
    rw [Option.isSome_none, if_neg Bool.false_ne_true]
    refine if_congr Iff.rfl rfl ?_
    by_cases hne : ranksOfCode 2 es = []
    · simp [hne]
    · rw [hlow hne]

theorem mem_ranksOfCode {cls n : Nat} {es : List PlanEntry} :
    n ∈ ranksOfCode cls es ↔ ∃ e ∈ es, e.cls = cls ∧ e.rank = n := by
  simp [and_assoc]

theorem ranksOfCode_ne_nil {cls : Nat} {es : List PlanEntry} : ranksOfCode cls es ≠ [] ↔ ∃ e ∈ es, e.cls = cls := by
  simp

/-- Check 5: a FAIL rank no higher than a PASS rank, where there is a PASS entry. -/
theorem rankOrder_iff {es : List PlanEntry} (hpass : ∃ e ∈ es, e.cls = 1) :
    ranksOfCode 2 es ≠ [] ∧ (ranksOfCode 2 es).min?.getD 0 ≤ (ranksOfCode 1 es).max?.getD 0 ↔
      ∃ e ∈ es, ∃ f ∈ es, e.cls = 1 ∧ f.cls = 2 ∧ f.rank ≤ e.rank := by
  have hpass := ranksOfCode_ne_nil.2 hpass
  refine ⟨fun ⟨hne, hle⟩ => ?_, fun ⟨e, he, f, hf, hcls, hfail, hle⟩ => ?_⟩
  · obtain ⟨p, hp, n, hn, hnp⟩ := (min_le_max_iff hpass hne).1 hle
    obtain ⟨e, he, hcls, rfl⟩ := mem_ranksOfCode.1 hp
    obtain ⟨f, hf, hfail, rfl⟩ := mem_ranksOfCode.1 hn
    exact ⟨e, he, f, hf, hcls, hfail, hnp⟩
  · have hne := ranksOfCode_ne_nil.2 ⟨f, hf, hfail⟩
    exact ⟨hne, (min_le_max_iff hpass hne).2
      ⟨_, mem_ranksOfCode.2 ⟨e, he, hcls, rfl⟩, _, mem_ranksOfCode.2 ⟨f, hf, hfail, rfl⟩, hle⟩⟩

theorem loadPlanError_none_iff (lots : List Lot) (slot : Nat) (es : List PlanEntry) : loadPlanError lots slot es = none ↔
    slot ≤ 7 ∧ (∀ l ∈ lots, l.plan.val ≠ slot) ∧ (∀ e ∈ es, e.InRange) ∧ (es.map (·.bin)).Nodup
      ∧ (∃ e ∈ es, e.cls = 1) ∧ ∀ e ∈ es, ∀ f ∈ es, e.cls = 1 → f.cls = 2 → e.rank < f.rank := by
  rw [loadPlanError_eq, firstTrue_none_iff (by simp [loadPlanChecks])]
  simp only [loadPlanChecks, List.forall_mem_cons, decide_eq_true_eq, List.not_mem_nil, false_implies, implies_true,
    and_true]
  refine and_congr Nat.not_lt (and_congr ?_ (Iff.trans (and_congr ?_ ?_) and_assoc))
  · simp [lotsNaming]
  · rw [Option.not_isSome_iff_eq_none]
    exact firstBadIndex_none_iff es
  · refine (and_congr_left' ranksOfCode_ne_nil).trans (and_congr_right fun hpass => ?_)
    rw [rankOrder_iff hpass]
    grind

/-! ## The plan loaded (R11) -/

theorem info_planOf {es : List PlanEntry} (hrange : ∀ e ∈ es, e.bin ≤ 239) (b : Byte) :
    (planOf es).info b = (es.find? fun e => e.bin == b.toNat).bind PlanEntry.info := by
  unfold Plan.info
  split
  · unfold planOf
    rw [Vector.getElem_ofFn]
  · rename_i hhigh
    have hnone : (es.find? fun e => e.bin == b.toNat) = none := by
      rw [List.find?_eq_none]
      intro e he
      have := hrange e he
      simp only [beq_iff_eq]
      omega
    rw [hnone]
    rfl

/-- Settles O40: the checks of R10 as a list, and the plan by `info_planOf`. -/
theorem loadPlanServed : Obligations.LoadPlanServed := by
  refine ⟨loadPlanError_none_iff, ?_, fun slot es rest v s hs hv => ⟨fun hok => ?_, fun code result hbad => ?_⟩⟩
  · intro lots slot es naming first ranks high low bad
    have hiff : ∀ i : Fin 5, bad[i].1 ↔ ((loadPlanChecks lots slot es)[i]).1 = true := fun i =>
      match i with
      | 0 => (decide_eq_true_iff (p := 7 < slot)).symm
      | 1 => (decide_eq_true_iff (p := naming ≠ 0)).symm
      | 2 => Iff.rfl
      | 3 => (decide_eq_true_iff (p := ranks 1 = [])).symm
      | 4 => (decide_eq_true_iff (p := ranks 2 ≠ [] ∧ low ≤ high)).symm
    have hword : ∀ i : Fin 5, ((loadPlanChecks lots slot es)[i]).2 = some (bad[i].2.1, BitVec.ofNat 32 bad[i].2.2) := fun i =>
      match i with
      | 0 | 1 | 2 | 3 | 4 => rfl
    intro i hbefore hi
    rw [loadPlanError_eq, ← hword i]
    exact (firstTrue_eq none (loadPlanChecks lots slot es)).1 i
      (fun j hj => Bool.eq_false_of_not_eq_true (mt (hiff j).2 (hbefore j hj))) ((hiff i).1 hi)
  · have he := effectOf_takeWork hs
    have hserve : serve (.loadPlan slot es) (s.taken rest) =
        returnOutcome (.done (twoValues (ranksOf .pass es).length (ranksOf .fail es).length))
          { s.taken rest with coll := { (s.taken rest).coll with
            plans := s.coll.plans.setIfInBounds slot (some (planOf es)) } } := by
      change serveLoadPlan slot es _ = _
      unfold serveLoadPlan
      rw [show loadPlanError (s.taken rest).coll.lots slot es = none from hok]
      rfl
    rw [hserve, ranksOf_pass, ranksOf_fail, List.length_map, List.length_map] at he
    obtain ⟨hslot, -, hrange, -⟩ := (loadPlanError_none_iff _ _ _).1 hok
    refine answers_outcome he hv rfl fun t ha hl => ?_
    have hplans : t.coll.plans = s.coll.plans.setIfInBounds slot (some (planOf es)) := congrArg Collation.plans hl.coll
    have hget : ∀ p : Fin 8, t.coll.plans[p] = if slot = p.val then some (planOf es) else s.coll.plans[p] := fun p => by
      rw [hplans]
      exact Vector.getElem_setIfInBounds ..
    have hlots : t.coll.lots = s.coll.lots := by rw [hl.coll]; rfl
    refine ⟨congrArg Collation.requests hl.coll, (congrArg Collation.work hl.coll).trans hs.1, hlots, fun p => ?_, fun p hp => ?_, fun p hp b => ?_, ha,
      hl.keepsOf (keeps_answer _ ?_ (by simp) (by simp))⟩
    · rw [hget]
      by_cases hp : slot = p.val
      · simp [hp]
      · simp [hp, Ne.symm hp]
    · rw [hget, if_neg (Ne.symm hp)]
    · have hplan : t.coll.plan p = planOf es := by
        unfold Collation.plan
        exact congrArg (·.getD Plan.unused) ((hget p).trans (if_pos hp.symm))
      rw [hplan]
      exact info_planOf (fun e he => (hrange e he).1) b
    · simp [Keeps, State.taken]
  · have he := effectOf_takeWork hs
    have hserve : serve (.loadPlan slot es) (s.taken rest) = returnOutcome (.refused code result) (s.taken rest) := by
      change serveLoadPlan slot es _ = _
      unfold serveLoadPlan
      rw [show loadPlanError (s.taken rest).coll.lots slot es = some (code, result) from hbad]
    rw [hserve] at he
    exact answers_refusal he hv fun t h1 h2 h3 => ⟨h1, h2, h3⟩

end Sys2Proof.Machine
end

