-- ==== Sys2Proof/Proofs/OpenLotChecks.lean ====
section
/-! SUPPORT. The checks of OPEN_LOT in order, and the scan an accepted one begins (O41; R14, R128, R129). -/

namespace Sys2Proof.Machine

/-! ## The wafer list (check 6 of R128) -/

/-- The cause for which an entry fails check 6 after the numbers seen; 0 where it passes. -/
def waferCause (seen : List Nat) (w : Nat × Addr) : Nat :=
  if w.1 < 1 ∨ 25 < w.1 then 2 else if seen.contains w.1 then 3 else if w.2.toNat % 8 ≠ 0 then 4 else 0

/-- The cause of the entry at an index. -/
def waferCauseAt (ws : List (Nat × Addr)) (i : Nat) : Nat :=
  (ws[i]?.map (waferCause ((ws.take i).map (·.1)))).getD 0

/-- The index of the first entry that fails check 6. -/
abbrev firstBadWaferIndex (ws : List (Nat × Addr)) : Option Nat :=
  (List.range ws.length).find? fun i => waferCauseAt ws i != 0

theorem waferCause_reverse (seen : List Nat) (w : Nat × Addr) : waferCause seen.reverse w = waferCause seen w := by
  have hcontains : seen.reverse.contains w.1 = seen.contains w.1 := by
    rw [Bool.eq_iff_iff]
    simp
  unfold waferCause
  rw [hcontains]

theorem waferCauseAt_append (pre ws : List (Nat × Addr)) (w : Nat × Addr) :
    waferCauseAt (pre ++ w :: ws) pre.length = waferCause (pre.map (·.1)).reverse w := by
  unfold waferCauseAt
  rw [List.getElem?_append_right (Nat.le_refl _), Nat.sub_self, List.getElem?_cons_zero, List.take_left,
    waferCause_reverse]
  rfl

theorem firstBadWafer_cons (index : Nat) (seen : List Nat) (w : Nat × Addr) (ws : List (Nat × Addr)) :
    firstBadWafer index seen (w :: ws) =
      if waferCause seen w != 0 then some (waferCause seen w, index) else firstBadWafer (index + 1) (w.1 :: seen) ws := by
  obtain ⟨n, map⟩ := w
  rw [firstBadWafer]
  unfold waferCause
  by_cases hn : n < 1 ∨ 25 < n
  · rw [if_pos hn, if_pos (show n = 0 ∨ 25 < n by omega)]
    rfl
  · rw [if_neg hn, if_neg (show ¬(n = 0 ∨ 25 < n) by omega)]
    by_cases hseen : seen.contains n = true
    · rw [if_pos hseen, if_pos hseen]
      rfl
    · rw [if_neg hseen, if_neg hseen]
      by_cases hmap : map.toNat % 8 = 0
      · rw [if_neg (not_not.2 hmap), if_neg (by simp [aligned, hmap])]
        rfl
      · rw [if_pos hmap, if_pos (by simp [aligned, hmap])]
        rfl

/-- The recursion of the model finds the first index. -/
theorem firstBadWafer_append (pre ws : List (Nat × Addr)) : firstBadWafer pre.length (pre.map (·.1)).reverse ws =
    ((List.range' pre.length ws.length).find? fun i => waferCauseAt (pre ++ ws) i != 0).map fun i =>
      (waferCauseAt (pre ++ ws) i, i) := by
  induction ws generalizing pre with
  | nil => rfl
  | cons w ws ih =>
    have h := ih (pre ++ [w])
    rw [List.length_append, List.length_singleton, List.map_append, List.reverse_append, List.append_assoc] at h
    rw [firstBadWafer_cons, List.length_cons, find?_range'_succ, waferCauseAt_append]
    split
    · rw [Option.map_some, waferCauseAt_append]
    · exact h

theorem firstBadWafer_eq (ws : List (Nat × Addr)) : firstBadWafer 0 [] ws =
    (firstBadWaferIndex ws).map fun i => (waferCauseAt ws i, i) := by
  have h := firstBadWafer_append [] ws
  rwa [List.length_nil, ← List.range_eq_range'] at h

/-- An entry whose number is in range and whose map is aligned (R128). -/
abbrev GoodWafer (w : Nat × Addr) : Prop := (1 ≤ w.1 ∧ w.1 ≤ 25) ∧ w.2.toNat % 8 = 0

theorem waferCause_zero_iff (seen : List Nat) (w : Nat × Addr) :
    ¬(waferCause seen w != 0) = true ↔ GoodWafer w ∧ w.1 ∉ seen := by
  unfold waferCause GoodWafer
  rw [bne_iff_ne]
  simp only [List.contains_iff_mem]
  grind

theorem firstBadWafer_none_iff (k : Nat) (seen : List Nat) (ws : List (Nat × Addr)) : firstBadWafer k seen ws = none ↔
    (∀ w ∈ ws, GoodWafer w) ∧ (ws.map (·.1)).Nodup ∧ ∀ w ∈ ws, w.1 ∉ seen := by
  induction ws generalizing k seen with
  | nil => simp [firstBadWafer]
  | cons w ws ih =>
    rw [firstBadWafer_cons]
    by_cases hbad : (waferCause seen w != 0) = true
    · rw [if_pos hbad]
      refine iff_of_false (Option.some_ne_none _) fun ⟨hgood, _, hseen⟩ => ?_
      exact (waferCause_zero_iff seen w).2 ⟨hgood w (List.mem_cons_self ..), hseen w (List.mem_cons_self ..)⟩ hbad
    · obtain ⟨hgood, hseen⟩ := (waferCause_zero_iff seen w).1 hbad
      rw [if_neg hbad, ih, List.map_cons, List.nodup_cons, List.forall_mem_cons, List.forall_mem_cons]
      simp only [List.mem_cons, not_or, List.mem_map, not_exists, not_and]
      grind

theorem firstBadWaferIndex_none_iff (ws : List (Nat × Addr)) : firstBadWaferIndex ws = none ↔
    (∀ w ∈ ws, GoodWafer w) ∧ (ws.map (·.1)).Nodup := by
  have h := firstBadWafer_none_iff 0 [] ws
  rw [firstBadWafer_eq, Option.map_eq_none_iff] at h
  simpa using h

/-! ## The checks in order (R128) -/

/-- The wafer count is out of range. -/
abbrev OpenLotBody.BadCount (b : OpenLotBody) : Prop := b.count < 1 ∨ 25 < b.count

/-- The result word of check 6. -/
def waferListWord (b : OpenLotBody) : Word :=
  BitVec.ofNat 32 (if b.BadCount then 1
    else waferCauseAt b.wafers ((firstBadWaferIndex b.wafers).getD 0) + 65536 * ((firstBadWaferIndex b.wafers).getD 0 % 65536))

/-- The checks of R128, each with the code and result word it refuses with. -/
def openLotChecks (b : OpenLotBody) (coll : Collation) : List (Bool × Option (Code × Word)) :=
  [(32 ≤ coll.lots.length, some (.catalogueFull, oneValue 32)),
    ((findLot coll.lots b.key).isSome,
      some (.duplicateKey, oneValue (((findLot coll.lots b.key).map (·.state.code)).getD 0))),
    (7 < b.plan, some (.badSlot, oneValue b.plan)),
    (∃ slot : Fin 8, slot.val = b.plan ∧ coll.plans[slot] = none, some (.planEmpty, oneValue b.plan)),
    (b.columns < 1 ∨ 512 < b.columns ∨ b.rows < 1 ∨ 512 < b.rows, some (.badGrid, twoValues b.columns b.rows)),
    (b.BadCount ∨ (firstBadWaferIndex b.wafers).isSome, some (.badWaferList, waferListWord b)),
    (b.limit < 1 ∨ 15 < b.limit, some (.badLimit, oneValue b.limit)),
    (1 < b.policy, some (.badPolicy, oneValue b.policy))]

theorem waferCauseAt_le (ws : List (Nat × Addr)) (i : Nat) : waferCauseAt ws i ≤ 4 := by
  unfold waferCauseAt
  cases ws[i]? with
  | none => exact Nat.zero_le 4
  | some w =>
    rw [Option.map_some, Option.getD_some]
    unfold waferCause
    grind

/-- Check 6 fails with the word, or passes. -/
theorem waferListError_eq (b : OpenLotBody) :
    (waferListError b).map (fun x => twoValues x.1 x.2) =
      if b.BadCount ∨ (firstBadWaferIndex b.wafers).isSome then some (waferListWord b) else none := by
  unfold waferListError waferListWord
  by_cases hcount : b.BadCount
  · rw [if_pos (show b.count = 0 ∨ 25 < b.count by omega), if_pos (.inl hcount), if_pos hcount]
    rfl
  · rw [if_neg (show ¬(b.count = 0 ∨ 25 < b.count) by omega), if_neg hcount, firstBadWafer_eq]
    cases hfirst : firstBadWaferIndex b.wafers with
    | none =>
      rw [if_neg (by simpa using hcount)]
      rfl
    | some i =>
      rw [if_pos (.inr rfl)]
      have := waferCauseAt_le b.wafers i
      refine congrArg (fun k => some (BitVec.ofNat 32 (k + 65536 * (i % 65536)))) (Nat.mod_eq_of_lt ?_)
      exact show waferCauseAt b.wafers i < 65536 by omega

theorem policyOf_none {n : Nat} (h : 1 < n) : policyOf n = none := by
  match n, h with
  | n + 2, _ => rfl

/-- The checks decide: the first that fails refuses, and where none fails the slot and the policy are those named. -/
theorem checkOpenLot_eq (b : OpenLotBody) (coll : Collation) (slot : Fin 8) (policy : Policy)
    (hslot : b.plan ≤ 7 → b.plan = slot.val) (hpolicy : b.policy ≤ 1 → policyOf b.policy = some policy) :
    checkOpenLot b coll = (firstTrue none (openLotChecks b coll)).elim (.ok (slot, policy)) .error := by
  unfold checkOpenLot openLotChecks
  simp only [firstTrue, decide_eq_true_eq]
  by_cases hlen : 32 ≤ coll.lots.length
  · rw [if_pos hlen, if_pos hlen]
    rfl
  rw [if_neg hlen, if_neg hlen]
  cases hfind : findLot coll.lots b.key with
  | some l =>
    rw [if_pos (Option.isSome_some)]
    rfl
  | none =>
    rw [if_neg (by simp)]
    dsimp only
    by_cases hplan : 7 < b.plan
    · rw [if_pos hplan, dif_neg (by omega)]
      rfl
    have hlt : b.plan < 8 := by omega
    obtain rfl : slot = ⟨b.plan, hlt⟩ := Fin.ext (hslot (by omega)).symm
    rw [if_neg hplan, dif_pos hlt]
    have hempty : (∃ slot : Fin 8, slot.val = b.plan ∧ coll.plans[slot] = none) ↔
        (!coll.loaded ⟨b.plan, hlt⟩) = true := by
      rw [Bool.not_eq_true', Collation.loaded, Option.isSome_eq_false_iff, Option.isNone_iff_eq_none]
      refine ⟨fun ⟨slot, he, hnone⟩ => ?_, fun hnone => ⟨⟨b.plan, hlt⟩, rfl, hnone⟩⟩
      obtain rfl : slot = ⟨b.plan, hlt⟩ := Fin.ext he
      exact hnone
    have hgrid : (b.columns < 1 ∨ 512 < b.columns ∨ b.rows < 1 ∨ 512 < b.rows) ↔
        (badSide b.columns || badSide b.rows) = true := by
      simp only [badSide, Bool.or_eq_true, decide_eq_true_eq, Nat.lt_one_iff, or_assoc]
    by_cases h4 : ∃ slot : Fin 8, slot.val = b.plan ∧ coll.plans[slot] = none
    · rw [if_pos h4, if_pos (hempty.1 h4)]
      rfl
    rw [if_neg h4, if_neg (mt hempty.2 h4)]
    by_cases h5 : b.columns < 1 ∨ 512 < b.columns ∨ b.rows < 1 ∨ 512 < b.rows
    · rw [if_pos h5, if_pos (hgrid.1 h5)]
      rfl
    rw [if_neg h5, if_neg (mt hgrid.2 h5)]
    have hlist := waferListError_eq b
    by_cases h6 : b.BadCount ∨ (firstBadWaferIndex b.wafers).isSome = true
    · rw [if_pos h6] at hlist ⊢
      obtain ⟨⟨cause, index⟩, hx, hword⟩ := Option.map_eq_some_iff.1 hlist
      rw [hx, ← hword]
      rfl
    rw [if_neg h6] at hlist ⊢
    rw [Option.map_eq_none_iff.1 hlist]
    dsimp only
    by_cases h7 : b.limit < 1 ∨ 15 < b.limit
    · rw [if_pos h7, if_pos (show b.limit = 0 ∨ 15 < b.limit by omega)]
      rfl
    rw [if_neg h7, if_neg (show ¬(b.limit = 0 ∨ 15 < b.limit) by omega)]
    by_cases h8 : 1 < b.policy
    · rw [if_pos h8, policyOf_none h8]
      rfl
    rw [if_neg h8, hpolicy (by omega)]
    rfl

/-! ## Acceptance (R128, R129) -/

/-- The policy codes (R187). -/
theorem policyOf_iff (n : Nat) (p : Policy) :
    policyOf n = some p ↔ n = 0 ∧ p = .keepBest ∨ n = 1 ∧ p = .keepLast := by
  match n with
  | 0 | 1 => cases p <;> simp [policyOf]
  | n + 2 => simp [policyOf]

theorem openLotChecks_none_iff (b : OpenLotBody) (coll : Collation) : firstTrue none (openLotChecks b coll) = none ↔
    coll.lots.length < 32 ∧ (∀ l ∈ coll.lots, l.key ≠ b.key) ∧ b.plan ≤ 7
      ∧ (∀ slot : Fin 8, slot.val = b.plan → (coll.plans[slot]).isSome)
      ∧ ((1 ≤ b.columns ∧ b.columns ≤ 512) ∧ (1 ≤ b.rows ∧ b.rows ≤ 512))
      ∧ ((1 ≤ b.count ∧ b.count ≤ 25) ∧ (∀ w ∈ b.wafers, GoodWafer w) ∧ (b.wafers.map (·.1)).Nodup)
      ∧ (1 ≤ b.limit ∧ b.limit ≤ 15) ∧ b.policy ≤ 1 := by
  rw [firstTrue_none_iff (by simp [openLotChecks])]
  simp only [openLotChecks, List.forall_mem_cons, decide_eq_true_eq, List.not_mem_nil, false_implies, implies_true,
    and_true]
  refine and_congr Nat.not_le (and_congr ?_ (and_congr Nat.not_lt (and_congr ?_ (and_congr ?_ (and_congr ?_
    (and_congr ?_ Nat.not_lt))))))
  · rw [Option.not_isSome_iff_eq_none]
    simp [findLot]
  · rw [not_exists]
    refine forall_congr' fun slot => ?_
    rw [not_and, Option.isSome_iff_ne_none]
  · omega
  · rw [not_or, Option.not_isSome_iff_eq_none, firstBadWaferIndex_none_iff]
    exact and_congr_left' (by omega)
  · omega

theorem checkOpenLot_ok_iff (b : OpenLotBody) (coll : Collation) (slot : Fin 8) (policy : Policy) :
    checkOpenLot b coll = .ok (slot, policy) ↔
      coll.lots.length < 32 ∧ (∀ l ∈ coll.lots, l.key ≠ b.key) ∧ b.plan = slot.val ∧ (coll.plans[slot]).isSome
      ∧ (1 ≤ b.columns ∧ b.columns ≤ 512) ∧ (1 ≤ b.rows ∧ b.rows ≤ 512)
      ∧ (1 ≤ b.count ∧ b.count ≤ 25) ∧ (∀ w ∈ b.wafers, (1 ≤ w.1 ∧ w.1 ≤ 25) ∧ w.2.toNat % 8 = 0)
      ∧ (b.wafers.map (·.1)).Nodup ∧ (1 ≤ b.limit ∧ b.limit ≤ 15)
      ∧ (b.policy = 0 ∧ policy = .keepBest ∨ b.policy = 1 ∧ policy = .keepLast) := by
  constructor
  · intro hok
    have heq := checkOpenLot_eq b coll (Fin.ofNat 8 b.plan) ((policyOf b.policy).getD .keepBest)
      (fun h => (Nat.mod_eq_of_lt (show b.plan < 8 by omega)).symm) fun h => by
        interval_cases b.policy <;> rfl
    cases hchecks : firstTrue none (openLotChecks b coll) with
    | some e =>
      rw [hok, hchecks] at heq
      cases heq
    | none =>
      rw [hok, hchecks] at heq
      obtain ⟨rfl, rfl⟩ := Prod.mk.inj (Except.ok.inj heq)
      obtain ⟨h1, h2, h3, h4, ⟨h5, h6⟩, ⟨h7, h8, h9⟩, h10, h11⟩ := (openLotChecks_none_iff b coll).1 hchecks
      have hval : b.plan = (Fin.ofNat 8 b.plan).val := (Nat.mod_eq_of_lt (show b.plan < 8 by omega)).symm
      refine ⟨h1, h2, hval, h4 _ hval.symm, h5, h6, h7, h8, h9, h10, (policyOf_iff _ _).1 ?_⟩
      interval_cases b.policy <;> rfl
  · rintro ⟨h1, h2, h3, h4, h5, h6, h7, h8, h9, h10, h11⟩
    rw [checkOpenLot_eq b coll slot policy (fun _ => h3) fun _ => (policyOf_iff _ _).2 h11,
      (openLotChecks_none_iff b coll).2 ⟨h1, h2, by omega, fun s hs => ?_, ⟨h5, h6⟩, ⟨h7, h8, h9⟩, h10, by omega⟩]
    · rfl
    · obtain rfl : s = slot := Fin.ext (hs.trans h3)
      exact h4

/-- The first check that fails gives the refusal. -/
theorem checkOpenLot_refuses {b : OpenLotBody} {coll : Collation} {e : Code × Word}
    (h : firstTrue none (openLotChecks b coll) = some e) : checkOpenLot b coll = .error e := by
  rw [checkOpenLot_eq b coll (Fin.ofNat 8 b.plan) ((policyOf b.policy).getD .keepBest)
    (fun h => (Nat.mod_eq_of_lt (show b.plan < 8 by omega)).symm) fun h => by interval_cases b.policy <;> rfl, h]
  rfl

/-! ## OPEN_LOT served (R14, R129) -/

theorem floorClamps_eq (f : Option Floor) : floorClamps f =
    (f.map fun g => (if 10000 < g.figure then 1 else 0) + if g.minimum = 0 then 1 else 0).getD 0 := by
  cases f with
  | none => rfl
  | some g =>
    have h1 := min_ne 10000 g.figure
    simp only [Nat.not_lt_zero, false_or] at h1
    have h2 : (max g.minimum 1 != g.minimum).toNat = if g.minimum = 0 then 1 else 0 := by
      by_cases hz : g.minimum = 0
      · rw [if_pos hz, hz]
        rfl
      · rw [if_neg hz, Nat.max_eq_left (by omega)]
        simp
    exact congrArg₂ (· + ·) h1 h2

/-- Settles O41: the checks of R128 as a list, and the scan of an accepted lot. -/
theorem openLotServed : Obligations.OpenLotServed := by
  refine ⟨checkOpenLot_ok_iff, ?_, fun b rest v s hs hv => ⟨fun slot policy n map ws hok hwafers => ?_,
    fun code result hbad => ?_⟩⟩
  · intro b coll badCount cause first bad
    have hcause : cause = waferCauseAt b.wafers := by
      funext i
      unfold waferCauseAt
      cases hw : b.wafers[i]? with
      | none => simp only [cause, hw]; rfl
      | some w => simp only [cause, hw]; rfl
    have hfirst : first = firstBadWaferIndex b.wafers := by
      simp only [first, hcause]
    have hlist : (badCount ∨ first.isSome) ↔ decide (b.BadCount ∨ (firstBadWaferIndex b.wafers).isSome) = true := by
      rw [hfirst, decide_eq_true_iff]
    have hlistWord : waferListWord b =
        BitVec.ofNat 32 (if badCount then 1 else cause (first.getD 0) + 65536 * (first.getD 0 % 65536)) := by
      rw [hfirst, hcause]
      rfl
    have hiff : ∀ i : Fin 8, bad[i].1 ↔ ((openLotChecks b coll)[i]).1 = true := fun i =>
      match i with
      | 0 => (decide_eq_true_iff (p := 32 ≤ coll.lots.length)).symm
      | 1 => Iff.rfl
      | 2 => (decide_eq_true_iff (p := 7 < b.plan)).symm
      | 3 => (decide_eq_true_iff (p := ∃ slot : Fin 8, slot.val = b.plan ∧ coll.plans[slot] = none)).symm
      | 4 => (decide_eq_true_iff (p := b.columns < 1 ∨ 512 < b.columns ∨ b.rows < 1 ∨ 512 < b.rows)).symm
      | 5 => hlist
      | 6 => (decide_eq_true_iff (p := b.limit < 1 ∨ 15 < b.limit)).symm
      | 7 => (decide_eq_true_iff (p := 1 < b.policy)).symm
    have hword : ∀ i : Fin 8, ((openLotChecks b coll)[i]).2 = some (bad[i].2.1, BitVec.ofNat 32 bad[i].2.2) := fun i =>
      match i with
      | 0 | 1 | 2 | 3 | 4 | 6 | 7 => rfl
      | 5 => congrArg (fun w => some (Code.badWaferList, w)) hlistWord
    intro i hbefore hi
    refine checkOpenLot_refuses ?_
    rw [← hword i]
    exact (firstTrue_eq none (openLotChecks b coll)).1 i
      (fun j hj => Bool.eq_false_of_not_eq_true (mt (hiff j).2 (hbefore j hj))) ((hiff i).1 hi)
  · have he := effectOf_takeWork hs
    have hserve : serve (.openLot b) (s.taken rest) =
        continueScan (b.scan slot) ((s.taken rest).setLots (s.coll.lots ++ [b.entry slot policy])) := by
      change serveOpenLot b _ = _
      unfold serveOpenLot
      rw [show checkOpenLot b (s.taken rest).coll = .ok (slot, policy) from hok]
      rfl
    rw [hserve, continueScan_eq (show (b.scan slot).todo = (n, map) :: ws from hwafers)] at he
    obtain ⟨-, hkeys, -⟩ := (checkOpenLot_ok_iff b s.coll slot policy).1 hok
    refine answers_landed he (drainReady_of_scanner (Option.some_ne_none (b.scan slot))) fun t hl => ?_
    refine ⟨⟨b.entry slot policy, ?_, hl.coll, rfl, rfl, rfl, rfl, rfl, rfl, rfl, rfl, rfl, rfl, rfl,
      congrArg some (floorClamps_eq b.floor), rfl, rfl, fun g => Vector.getElem_replicate .., rfl, rfl, rfl, rfl⟩,
      hl.scanner, ?_, hl.keepsOf (by simp [Keeps, State.setLots, State.taken])⟩
    · have hnone : findLot s.coll.lots b.key = none := by
        simpa [findLot] using hkeys
      have hlots : t.coll.lots = s.coll.lots ++ [b.entry slot policy] := by rw [hl.coll]; rfl
      rw [hlots, findLot_append, hnone]
      exact if_pos rfl
    · have h := hl.requested (requested_portRequest _ _)
      have haddr : addrPlus map (2 * 0) = map := BitVec.add_zero map
      unfold Scan.cellRead chunk at h
      rwa [show (b.scan slot).index = 0 from rfl, haddr] at h
  · have he := effectOf_takeWork hs
    have hserve : serve (.openLot b) (s.taken rest) = returnOutcome (.refused code result) (s.taken rest) := by
      change serveOpenLot b _ = _
      unfold serveOpenLot
      rw [show checkOpenLot b (s.taken rest).coll = .error (code, result) from hbad]
    rw [hserve] at he
    exact answers_refusal he hv fun t h1 h2 h3 => ⟨h1, h2, h3⟩

end Sys2Proof.Machine
end

