-- ==== Sys2Proof/Proofs/ScanCompletions.lean ====
section
/-! SUPPORT. The completions of a scan as the collation unit serves them, and the one evaluation of the floor at opening
(O42; R18 to R20, R130, R132). -/

namespace Sys2Proof.Machine

/-! ## The notices of the state an effect lands in -/

theorem Landed.raised {subject : Subject} {d : Detail} {s u t : State} (hl : Landed u t) (h : Raised subject d s u) :
    Raised subject d s t := by
  unfold Raised at h ⊢
  rwa [hl.notice]

theorem sameNotices_of_eq {s t : State} (h : t.notice = s.notice) : SameNotices s t := by
  unfold SameNotices
  rw [h]
  exact ⟨rfl, rfl, rfl, rfl, rfl, rfl⟩

/-! ## The floor evaluated once (R130, R132) -/

theorem findLot_modLot {key : Word} {f : Lot → Lot} {l : Lot} {s : State} (hf : ∀ l, (f l).key = l.key)
    (h : findLot s.coll.lots key = some l) : findLot (modLot key f s).coll.lots key = some (f l) := by
  refine (findLot_changeLots hf s.coll.lots key).trans ?_
  rw [h]
  exact congrArg some (if_pos (findLot_key h).1)

theorem floorTrips_iff {l : Lot} {f : Floor} (h : l.floor = some f) : l.floorTrips = true ↔
    f.minimum ≤ l.tested ∧ yieldFigure l.tested l.passed < f.figure ∧ l.tripped = false := by
  unfold Lot.floorTrips
  rw [h]
  simp [and_assoc]

theorem floorTrips_of_none {l : Lot} (h : l.floor = none) : l.floorTrips = false := by
  unfold Lot.floorTrips
  rw [h]

/-- The floor of a lot evaluated outside a report (R130). -/
def floorEvaluated (key : Word) (s : State) : State :=
  if floorDue key s then latchFloor key (raiseFloor key none s) else s

theorem floorDue_of_find {key : Word} {l : Lot} {s : State} (h : findLot s.coll.lots key = some l) :
    floorDue key s = l.floorTrips := by
  unfold floorDue
  rw [h]
  rfl

theorem floorEvaluated_stays {key : Word} {l : Lot} {s : State} (h : findLot s.coll.lots key = some l)
    (hstays : ¬l.floorTrips = true) : floorEvaluated key s = s := by
  unfold floorEvaluated
  rw [floorDue_of_find h]
  exact if_neg hstays

/-- A trip raises LOT_FLOOR, with no reporting cell, and latches the flag. -/
theorem floorEvaluated_trips {key : Word} {l : Lot} {s : State} (h : findLot s.coll.lots key = some l)
    (htrips : l.floorTrips = true) :
    Settles key true [(.lot key 0, l.floorDetail none)] s (floorEvaluated key s) := by
  unfold floorEvaluated
  rw [floorDue_of_find h, if_pos htrips]
  have htells := tells_raiseFloor key none s
  unfold floorNotices at htells
  rw [h] at htells
  exact (Settles.of_noticeOnly (raiseFloor_noticeOnly key none s) (moves_raiseFloor key none s).asks htells).before
    (Settles.latch key _)

/-! ## SUCCESS (R18, R130) -/

/-- The state in which the floor of a lot opened is evaluated. -/
abbrev lotOpened (key : Word) (counts : List WaferCounts) (groups : Vector Nat 16) (s : State) : State :=
  modLot key (Lot.opened counts groups) s

theorem serveScanSuccess_eq {key : Word} {counts : List WaferCounts} {groups : Vector Nat 16} {l : Lot} {s : State}
    (h : findLot s.coll.lots key = some l) : serveScanSuccess key counts groups s =
      returnOutcome (.done (twoValues (l.clamps.getD 0) (l.opened counts groups).completeWafers))
        (floorEvaluated key (lotOpened key counts groups s)) := by
  have hopened := findLot_modLot (f := Lot.opened counts groups) (fun _ => rfl) h
  unfold serveScanSuccess
  simp only [h, hopened]
  rfl

theorem scanned_eq (counts : List WaferCounts) (w : Wafer) : w.scanned counts =
    ((counts.find? fun n => n.number == w.number).map fun n => { w with
      candidates := n.candidates, tested := n.tested, passed := n.passed, complete := n.tested == n.candidates }).getD w := by
  unfold Wafer.scanned
  cases counts.find? fun n => n.number == w.number with
  | none => rfl
  | some n => rfl

/-- Settles O42: the floor by `floorEvaluated`, and the lots dropped. -/
theorem scanCompletionsServed : Obligations.ScanCompletionsServed := by
  refine ⟨fun key counts groups rest v l s hs hv hl => ?_, fun key wafer x y f rest v s hs hv => ?_,
    fun key rest s hs => ?_⟩
  · have he := effectOf_takeWork hs
    have hfind : findLot (s.taken rest).coll.lots key = some l := hl
    have hopened := findLot_modLot (f := Lot.opened counts groups) (fun _ => rfl) hfind
    have hkey : (l.opened counts groups).key = key := (findLot_key hl).1
    have hserve : serve (.scanSuccess key counts groups) (s.taken rest) = _ := serveScanSuccess_eq hfind
    rw [hserve] at he
    have hwafers : (l.opened counts groups).wafers = l.wafers.map (fun w =>
        match counts.find? fun n => n.number == w.number with
        | some n => { w with
            candidates := n.candidates, tested := n.tested, passed := n.passed, complete := n.tested == n.candidates }
        | none => w) := by
      refine List.map_congr_left fun w _ => ?_
      rw [scanned_eq]
      cases counts.find? fun n => n.number == w.number <;> rfl
    by_cases htrips : (l.opened counts groups).floorTrips = true
    · have hset := floorEvaluated_trips hopened htrips
      have happ := Applies.of_settles hset
      refine answers_outcome he hv happ.order_eq fun t ha hland => ?_
      have hcoll := hland.coll.trans (hset.coll.trans (if_pos rfl))
      obtain ⟨f, hfloor⟩ : ∃ f, l.floor = some f := by
        refine Option.ne_none_iff_exists'.1 fun hnone => ?_
        rw [floorTrips_of_none (l := l.opened counts groups) hnone] at htrips
        cases htrips
      have hlots : findLot t.coll.lots key = some { l.opened counts groups with tripped := true } := by
        rw [hcoll]
        exact findLot_modLot (f := fun l => { l with tripped := true }) (fun _ => rfl) hopened
      have hraised : Raised (.lot key 0) ((l.opened counts groups).floorDetail none) s t := by
        have hnoted := Tells.raised (ds := []) hset.tells
        exact hland.raised (s := s) hnoted
      refine ⟨⟨_, hlots, rfl, rfl, rfl, rfl, rfl, rfl, rfl, fun hnone => ?_, fun g hg => ?_, hwafers, ha⟩,
        congrArg Collation.requests hcoll, (congrArg Collation.work hcoll).trans hs.1⟩
      · rw [hfloor] at hnone
        cases hnone
      · refine (if_pos ((floorTrips_iff (l := l.opened counts groups) hg).1 htrips)).mpr ⟨rfl, ?_⟩
        unfold Lot.floorDetail at hraised
        rw [hkey, show (l.opened counts groups).floor = some g from hg] at hraised
        exact hraised
    · rw [floorEvaluated_stays hopened htrips] at he
      refine answers_outcome he hv rfl fun t ha hland => ?_
      have hlots : findLot t.coll.lots key = some (l.opened counts groups) := by
        rw [hland.coll]
        exact hopened
      have hsame : SameNotices s t := sameNotices_of_eq hland.notice
      refine ⟨⟨_, hlots, rfl, rfl, rfl, rfl, rfl, rfl, rfl, fun _ => ⟨rfl, hsame⟩, fun f hf => ?_, hwafers, ha⟩,
        congrArg Collation.requests hland.coll, (congrArg Collation.work hland.coll).trans hs.1⟩
      refine (if_neg ?_).mpr ⟨rfl, hsame⟩
      exact mt (floorTrips_iff (l := l.opened counts groups) hf).2 htrips
  · have he := effectOf_takeWork hs
    refine answers_outcome he hv rfl fun t ha hland => ⟨hland.coll, ha, sameNotices_of_eq hland.notice⟩
  · refine answers_of_effect (effectOf_takeWork hs) ⟨settle_coll s _, settle_order s _, ?_⟩
    exact sameNotices_settle_of_eq s rfl

end Sys2Proof.Machine
end

