-- ==== Sys2Proof/Proofs/LotOrders.lean ====
section
/-! SUPPORT. CLOSE_LOT, SNAPSHOT and RELEASE_LOT as the collation unit serves them (O43; R133 to R135, R138), and the length
of a tally record (R190). -/

namespace Sys2Proof.Machine

/-! ## The tally record as fields (R190) -/

/-- The fields of the fixed part before the group counts. -/
def Lot.headFields (l : Lot) (state : Nat) (stamp : Time) : List (Nat × Nat) :=
  [(4, l.key.toNat), (1, state), (1, l.wafers.length), (2, 0), (4, stamp.toNat), (4, l.tested), (4, l.passed),
    (2, recordFigure l.tested l.passed), (2, 0), (4, l.duplicates), (4, l.refused)]

/-- The fields of a wafer part. -/
def Wafer.fields (w : Wafer) : List (Nat × Nat) :=
  [(1, w.number), (1, w.complete.toNat), (2, recordFigure w.tested w.passed), (4, w.tested), (4, w.passed),
    (4, w.candidates)]

theorem sizeOf_headFields (l : Lot) (state : Nat) (stamp : Time) : sizeOf (l.headFields state stamp) = 32 := rfl

theorem sizeOf_waferFields (w : Wafer) : sizeOf w.fields = 16 := rfl

theorem waferPart_eq (w : Wafer) : w.part = encode w.fields := by
  simp [Wafer.part, Wafer.fields, encode]

theorem length_waferPart (w : Wafer) : w.part.length = 16 := by
  rw [waferPart_eq, length_encode, sizeOf_waferFields]

theorem tallyRecord_eq (l : Lot) (state : Nat) (stamp : Time) : l.tallyRecord state stamp =
    encode (l.headFields state stamp) ++ l.groups.toList.flatMap (leBytes 4) ++ l.wafers.flatMap Wafer.part := by
  simp [Lot.tallyRecord, Lot.headFields, encode]

theorem length_fixedPart (l : Lot) (state : Nat) (stamp : Time) :
    (encode (l.headFields state stamp) ++ l.groups.toList.flatMap (leBytes 4)).length = 96 := by
  rw [List.length_append, length_encode, sizeOf_headFields, length_flatMap_const (k := 4) (length_leBytes 4),
    Vector.length_toList]

theorem length_tallyRecord (l : Lot) (state : Nat) (stamp : Time) :
    (l.tallyRecord state stamp).length = 96 + 16 * l.wafers.length := by
  rw [tallyRecord_eq, List.length_append, length_fixedPart, length_flatMap_const length_waferPart]

/-! ## A record begun (R140) -/

/-- A tally record's write requested, with the record the work in service. -/
theorem answers_continueTally {i : Instr} {work : RecordWrite → Work} {w : RecordWrite} {s u : State}
    (he : effectOf i s = some (continueTally work w u)) (hk : Keeps [.coll, .port] s u) : Answers i s fun t =>
      t.coll = { u.coll with work := some (work w) } ∧ Requested (w.write .tallyWrite) t
        ∧ Keeps [.coll, .port, .irq] s t := by
  refine answers_landed he (drainReady_of_work (Option.some_ne_none (work w))) fun t hl =>
    ⟨hl.coll, hl.requested (requested_portRequest _ _), hl.keepsOf ?_⟩
  exact (hk.mono (by simp)).trans (by simp [Keeps, continueTally, setWork])

/-! ## What the three orders do with a lot -/

/-- A lot closing (R134). -/
def Lot.closed (now : Time) (grace : Nat) (addr : Addr) (l : Lot) : Lot :=
  { l with state := .closing, grace := some (Time.plus now grace), graceSpent := grace == 0, finalAddr := some addr }

/-- A lot released (R133). -/
def Lot.released (floor : Option Floor) (l : Lot) : Lot := { l with tripped := false, floor := floor.map Floor.clamped }

/-- The catalogue with a lot closing; with a grace of 0 the finalize is in the queue (R134, R135). -/
def lotClosing (key : Word) (grace : Nat) (addr : Addr) (s : State) : State :=
  if grace = 0 then joinRequests (.finalize key) (modLot key (Lot.closed s.clock grace addr) s)
  else modLot key (Lot.closed s.clock grace addr) s

theorem lotClosing_frame (key : Word) (grace : Nat) (addr : Addr) (s : State) :
    (lotClosing key grace addr s).order = s.order
      ∧ (lotClosing key grace addr s).coll.lots = (modLot key (Lot.closed s.clock grace addr) s).coll.lots
      ∧ (lotClosing key grace addr s).coll.requests =
          if grace = 0 then s.coll.requests ++ [.finalize key] else s.coll.requests := by
  unfold lotClosing
  split
  · exact ⟨rfl, rfl, rfl⟩
  · exact ⟨rfl, rfl, rfl⟩

section
variable {key : Word} {l : Lot} {s : State}

theorem serveCloseLot_busy (h : findLot s.coll.lots key = some l) (hstate : l.state ≠ .opened) (grace : Nat) (addr : Addr) :
    serveCloseLot key grace addr s = returnOutcome (.refused .lotBusy (oneValue l.state.code)) s := by
  unfold serveCloseLot
  rw [h]
  exact if_pos hstate

theorem serveCloseLot_address (h : findLot s.coll.lots key = some l) (hstate : l.state = .opened) {addr : Addr}
    (haddr : addr.toNat % 8 ≠ 0) (grace : Nat) :
    serveCloseLot key grace addr s = returnOutcome (.refused .badAddress 0) s := by
  unfold serveCloseLot
  rw [h]
  exact (if_neg (not_not.2 hstate)).trans (if_pos (by simpa [aligned] using haddr))

theorem serveCloseLot_done (h : findLot s.coll.lots key = some l) (hstate : l.state = .opened) {addr : Addr}
    (haddr : addr.toNat % 8 = 0) (grace : Nat) : serveCloseLot key grace addr s =
      returnOutcome (.done (oneValue l.tested)) (lotClosing key grace addr s) := by
  unfold serveCloseLot
  rw [h]
  exact (if_neg (not_not.2 hstate)).trans (if_neg (by simpa [aligned] using haddr))

theorem serveSnapshot_busy (h : findLot s.coll.lots key = some l) (hstate : l.state = .opening) (addr : Addr) :
    serveSnapshot key addr s = returnOutcome (.refused .lotBusy (oneValue l.state.code)) s := by
  unfold serveSnapshot
  rw [h]
  exact if_pos hstate

theorem serveSnapshot_address (h : findLot s.coll.lots key = some l) (hstate : l.state ≠ .opening) {addr : Addr}
    (haddr : addr.toNat % 8 ≠ 0) : serveSnapshot key addr s = returnOutcome (.refused .badAddress 0) s := by
  unfold serveSnapshot
  rw [h]
  exact (if_neg hstate).trans (if_pos (by simpa [aligned] using haddr))

theorem serveSnapshot_begun (h : findLot s.coll.lots key = some l) (hstate : l.state ≠ .opening) {addr : Addr}
    (haddr : addr.toNat % 8 = 0) : serveSnapshot key addr s =
      continueTally (.snapshot key) (tallyWrite l l.state.code addr s.clock) s := by
  unfold serveSnapshot
  rw [h]
  exact (if_neg hstate).trans (if_neg (by simpa [aligned] using haddr))

theorem serveReleaseLot_busy (h : findLot s.coll.lots key = some l) (hstate : l.state = .opening) (floor : Option Floor) :
    serveReleaseLot key floor s = returnOutcome (.refused .lotBusy 0) s := by
  unfold serveReleaseLot
  rw [h]
  exact if_pos hstate

theorem serveReleaseLot_done (h : findLot s.coll.lots key = some l) (hstate : l.state ≠ .opening) (floor : Option Floor) :
    serveReleaseLot key floor s =
      returnOutcome (.done (releaseLotResult l.tripped floor.isSome (floorClamps floor)))
        (refreshLot key (modLot key (Lot.released floor) s)) := by
  unfold serveReleaseLot
  rw [h]
  exact if_neg hstate

/-- An order that names no catalogue lot is refused with UNKNOWN_LOT. -/
theorem serve_unknown (h : findLot s.coll.lots key = none) {r : Request}
    (hr : (∃ grace addr, r = .closeLot key grace addr) ∨ (∃ addr, r = .snapshot key addr) ∨ ∃ f, r = .releaseLot key f) :
    serve r s = returnOutcome (.refused .unknownLot 0) s := by
  rcases hr with ⟨grace, addr, rfl⟩ | ⟨addr, rfl⟩ | ⟨f, rfl⟩
  · change serveCloseLot key grace addr s = _
    unfold serveCloseLot
    rw [h]
  · change serveSnapshot key addr s = _
    unfold serveSnapshot
    rw [h]
  · change serveReleaseLot key f s = _
    unfold serveReleaseLot
    rw [h]

end

/-- Settles O43: each refusal and each service by its equation. -/
theorem lotOrdersServed : Obligations.LotOrdersServed := by
  intro r key rest v s hs hv refusal
  have he := effectOf_takeWork hs
  have refuses : ∀ code result, serve r (s.taken rest) = returnOutcome (.refused code (BitVec.ofNat 32 result)) (s.taken rest) →
      refusal code result := by
    intro code result h
    rw [h] at he
    exact answers_refusal he hv fun t h1 h2 _ => ⟨h1, h2⟩
  refine ⟨fun hr hnone => refuses _ _ (serve_unknown (s := s.taken rest) hnone hr), fun l hl => ?_⟩
  have hfind : findLot (s.taken rest).coll.lots key = some l := hl
  refine ⟨fun grace addr hr => ?_, fun addr hr => ?_, fun f hr => ?_⟩
  · subst hr
    refine ⟨fun hstate => refuses _ _ (serveCloseLot_busy hfind hstate grace addr),
      fun hstate haddr => refuses _ _ (serveCloseLot_address hfind hstate haddr grace), fun hstate haddr => ?_⟩
    have hserve : serve (.closeLot key grace addr) (s.taken rest) = _ := serveCloseLot_done hfind hstate haddr grace
    rw [hserve] at he
    have hclosed := findLot_modLot (f := Lot.closed s.clock grace addr) (fun _ => rfl) hfind
    obtain ⟨horder, hlots, hrequests⟩ := lotClosing_frame key grace addr (s.taken rest)
    refine answers_outcome he hv horder fun t ha hland => ⟨⟨_, ?_, rfl⟩, ?_, ha⟩
    · rw [hland.coll]
      exact (congrArg (findLot · key) hlots).trans hclosed
    · rw [hland.coll]
      exact hrequests
  · subst hr
    refine ⟨fun hstate => refuses _ _ ?_,
      fun hstate haddr => refuses _ _ (serveSnapshot_address hfind hstate haddr), fun hstate haddr => ?_⟩
    · have h := serveSnapshot_busy hfind hstate addr
      rwa [hstate] at h
    · have hserve : serve (.snapshot key addr) (s.taken rest) = _ := serveSnapshot_begun hfind hstate haddr
      rw [hserve] at he
      have hcode : l.state.code = if l.state = .opened then 2 else 3 := by
        cases h : l.state with
        | opening => exact absurd h hstate
        | opened => rfl
        | closing => rfl
      obtain ⟨t, ht, hcoll, hwrite, hkeeps⟩ := answers_continueTally he (keeps_taken rest s (by simp))
      refine ⟨t, ht, ?_, ?_, hkeeps⟩
      · rw [hcoll, hcode]
        rfl
      · have hlen := length_tallyRecord l l.state.code s.clock
        unfold RecordWrite.write chunk tallyWrite at hwrite
        dsimp only at hwrite
        rw [← hcode, ← hlen]
        exact hwrite
  · subst hr
    refine ⟨fun hstate => refuses _ _ (serveReleaseLot_busy hfind hstate f), fun hstate => ?_⟩
    have hserve : serve (.releaseLot key f) (s.taken rest) = _ := serveReleaseLot_done hfind hstate f
    rw [hserve, floorClamps_eq] at he
    refine answers_outcome he hv rfl fun t ha hland => ⟨⟨_, ?_, rfl⟩, ha⟩
    rw [hland.coll]
    exact findLot_modLot (f := Lot.released f) (fun _ => rfl) hfind

end Sys2Proof.Machine
end

