-- ==== Sys2Proof/Proofs/TallyRecords.lean ====
section
/-! SUPPORT. The layout of a tally record, its writes, the finalize of a lot, and the grace timer (O44; R64, R135 to R140,
R190). -/

namespace Sys2Proof.Machine

/-! ## The layout (R190) -/

/-- The fields before the group counts stand each at its place. -/
theorem tallyRecord_head (l : Lot) (state : Nat) (stamp : Time) : ∀ x ∈ placedFrom 0 (l.headFields state stamp),
    field (l.tallyRecord state stamp) x.1 x.2.1 = x.2.2 % 256 ^ x.2.1 := by
  rw [tallyRecord_eq, List.append_assoc]
  exact field_of_fieldsAt (fieldsAt_encode _ _)

theorem tallyRecord_group (l : Lot) (state : Nat) (stamp : Time) (g : Fin 16) :
    field (l.tallyRecord state stamp) (0x20 + 4 * g.val) 4 = l.groups[g] % 256 ^ 4 := by
  have hget : l.groups.toList[g.val]? = some l.groups[g] := by simp
  have hpart := field_part (length_leBytes 4) (encode (l.headFields state stamp)) hget (off := 0) (size := 4) (by omega)
  rw [length_encode, sizeOf_headFields, Nat.add_zero] at hpart
  have hself : field (leBytes 4 l.groups[g]) 0 4 = l.groups[g] % 256 ^ 4 := by
    unfold field
    rw [List.drop_zero, List.take_of_length_le (by rw [length_leBytes]), leNat_leBytes]
  rw [hself] at hpart
  rw [tallyRecord_eq, field_append_of_le, hpart]
  rw [length_fixedPart]
  omega

theorem tallyRecord_wafer {l : Lot} {n : Nat} {w : Wafer} (h : l.wafers[n]? = some w) (state : Nat) (stamp : Time) :
    ∀ x ∈ placedFrom 0 w.fields,
      field (l.tallyRecord state stamp) (0x60 + 16 * n + x.1) x.2.1 = x.2.2 % 256 ^ x.2.1 := by
  intro x hx
  have hle := placedFrom_le x hx
  rw [sizeOf_waferFields, Nat.zero_add] at hle
  have hpart := field_part length_waferPart
    (encode (l.headFields state stamp) ++ l.groups.toList.flatMap (leBytes 4)) h hle
  rw [length_fixedPart, waferPart_eq, field_encode x hx] at hpart
  rw [tallyRecord_eq]
  exact hpart

/-! ## The writes of a record (R136, R138, R140) -/

section
variable {key : Word} {w : RecordWrite} {s : State}

theorem effectOf_tallyWritten_snapshot (hout : OutstandingFor .tallyWrite s) (hwork : s.coll.work = some (.snapshot key w)) :
    effectOf .tallyRecordWriteDone s = some (
      if w.after.rest = [] then returnOutcome (.done (oneValue w.total)) (setWork none (portFree s))
      else continueTally (.snapshot key) w.after (portFree s)) := by
  change tallyWritten s = _
  unfold tallyWritten
  rw [acknowledged_of hout]
  simp only [Option.bind_eq_bind, Option.bind_some, portFree_coll, hwork]
  split
  · rfl
  · rfl

theorem effectOf_tallyWritten_finalize (hout : OutstandingFor .tallyWrite s) (hwork : s.coll.work = some (.finalize key w)) :
    effectOf .tallyRecordWriteDone s = some (
      if w.after.rest = [] then lotClosed key (portFree s) else continueTally (.finalize key) w.after (portFree s)) := by
  change tallyWritten s = _
  unfold tallyWritten
  rw [acknowledged_of hout]
  simp only [Option.bind_eq_bind, Option.bind_some, portFree_coll, hwork]
  split
  · rfl
  · rfl

end

/-! ## A lot closed (R114, R136) -/

/-- LOT_CLOSED of a lot (R136). -/
def Lot.closedDetail (l : Lot) : Detail :=
  .lotClosed l.key l.tested l.passed (recordFigure l.tested l.passed) l.wafers.length l.completeWafers
    (l.finalAddr.getD 0)

theorem lotClosed_eq {key : Word} {l : Lot} {s : State} (h : findLot s.coll.lots key = some l) :
    lotClosed key s = setWork none (dropLot key (raise (.lot key 0) l.closedDetail s)) := by
  unfold lotClosed Lot.closedDetail
  rw [h, (findLot_key h).1]

theorem tells_lotClosed (key : Word) (d : Detail) (s : State) :
    Tells [(.lot key 0, d)] s (setWork none (dropLot key (raise (.lot key 0) d s))) :=
  (tells_raise _ _ _).trans (Tells.of_eq rfl rfl rfl)

theorem coll_lotClosed (key : Word) (d : Detail) (s : State) : (setWork none (dropLot key (raise (.lot key 0) d s))).coll =
    { s.coll with work := none, lots := s.coll.lots.filter fun m => m.key != key } := by
  have h : (raise (.lot key 0) d s).coll = s.coll := raise_coll _ _ _
  unfold setWork dropLot refreshLot State.mapCells State.setLots
  dsimp only
  rw [h]

theorem holds_dropLot (key : Word) (s : State) (c : CellNo) : ((dropLot key s).cell c).holds = (s.cell c).holds := by
  unfold dropLot refreshLot
  rw [cell_mapCells]
  split
  · exact (transmit_frame _ _ _).2
  · rfl

theorem lotFloorHeld_dropped (key : Word) (lots : List Lot) :
    lotFloorHeld (lots.filter fun l => l.key != key) (some key) = false := by
  unfold lotFloorHeld
  have h := findLot_drop key key lots
  rw [if_pos rfl] at h
  simp [h]

/-! ## The grace timer (R135) -/

theorem graceExpires_due {key : Word} {l : Lot} {s : State} (h : findLot s.coll.lots key = some l)
    (hdue : l.graceDue s.clock = true) : graceExpires key s =
      some (joinRequests (.finalize key) (modLot key (fun l => { l with graceSpent := true }) s)) := by
  unfold graceExpires
  rw [h]
  exact if_pos hdue

theorem graceExpires_spent {key : Word} {l : Lot} {s : State} (h : findLot s.coll.lots key = some l)
    (hspent : l.graceSpent = true) : graceExpires key s = none := by
  unfold graceExpires
  rw [h]
  refine if_neg ?_
  simp [Lot.graceDue, hspent]

/-- Settles O44: the layout by its fields, and each write, finalize and expiry by its equation. -/
theorem tallyRecordsAndGrace : Obligations.TallyRecordsAndGrace := by
  refine ⟨fun l state stamp => ⟨length_tallyRecord l state stamp, tallyRecord_head l state stamp,
      tallyRecord_group l state stamp, fun n w hw => tallyRecord_wafer hw state stamp⟩,
    fun key rest l s hs hl => ?_, fun key w s hout hwork hleft => ?_, fun key w v s hout hwork hdone hv => ?_,
    fun key w l s hout hwork hdone hl => ?_, fun key l s hl hstate => ⟨fun hspent hexp => ?_, fun hspent => ?_⟩⟩
  · have he := effectOf_takeWork hs
    have hserve : serve (.finalize key) (s.taken rest) =
        continueTally (.finalize key) (tallyWrite l closedCode (l.finalAddr.getD 0) s.clock) (s.taken rest) := by
      change serveFinalize key _ = _
      unfold serveFinalize
      rw [show findLot (s.taken rest).coll.lots key = some l from hl]
      rfl
    rw [hserve] at he
    exact answers_continueTally he (keeps_taken rest s (by simp))
  · have hcontinues : ∃ work, effectOf .tallyRecordWriteDone s = some (continueTally work w.after (portFree s)) := by
      rcases hwork with hwork | hwork
      · exact ⟨_, (effectOf_tallyWritten_snapshot hout hwork).trans (congrArg some (if_neg hleft))⟩
      · exact ⟨_, (effectOf_tallyWritten_finalize hout hwork).trans (congrArg some (if_neg hleft))⟩
    obtain ⟨work, he⟩ := hcontinues
    obtain ⟨t, ht, hcoll, hwrite, hkeeps⟩ := answers_continueTally he (keeps_portFree s)
    have hlots : t.coll.lots = s.coll.lots := by rw [hcoll]; rfl
    exact ⟨t, ht, hwrite, hlots, hkeeps.2.2.2.2.1 (by simp), hkeeps⟩
  · have he := (effectOf_tallyWritten_snapshot hout hwork).trans (congrArg some (if_pos hdone))
    exact answers_outcome he hv rfl fun t ha hland => ⟨hland.coll, ha⟩
  · have he := (effectOf_tallyWritten_finalize hout hwork).trans (congrArg some (if_pos hdone))
    rw [lotClosed_eq (s := portFree s) hl] at he
    have hkey := (findLot_key hl).1
    have hcoll := (settle_coll s _).trans (coll_lotClosed key l.closedDetail (portFree s))
    refine answers_of_effect he ⟨hcoll, ?_, fun c hc => ?_⟩
    · have hraised := raised_settle s (Tells.raised (ds := []) (tells_lotClosed key l.closedDetail (portFree s)))
      have hdetail : l.closedDetail = .lotClosed key l.tested l.passed
          (if l.tested = 0 then 0xFFFF else l.passed * 10000 / l.tested) l.wafers.length
          (l.wafers.filter (·.complete)).length (l.finalAddr.getD 0) := by
        rw [← hkey]
        rfl
      rw [← hdetail]
      exact hraised
    · have hholds : (((setWork none (dropLot key (raise (.lot key 0) l.closedDetail (portFree s)))).cell c).holds) =
          (s.cell c).holds :=
        (holds_dropLot key _ c).trans (congrArg CellState.holds (cell_eq_of_cells (raise_cells _ _ _) c))
      rw [(reasonByte_bits _ _ _).2.2.2.2.2.1, settle_holds, hholds, hc, hcoll]
      exact lotFloorHeld_dropped key s.coll.lots
  · have hdue : l.graceDue s.clock = true := by
      simp [Lot.graceDue, hstate, hspent, hexp]
    refine answers_landed (graceExpires_due hl hdue) (drainReady_of_requests ?_) fun t hland =>
      ⟨congrArg Collation.requests hland.coll, hland.keepsOf (by simp [Keeps, joinRequests, modLot, State.setLots]), _, ?_, rfl⟩
    · exact List.append_ne_nil_of_right_ne_nil _ (List.cons_ne_nil _ _)
    · rw [hland.coll]
      exact findLot_modLot (f := fun l => { l with graceSpent := true }) (fun _ => rfl) hl
  · exact exec_of_no_effect (graceExpires_spent hl hspent)

end Sys2Proof.Machine
end

