-- ==== Sys2Proof/Proofs/ReportEffects.lean ====
section
/-! SUPPORT. The end of a report in full (R83): the catalogue, the reporting cell's guard, holds and queue, and every
notice; and the record's end or its next report (O35, O37, O38). -/

namespace Sys2Proof.Machine

/-! ## The catalogue (R77 to R79, R132) -/

/-- The catalogue after steps 1 and 2. -/
def talliedLots (r : Report) (e : Ending) (s : State) : List Lot := (finishTallies r e s).coll.lots

theorem completeWafer_coll (key : Word) (n : Nat) (s : State) :
    (completeWafer key n s).coll = { s.coll with lots := (completeWafer key n s).coll.lots } := by
  unfold completeWafer
  split
  · rfl
  · split
    · rw [raise_coll]
      rfl
    · rfl

theorem finishTallies_coll (r : Report) (e : Ending) (s : State) :
    (finishTallies r e s).coll = { s.coll with lots := talliedLots r e s } := by
  unfold talliedLots
  cases e with
  | unknownLot => rfl
  | refused code fault outcome => rfl
  | written was case =>
    cases case with
    | firstResult => exact completeWafer_coll _ _ _
    | duplicate => rfl
    | overLimit => rfl
    | stands => rfl
    | changed => rfl

theorem ownPart_coll (c : CellNo) (t : RecordId) (r : Report) (e : Ending) (s : State) :
    (ownPart c t r e s).coll = { s.coll with lots := talliedLots r e s } := by
  unfold ownPart
  rw [(onCell_finishCurrentLot c r e _).coll_eq, (onCell_finishNotice c t r e _).coll_eq, finishTallies_coll]

theorem finishFloorDue_congr {r : Report} {e : Ending} {s t : State} (h : t.coll = s.coll) :
    finishFloorDue r e t = finishFloorDue r e s := by
  unfold finishFloorDue
  rw [h]

theorem finishOutcome_congr {r : Report} {e : Ending} {s t : State} (h : t.coll = s.coll) :
    finishOutcome r e t = finishOutcome r e s := by
  unfold finishOutcome reportClass
  rw [h]

/-- The floor is due as the tallies stand. -/
abbrev floorTripDue (r : Report) (e : Ending) (s : State) : Bool := finishFloorDue r e (finishTallies r e s)

/-- The outcome a report hands to the guard unit, as the tallies stand (R81). -/
abbrev outcomeOf (r : Report) (e : Ending) (s : State) : Option Verdict := finishOutcome r e (finishTallies r e s)

/-- The catalogue after a report's end. -/
def endedLots (r : Report) (e : Ending) (s : State) : List Lot :=
  if floorTripDue r e s then changeLots r.key (fun l => { l with tripped := true }) (talliedLots r e s)
  else talliedLots r e s

section
variable (c : CellNo) (t : RecordId) (r : Report) (e : Ending) (s : State)

theorem ownPart_coll_tallies : (ownPart c t r e s).coll = (finishTallies r e s).coll := by
  rw [ownPart_coll, finishTallies_coll]

theorem ownPart_floorDue : finishFloorDue r e (guardTaken c r e (ownPart c t r e s)) = floorTripDue r e s :=
  finishFloorDue_congr ((guardTaken_frame c r e _).1.trans (ownPart_coll_tallies c t r e s))

theorem ownPart_outcome : finishOutcome r e (ownPart c t r e s) = outcomeOf r e s :=
  finishOutcome_congr (ownPart_coll_tallies c t r e s)

/-- The collation unit's items after a report's end. -/
theorem finishReport_coll :
    (finishReport c t r e s).coll = { s.coll with lots := endedLots r e s, inProgress := none } := by
  have h := finishHolds_coll c r e (ownPart c t r e s)
  rw [ownPart_floorDue] at h
  have hcoll : (finishReport c t r e s).coll = { (finishHolds c r e (ownPart c t r e s)).coll with inProgress := none } := rfl
  rw [hcoll, h]
  unfold endedLots
  have hown := ownPart_coll c t r e s
  split
  · unfold modLot State.setLots
    rw [hown]
  · rw [hown]

end

/-! ## The reporting cell and the others (R67, R80, R90, R99) -/

section
variable (c : CellNo) (t : RecordId) (r : Report) (e : Ending) (s : State)

theorem cells_finishTallies : (finishTallies r e s).cells = s.cells := by
  have hwafer : ∀ key n s, (completeWafer key n s).cells = s.cells := fun key n s => by
    unfold completeWafer
    split
    · rfl
    · split
      · rw [raise_cells]
        rfl
      · rfl
  cases e with
  | unknownLot => rfl
  | refused code fault outcome => rfl
  | written was case =>
    cases case with
    | firstResult => exact hwafer _ _ _
    | duplicate => rfl
    | overLimit => rfl
    | stands => rfl
    | changed => rfl

/-- The reporting cell's current lot is the report's, unless it names none (R80); nothing else of its blocks moves. -/
theorem ownPart_cell : ((ownPart c t r e s).cell c).asm = (s.cell c).asm
    ∧ ((ownPart c t r e s).cell c).guard = (s.cell c).guard
    ∧ ((ownPart c t r e s).cell c).holds = ((s.cell c).takeLot r.key e).holds := by
  have hcell : (finishNotice c t r e (finishTallies r e s)).cell c = s.cell c :=
    (onCell_finishNotice c t r e _).cell.trans (cell_eq_of_cells (cells_finishTallies r e s) c)
  unfold ownPart
  rw [(onCell_finishCurrentLot c r e _).cell, hcell]
  by_cases he : e = .unknownLot
  · rw [if_pos he, CellState.takeLot, if_pos he]
    exact ⟨rfl, rfl, rfl⟩
  · rw [if_neg he]
    obtain ⟨⟨hasm, hguard⟩, hholds⟩ := transmit_frame (finishNotice c t r e (finishTallies r e s)).engine.state
      (finishNotice c t r e (finishTallies r e s)).coll.lots ((s.cell c).takeLot r.key e)
    have htake : ((s.cell c).takeLot r.key e).asm = (s.cell c).asm
        ∧ ((s.cell c).takeLot r.key e).guard = (s.cell c).guard := by
      unfold CellState.takeLot
      rw [if_neg he]
      exact ⟨rfl, rfl⟩
    exact ⟨hasm.trans htake.1, hguard.trans htake.2, hholds⟩

theorem ownPart_others (d : CellNo) (hd : d ≠ c) : (ownPart c t r e s).cell d = s.cell d := by
  unfold ownPart
  rw [(onCell_finishCurrentLot c r e _).others d hd, (onCell_finishNotice c t r e _).others d hd]
  exact cell_eq_of_cells (cells_finishTallies r e s) d

/-- Every cell after a report's end against its blocks after steps 5 and 6. -/
theorem finishReport_cell (d : CellNo) :
    ((finishReport c t r e s).cell d).guard = ((finishHolds c r e (ownPart c t r e s)).cell d).guard
      ∧ ((finishReport c t r e s).cell d).holds = ((finishHolds c r e (ownPart c t r e s)).cell d).holds := by
  rw [finishReport_eq, advanceMark_eq]
  by_cases hd : d = c
  · subst hd
    rw [(onCell_modAsm d _ _).cell]
    exact ⟨rfl, rfl⟩
  · rw [(onCell_modAsm c _ _).others d hd]
    exact ⟨rfl, rfl⟩

/-- The record's mark has advanced (R67). -/
theorem finishReport_queue :
    ((finishReport c t r e s).cell c).asm.queue = markHead (s.cell c).asm.queue := by
  rw [finishReport_eq, advanceMark_eq, (onCell_modAsm c _ _).cell]
  have h : ((setProgress none (finishHolds c r e (ownPart c t r e s))).cell c).asm = (s.cell c).asm :=
    (finishHolds_asm c r e _ c).trans (ownPart_cell c t r e s).1
  exact congrArg (fun a => markHead a.queue) h

end

/-! ## The guard unit (R90, R99) -/

section
variable {c : CellNo} {t : RecordId} {r : Report} {e : Ending} {s : State}

theorem guardTaken_of_none {u : State} (h : finishOutcome r e u = none) : guardTaken c r e u = u := by
  unfold guardTaken
  rw [h]
  rfl

theorem guardTaken_of_some {u : State} {v : Verdict} (h : finishOutcome r e u = some v) :
    guardTaken c r e u = u.modCell c (CellState.takeOutcome r.site v) := by
  unfold guardTaken
  rw [h]
  rfl

theorem finishReport_guard (d : CellNo) : ((finishReport c t r e s).cell d).guard =
    ((guardTaken c r e (ownPart c t r e s)).cell d).guard :=
  (finishReport_cell c t r e s d).1.trans (finishHolds_work c r e _ d).2

theorem finishReport_others {d : CellNo} (hd : d ≠ c) : ((finishReport c t r e s).cell d).guard = (s.cell d).guard
    ∧ ((finishReport c t r e s).cell d).holds = (s.cell d).holds := by
  refine ⟨?_, ?_⟩
  · rw [finishReport_guard, (guardTaken_frame c r e _).2.2.2.2.2.2 d hd, ownPart_others c t r e s d hd]
  · rw [(finishReport_cell c t r e s d).2, (finishHolds_holds c r e _).2 d hd, ownPart_others c t r e s d hd]

theorem handOffFrom_currentLot (before : Guard) (cs : CellState) :
    (cs.handOffFrom before).holds.currentLot = cs.holds.currentLot := by
  unfold CellState.handOffFrom
  split <;> rfl

theorem finishReport_currentLot : ((finishReport c t r e s).cell c).holds.currentLot =
    ((s.cell c).takeLot r.key e).holds.currentLot := by
  rw [(finishReport_cell c t r e s c).2, (finishHolds_holds c r e _).1, handOffFrom_currentLot,
    (guardTaken_frame c r e _).2.2.2.2.2.1, (ownPart_cell c t r e s).2.2]

/-- What an outcome makes of a cell's guard (R90 to R92). -/
def CellState.guardAfter (site : Site) (v : Verdict) (cs : CellState) : Guard :=
  if cs.asm.enabled.getLsbD site.val then (cs.guard.joined site v).latch cs.asm.enabled site else cs.guard

theorem takeOutcome_guard (site : Site) (v : Verdict) (cs : CellState) :
    (cs.takeOutcome site v).guard = cs.guardAfter site v := by
  unfold CellState.takeOutcome CellState.guardAfter hasSite
  split <;> rfl

theorem guardAfter_congr {site : Site} {v : Verdict} {x y : CellState} (hasm : y.asm = x.asm) (hguard : y.guard = x.guard) :
    y.guardAfter site v = x.guardAfter site v := by
  unfold CellState.guardAfter
  rw [hasm, hguard]

/-- A report with no outcome leaves the guard (R81). -/
theorem finishReport_guard_of_none (h : outcomeOf r e s = none) :
    ((finishReport c t r e s).cell c).guard = (s.cell c).guard := by
  rw [finishReport_guard, guardTaken_of_none ((ownPart_outcome c t r e s).trans h)]
  exact (ownPart_cell c t r e s).2.1

theorem finishReport_guard_of_some {v : Verdict} (h : outcomeOf r e s = some v) :
    ((finishReport c t r e s).cell c).guard = (s.cell c).guardAfter r.site v := by
  obtain ⟨hasm, hguard, -⟩ := ownPart_cell c t r e s
  rw [finishReport_guard, guardTaken_of_some ((ownPart_outcome c t r e s).trans h), cell_modCell, takeOutcome_guard,
    guardAfter_congr hasm hguard]

/-- The holds follow the flags where one changed (R99). -/
theorem finishReport_holds_of_some {v : Verdict} (h : outcomeOf r e s = some v) :
    let new := (s.cell c).guardAfter r.site v
    let holds := ((finishReport c t r e s).cell c).holds
    if new.flags = (s.cell c).guard.flags then
      holds.cellGuard = (s.cell c).holds.cellGuard ∧ holds.held = (s.cell c).holds.held
    else holds.cellGuard = new.cellFlag ∧ holds.held = new.heldSites := by
  intro new holds
  obtain ⟨hasm, hguard, hholds⟩ := ownPart_cell c t r e s
  have hcell : (guardTaken c r e (ownPart c t r e s)).cell c =
      ((ownPart c t r e s).cell c).takeOutcome r.site v := by
    rw [guardTaken_of_some ((ownPart_outcome c t r e s).trans h), cell_modCell]
  have hnew : ((guardTaken c r e (ownPart c t r e s)).cell c).guard = new := by
    rw [hcell, takeOutcome_guard, guardAfter_congr hasm hguard]
  have hkept : ((guardTaken c r e (ownPart c t r e s)).cell c).holds.cellGuard = (s.cell c).holds.cellGuard
      ∧ ((guardTaken c r e (ownPart c t r e s)).cell c).holds.held = (s.cell c).holds.held := by
    rw [(guardTaken_frame c r e _).2.2.2.2.2.1, hholds]
    unfold CellState.takeLot
    split <;> exact ⟨rfl, rfl⟩
  have hafter : holds = _ := (finishReport_cell c t r e s c).2.trans (finishHolds_holds c r e _).1
  rw [hguard] at hafter
  unfold CellState.handOffFrom at hafter
  rw [hnew] at hafter
  rw [hafter]
  by_cases hflags : new.flags = (s.cell c).guard.flags
  · rw [if_pos hflags, if_pos hflags.symm]
    exact hkept
  · rw [if_neg hflags, if_neg (Ne.symm hflags)]
    unfold CellState.handOff
    rw [hnew]
    exact ⟨rfl, rfl⟩

end

/-! ## The notices (R79, R83, R92, R132) -/

/-- WAFER_COMPLETE of a wafer of a lot, where it completes (R79). -/
def completeNotices (key : Word) (n : Nat) (lots : List Lot) : List Occurrence :=
  (((findLot lots key).bind fun l => l.wafer n).filter fun w => w.tested == w.candidates && !w.complete).toList.map
    fun w => (.lot key n, .waferComplete key w.candidates w.tested w.passed)

theorem tells_completeWafer (key : Word) (n : Nat) (s : State) :
    Tells (completeNotices key n s.coll.lots) s (completeWafer key n s) := by
  unfold completeWafer completeNotices
  cases (findLot s.coll.lots key).bind fun l => l.wafer n with
  | none => exact Tells.refl s
  | some w =>
    by_cases hdue : w.tested = w.candidates ∧ (!w.complete) = true
    · rw [Option.filter_some_pos (by simpa using hdue)]
      dsimp only
      rw [if_pos hdue]
      have hflag : Tells [] s (modLot key (Lot.modWafer n fun w => { w with complete := true }) s) := Tells.of_eq rfl rfl rfl
      have h := hflag.trans (tells_raise (.lot key n) (.waferComplete key w.candidates w.tested w.passed) _)
      exact h
    · rw [Option.filter_some_neg (by simpa using hdue)]
      dsimp only
      rw [if_neg hdue]
      exact Tells.refl s

/-- The notices of the tallies (R79). -/
def tallyNotices (r : Report) (e : Ending) (s : State) : List Occurrence :=
  match e with
  | .written was .firstResult => completeNotices r.key r.wafer.toNat
      (changeLots r.key (fun l => l.tally (s.coll.plan l.plan) r was .firstResult) s.coll.lots)
  | _ => []

theorem tells_finishTallies (r : Report) (e : Ending) (s : State) :
    Tells (tallyNotices r e s) s (finishTallies r e s) := by
  cases e with
  | unknownLot => exact Tells.refl s
  | refused code fault outcome => exact Tells.of_eq rfl rfl rfl
  | written was case =>
    cases case with
    | firstResult =>
      have hfirst : Tells [] s (modLot r.key (fun l => l.tally (s.coll.plan l.plan) r was .firstResult) s) :=
        Tells.of_eq rfl rfl rfl
      have h := hfirst.trans (tells_completeWafer r.key r.wafer.toNat _)
      exact h
    | duplicate => exact Tells.of_eq rfl rfl rfl
    | overLimit => exact Tells.of_eq rfl rfl rfl
    | stands => exact Tells.of_eq rfl rfl rfl
    | changed => exact Tells.of_eq rfl rfl rfl

/-- The trips that the outcome of a report brings (R92). -/
def reportTrips (c : CellNo) (r : Report) (e : Ending) (s : State) : List Detail :=
  ((outcomeOf r e s).map fun v => (s.cell c).tripsOn r.site v).getD []

/-- Every notice of a report's end, in one of the orders in which they may come. -/
def reportNotices (c : CellNo) (t : RecordId) (r : Report) (e : Ending) (s : State) : List Occurrence :=
  tallyNotices r e s ++ (ownNotice c t r e ++ (tripNotices c r.site (reportTrips c r e s)
    ++ if floorTripDue r e s then floorNotices r.key (some (c, r.site)) (talliedLots r e s) else []))

theorem tripsOn_congr {site : Site} {v : Verdict} {x y : CellState} (hasm : y.asm = x.asm) (hguard : y.guard = x.guard) :
    y.tripsOn site v = x.tripsOn site v := by
  unfold CellState.tripsOn
  rw [hasm, hguard]

theorem finishTrips_eq (c : CellNo) (t : RecordId) (r : Report) (e : Ending) (s : State) :
    finishTrips c r (finishOutcome r e (ownPart c t r e s)) (ownPart c t r e s) = reportTrips c r e s := by
  obtain ⟨hasm, hguard, -⟩ := ownPart_cell c t r e s
  unfold reportTrips
  rw [ownPart_outcome]
  cases outcomeOf r e s with
  | none => rfl
  | some v => exact tripsOn_congr hasm hguard

/-- The notices of a report's end come in some order, and nothing else does. -/
theorem finishReport_tells (c : CellNo) (t : RecordId) (r : Report) (e : Ending) (s : State) :
    ∃ ds, ds.Perm (reportNotices c t r e s) ∧ Tells ds s (finishReport c t r e s) := by
  obtain ⟨ds, hperm, hholds⟩ := finishHolds_tells c r e (ownPart c t r e s)
  rw [finishTrips_eq, ownPart_floorDue, ownPart_coll] at hperm
  have hown := ((tells_finishTallies r e s).trans (onCell_finishNotice c t r e _).tells).trans
    (onCell_finishCurrentLot c r e _).tells
  have hmark : Tells [] (finishHolds c r e (ownPart c t r e s)) (finishReport c t r e s) := Tells.of_eq rfl rfl rfl
  refine ⟨_, ?_, (hown.trans hholds).trans hmark⟩
  rw [List.append_nil, List.append_nil, List.append_assoc]
  exact (hperm.append_left _).append_left _

/-! No two of them are of one kind. -/

theorem kinds_trips (c : CellNo) (site : Site) (cs : CellState) (v : Verdict) :
    ((tripNotices c site (cs.tripsOn site v)).map (·.2.kind)).Sublist [.siteRun, .siteLimit, .siteSpread, .cellLimit] := by
  unfold tripNotices CellState.tripsOn
  rw [List.map_map]
  split
  · change (List.map Detail.kind _).Sublist _
    rw [trips_kinds]
    have hpart : ∀ (p : Prop) [Decidable p] (k : NoticeKind), (if p then [k] else []).Sublist [k] := fun p _ k => by
      split <;> simp
    exact (((hpart _ _).append (hpart _ _)).append (hpart _ _)).append (hpart _ _)
  · exact List.nil_sublist _

theorem kinds_tally (r : Report) (e : Ending) (s : State) :
    ((tallyNotices r e s).map (·.2.kind)).Sublist [.waferComplete] := by
  have hcomplete : ∀ key n lots, ((completeNotices key n lots).map (·.2.kind)).Sublist [.waferComplete] := by
    intro key n lots
    unfold completeNotices
    rw [List.map_map]
    cases Option.filter (fun w => w.tested == w.candidates && !w.complete) ((findLot lots key).bind fun l => l.wafer n) with
    | none => exact List.nil_sublist _
    | some w => exact List.Sublist.refl _
  unfold tallyNotices
  split
  · exact hcomplete _ _ _
  · exact List.nil_sublist _

theorem kinds_own (c : CellNo) (t : RecordId) (r : Report) (e : Ending) :
    ((ownNotice c t r e).map (·.2.kind)).Sublist [.duplicateDie, .reportRefused] := by
  cases e with
  | unknownLot => exact List.sublist_append_right [_] _
  | refused code fault outcome => exact List.sublist_append_right [_] _
  | written was case =>
    cases case with
    | duplicate => exact List.sublist_append_left [_] _
    | overLimit => exact List.sublist_append_right [_] _
    | firstResult => exact List.nil_sublist _
    | stands => exact List.nil_sublist _
    | changed => exact List.nil_sublist _

theorem kinds_floor (key : Word) (reporter : Option (CellNo × Site)) (lots : List Lot) :
    ((floorNotices key reporter lots).map (·.2.kind)).Sublist [.lotFloor] := by
  unfold floorNotices
  split
  · exact List.nil_sublist _
  · exact List.Sublist.refl _

theorem reportNotices_keys_nodup (c : CellNo) (t : RecordId) (r : Report) (e : Ending) (s : State) :
    ((reportNotices c t r e s).map Occurrence.key).Nodup := by
  have htrips : ((tripNotices c r.site (reportTrips c r e s)).map (·.2.kind)).Sublist
      [.siteRun, .siteLimit, .siteSpread, .cellLimit] := by
    unfold reportTrips
    cases outcomeOf r e s with
    | none => exact List.nil_sublist _
    | some v => exact kinds_trips c r.site (s.cell c) v
  have hfloor : ((if floorTripDue r e s then floorNotices r.key (some (c, r.site)) (talliedLots r e s) else []).map
      (·.2.kind)).Sublist [.lotFloor] := by
    split
    · exact kinds_floor _ _ _
    · exact List.nil_sublist _
  have hall : ((reportNotices c t r e s).map (·.2.kind)).Sublist ([.waferComplete] ++ ([.duplicateDie, .reportRefused]
      ++ ([.siteRun, .siteLimit, .siteSpread, .cellLimit] ++ [.lotFloor]))) := by
    unfold reportNotices
    rw [List.map_append, List.map_append, List.map_append]
    exact (kinds_tally r e s).append ((kinds_own c t r e).append (htrips.append hfloor))
  have hkinds : ((reportNotices c t r e s).map (·.2.kind)).Nodup := hall.nodup (by decide)
  have hmap : (reportNotices c t r e s).map (·.2.kind) = ((reportNotices c t r e s).map Occurrence.key).map (·.kind) := by
    rw [List.map_map]
    rfl
  rw [hmap] at hkinds
  exact hkinds.of_map

/-- Every notice of a report's end is noted. -/
theorem finishReport_noted {c : CellNo} {t : RecordId} {r : Report} {e : Ending} {s : State} {subject : Subject} {d : Detail}
    (h : (subject, d) ∈ reportNotices c t r e s) : Noted subject d s (finishReport c t r e s) := by
  obtain ⟨ds, hperm, htells⟩ := finishReport_tells c t r e s
  refine htells.noted ?_ (hperm.mem_iff.2 h)
  exact ((hperm.map Occurrence.key).nodup_iff).2 (reportNotices_keys_nodup c t r e s)

end Sys2Proof.Machine
end

