-- ==== Sys2Proof/Proofs/RecordSteps.lean ====
section
/-! SUPPORT. From the end of a report to the end of its record or to the next report's map read (O35, O37, O38; R67 to
R71). -/

namespace Sys2Proof.Machine

/-! ## The dies of the catalogue stay (R69, R70) -/

/-- Every lot of a catalogue is in another one, the same to the identity checks. -/
def SameCatalogue (lots lots' : List Lot) : Prop :=
  ∀ k l, findLot lots k = some l → ∃ m, findLot lots' k = some m ∧ SameDies l m

theorem SameCatalogue.trans {a b c : List Lot} (h : SameCatalogue a b) (k : SameCatalogue b c) : SameCatalogue a c := by
  intro key l hl
  obtain ⟨m, hm, hlm⟩ := h key l hl
  obtain ⟨n, hn, hmn⟩ := k key m hm
  exact ⟨n, hn, hlm.trans hmn⟩

theorem SameCatalogue.refl (lots : List Lot) : SameCatalogue lots lots := fun _ l hl => ⟨l, hl, SameDies.refl l⟩

theorem sameCatalogue_changeLots (key : Word) {f : Lot → Lot} (hf : ∀ l, SameDies l (f l)) (lots : List Lot) :
    SameCatalogue lots (changeLots key f lots) := by
  intro k l hl
  refine ⟨if l.key = key then f l else l, ?_, ?_⟩
  · rw [findLot_changeLots (fun l => (hf l).key), hl]
    rfl
  · split
    · exact hf l
    · exact SameDies.refl l

theorem sameDies_modWafer (n : Nat) {f : Wafer → Wafer} (hf : ∀ w, (f w).number = w.number ∧ (f w).map = w.map) (l : Lot) :
    SameDies l (l.modWafer n f) := by
  refine ⟨rfl, rfl, ⟨rfl, rfl⟩, ?_⟩
  unfold Lot.modWafer
  rw [List.map_map]
  refine List.map_congr_left fun w _ => ?_
  dsimp only [Function.comp_apply]
  split
  · rw [(hf w).1, (hf w).2]
  · rfl

theorem sameDies_tally (p : Plan) (r : Report) (was : Half) (case : Case) (l : Lot) : SameDies l (l.tally p r was case) := by
  unfold Lot.tally
  split
  · rename_i i _
    obtain ⟨hk, hp, hg, hw⟩ := sameDies_modWafer r.wafer.toNat
      (f := fun w => { w with tested := countUp w.tested, passed := countPass i.cls w.passed }) (fun _ => ⟨rfl, rfl⟩) l
    exact ⟨hk, hp, hg, hw⟩
  · exact ⟨rfl, rfl, ⟨rfl, rfl⟩, rfl⟩
  · exact ⟨rfl, rfl, ⟨rfl, rfl⟩, rfl⟩
  · rename_i new old _ _
    obtain ⟨hk, hp, hg, hw⟩ := sameDies_modWafer r.wafer.toNat
      (f := fun w => { w with passed := movePassed old.cls new.cls w.passed }) (fun _ => ⟨rfl, rfl⟩) l
    exact ⟨hk, hp, hg, hw⟩
  · exact SameDies.refl l

theorem sameCatalogue_completeWafer (key : Word) (n : Nat) (s : State) :
    SameCatalogue s.coll.lots (completeWafer key n s).coll.lots := by
  unfold completeWafer
  split
  · exact SameCatalogue.refl _
  · split
    · rw [raise_coll]
      exact sameCatalogue_changeLots key (fun l => sameDies_modWafer n (f := fun w => { w with complete := true })
        (fun _ => ⟨rfl, rfl⟩) l) _
    · exact SameCatalogue.refl _

theorem sameCatalogue_talliedLots (r : Report) (e : Ending) (s : State) : SameCatalogue s.coll.lots (talliedLots r e s) := by
  unfold talliedLots
  have htally : ∀ was case, SameCatalogue s.coll.lots
      (changeLots r.key (fun l => l.tally (s.coll.plan l.plan) r was case) s.coll.lots) := fun was case =>
    sameCatalogue_changeLots r.key (fun l => sameDies_tally _ r was case l) _
  cases e with
  | unknownLot => exact SameCatalogue.refl _
  | refused code fault outcome =>
    exact sameCatalogue_changeLots r.key (f := fun l => { l with refused := countUp l.refused })
      (fun l => ⟨rfl, rfl, ⟨rfl, rfl⟩, rfl⟩) _
  | written was case =>
    cases case with
    | firstResult => exact (htally was .firstResult).trans (sameCatalogue_completeWafer r.key r.wafer.toNat
        (modLot r.key (fun l => l.tally (s.coll.plan l.plan) r was .firstResult) s))
    | duplicate => exact htally was .duplicate
    | overLimit => exact htally was .overLimit
    | stands => exact htally was .stands
    | changed => exact htally was .changed

theorem sameCatalogue_endedLots (r : Report) (e : Ending) (s : State) : SameCatalogue s.coll.lots (endedLots r e s) := by
  unfold endedLots
  split
  · exact (sameCatalogue_talliedLots r e s).trans (sameCatalogue_changeLots r.key
      (f := fun l => { l with tripped := true }) (fun l => ⟨rfl, rfl, ⟨rfl, rfl⟩, rfl⟩) _)
  · exact sameCatalogue_talliedLots r e s

/-- The next report passes its checks as it would have before (R69, R70). -/
theorem identify_finishReport {c : CellNo} {t : RecordId} {r r' : Report} {e : Ending} {s : State} {a : Addr}
    (h : identify r' s = .ok a) : identify r' (finishReport c t r e s) = .ok a := by
  have hcoll := finishReport_coll c t r e s
  refine identify_congr ?_ r' ?_ h
  · rw [hcoll]
  · rw [hcoll]
    exact sameCatalogue_endedLots r e s r'.key

/-! ## What the way on leaves of a report's end -/

/-- The guards, the holds but for BUFFER of one cell, and the notices are those of a report's end. -/
structure GoesOn (c : CellNo) (u t : State) : Prop where
  guard : ∀ d, (t.cell d).guard = (u.cell d).guard
  others : ∀ d, d ≠ c → (t.cell d).holds = (u.cell d).holds
  own : (t.cell c).holds.cellGuard = (u.cell c).holds.cellGuard ∧ (t.cell c).holds.held = (u.cell c).holds.held
    ∧ (t.cell c).holds.currentLot = (u.cell c).holds.currentLot
  notices : SameNotices u t

theorem GoesOn.noted {c : CellNo} {s u t : State} {subject : Subject} {d : Detail} (h : GoesOn c u t)
    (hn : Noted subject d s u) : Noted subject d s t := by
  obtain ⟨htable, hpost, -⟩ := h.notices
  unfold Noted at hn ⊢
  rwa [htable, hpost]

theorem GoesOn.settled {c : CellNo} {u v : State} (before : State)
    (hcell : ∀ d, (v.cell d).guard = (u.cell d).guard) (hothers : ∀ d, d ≠ c → (v.cell d).holds = (u.cell d).holds)
    (hown : (v.cell c).holds.cellGuard = (u.cell c).holds.cellGuard ∧ (v.cell c).holds.held = (u.cell c).holds.held
      ∧ (v.cell c).holds.currentLot = (u.cell c).holds.currentLot)
    (hnotice : v.notice = u.notice) : GoesOn c u (settle before v) where
  guard d := (settle_guard before v d).trans (hcell d)
  others d hd := (settle_holds before v d).trans (hothers d hd)
  own := by
    rw [settle_holds]
    exact hown
  notices := sameNotices_settle_of_eq before hnotice

/-- The last report of a record ends it: the record leaves the queue, and no work is in service (R67). -/
theorem finishRecord_settled (before : State) (c : CellNo) (u : State) :
    GoesOn c u (settle before (finishRecord c u))
      ∧ (settle before (finishRecord c u)).coll = { u.coll with work := none }
      ∧ ((settle before (finishRecord c u)).cell c).asm.queue = (u.cell c).asm.queue.tail := by
  have hcell : (finishRecord c u).cell c = transmit u.engine.state u.coll.lots (u.cell c).dropHead :=
    (onCell_dropHead c u).cell
  have hothers : ∀ d, d ≠ c → (finishRecord c u).cell d = u.cell d := fun d hd => (onCell_dropHead c u).others d hd
  obtain ⟨⟨hasm, hguard⟩, hholds⟩ := transmit_frame u.engine.state u.coll.lots (u.cell c).dropHead
  refine ⟨GoesOn.settled before (fun d => ?_) (fun d hd => ?_) ?_ rfl, settle_coll before _, ?_⟩
  · by_cases hd : d = c
    · subst hd
      rw [hcell, hguard]
      rfl
    · rw [hothers d hd]
  · rw [hothers d hd]
  · rw [hcell, hholds]
    exact ⟨rfl, rfl, rfl⟩
  · rw [settle_asm, hcell, hasm]
    rfl

/-- The next report that passes its checks has its map cell read (R71). -/
theorem readNext_settled (before : State) (c : CellNo) (a : Addr) (u : State) :
    let v := portRequest (readOf .mapRead a 2) (setProgress (some .reading) u)
    GoesOn c u (settle before v) ∧ (settle before v).coll = { u.coll with inProgress := some .reading }
      ∧ ((settle before v).cell c).asm.queue = (u.cell c).asm.queue ∧ Requested (readOf .mapRead a 2) (settle before v) := by
  intro v
  refine ⟨GoesOn.settled before (fun _ => rfl) (fun _ _ => rfl) ⟨rfl, rfl, rfl⟩ rfl, settle_coll before v, ?_, ?_⟩
  · rw [settle_asm]
    rfl
  · exact requested_settle before (requested_portRequest _ _)

/-! ## The reports still to apply (R67) -/

theorem beginReports_nil (c : CellNo) (t : RecordId) (s : State) : beginReports c t [] s = finishRecord c s := rfl

theorem beginReports_ok {r : Report} {s : State} {a : Addr} (h : identify r s = .ok a) (c : CellNo) (t : RecordId)
    (rest : List Report) :
    beginReports c t (r :: rest) s = portRequest (readOf .mapRead a 2) (setProgress (some .reading) s) := by
  rw [beginReports, h]

theorem beginReports_error {r : Report} {s : State} {e : Ending} (h : identify r s = .error e) (c : CellNo) (t : RecordId)
    (rest : List Report) : beginReports c t (r :: rest) s = beginReports c t rest (finishReport c t r e s) := by
  rw [beginReports, h]

theorem continueRecord_of_head {c : CellNo} {td : Touchdown} {s : State} (h : (s.cell c).asm.queue.head? = some td) :
    continueRecord c s = beginReports c td.id (td.reports.drop td.mark) s := by
  unfold continueRecord headRecord
  rw [h]

theorem drop_cons_of_getElem? {α : Type} {xs : List α} {n : Nat} {x : α} (h : xs[n]? = some x) :
    xs.drop n = x :: xs.drop (n + 1) := by
  obtain ⟨hlt, rfl⟩ := List.getElem?_eq_some_iff.1 h
  exact List.drop_eq_getElem_cons hlt

theorem markHead_of_head {q : List Touchdown} {td : Touchdown} (h : q.head? = some td) :
    markHead q = { td with mark := td.mark + 1 } :: q.tail := by
  cases q with
  | nil => cases h
  | cons t ts =>
    obtain rfl := Option.some.inj h
    rfl

section
variable {c : CellNo} {td : Touchdown} {r : Report} {e : Ending} {s : State}

/-- After a report's end the unit goes on with the reports behind it. -/
theorem continueRecord_finishReport (h : (s.cell c).asm.queue.head? = some td) :
    continueRecord c (finishReport c td.id r e s) =
      beginReports c td.id (td.reports.drop (td.mark + 1)) (finishReport c td.id r e s) := by
  refine continueRecord_of_head (td := { td with mark := td.mark + 1 }) ?_
  rw [finishReport_queue, markHead_of_head h]
  rfl

/-- The last report's end ends the record. -/
theorem ended_last (before : State) (h : (s.cell c).asm.queue.head? = some td) (hlast : td.mark + 1 = td.reports.length) :
    let t := settle before (beginReports c td.id (td.reports.drop (td.mark + 1)) (finishReport c td.id r e s))
    GoesOn c (finishReport c td.id r e s) t
      ∧ t.coll = { s.coll with lots := endedLots r e s, inProgress := none, work := none }
      ∧ (t.cell c).asm.queue = (s.cell c).asm.queue.tail := by
  intro t
  have hdrop : td.reports.drop (td.mark + 1) = [] := List.drop_eq_nil_of_le (by omega)
  obtain ⟨hgoes, hcoll, hqueue⟩ := finishRecord_settled before c (finishReport c td.id r e s)
  have ht : t = settle before (finishRecord c (finishReport c td.id r e s)) := by
    simp only [t, hdrop, beginReports_nil]
  rw [ht]
  refine ⟨hgoes, ?_, ?_⟩
  · rw [hcoll, finishReport_coll]
  · rw [hqueue, finishReport_queue, markHead_of_head h]
    rfl

/-- A report's end before another that passes its checks brings that one's map read. -/
theorem ended_next (before : State) (h : (s.cell c).asm.queue.head? = some td) {r' : Report} {a' : Addr}
    (hnext : td.reports[td.mark + 1]? = some r') (hid : identify r' s = .ok a') :
    let t := settle before (beginReports c td.id (td.reports.drop (td.mark + 1)) (finishReport c td.id r e s))
    GoesOn c (finishReport c td.id r e s) t
      ∧ t.coll = { s.coll with lots := endedLots r e s, inProgress := some .reading }
      ∧ (t.cell c).asm.queue = { td with mark := td.mark + 1 } :: (s.cell c).asm.queue.tail
      ∧ Requested (readOf .mapRead a' 2) t := by
  intro t
  obtain ⟨hgoes, hcoll, hqueue, hread⟩ := readNext_settled before c a' (finishReport c td.id r e s)
  have ht : t = settle before (portRequest (readOf .mapRead a' 2)
      (setProgress (some .reading) (finishReport c td.id r e s))) := by
    simp only [t, drop_cons_of_getElem? hnext, beginReports_ok (identify_finishReport hid)]
  rw [ht]
  refine ⟨hgoes, ?_, ?_, hread⟩
  · rw [hcoll, finishReport_coll]
  · rw [hqueue, finishReport_queue, markHead_of_head h]

end

/-! ## The guard unit after the way on (R90, R99) -/

/-- The guard unit has taken the outcome of a report that has one. -/
theorem guardTook_of_outcome {c : CellNo} {id : RecordId} {r : Report} {e : Ending} {v : Verdict} {s t : State}
    (h : outcomeOf r e s = some v) (hgoes : GoesOn c (finishReport c id r e s) t) : GuardTook c r.site v s t := by
  refine ⟨?_, fun henabled d hd => hgoes.noted (finishReport_noted ?_), ?_, fun d hd => ?_⟩
  · exact (hgoes.guard c).trans (finishReport_guard_of_some h)
  · have htrips : reportTrips c r e s = (s.cell c).tripsOn r.site v := by
      unfold reportTrips
      rw [h]
      rfl
    have hd' : d ∈ reportTrips c r e s := by
      rw [htrips]
      unfold CellState.tripsOn hasSite
      rw [if_pos henabled]
      exact hd
    unfold reportNotices
    refine List.mem_append_right _ (List.mem_append_right _ (List.mem_append_left _ ?_))
    exact List.mem_map_of_mem hd'
  · obtain ⟨hguard, hheld, -⟩ := hgoes.own
    have hholds := finishReport_holds_of_some (c := c) (t := id) h
    rw [hguard, hheld]
    exact hholds
  · exact ⟨(hgoes.guard d).trans (finishReport_others hd).1, (hgoes.others d hd).trans (finishReport_others hd).2⟩

/-- The current lot of the reporting cell (R80). -/
theorem currentLot_of_goesOn {c : CellNo} {id : RecordId} {r : Report} {e : Ending} {s t : State}
    (hgoes : GoesOn c (finishReport c id r e s) t) : (t.cell c).holds.currentLot =
      if e = .unknownLot then (s.cell c).holds.currentLot else some r.key := by
  rw [hgoes.own.2.2, finishReport_currentLot]
  unfold CellState.takeLot
  split <;> rfl

end Sys2Proof.Machine
end

