-- ==== Sys2Proof/Proofs/RecordTaken.lean ====
section
/-! SUPPORT. A head record taken: the map read of its first report, or the refusal of it (O35; R64 to R71). -/

namespace Sys2Proof.Machine

/-- The state in which a head record's reports are begun (R65). -/
def State.takenRecord (c : CellNo) (s : State) : State :=
  { s with coll := { s.coll with work := some (.record c), pointer := c } }

theorem effectOf_takeRecord {c : CellNo} {td : Touchdown} {r : Report} {s : State} (hwork : s.coll.work = none)
    (hrequests : s.coll.requests = []) (hruns : s.engine.state = .running ∨ s.engine.state = .draining)
    (hnext : nextCell s = some c) (hhead : (s.cell c).asm.queue.head? = some td) (hr : td.reports[td.mark]? = some r) :
    effectOf .collationTakeWork s =
      some (beginReports c td.id (r :: td.reports.drop (td.mark + 1)) (s.takenRecord c)) := by
  change takeWork s = _
  have hruns : collationRuns s = true := by simpa [collationRuns] using hruns
  unfold takeWork
  rw [hwork, hruns, hrequests, hnext]
  have h := continueRecord_of_head (s := s.takenRecord c) hhead
  rw [drop_cons_of_getElem? hr] at h
  exact congrArg some h

theorem identify_ok {r : Report} {l : Lot} {w : Wafer} {s : State} (hl : findLot s.coll.lots r.key = some l)
    (hw : l.wafer r.wafer.toNat = some w) (hx : r.x.toNat < l.columns) (hy : r.y.toNat < l.rows)
    (hbin : ((s.coll.plan l.plan).info r.bin).isSome) :
    identify r s = .ok (mapAddr w.map l.columns r.x.toNat r.y.toNat) := by
  unfold identify
  rw [hl]
  dsimp only
  rw [hw]
  dsimp only
  rw [if_neg (by omega), if_neg (Option.isSome_iff_ne_none.1 hbin)]

/-- How a report refused before its map read ends (R69, R70). -/
def refusedEnding (code : Code) : Ending := if code = .unknownLot then .unknownLot else .refused code none none

theorem identify_refused {r : Report} {code : Code} {s : State} (h : refusalOf r s = some code) :
    identify r s = .error (refusedEnding code) := by
  unfold refusalOf at h
  unfold identify
  cases hl : findLot s.coll.lots r.key with
  | none =>
    rw [hl] at h
    obtain rfl := Option.some.inj h
    rfl
  | some l =>
    rw [hl] at h
    dsimp only at h ⊢
    have hwafer : l.wafers.all (fun w => w.number != r.wafer.toNat) = true ↔ l.wafer r.wafer.toNat = none := by
      unfold Lot.wafer
      simp
    cases hw : l.wafer r.wafer.toNat with
    | none =>
      rw [if_pos (hwafer.2 hw)] at h
      obtain rfl := Option.some.inj h
      rfl
    | some w =>
      rw [if_neg (by rw [hwafer, hw]; exact Option.some_ne_none w)] at h
      dsimp only
      by_cases hgrid : l.columns ≤ r.x.toNat ∨ l.rows ≤ r.y.toNat
      · rw [if_pos hgrid] at h ⊢
        obtain rfl := Option.some.inj h
        rfl
      · rw [if_neg hgrid] at h ⊢
        by_cases hbin : (s.coll.plan l.plan).info r.bin = none
        · rw [if_pos hbin] at h ⊢
          obtain rfl := Option.some.inj h
          rfl
        · rw [if_neg hbin] at h
          cases h

section
variable {code : Code} {r : Report} {s : State}

theorem refusedEnding_eq_unknown : refusedEnding code = .unknownLot ↔ code = .unknownLot := by
  unfold refusedEnding
  split <;> simp_all

theorem outcomeOf_refusedEnding : outcomeOf r (refusedEnding code) s = none := by
  unfold refusedEnding
  split <;> rfl

theorem endedLots_refusedEnding : endedLots r (refusedEnding code) s =
    if code = .unknownLot then s.coll.lots else refusedCounted r.key s.coll.lots := by
  unfold refusedEnding
  split
  · rfl
  · rfl

theorem ownNotice_refusedEnding (c : CellNo) (t : RecordId) :
    ownNotice c t r (refusedEnding code) = [(.cell c, .reportRefused code r t.number t.stamp none)] := by
  unfold refusedEnding
  split
  · rename_i h
    rw [h]
    rfl
  · rfl

/-- What a report refused before its map read leaves (R69, R70, R80, R81). -/
theorem refused_of_goesOn {c : CellNo} {td : Touchdown} {t : State}
    (hgoes : GoesOn c (finishReport c td.id r (refusedEnding code) s) t) :
    (t.cell c).guard = (s.cell c).guard
      ∧ (t.cell c).holds.currentLot = (if code = .unknownLot then (s.cell c).holds.currentLot else some r.key)
      ∧ Noted (.cell c) (.reportRefused code r td.number (td.closeStamp.getD 0) none) s t := by
  refine ⟨(hgoes.guard c).trans (finishReport_guard_of_none outcomeOf_refusedEnding), ?_, hgoes.noted (finishReport_noted ?_)⟩
  · rw [currentLot_of_goesOn hgoes]
    exact if_congr refusedEnding_eq_unknown rfl rfl
  · unfold reportNotices
    rw [ownNotice_refusedEnding]
    exact List.mem_append_right _ (List.mem_append_left _ (List.mem_singleton.2 rfl))

end

/-- Settles O35: the first report's map read, or its refusal and what follows it. -/
theorem recordTakenReadsMapCell : Obligations.RecordTakenReadsMapCell := by
  intro c td r s hwork hrequests hruns hnext hhead hr
  have he := effectOf_takeRecord hwork hrequests hruns hnext hhead hr
  refine ⟨fun l hl w hw hx hy hbin => ?_, fun code hcode => ?_⟩
  · rw [beginReports_ok (s := s.takenRecord c) (identify_ok hl hw hx hy hbin)] at he
    refine answers_landed he (drainReady_of_work (Option.some_ne_none (Work.record c))) fun t hland => ⟨hland.coll, ?_, ?_⟩
    · exact hland.requested (requested_portRequest _ _)
    · exact hland.keepsOf (by simp [Keeps, State.takenRecord, setProgress])
  · intro lots refused
    have hlots : lots = endedLots r (refusedEnding code) (s.takenRecord c) :=
      (endedLots_refusedEnding (s := s.takenRecord c)).symm
    rw [beginReports_error (s := s.takenRecord c) (identify_refused hcode)] at he
    refine ⟨fun hlast => answers_of_effect he ?_, fun r' a' hr' ha' => answers_of_effect he ?_⟩
    · obtain ⟨hgoes, hcoll, hqueue⟩ := ended_last s (s := s.takenRecord c) (r := r) (e := refusedEnding code) hhead hlast
      rw [hlots]
      exact ⟨refused_of_goesOn (s := s.takenRecord c) hgoes, hcoll, hqueue⟩
    · obtain ⟨hgoes, hcoll, hqueue, hread⟩ :=
        ended_next s (s := s.takenRecord c) (r := r) (e := refusedEnding code) hhead hr' ha'
      rw [hlots]
      exact ⟨refused_of_goesOn (s := s.takenRecord c) hgoes, hcoll, hqueue, hread⟩

end Sys2Proof.Machine
end

