-- ==== Sys2Proof/Proofs/MapReads.lean ====
section
/-! SUPPORT. The map read of the report in progress: the write it brings, or the refusal (O37; R71, R76). -/

namespace Sys2Proof.Machine

section
variable {c : CellNo} {td : Touchdown} {r : Report} {l : Lot} {a : Addr} {st : ReportStage} {s : State}

theorem currentReport_of_inProgress (h : InProgress c td r l a st s) : currentReport (portFree s) = some (c, td, r) := by
  obtain ⟨hwork, hhead, hr, -⟩ := h
  have hhead' : headRecord c (portFree s) = some td := hhead
  unfold currentReport
  rw [portFree_coll, hwork]
  dsimp only
  rw [hhead', Option.bind_eq_bind, Option.bind_some, hr]
  rfl

theorem effectOf_mapRead_ok {v now : Half} (h : InProgress c td r l a .reading s) (hout : Outstanding .mapRead 2 s)
    (hjudge : judgeRead r l (s.coll.plan l.plan) v = .ok now) :
    effectOf (.mapReadDone v) s = some (writeCell a v now (portFree s)) := by
  have hcurrent := currentReport_of_inProgress h
  obtain ⟨-, -, -, hl, hid, -⟩ := h
  have hid' : identify r (portFree s) = .ok a := hid
  change mapRead v s = _
  unfold mapRead
  rw [returned_of hout]
  simp only [Option.bind_eq_bind, Option.bind_some, hcurrent, portFree_coll, hl, hid', hjudge]
  rfl

theorem effectOf_mapRead_error {v : Half} {e : Ending} (h : InProgress c td r l a .reading s)
    (hout : Outstanding .mapRead 2 s) (hjudge : judgeRead r l (s.coll.plan l.plan) v = .error e) :
    effectOf (.mapReadDone v) s = some (continueRecord c (finishReport c td.id r e (portFree s))) := by
  have hcurrent := currentReport_of_inProgress h
  obtain ⟨-, -, -, hl, hid, -⟩ := h
  have hid' : identify r (portFree s) = .ok a := hid
  change mapRead v s = _
  unfold mapRead
  rw [returned_of hout]
  simp only [Option.bind_eq_bind, Option.bind_some, hcurrent, portFree_coll, hl, hid', hjudge]
  rfl

end

theorem judgeRead_ok {r : Report} {l : Lot} {p : Plan} {v : Half} (h : mapFault p l.limit v = none)
    (hdie : cellBin v ≠ notADie) : judgeRead r l p v = .ok (contentOf (caseOf p l.policy l.limit r v) r v) := by
  unfold judgeRead
  rw [h]
  exact if_neg hdie

/-- A cell that is invalid, or holds no die, refuses the report (R71). -/
theorem judgeRead_error {r : Report} {l : Lot} {p : Plan} {v : Half} {i : BinInfo} (hi : p.info r.bin = some i)
    (h : mapFault p l.limit v ≠ none ∨ cellBin v = notADie) : judgeRead r l p v =
      .error (.refused (if mapFault p l.limit v = none then .offWafer else .mapCorrupt) (mapFault p l.limit v)
        (some i.cls)) := by
  unfold judgeRead
  rw [hi]
  cases hfault : mapFault p l.limit v with
  | some f => rfl
  | none => exact if_pos (h.resolve_left fun hne => hne hfault)

/-- A report refused at its map read: counted by its lot, noticed, and its outcome taken (R71, R78, R81). -/
theorem corrupt_of_goesOn {c : CellNo} {td : Touchdown} {r : Report} {code : Code} {fault : Option MapFault} {v : Verdict}
    {s t : State} (hgoes : GoesOn c (finishReport c td.id r (.refused code fault (some v)) s) t) :
    (t.cell c).holds.currentLot = some r.key ∧ GuardTook c r.site v s t
      ∧ Noted (.cell c) (.reportRefused code r td.number (td.closeStamp.getD 0) fault) s t := by
  refine ⟨(currentLot_of_goesOn hgoes).trans (if_neg (by simp)), guardTook_of_outcome rfl hgoes,
    hgoes.noted (finishReport_noted ?_)⟩
  exact List.mem_append_right _ (List.mem_append_left _ (List.mem_singleton.2 rfl))

/-- Settles O37: the content to write, or the refusal and what follows it. -/
theorem mapReadDecides : Obligations.MapReadDecides := by
  intro c td r l a v s hprogress hout p
  have hhead : ((portFree s).cell c).asm.queue.head? = some td := hprogress.2.1
  refine ⟨fun hvalid hdie => ?_, fun i hi hbad => ?_⟩
  · have he := effectOf_mapRead_ok hprogress hout (judgeRead_ok (r := r) hvalid hdie)
    refine answers_landed he (drainReady_of_work ?_) fun t hland => ⟨hland.coll, ?_, ?_⟩
    · exact fun hnone => Option.some_ne_none (Work.record c) (hprogress.1.symm.trans hnone)
    · exact hland.requested (requested_portRequest _ _)
    · exact hland.keepsOf (by simp [Keeps, writeCell, setProgress])
  · intro code refused
    have he := effectOf_mapRead_error hprogress hout (judgeRead_error hi hbad)
    rw [continueRecord_finishReport hhead] at he
    refine ⟨fun hlast => answers_of_effect he ?_, fun r' a' hr' ha' => answers_of_effect he ?_⟩
    · obtain ⟨hgoes, hcoll, hqueue⟩ := ended_last s (r := r)
        (e := .refused code (mapFault p l.limit v) (some i.cls)) hhead hlast
      have hrefused := corrupt_of_goesOn (s := portFree s) hgoes
      refine ⟨⟨?_, ?_, hrefused⟩, ?_, ?_, hqueue⟩
      · rw [hcoll]
        rfl
      · rw [hcoll]
        rfl
      · rw [hcoll]
      · rw [hcoll]
    · obtain ⟨hgoes, hcoll, hqueue, hread⟩ := ended_next s (r := r)
        (e := .refused code (mapFault p l.limit v) (some i.cls)) hhead hr' ha'
      have hrefused := corrupt_of_goesOn (s := portFree s) hgoes
      refine ⟨⟨?_, ?_, hrefused⟩, ?_, ?_, hqueue, hread⟩
      · rw [hcoll]
        rfl
      · rw [hcoll]
        rfl
      · rw [hcoll]
        exact hprogress.1
      · rw [hcoll]

end Sys2Proof.Machine
end

