-- ==== Sys2Proof/Proofs/TallyMoves.lean ====
section
/-! SUPPORT. What a written report makes of its lot: the tallies of R77, the wafer's completion of R79, and when the floor
is evaluated (O38; R77 to R82). -/

namespace Sys2Proof.Machine

/-! ## The tallies case by case (R77) -/

section
variable {p : Plan} {r : Report} {was : Half} {l : Lot} {i j : BinInfo}

theorem tally_firstResult (hi : p.info r.bin = some i) : l.tally p r was .firstResult = l.addFirst r i := by
  unfold Lot.tally
  rw [hi]

theorem tally_changed (hi : p.info r.bin = some i) (hj : p.info (cellBin was) = some j) :
    l.tally p r was .changed = l.changeBin r j i := by
  unfold Lot.tally
  rw [hi, hj]

theorem tally_stands : l.tally p r was .stands = l := by
  unfold Lot.tally
  split <;> simp_all

theorem tally_duplicate : l.tally p r was .duplicate = { l with duplicates := countUp l.duplicates } := by
  unfold Lot.tally
  split <;> simp_all

theorem tally_overLimit : l.tally p r was .overLimit = { l with refused := countUp l.refused } := by
  unfold Lot.tally
  split <;> simp_all

/-- The floor is evaluated where the tested or the passed count moves (R82). -/
theorem movesFigure_iff {case : Case} (hi : p.info r.bin = some i) (hj : case = .changed → p.info (cellBin was) = some j) :
    movesFigure p r was case = true ↔ case = .firstResult ∨ case = .changed ∧ i.cls ≠ j.cls := by
  unfold movesFigure
  rw [hi]
  cases case with
  | changed =>
    rw [hj rfl]
    dsimp only
    rw [bne_iff_ne, ne_comm]
    simp
  | firstResult => simp
  | duplicate => simp
  | overLimit => simp
  | stands => simp

end

/-- A count raised where asked, saturating (R78). -/
def upIf (b : Bool) (n : Nat) : Nat := if b then min (n + 1) 16777215 else n

/-- A passed count after a written report (R77). -/
def passedAfter (case : Case) (i j : BinInfo) (n : Nat) : Nat :=
  match case with
  | .firstResult => upIf (i.cls == .pass) n
  | .changed => if j.cls = .pass ∧ i.cls = .fail then n - 1 else upIf (j.cls == .fail && i.cls == .pass) n
  | _ => n

theorem countPass_eq (v : Verdict) (n : Nat) : countPass v n = upIf (v == .pass) n := by
  cases v <;> rfl

theorem movePassed_eq (i j : BinInfo) (n : Nat) : movePassed j.cls i.cls n = passedAfter .changed i j n := by
  unfold passedAfter
  cases j.cls <;> cases i.cls <;> rfl

theorem getElem_modGroup (g h : Fin 16) (f : Nat → Nat) (groups : Vector Nat 16) :
    (modGroup g f groups)[h] = if h = g then f groups[h] else groups[h] := by
  unfold modGroup
  refine (Vector.getElem_set ..).trans ?_
  by_cases hgh : h = g
  · subst hgh
    rw [if_pos rfl, if_pos rfl]
    rfl
  · rw [if_neg hgh, if_neg fun e => hgh (Fin.ext e.symm)]
    rfl

/-! ## The wafer's completion (R79) -/

/-- The wafer of a number completes: every candidate is tested and it was not complete. -/
def Lot.completes (n : Nat) (l : Lot) : Bool := (l.wafer n).any fun w => w.tested == w.candidates && !w.complete

/-- A lot with its wafer complete where it completes. -/
def Lot.completed (n : Nat) (l : Lot) : Lot :=
  if l.completes n then l.modWafer n fun w => { w with complete := true } else l

theorem completed_wafers (n : Nat) (l : Lot) : (l.completed n).wafers =
    l.wafers.map fun w => if w.number = n then { w with complete := w.complete || l.completes n } else w := by
  unfold Lot.completed
  by_cases h : l.completes n = true
  · rw [if_pos h, h]
    simp only [Bool.or_true]
    rfl
  · rw [if_neg h, Bool.eq_false_of_not_eq_true h]
    simp

/-- The completion moves the wafers alone. -/
theorem completed_form (n : Nat) (l : Lot) : l.completed n = { l with wafers := (l.completed n).wafers } := by
  unfold Lot.completed
  split <;> rfl

theorem findLot_completeWafer {key : Word} {n : Nat} {l : Lot} {s : State} (h : findLot s.coll.lots key = some l) :
    findLot (completeWafer key n s).coll.lots key = some (l.completed n) := by
  unfold completeWafer Lot.completed Lot.completes
  rw [h, Option.bind_some]
  cases hw : l.wafer n with
  | none => exact h
  | some w =>
    dsimp only [Option.any_some]
    by_cases hdue : w.tested = w.candidates ∧ (!w.complete) = true
    · rw [if_pos hdue, if_pos (by simpa using hdue), raise_coll]
      exact findLot_modLot (f := Lot.modWafer n fun w => { w with complete := true }) (fun _ => rfl) h
    · rw [if_neg hdue, if_neg (by simpa using hdue)]
      exact h

theorem wafer_modWafer (n : Nat) {f : Wafer → Wafer} (hf : ∀ w, (f w).number = w.number) (l : Lot) :
    (l.modWafer n f).wafer n = (l.wafer n).map f := by
  unfold Lot.modWafer Lot.wafer
  dsimp only
  induction l.wafers with
  | nil => rfl
  | cons w ws ih =>
    rw [List.map_cons, List.find?_cons, List.find?_cons]
    by_cases hn : w.number = n
    · rw [if_pos hn, hf]
      simp [hn]
    · rw [if_neg hn]
      simp only [beq_eq_false_iff_ne.2 hn]
      exact ih

/-! ## The lot after a written report -/

/-- A lot after a written report, its floor not yet evaluated. -/
def Lot.written (p : Plan) (r : Report) (was : Half) (case : Case) (l : Lot) : Lot :=
  if case = .firstResult then (l.tally p r was case).completed r.wafer.toNat else l.tally p r was case

theorem tally_fixed (p : Plan) (r : Report) (was : Half) (case : Case) (l : Lot) :
    (l.tally p r was case).floor = l.floor ∧ (l.tally p r was case).plan = l.plan := by
  unfold Lot.tally
  split <;> exact ⟨rfl, rfl⟩

/-- What a written report leaves of its lot. -/
theorem written_fixed (p : Plan) (r : Report) (was : Half) (case : Case) (l : Lot) :
    (l.written p r was case).key = l.key ∧ (l.written p r was case).floor = l.floor
      ∧ (l.written p r was case).plan = l.plan ∧ (l.written p r was case).tripped = l.tripped := by
  obtain ⟨hkept, htripped⟩ := tally_kept p r was case l
  obtain ⟨hfloor, hplan⟩ := tally_fixed p r was case l
  unfold Lot.written
  split
  · rw [completed_form]
    exact ⟨hkept.key, hfloor, hplan, htripped⟩
  · exact ⟨hkept.key, hfloor, hplan, htripped⟩

theorem findLot_talliedLots {r : Report} {was : Half} {case : Case} {l : Lot} {s : State}
    (h : findLot s.coll.lots r.key = some l) :
    findLot (talliedLots r (.written was case) s) r.key = some (l.written (s.coll.plan l.plan) r was case) := by
  have htally : findLot (modLot r.key (fun l => l.tally (s.coll.plan l.plan) r was case) s).coll.lots r.key =
      some (l.tally (s.coll.plan l.plan) r was case) :=
    findLot_modLot (f := fun l => l.tally (s.coll.plan l.plan) r was case) (fun l => (tally_kept _ r was case l).1.key) h
  unfold talliedLots Lot.written
  cases case with
  | firstResult => exact findLot_completeWafer htally
  | duplicate => exact htally
  | overLimit => exact htally
  | stands => exact htally
  | changed => exact htally

/-- The floor is due where a figure moves and the lot then trips (R82, R132). -/
theorem floorTripDue_written {r : Report} {was : Half} {case : Case} {l : Lot} {s : State}
    (h : findLot s.coll.lots r.key = some l) : floorTripDue r (.written was case) s =
      (movesFigure (s.coll.plan l.plan) r was case && (l.written (s.coll.plan l.plan) r was case).floorTrips) := by
  have hfind := findLot_talliedLots (was := was) (case := case) h
  have hplans : ∀ slot, (finishTallies r (.written was case) s).coll.plan slot = s.coll.plan slot := fun slot => by
    rw [finishTallies_coll]
    rfl
  unfold floorTripDue finishFloorDue
  dsimp only
  rw [show findLot (finishTallies r (.written was case) s).coll.lots r.key = _ from hfind, Option.any_some, hplans,
    (written_fixed _ r was case l).2.2.1]

theorem outcomeOf_written {r : Report} {was : Half} {case : Case} {l : Lot} {i : BinInfo} {s : State}
    (h : findLot s.coll.lots r.key = some l) (hi : (s.coll.plan l.plan).info r.bin = some i) :
    outcomeOf r (.written was case) s = some i.cls := by
  have hfind := findLot_talliedLots (was := was) (case := case) h
  have hplans : ∀ slot, (finishTallies r (.written was case) s).coll.plan slot = s.coll.plan slot := fun slot => by
    rw [finishTallies_coll]
    rfl
  unfold outcomeOf finishOutcome reportClass
  dsimp only
  rw [show findLot (finishTallies r (.written was case) s).coll.lots r.key = _ from hfind, Option.bind_some, hplans,
    (written_fixed _ r was case l).2.2.1, hi]
  rfl

/-! ## The counts moved (R77 to R79) -/

/-- The wafer that a written report completes, as it stood before. -/
def completedBy (r : Report) (case : Case) (l : Lot) : Option Wafer :=
  (l.wafers.find? fun w => w.number == r.wafer.toNat).filter fun w =>
    case == .firstResult && !w.complete && min (w.tested + 1) 16777215 == w.candidates

/-- A lot moved by a written report (R77, R79). -/
def Moved (r : Report) (case : Case) (i j : BinInfo) (l l' : Lot) : Prop :=
  l'.tested = upIf (case == .firstResult) l.tested ∧ l'.passed = passedAfter case i j l.passed
    ∧ l'.duplicates = upIf (case == .duplicate) l.duplicates ∧ l'.refused = upIf (case == .overLimit) l.refused
    ∧ (∀ g : Fin 16, l'.groups[g] =
        match case with
        | .firstResult => upIf (g == i.group) l.groups[g]
        | .changed => upIf (g == i.group) (l.groups[g] - if g = j.group then 1 else 0)
        | _ => l.groups[g])
    ∧ l'.wafers.map (fun w => (w.number, w.tested, w.passed, w.complete)) = l.wafers.map fun w =>
        if w.number = r.wafer.toNat then
          (w.number, upIf (case == .firstResult) w.tested, passedAfter case i j w.passed,
            w.complete || (completedBy r case l).isSome)
        else (w.number, w.tested, w.passed, w.complete)

theorem completedBy_none {r : Report} {case : Case} (h : case ≠ .firstResult) (l : Lot) : completedBy r case l = none := by
  unfold completedBy
  have hcase : (case == Case.firstResult) = false := beq_eq_false_iff_ne.2 h
  rw [hcase]
  simp

/-- A lot whose wafers stay. -/
theorem wafers_unmoved {r : Report} {case : Case} (h : case ≠ .firstResult) {i j : BinInfo}
    (hpassed : ∀ n, passedAfter case i j n = n) (l : Lot) :
    l.wafers.map (fun w => (w.number, w.tested, w.passed, w.complete)) = l.wafers.map fun w =>
      if w.number = r.wafer.toNat then
        (w.number, upIf (case == .firstResult) w.tested, passedAfter case i j w.passed,
          w.complete || (completedBy r case l).isSome)
      else (w.number, w.tested, w.passed, w.complete) := by
  refine List.map_congr_left fun w _ => ?_
  have hcase : (case == Case.firstResult) = false := beq_eq_false_iff_ne.2 h
  rw [completedBy_none h, hcase, hpassed]
  simp [upIf]

/-- The wafer part of a first result (R77). -/
def Wafer.addFirst (i : BinInfo) (w : Wafer) : Wafer :=
  { w with tested := countUp w.tested, passed := countPass i.cls w.passed }

theorem completes_addFirst (r : Report) (i : BinInfo) (l : Lot) :
    (l.addFirst r i).completes r.wafer.toNat = (completedBy r .firstResult l).isSome := by
  have hwafer : (l.addFirst r i).wafer r.wafer.toNat = (l.wafer r.wafer.toNat).map (Wafer.addFirst i) :=
    wafer_modWafer r.wafer.toNat (f := Wafer.addFirst i) (fun _ => rfl) l
  unfold Lot.completes completedBy
  rw [hwafer]
  unfold Lot.wafer
  cases l.wafers.find? fun w => w.number == r.wafer.toNat with
  | none => rfl
  | some w =>
    simp only [Option.map_some, Option.any_some, Option.filter_some, Wafer.addFirst, countUp, BEq.rfl, Bool.true_and]
    rw [Bool.and_comm]
    split <;> simp_all

theorem moved_firstResult (r : Report) (i j : BinInfo) (l : Lot) :
    Moved r .firstResult i j l ((l.addFirst r i).completed r.wafer.toNat) := by
  have hwafers := completed_wafers r.wafer.toNat (l.addFirst r i)
  rw [completed_form]
  refine ⟨rfl, countPass_eq i.cls l.passed, rfl, rfl, fun g => ?_, ?_⟩
  · refine (getElem_modGroup i.group g countUp l.groups).trans ?_
    by_cases hg : g = i.group
    · simp [upIf, hg, countUp]
    · simp [upIf, hg]
  · dsimp only
    rw [hwafers, completes_addFirst]
    have hadd : (l.addFirst r i).wafers = l.wafers.map fun w =>
        if w.number = r.wafer.toNat then w.addFirst i else w := rfl
    rw [hadd, List.map_map, List.map_map]
    refine List.map_congr_left fun w _ => ?_
    dsimp only [Function.comp_apply]
    by_cases hn : w.number = r.wafer.toNat
    · rw [if_pos hn, if_pos (show (w.addFirst i).number = _ from hn), if_pos hn]
      have hp : (w.addFirst i).passed = upIf (i.cls == .pass) w.passed := countPass_eq i.cls w.passed
      dsimp only
      rw [hp]
      rfl
    · rw [if_neg hn, if_neg hn, if_neg hn]

theorem moved_changed (r : Report) (i j : BinInfo) (l : Lot) : Moved r .changed i j l (l.changeBin r j i) := by
  refine ⟨rfl, movePassed_eq i j l.passed, rfl, rfl, fun g => ?_, ?_⟩
  · refine (getElem_modGroup i.group g countUp _).trans ?_
    rw [getElem_modGroup]
    have hold : (if g = j.group then l.groups[g] - 1 else l.groups[g]) =
        l.groups[g] - if g = j.group then 1 else 0 := by split <;> rfl
    rw [hold]
    by_cases hg : g = i.group
    · simp [upIf, hg, countUp]
    · simp [upIf, hg]
  · have hbin : (l.changeBin r j i).wafers = l.wafers.map fun w =>
        if w.number = r.wafer.toNat then { w with passed := movePassed j.cls i.cls w.passed } else w := rfl
    rw [hbin, List.map_map, completedBy_none (by simp)]
    refine List.map_congr_left fun w _ => ?_
    dsimp only [Function.comp_apply]
    by_cases hn : w.number = r.wafer.toNat
    · rw [if_pos hn, if_pos hn, movePassed_eq]
      simp [upIf]
    · rw [if_neg hn, if_neg hn]

/-- What a written report makes of its lot's counts. -/
theorem moved_written {p : Plan} {r : Report} {was : Half} {case : Case} {i j : BinInfo} (hi : p.info r.bin = some i)
    (hj : case = .changed → p.info (cellBin was) = some j) (l : Lot) : Moved r case i j l (l.written p r was case) := by
  unfold Lot.written
  cases case with
  | firstResult =>
    rw [if_pos rfl, tally_firstResult hi]
    exact moved_firstResult r i j l
  | changed =>
    rw [if_neg (by simp), tally_changed hi (hj rfl)]
    exact moved_changed r i j l
  | duplicate =>
    rw [if_neg (by simp), tally_duplicate]
    exact ⟨rfl, rfl, rfl, rfl, fun _ => rfl, wafers_unmoved (by simp) (fun _ => rfl) l⟩
  | overLimit =>
    rw [if_neg (by simp), tally_overLimit]
    exact ⟨rfl, rfl, rfl, rfl, fun _ => rfl, wafers_unmoved (by simp) (fun _ => rfl) l⟩
  | stands =>
    rw [if_neg (by simp), tally_stands]
    exact ⟨rfl, rfl, rfl, rfl, fun _ => rfl, wafers_unmoved (by simp) (fun _ => rfl) l⟩

end Sys2Proof.Machine
end

