-- ==== Sys2Proof/Proofs/MapWrites.lean ====
section
/-! SUPPORT. The map write of the report in progress: the tallies, the notices, the guard unit and the floor (O38; R77 to
R83, R132). -/

namespace Sys2Proof.Machine

theorem effectOf_mapWritten {c : CellNo} {td : Touchdown} {r : Report} {l : Lot} {a : Addr} {was now : Half} {s : State}
    (h : InProgress c td r l a (.writing was now) s) (hout : OutstandingFor .mapWrite s) :
    effectOf .mapWriteDone s = some (continueRecord c (finishReport c td.id r
      (.written was (caseOf (s.coll.plan l.plan) l.policy l.limit r was)) (portFree s))) := by
  have hcurrent := currentReport_of_inProgress h
  obtain ⟨-, -, -, hl, -, hstage⟩ := h
  change mapWritten s = _
  unfold mapWritten
  rw [acknowledged_of hout]
  simp only [Option.bind_eq_bind, Option.bind_some, hcurrent, portFree_coll, hl, hstage]
  rfl

theorem untested_of_changed {p : Plan} {policy : Policy} {limit : Nat} {r : Report} {was : Half}
    (h : caseOf p policy limit r was = .changed) : cellBin was ≠ untested := by
  intro hun
  unfold caseOf at h
  rw [if_pos hun] at h
  cases h

/-- The floor of a lot after a report, evaluated where a count has moved (R82, R132). -/
def FloorAfter (c : CellNo) (r : Report) (case : Case) (i j : BinInfo) (l l' : Lot) (s t : State) : Prop :=
  (l.floor = none → l'.tripped = l.tripped)
    ∧ ∀ f ∈ l.floor,
      if (case = .firstResult ∨ case = .changed ∧ i.cls ≠ j.cls) ∧ f.minimum ≤ l'.tested
          ∧ l'.passed * 10000 / l'.tested < f.figure ∧ l.tripped = false then
        l'.tripped = true
          ∧ Noted (.lot r.key 0) (.lotFloor r.key l'.tested l'.passed (l'.passed * 10000 / l'.tested) f.figure f.minimum
              (some (c, r.site))) s t
      else l'.tripped = l.tripped

/-- What a report written leaves (R77 to R83). -/
def WrittenEnds (c : CellNo) (td : Touchdown) (r : Report) (case : Case) (was : Half) (i j : BinInfo) (l : Lot)
    (s t : State) : Prop :=
  (∃ l', findLot t.coll.lots r.key = some l' ∧ Moved r case i j l l' ∧ FloorAfter c r case i j l l' s t)
    ∧ (∀ w ∈ completedBy r case l, Noted (.lot r.key w.number)
        (.waferComplete r.key w.candidates (min (w.tested + 1) 16777215) (passedAfter case i j w.passed)) s t)
    ∧ (case = .duplicate → Noted (.lot r.key r.wafer.toNat)
        (.duplicateDie r.key c r.site td.number (td.closeStamp.getD 0) r.x r.y r.bin (cellBin was)) s t)
    ∧ (case = .overLimit → Noted (.cell c) (.reportRefused .overLimit r td.number (td.closeStamp.getD 0) none) s t)
    ∧ (t.cell c).holds.currentLot = some r.key ∧ GuardTook c r.site i.cls s t

section
variable {c : CellNo} {td : Touchdown} {r : Report} {case : Case} {was : Half} {i j : BinInfo} {l : Lot} {s t : State}

/-- The lot's flag after a report's end. -/
theorem findLot_endedLots (h : findLot s.coll.lots r.key = some l) :
    findLot (endedLots r (.written was case) s) r.key = some (if floorTripDue r (.written was case) s then
      { l.written (s.coll.plan l.plan) r was case with tripped := true } else l.written (s.coll.plan l.plan) r was case) := by
  have hfind := findLot_talliedLots (was := was) (case := case) h
  unfold endedLots
  split
  · rw [findLot_changeLots (f := fun l => { l with tripped := true }) (fun _ => rfl), hfind, Option.map_some, if_pos (findLot_key hfind).1]
  · exact hfind

theorem floorAfter_written (hl : findLot s.coll.lots r.key = some l) (hi : (s.coll.plan l.plan).info r.bin = some i)
    (hj : case = .changed → (s.coll.plan l.plan).info (cellBin was) = some j)
    (hgoes : GoesOn c (finishReport c td.id r (.written was case) s) t) :
    FloorAfter c r case i j l (if floorTripDue r (.written was case) s then
      { l.written (s.coll.plan l.plan) r was case with tripped := true } else l.written (s.coll.plan l.plan) r was case)
      s t := by
  obtain ⟨hkey, hfloor, -, htripped⟩ := written_fixed (s.coll.plan l.plan) r was case l
  have hfind := findLot_talliedLots (was := was) (case := case) hl
  have hdue := floorTripDue_written (was := was) (case := case) hl
  have hmoves := movesFigure_iff (case := case) hi hj
  have hkey' := hkey.trans (findLot_key hl).1
  have hnoted : floorTripDue r (.written was case) s = true →
      Noted (.lot r.key 0) ((l.written (s.coll.plan l.plan) r was case).floorDetail (some (c, r.site))) s t := fun h => by
    refine hgoes.noted (finishReport_noted ?_)
    unfold reportNotices floorNotices
    rw [if_pos h, hfind]
    exact List.mem_append_right _ (List.mem_append_right _ (List.mem_append_right _ (List.mem_singleton.2 rfl)))
  generalize floorTripDue r (.written was case) s = due at *
  generalize l.written (s.coll.plan l.plan) r was case = l1 at *
  refine ⟨fun hnone => ?_, fun f hf => ?_⟩
  · have hstays : due = false := by
      rw [hdue, floorTrips_of_none (hfloor.trans hnone), Bool.and_false]
    rw [hstays]
    exact htripped
  · have hiff : due = true ↔ (case = .firstResult ∨ case = .changed ∧ i.cls ≠ j.cls) ∧ f.minimum ≤ l1.tested
        ∧ l1.passed * 10000 / l1.tested < f.figure ∧ l.tripped = false := by
      rw [hdue, Bool.and_eq_true, hmoves, floorTrips_iff (hfloor.trans hf), htripped]
      exact Iff.rfl
    by_cases hd : due = true
    · rw [if_pos hd]
      refine (if_pos (hiff.1 hd)).mpr ⟨rfl, ?_⟩
      have h := hnoted hd
      unfold Lot.floorDetail at h
      rw [hkey', hfloor, hf] at h
      exact h
    · rw [if_neg hd, if_neg (mt hiff.2 hd)]
      exact htripped

theorem moved_tripped {l' : Lot} (h : Moved r case i j l l') (b : Bool) : Moved r case i j l { l' with tripped := b } := h

/-- WAFER_COMPLETE among the notices of a first result (R79). -/
theorem completed_noted (hl : findLot s.coll.lots r.key = some l) (hi : (s.coll.plan l.plan).info r.bin = some i)
    {w : Wafer} (hw : w ∈ completedBy r case l) : ((.lot r.key w.number,
      .waferComplete r.key w.candidates (min (w.tested + 1) 16777215) (passedAfter case i j w.passed)) : Occurrence) ∈
        reportNotices c td.id r (.written was case) s := by
  have hcase : case = .firstResult := by
    by_contra hne
    rw [completedBy_none hne] at hw
    cases hw
  subst hcase
  obtain ⟨hfind, hdue⟩ := Option.filter_eq_some_iff.1 hw
  have hnumber : w.number = r.wafer.toNat := by simpa using List.find?_some hfind
  have hlot : findLot (changeLots r.key (fun l => l.tally (s.coll.plan l.plan) r was .firstResult) s.coll.lots) r.key =
      some (l.addFirst r i) := by
    rw [← tally_firstResult (was := was) hi]
    exact findLot_modLot (f := fun l => l.tally (s.coll.plan l.plan) r was .firstResult)
      (fun l => (tally_kept _ r was .firstResult l).1.key) hl
  have hwafer : (l.addFirst r i).wafer r.wafer.toNat = some (w.addFirst i) := by
    refine (wafer_modWafer r.wafer.toNat (f := Wafer.addFirst i) (fun _ => rfl) l).trans ?_
    unfold Lot.wafer
    rw [hfind]
    rfl
  have hcompletes : ((w.addFirst i).tested == (w.addFirst i).candidates && !(w.addFirst i).complete) = true := by
    simp only [BEq.rfl, Bool.true_and, Bool.and_eq_true] at hdue
    exact (Bool.and_eq_true ..).mpr ⟨hdue.2, hdue.1⟩
  have hfilter : Option.filter (fun w : Wafer => w.tested == w.candidates && !w.complete) (some (w.addFirst i)) =
      some (w.addFirst i) := Option.filter_some_pos hcompletes
  refine List.mem_append_left _ ?_
  unfold tallyNotices completeNotices
  dsimp only
  rw [hlot, Option.bind_some, hwafer, hfilter, hnumber]
  refine List.mem_singleton.2 ?_
  have hp : (w.addFirst i).passed = passedAfter .firstResult i j w.passed := countPass_eq i.cls w.passed
  dsimp only
  rw [hp]
  rfl

theorem writtenEnds_of_goesOn (hl : findLot s.coll.lots r.key = some l) (hi : (s.coll.plan l.plan).info r.bin = some i)
    (hj : case = .changed → (s.coll.plan l.plan).info (cellBin was) = some j)
    (hgoes : GoesOn c (finishReport c td.id r (.written was case) s) t)
    (hlots : t.coll.lots = endedLots r (.written was case) s) : WrittenEnds c td r case was i j l s t := by
  have hmoved := moved_written (r := r) hi hj l
  refine ⟨⟨_, (congrArg (findLot · r.key) hlots).trans (findLot_endedLots hl), ?_, floorAfter_written hl hi hj hgoes⟩,
    fun w hw => hgoes.noted (finishReport_noted (completed_noted hl hi hw)), fun hcase => ?_, fun hcase => ?_, ?_, ?_⟩
  · split
    · exact moved_tripped hmoved true
    · exact hmoved
  · subst hcase
    refine hgoes.noted (finishReport_noted ?_)
    exact List.mem_append_right _ (List.mem_append_left _ (List.mem_singleton.2 rfl))
  · subst hcase
    refine hgoes.noted (finishReport_noted ?_)
    exact List.mem_append_right _ (List.mem_append_left _ (List.mem_singleton.2 rfl))
  · exact (currentLot_of_goesOn hgoes).trans (if_neg (by simp))
  · exact guardTook_of_outcome (outcomeOf_written hl hi) hgoes

end

/-- Settles O38: the report's end, and the record's or the next report's map read. -/
theorem mapWriteMovesTallies : Obligations.MapWriteMovesTallies := by
  intro c td r l a was now i j s hprogress hout hi hj case
  have hhead : ((portFree s).cell c).asm.queue.head? = some td := hprogress.2.1
  have hl : findLot (portFree s).coll.lots r.key = some l := hprogress.2.2.2.1
  have he := effectOf_mapWritten hprogress hout
  have hcase : case = .changed → (s.coll.plan l.plan).info (cellBin was) = some j :=
    fun h => hj (untested_of_changed h)
  rw [continueRecord_finishReport hhead] at he
  intro stamp up passed completed moved floor finished
  have hfinished : ∀ t, WrittenEnds c td r case was i j l s t → finished t := fun t h => h
  refine ⟨fun hlast => answers_of_effect he ?_, fun r' a' hr' ha' => answers_of_effect he ?_⟩
  · obtain ⟨hgoes, hcoll, hqueue⟩ := ended_last s (r := r) (e := .written was case) hhead hlast
    refine ⟨hfinished _ (writtenEnds_of_goesOn (s := portFree s) hl hi hcase hgoes ?_), ?_, ?_, hqueue⟩
    · rw [hcoll]
    · rw [hcoll]
    · rw [hcoll]
  · obtain ⟨hgoes, hcoll, hqueue, hread⟩ := ended_next s (r := r) (e := .written was case) hhead hr' ha'
    refine ⟨hfinished _ (writtenEnds_of_goesOn (s := portFree s) hl hi hcase hgoes ?_), ?_, ?_, hqueue, hread⟩
    · rw [hcoll]
    · rw [hcoll]
      exact hprogress.1
    · rw [hcoll]

end Sys2Proof.Machine
end

