-- ==== Sys2Proof/Proofs/Resumption.lean ====
section
/-! SUPPORT. What each block does at START (O16; R85, R137, R155, R156, R165, R166). -/

namespace Sys2Proof.Machine

/-! ## Requests of other requesters -/

/-- The port is as it was but for what one requester waits for. -/
def OnlyRequester (r : Requester) (s t : State) : Prop :=
  t.port.outstanding = s.port.outstanding ∧ ∀ q, q ≠ r → t.port.waiting.get q = s.port.waiting.get q

theorem onlyRequester_portRequest {tr : Transaction} {r : Requester} (h : tr.purpose.requester = r) (s : State) :
    OnlyRequester r s (portRequest tr s) := by
  refine ⟨rfl, fun q hq => ?_⟩
  unfold portRequest
  dsimp only
  rw [waiting_put_get_ne]
  rw [h]
  exact hq

theorem OnlyRequester.refl (r : Requester) (s : State) : OnlyRequester r s s := ⟨rfl, fun _ _ => rfl⟩

theorem OnlyRequester.requested {r : Requester} {s t : State} (h : OnlyRequester r s t) {tr : Transaction}
    (hr : tr.purpose.requester ≠ r) (hs : Requested tr s) : Requested tr t := by
  unfold Requested at hs ⊢
  rw [h.1, h.2 _ hr]
  exact hs

/-! ## The order unit (R155, R156) -/

/-- A SNAPSHOT is in service. -/
def isSnapshot : Option Work → Bool
  | some (.snapshot _ _) => true
  | _ => false

/-- A catalogue request that brings an order its outcome. -/
def bringsOutcome : Request → Bool
  | .scanAbandoned _ => false
  | .finalize _ => false
  | _ => true

theorem outcomeToCome_eq (s : State) :
    outcomeToCome s = (s.scanner.isSome || isSnapshot s.coll.work || s.coll.requests.any bringsOutcome) := rfl

section
variable {s : State} {v : Service}

theorem resumeOrder_service (h : s.order.service = some v) : resumeOrder s = resumeService v s := by
  unfold resumeOrder
  rw [h]

theorem resumeService_answering {out : OrderOutcome} (hv : v.stage = .answering) (hout : s.order.outcome = some out) :
    resumeService v s = answer out s := by
  unfold resumeService
  rw [hv, hout]

theorem resumeService_waiting (hv : v.stage = .waiting) : resumeService v s =
    if outcomeToCome s then s.setOrder { s.order with phase := .serving } else answer (.refused .engineFault 0) s := by
  unfold resumeService
  rw [hv]

theorem resumeService_other (hw : v.stage ≠ .waiting) (ha : v.stage ≠ .answering) :
    resumeService v s = answer (.refused .engineFault 0) s := by
  unfold resumeService
  split
  · rename_i h _
    exact absurd h ha
  · rename_i h
    exact absurd h hw
  · rfl

theorem resumeOrder_outcome {out : OrderOutcome} (h : s.order.service = none) (hout : s.order.outcome = some out) :
    resumeOrder s = answer out s := by
  unfold resumeOrder
  rw [h, hout]

/-- With no order and no outcome the unit goes on along the chain (R155). -/
theorem resumeOrder_chain (h : s.order.service = none) (hout : s.order.outcome = none) :
    (resumeOrder s).order = s.order
      ∧ (s.order.phase = .fetch → s.order.posWritten = false → resumeOrder s = writePosition s)
      ∧ (s.order.phase = .fetch → s.order.posWritten = true → resumeOrder s = readHeader s)
      ∧ (s.order.phase = .link → resumeOrder s = readLink s) := by
  unfold resumeOrder
  rw [h, hout]
  dsimp only
  refine ⟨?_, fun hphase hpos => ?_, fun hphase hpos => ?_, fun hphase => ?_⟩
  · split
    · split
      · rfl
      · rfl
    · rfl
    · rfl
  · rw [hphase]
    exact if_neg (by simp [hpos])
  · rw [hphase]
    exact if_pos hpos
  · rw [hphase]

/-- The order unit's resumption is its own. -/
structure OrderResumes (s t : State) : Prop where
  keeps : Keeps [.order, .port] s t
  port : OnlyRequester .orderUnit s t

theorem orderResumes_request {tr : Transaction} (h : tr.purpose.requester = .orderUnit) (s : State) :
    OrderResumes s (portRequest tr s) := ⟨by simp [Keeps], onlyRequester_portRequest h s⟩

theorem orderResumes_answer (out : OrderOutcome) (s : State) : OrderResumes s (answer out s) :=
  ⟨keeps_answer out (Keeps.refl _ s) (by simp) (by simp), onlyRequester_portRequest rfl _⟩

theorem orderResumes_resumeOrder (s : State) : OrderResumes s (resumeOrder s) := by
  have hsame : OrderResumes s s := ⟨Keeps.refl _ s, OnlyRequester.refl _ s⟩
  cases hservice : s.order.service with
  | some v =>
    rw [resumeOrder_service hservice]
    unfold resumeService
    split
    · exact orderResumes_answer _ s
    · split
      · exact ⟨by simp [Keeps, State.setOrder], OnlyRequester.refl _ s⟩
      · exact orderResumes_answer _ s
    · exact orderResumes_answer _ s
  | none =>
    cases hout : s.order.outcome with
    | some out =>
      rw [resumeOrder_outcome hservice hout]
      exact orderResumes_answer out s
    | none =>
      unfold resumeOrder
      rw [hservice, hout]
      dsimp only
      split
      · split
        · exact orderResumes_request rfl s
        · exact orderResumes_request rfl s
      · exact orderResumes_request rfl s
      · exact hsame

end

/-! ## The notice unit (R165, R166) -/

section
variable {s : State}

theorem resumeNotice_record {p : Post} (hphase : s.notice.phase = .record) (hp : s.notice.post = some p) :
    resumeNotice s = portRequest (postWrite p s) s := by
  unfold resumeNotice
  rw [hphase, hp]

theorem resumeNotice_count (hphase : s.notice.phase = .count) : resumeNotice s = portRequest (countWrite s) s := by
  unfold resumeNotice
  rw [hphase]

theorem resumeNotice_read (hphase : s.notice.phase = .room ∨ s.notice.phase = .wait) : resumeNotice s = readConsumed s := by
  unfold resumeNotice
  rcases hphase with hphase | hphase <;> rw [hphase]

theorem resumeNotice_idle (hphase : s.notice.phase = .idle) (hrun : s.engine.state = .running) :
    resumeNotice s = judgeRoom s := by
  unfold resumeNotice
  rw [hphase]
  exact if_pos ⟨hphase, (noticeRuns_iff s).2 (.inl hrun)⟩

theorem onlyRequester_readConsumed (s : State) : OnlyRequester .noticeUnit s (readConsumed s) :=
  onlyRequester_portRequest (tr := readOf .consumedRead s.loadedSetup.consumedAddr 4) rfl
    { s with notice := { s.notice with phase := .room, retry := none } }

theorem onlyRequester_judgeRoom (s : State) : OnlyRequester .noticeUnit s (judgeRoom s) := by
  cases ht : s.notice.table with
  | nil =>
    rw [judgeRoom_nil ht]
    exact OnlyRequester.refl _ s
  | cons e rest =>
    by_cases hr : noticeRoom s = true
    · rw [judgeRoom_post ht hr]
      exact onlyRequester_portRequest (tr := postWrite ⟨e, s.notice.written⟩ s) rfl
        { s with notice := { s.notice with table := rest, post := some ⟨e, s.notice.written⟩, phase := .record } }
    · rw [judgeRoom_full ht hr]
      exact onlyRequester_readConsumed s

/-- The notice unit's resumption is its own. -/
structure NoticeResumes (s t : State) : Prop where
  keeps : Keeps [.notice, .port] s t
  port : OnlyRequester .noticeUnit s t

theorem noticeResumes_request {tr : Transaction} (h : tr.purpose.requester = .noticeUnit) (s : State) :
    NoticeResumes s (portRequest tr s) := ⟨by simp [Keeps], onlyRequester_portRequest h s⟩

theorem noticeResumes_resumeNotice (s : State) : NoticeResumes s (resumeNotice s) := by
  have hsame : NoticeResumes s s := ⟨Keeps.refl _ s, OnlyRequester.refl _ s⟩
  have hread : NoticeResumes s (readConsumed s) :=
    ⟨keeps_readConsumed s (by simp) (by simp), onlyRequester_readConsumed s⟩
  unfold resumeNotice
  split
  · split
    · exact noticeResumes_request rfl s
    · exact hsame
  · exact noticeResumes_request rfl s
  · exact hread
  · exact hread
  · unfold noticePump
    split
    · exact ⟨keeps_judgeRoom s (by simp) (by simp), onlyRequester_judgeRoom s⟩
    · exact hsame

end

/-! ## The collation unit (R85, R137) -/

/-- What the collation unit's resumption leaves alone. -/
structure CollationResumes (s t : State) : Prop where
  keeps : Keeps [.port, .cells, .coll, .notice] s t
  outstanding : t.port.outstanding = s.port.outstanding
  heard : ∀ d, Heard (s.cell d).line (t.cell d).line
  told : ∃ ds, Tells ds s t
  requests : t.coll.requests = s.coll.requests
  snapshot : isSnapshot t.coll.work = isSnapshot s.coll.work

theorem Applies.collationResumes {s t : State} (h : Applies s t) (hwork : isSnapshot s.coll.work = false) :
    CollationResumes s t where
  keeps := h.keeps
  outstanding := h.outstanding
  heard := h.heard
  told := h.told
  requests := h.coll.1
  snapshot := by
    rw [hwork]
    rcases h.work with he | he
    · rw [he, hwork]
    · rw [he]
      rfl

theorem collationResumes_refl (s : State) : CollationResumes s s :=
  ⟨Keeps.refl _ s, rfl, fun _ => Heard.refl _, ⟨[], Tells.refl s⟩, rfl, rfl⟩

theorem applies_writeCell (a : Addr) (was now : Half) (s : State) : Applies s (writeCell a was now s) :=
  (Applies.of_setProgress (some (.writing was now)) s).trans
    (Applies.of_request (writeOf .mapWrite a (leBytes 2 now.toNat)) _ rfl)

theorem collationResumes_resumeCollation (s : State) : CollationResumes s (resumeCollation s) := by
  unfold resumeCollation
  split
  · rename_i c hwork
    have hcont : CollationResumes s (continueRecord c s) :=
      (applies_continueRecord c s).collationResumes (by rw [hwork]; rfl)
    split
    · split
      · exact (Applies.of_request _ s rfl).collationResumes (by rw [hwork]; rfl)
      · exact hcont
    · split
      · exact (applies_writeCell _ _ _ s).collationResumes (by rw [hwork]; rfl)
      · exact hcont
    · exact hcont
  · rename_i key w hwork
    unfold serveFinalize
    split
    · exact (Applies.of_coll s (k := { s.coll with work := none }) ⟨rfl, rfl, rfl⟩ (.inr rfl)).collationResumes
        (by rw [hwork]; rfl)
    · refine ⟨by simp [Keeps, continueTally, setWork], rfl, fun _ => Heard.refl _, ⟨[], Tells.of_eq rfl rfl rfl⟩, rfl, ?_⟩
      rw [hwork]
      rfl
  · exact collationResumes_refl s

section
variable {c : CellNo} {td : Touchdown} {r : Report} {l : Lot} {a : Addr} {s : State}

theorem currentReport_eq {st : ReportStage} (h : InProgress c td r l a st s) : currentReport s = some (c, td, r) :=
  currentReport_of_inProgress h

theorem resumeCollation_reading (h : InProgress c td r l a .reading s) :
    resumeCollation s = portRequest (readOf .mapRead a 2) s := by
  have hcurrent := currentReport_eq h
  obtain ⟨hwork, -, -, -, hid, hstage⟩ := h
  unfold resumeCollation
  simp only [hwork, hstage, hcurrent, hid]

theorem resumeCollation_writing {was now : Half} (h : InProgress c td r l a (.writing was now) s) :
    resumeCollation s = writeCell a was now s := by
  have hcurrent := currentReport_eq h
  obtain ⟨hwork, -, -, -, hid, hstage⟩ := h
  unfold resumeCollation
  simp only [hwork, hstage, hcurrent, hid]

theorem writeCell_coll {was now : Half} (h : s.coll.inProgress = some (.writing was now)) :
    (writeCell a was now s).coll = s.coll := by
  have hcoll : (writeCell a was now s).coll = { s.coll with inProgress := some (.writing was now) } := rfl
  rw [hcoll, ← h]

theorem resumeCollation_finalize {key : Word} {w : RecordWrite} (hwork : s.coll.work = some (.finalize key w))
    (hl : findLot s.coll.lots key = some l) : resumeCollation s =
      continueTally (.finalize key) (tallyWrite l closedCode (l.finalAddr.getD 0) s.clock) s := by
  unfold resumeCollation
  rw [hwork]
  dsimp only
  unfold serveFinalize
  rw [hl]

theorem resumeCollation_none (h : s.coll.work = none) : resumeCollation s = s := by
  unfold resumeCollation
  rw [h]

/-- Where no report is begun again, the collation unit raises nothing at START. -/
theorem resumeCollation_notice
    (h : (∀ c, s.coll.work ≠ some (.record c)) ∨ ∃ c td r l a st, InProgress c td r l a st s) :
    (resumeCollation s).notice = s.notice := by
  rcases h with h | ⟨c, td, r, l, a, st, h⟩
  · unfold resumeCollation
    split
    · rename_i c hc
      exact absurd hc (h c)
    · unfold serveFinalize
      split
      · rfl
      · rfl
    · rfl
  · cases st with
    | reading =>
      rw [resumeCollation_reading h]
      rfl
    | writing was now =>
      rw [resumeCollation_writing h]
      rfl

end

end Sys2Proof.Machine
end

