-- ==== Sys2Proof/Proofs/Start.lean ====
section
/-! SUPPORT. START in HALTED with LOADED 1 (O16; R25, R112, R176): from the effect of the command to the state it answers,
block by block. -/

namespace Sys2Proof.Machine

/-! ## The part started -/

/-- The receivers of a started part (R25). -/
theorem started_line (s : State) (c : CellNo) : Heard (if (s.cell c).line.state = .offline then (s.cell c).line
    else (s.cell c).line.startReceiver s.clock) ((started s).cell c).line := by
  have hcell : (started s).cell c = transmit .running s.coll.lots ((startReceivers (setEngineState .running s)).cell c) :=
    cell_mapCells _ _ c
  have hstart : ((startReceivers (setEngineState .running s)).cell c).line =
      if (s.cell c).line.state = .offline then (s.cell c).line else (s.cell c).line.startReceiver s.clock := by
    rw [cell_startReceivers]
    exact apply_ite CellState.line _ _ _
  rw [hcell, ← hstart]
  exact heard_transmit _ _ _

theorem started_asm (s : State) (c : CellNo) : ((started s).cell c).asm = (s.cell c).asm := by
  have hcell : (started s).cell c = transmit .running s.coll.lots ((startReceivers (setEngineState .running s)).cell c) :=
    cell_mapCells _ _ c
  rw [hcell, (transmit_frame _ _ _).1.1]
  exact (startReceivers_frame (setEngineState .running s) c).1

theorem inProgress_started {c : CellNo} {td : Touchdown} {r : Report} {l : Lot} {a : Addr} {st : ReportStage} {s : State}
    (h : InProgress c td r l a st s) : InProgress c td r l a st (started s) := by
  obtain ⟨hwork, hhead, hr, hl, hid, hstage⟩ := h
  refine ⟨hwork, ?_, hr, hl, hid, hstage⟩
  rw [started_asm]
  exact hhead

/-! ## The blocks gone on -/

/-- The part with every block gone on. -/
def allResumed (s : State) : State := resumeNotice (resumeOrder (resumeCollation s))

theorem performStart_eq {s : State} (hs : s.engine.state = .halted) (hl : s.engine.loaded = true) :
    performStart s = allResumed (started s) := if_pos ⟨hs, hl⟩

theorem performStart_ignored {s : State} (h : s.engine.state ≠ .halted ∨ s.engine.loaded = false) : performStart s = s := by
  refine if_neg fun ⟨hs, hl⟩ => ?_
  rcases h with h | h
  · exact h hs
  · rw [h] at hl
    cases hl

section
variable {u t : State}

theorem resumed_keeps (u : State) : Keeps [.port, .cells, .coll, .notice, .order] u (allResumed u) :=
  ((collationResumes_resumeCollation u).keeps.mono (by simp)).trans
    (((orderResumes_resumeOrder _).keeps.mono (by simp)).trans ((noticeResumes_resumeNotice _).keeps.mono (by simp)))

theorem resumed_coll (u : State) : (allResumed u).coll = (resumeCollation u).coll :=
  ((noticeResumes_resumeNotice _).keeps.2.2.2.2.2.2.1 (by simp)).trans
    ((orderResumes_resumeOrder _).keeps.2.2.2.2.2.2.1 (by simp))

theorem resumed_cells (u : State) : (allResumed u).cells = (resumeCollation u).cells :=
  ((noticeResumes_resumeNotice _).keeps.2.2.2.2.2.1 (by simp)).trans
    ((orderResumes_resumeOrder _).keeps.2.2.2.2.2.1 (by simp))

theorem resumed_order (u : State) : (allResumed u).order = (resumeOrder (resumeCollation u)).order :=
  (noticeResumes_resumeNotice _).keeps.2.2.2.2.1 (by simp)

/-- What the collation unit requests stands when every block has gone on. -/
theorem requested_of_collation {tr : Transaction} (hr : tr.purpose.requester = .collation) (hl : Landed (allResumed u) t)
    (h : Requested tr (resumeCollation u)) : Requested tr t := by
  have horder := (orderResumes_resumeOrder (resumeCollation u)).port.requested (by rw [hr]; simp) h
  exact hl.requested ((noticeResumes_resumeNotice _).port.requested (by rw [hr]; simp) horder)

theorem requested_of_order {tr : Transaction} (hr : tr.purpose.requester = .orderUnit) (hl : Landed (allResumed u) t)
    (h : Requested tr (resumeOrder (resumeCollation u))) : Requested tr t :=
  hl.requested ((noticeResumes_resumeNotice _).port.requested (by rw [hr]; simp) h)

/-- The order unit meets what it left, and what of the collation unit it asks after. -/
theorem order_met (u : State) : (resumeCollation u).order = u.order
    ∧ outcomeToCome (resumeCollation u) =
        (u.scanner.isSome || isSnapshot u.coll.work || u.coll.requests.any bringsOutcome) := by
  have h := collationResumes_resumeCollation u
  refine ⟨h.keeps.2.2.2.2.1 (by simp), ?_⟩
  rw [outcomeToCome_eq, h.keeps.2.2.2.2.2.2.2.1 (by simp), h.snapshot, h.requests]

theorem loadedSetup_met (u : State) : (resumeOrder (resumeCollation u)).loadedSetup = u.loadedSetup := by
  refine loadedSetup_congr ?_
  rw [(orderResumes_resumeOrder _).keeps.1 (by simp), (collationResumes_resumeCollation u).keeps.1 (by simp)]

theorem notice_met (u : State) : (resumeOrder (resumeCollation u)).notice = (resumeCollation u).notice :=
  (orderResumes_resumeOrder _).keeps.2.2.2.2.2.2.2.2.1 (by simp)

/-- A notice unit under way meets what it left, but for its table. -/
theorem notice_met_busy (h : u.notice.phase ≠ .idle) :
    ∃ table, (resumeOrder (resumeCollation u)).notice = { u.notice with table := table } := by
  obtain ⟨ds, hd⟩ := (collationResumes_resumeCollation u).told
  obtain ⟨table, ht⟩ := hd.table fun hidle => h hidle.1
  exact ⟨table, (notice_met u).trans ht⟩

/-! ## The order unit (R155, R156) -/

/-- The order in service is answered at START. -/
theorem answered_resumed {v : Service} {out : OrderOutcome} {s : State} (ho : u.order = s.order)
    (hv : s.order.service = some v) (hl : Landed (allResumed u) t)
    (h : resumeOrder (resumeCollation u) = answer out (resumeCollation u)) : Answered v out s t := by
  have hmet := (order_met u).1.trans ho
  refine ⟨?_, requested_of_order rfl hl ?_⟩
  · rw [hl.order, resumed_order, h, answer_order, hmet, hv]
    rfl
  · rw [h]
    have hr := requested_answer out (resumeCollation u)
    unfold resultWrite at hr
    rwa [hmet, answerRecord_of_service hv] at hr

theorem order_resumed {v : Service} {s : State} (hu : u.order = s.order ∧ u.scanner = s.scanner ∧ u.coll = s.coll)
    (hv : s.order.service = some v) (hl : Landed (allResumed u) t) :
    (∀ out ∈ s.order.outcome, v.stage = .answering → Answered v out s t)
      ∧ (v.stage = .waiting → s.coll.requests.any bringsOutcome = true → t.order = { s.order with phase := .serving })
      ∧ (v.stage = .waiting → s.coll.requests.any bringsOutcome = false → s.scanner = none →
          (∀ key w, s.coll.work ≠ some (.snapshot key w)) → Answered v (.refused .engineFault 0) s t)
      ∧ (v.stage ≠ .waiting → v.stage ≠ .answering → Answered v (.refused .engineFault 0) s t) := by
  obtain ⟨ho, hscanner, hcoll⟩ := hu
  obtain ⟨hmet, hcome⟩ := order_met u
  rw [hscanner, hcoll] at hcome
  have hservice : (resumeCollation u).order.service = some v := by rw [hmet, ho, hv]
  have hresume := resumeOrder_service hservice
  refine ⟨fun out hout hstage => ?_, fun hstage hrequests => ?_, fun hstage hrequests hscan hwork => ?_,
    fun hw ha => ?_⟩
  · refine answered_resumed ho hv hl (hresume.trans (resumeService_answering hstage ?_))
    rw [hmet, ho]
    exact hout
  · rw [resumeService_waiting hstage, hcome, hrequests, Bool.or_true, if_pos rfl] at hresume
    rw [hl.order, resumed_order, hresume, ← ho, ← hmet]
    rfl
  · have hsnap : isSnapshot s.coll.work = false := by
      unfold isSnapshot
      split
      · rename_i key w h
        exact absurd h (hwork key w)
      · rfl
    rw [resumeService_waiting hstage, hcome, hrequests, hscan, hsnap] at hresume
    exact answered_resumed ho hv hl hresume
  · exact answered_resumed ho hv hl (hresume.trans (resumeService_other hw ha))

/-- Without an order in service an outcome answered again changes the phase alone. -/
theorem answered_again {o : OrderUnit} {out : OrderOutcome} (hout : o.outcome = some out) (hnone : o.service = none) :
    { o with phase := .answer, outcome := some out, service := o.service.map fun v => { v with stage := .answering } } =
      { o with phase := .answer } := by
  rw [hnone, ← hout]
  obtain ⟨⟩ := o
  cases hnone
  rfl

/-- With no order in service, an outcome kept is written again (R156). -/
theorem outcome_resumed {out : OrderOutcome} {s : State} (ho : u.order = s.order) (hnone : s.order.service = none)
    (hout : s.order.outcome = some out) (hl : Landed (allResumed u) t) :
    t.order = { s.order with phase := .answer } ∧ Requested
      (writeOf .resultWrite (addrPlus (s.order.position.getD 0) 0x14) (leBytes 4 out.result.toNat)) t := by
  have hmet := (order_met u).1.trans ho
  have h : resumeOrder (resumeCollation u) = answer out (resumeCollation u) :=
    resumeOrder_outcome (by rw [hmet, hnone]) (by rw [hmet, hout])
  refine ⟨?_, requested_of_order rfl hl ?_⟩
  · rw [hl.order, resumed_order, h, answer_order, hmet]
    exact answered_again hout hnone
  · rw [h]
    have hr := requested_answer out (resumeCollation u)
    unfold resultWrite OrderUnit.answerRecord at hr
    rw [hmet, hnone] at hr
    exact hr

/-- With neither, the unit goes on along the chain (R155). -/
theorem chain_resumed {s : State} (ho : u.order = s.order) (hsetup : u.loadedSetup = s.loadedSetup)
    (hnone : s.order.service = none) (hout : s.order.outcome = none) (hl : Landed (allResumed u) t) :
    t.order = s.order
      ∧ (s.order.phase = .fetch → s.order.posWritten = false → Requested
        (writeOf .positionWrite s.loadedSetup.statusAddr (leBytes 8 (s.order.position.getD 0).toNat)) t)
      ∧ (s.order.phase = .fetch → s.order.posWritten = true → s.order.gathered = [] → Requested
        (readOf .headerRead (s.order.position.getD 0) (chunk (s.order.position.getD 0) 24)) t)
      ∧ (s.order.phase = .link → Requested (readOf .linkRead (s.order.position.getD 0) 8) t) := by
  have hmet := (order_met u).1.trans ho
  obtain ⟨horder, hposition, hheader, hlink⟩ := resumeOrder_chain (s := resumeCollation u)
    (by rw [hmet, hnone]) (by rw [hmet, hout])
  rw [hmet] at hposition hheader hlink
  refine ⟨?_, fun hphase hpos => requested_of_order rfl hl ?_, fun hphase hpos hgathered => requested_of_order rfl hl ?_,
    fun hphase => requested_of_order rfl hl ?_⟩
  · rw [hl.order, resumed_order, horder, hmet]
  · rw [hposition hphase hpos]
    unfold writePosition
    rw [hmet, (loadedSetup_congr ((collationResumes_resumeCollation u).keeps.1 (by simp))).trans hsetup]
    exact requested_portRequest _ _
  · rw [hheader hphase hpos]
    have haddr : addrPlus (s.order.position.getD 0) 0 = s.order.position.getD 0 := BitVec.add_zero _
    unfold readHeader
    rw [hmet, hgathered]
    dsimp only [List.length_nil]
    rw [haddr]
    exact requested_portRequest _ _
  · rw [hlink hphase]
    unfold readLink
    rw [hmet]
    exact requested_portRequest _ _

/-! ## The collation unit (R85, R137) -/

theorem collation_resumed {s : State} (hc : u.coll = s.coll) (hclock : u.clock = s.clock)
    (hprogress : ∀ {c td r l a st}, InProgress c td r l a st s → InProgress c td r l a st u)
    (hl : Landed (allResumed u) t) :
    (s.coll.work = none → t.coll = s.coll)
      ∧ (∀ c td r l a, InProgress c td r l a .reading s → t.coll = s.coll ∧ Requested (readOf .mapRead a 2) t)
      ∧ (∀ c td r l a was now, InProgress c td r l a (.writing was now) s →
          t.coll = s.coll ∧ Requested (writeOf .mapWrite a (leBytes 2 now.toNat)) t)
      ∧ (∀ key w l, s.coll.work = some (.finalize key w) → findLot s.coll.lots key = some l →
          let bs := l.tallyRecord 4 s.clock
          let a := l.finalAddr.getD 0
          t.coll = { s.coll with work := some (.finalize key ⟨a, bs, bs.length⟩) }
          ∧ Requested (writeOf .tallyWrite a (bs.take (min bs.length (64 - a.toNat % 64)))) t) := by
  have hcoll := hl.coll.trans (resumed_coll u)
  refine ⟨fun hwork => ?_, fun c td r l a h => ?_, fun c td r l a was now h => ?_, fun key w l hwork hfind => ?_⟩
  · rw [hcoll, resumeCollation_none (by rw [hc, hwork]), hc]
  · have hresume := resumeCollation_reading (hprogress h)
    refine ⟨?_, requested_of_collation rfl hl ?_⟩
    · rw [hcoll, hresume, portRequest_coll, hc]
    · rw [hresume]
      exact requested_portRequest _ _
  · have hresume := resumeCollation_writing (hprogress h)
    refine ⟨?_, requested_of_collation rfl hl ?_⟩
    · rw [hcoll, hresume, writeCell_coll (hprogress h).2.2.2.2.2, hc]
    · rw [hresume]
      exact requested_portRequest _ _
  · have hresume := resumeCollation_finalize (s := u) (l := l) (by rw [hc]; exact hwork) (by rw [hc]; exact hfind)
    rw [hclock] at hresume
    refine ⟨?_, requested_of_collation rfl hl ?_⟩
    · rw [hcoll, hresume, ← hc]
      rfl
    · rw [hresume]
      exact requested_portRequest _ _

/-! ## The notice unit (R165, R166) -/

theorem notice_resumed {s : State} (hn : u.notice = s.notice) (hsetup : u.loadedSetup = s.loadedSetup)
    (hl : Landed (allResumed u) t) :
    (∀ p ∈ s.notice.post, s.notice.phase = .record → Requested (writeOf .noticeWrite
        (addrPlus s.loadedSetup.listAddr (32 * (p.seq.toNat % s.loadedSetup.slots))) p.record) t)
      ∧ (s.notice.phase = .count → Requested
        (writeOf .countWrite (addrPlus s.loadedSetup.statusAddr 8) (leBytes 4 s.notice.written.toNat)) t)
      ∧ (s.notice.phase = .room ∨ s.notice.phase = .wait →
        Requested (readOf .consumedRead s.loadedSetup.consumedAddr 4) t) := by
  have hmet := (loadedSetup_met u).trans hsetup
  have hbusy : s.notice.phase ≠ .idle → ∃ table,
      (resumeOrder (resumeCollation u)).notice = { s.notice with table := table } := fun h => by
    rw [← hn] at h ⊢
    exact notice_met_busy h
  refine ⟨fun p hp hphase => ?_, fun hphase => ?_, fun hphase => ?_⟩
  · obtain ⟨table, htable⟩ := hbusy (by rw [hphase]; simp)
    have hresume := resumeNotice_record (s := resumeOrder (resumeCollation u)) (p := p)
      (by rw [htable]; exact hphase) (by rw [htable]; exact hp)
    have h := requested_portRequest (postWrite p (resumeOrder (resumeCollation u))) (resumeOrder (resumeCollation u))
    rw [← hresume] at h
    unfold postWrite at h
    rw [hmet] at h
    exact hl.requested h
  · obtain ⟨table, htable⟩ := hbusy (by rw [hphase]; simp)
    have hresume := resumeNotice_count (s := resumeOrder (resumeCollation u)) (by rw [htable]; exact hphase)
    have h := requested_portRequest (countWrite (resumeOrder (resumeCollation u))) (resumeOrder (resumeCollation u))
    rw [← hresume] at h
    unfold countWrite at h
    rw [hmet, htable] at h
    exact hl.requested h
  · obtain ⟨table, htable⟩ := hbusy (by rcases hphase with h | h <;> rw [h] <;> simp)
    have hresume := resumeNotice_read (s := resumeOrder (resumeCollation u)) (by rw [htable]; exact hphase)
    have h := requested_readConsumed (resumeOrder (resumeCollation u))
    rw [← hresume, hmet] at h
    exact hl.requested h

/-- An idle notice unit judges room, where no report begun again raises a notice first (R162, R166). -/
theorem posts_resumed {s : State} (hn : u.notice = s.notice) (hsetup : u.loadedSetup = s.loadedSetup)
    (hrun : u.engine.state = .running) (hphase : s.notice.phase = .idle)
    (hquiet : (∀ c, u.coll.work ≠ some (.record c)) ∨ ∃ c td r l a st, InProgress c td r l a st u)
    (hl : Landed (allResumed u) t) : Posts s.notice s t := by
  have hmet : (resumeOrder (resumeCollation u)).notice = s.notice :=
    (notice_met u).trans ((resumeCollation_notice hquiet).trans hn)
  have hengine : (resumeOrder (resumeCollation u)).engine = u.engine :=
    ((orderResumes_resumeOrder _).keeps.1 (by simp)).trans ((collationResumes_resumeCollation u).keeps.1 (by simp))
  have hresume := resumeNotice_idle (s := resumeOrder (resumeCollation u)) (by rw [hmet]; exact hphase)
    (by rw [hengine]; exact hrun)
  unfold allResumed at hl
  rw [hresume] at hl
  refine posts_judgeRoom (v := resumeOrder (resumeCollation u)) ?_ ((loadedSetup_met u).trans hsetup) hl
  rw [hmet, ← hphase]

/-! ## The lines (R25, R112) -/

theorem line_resumed {s : State} (hl : Landed (allResumed (started s)) t) (c : CellNo) :
    Heard (if (s.cell c).line.state = .offline then (s.cell c).line else (s.cell c).line.startReceiver s.clock)
      (t.cell c).line := by
  have hcell : t.cell c = (resumeCollation (started s)).cell c :=
    (hl.cell c).trans (cell_eq_of_cells (resumed_cells (started s)) c)
  rw [hcell]
  exact (started_line s c).trans ((collationResumes_resumeCollation (started s)).heard c)

theorem engineReason_running (c : CellNo) (h : t.engine.state = .running) : engineReason c t = false := by
  rw [engineReason, (reasonByte_bits _ _ _).2.2.2.1, h]
  simp

end

/-- A START that meets an engine that is not HALTED, or not loaded, only stores its enables (R176). -/
theorem exec_start_ignored {w : Word} {s : State} (hw : w &&& 0x1F = 0x02)
    (h : s.engine.state ≠ .halted ∨ s.engine.loaded = false) (hs : Settled s) :
    exec (.start w) s = .next (s.withEngine (storedEnables w s.engine)) := by
  rw [exec_of_effect (effectOf_start hw s), performStart_ignored (s := storeEnables w s) h, settle_storeEnables hs]

/-- Settles O16: block by block. -/
theorem startResumesEveryBlock : Obligations.StartResumesEveryBlock := by
  intro w s hw
  refine ⟨fun hstate hloaded => ?_, fun h hs => exec_start_ignored hw h hs⟩
  have he := effectOf_start hw s
  rw [performStart_eq (s := storeEnables w s) hstate hloaded] at he
  have hkeeps := resumed_keeps (started (storeEnables w s))
  have hengine : (allResumed (started (storeEnables w s))).engine = { storedEnables w s.engine with state := .running } :=
    hkeeps.1 (by simp)
  refine answers_landed he (drainReady_of_not_draining (by rw [hengine]; exact EngineState.noConfusion)) fun t hl => ?_
  have hrunning : t.engine = { storedEnables w s.engine with state := .running } := hl.engine.trans hengine
  obtain ⟨hnone, hreading, hwriting, hfinalize⟩ := collation_resumed (s := s) (u := started (storeEnables w s)) rfl rfl
    (fun h => inProgress_started (s := storeEnables w s) h) hl
  obtain ⟨hrecord, hcount, hread⟩ := notice_resumed (s := s) (u := started (storeEnables w s)) rfl rfl hl
  refine ⟨hrunning, hl.irq, hl.clock.trans (hkeeps.2.2.1 (by simp)), ?_, fun c => ?_, hnone, hreading, hwriting, hfinalize,
    fun v hv => ?_, fun hservice out hout => ?_, fun hservice hout => ?_, hrecord, hcount, hread, fun hphase hquiet => ?_⟩
  · exact hl.keeps.2.2.2.2.2.2.2.2.2.trans hkeeps.2.2.2.2.2.2.2.2.2
  · obtain ⟨tx, last, forced, owed, hline⟩ := line_resumed (s := storeEnables w s) hl c
    refine ⟨?_, engineReason_running c (by rw [hrunning]), fun hon => ?_⟩
    · rw [hline]
      split
      · rfl
      · rfl
    · rw [hline, if_neg (show ¬((storeEnables w s).cell c).line.state = .offline from hon)]
      exact ⟨rfl, rfl, rfl, rfl, rfl⟩
  · exact order_resumed (s := s) (u := started (storeEnables w s)) ⟨rfl, rfl, rfl⟩ hv hl
  · exact outcome_resumed (s := s) (u := started (storeEnables w s)) rfl hservice hout hl
  · exact chain_resumed (s := s) (u := started (storeEnables w s)) rfl rfl hservice hout hl
  · refine posts_resumed (s := s) (u := started (storeEnables w s)) rfl rfl rfl hphase ?_ hl
    refine hquiet.imp id fun ⟨c, td, r, l, a, st, h⟩ => ⟨c, td, r, l, a, st, ?_⟩
    exact inProgress_started (s := storeEnables w s) h

end Sys2Proof.Machine
end

