-- ==== Sys2Proof/Proofs/Nudges.lean ====
section
/-! SUPPORT. NUDGE at the order unit and at the notice unit, alone and beside INIT, START and STOP (O19; R153, R164,
R171). -/

namespace Sys2Proof.Machine

/-! ## NUDGE at the notice unit (R164) -/

section
variable {s : State}

theorem nudgeNotice_off (h : ¬noticeRuns s = true) : nudgeNotice s = s := if_neg h

theorem nudgeNotice_wait (h : noticeRuns s = true) (hphase : s.notice.phase = .wait) : nudgeNotice s = readConsumed s := by
  unfold nudgeNotice
  rw [if_pos h, hphase]

theorem nudgeNotice_room (h : noticeRuns s = true) (hphase : s.notice.phase = .room) :
    nudgeNotice s = s.setNotice { s.notice with nudgePending := true } := by
  unfold nudgeNotice
  rw [if_pos h, hphase]

theorem nudgeNotice_other (hwait : s.notice.phase ≠ .wait) (hroom : s.notice.phase ≠ .room) : nudgeNotice s = s := by
  unfold nudgeNotice
  split
  · split
    · rename_i h
      exact absurd h hwait
    · rename_i h
      exact absurd h hroom
    · rfl
  · rfl

/-- A NUDGE at the notice unit is its own. -/
theorem noticeResumes_nudgeNotice (s : State) : NoticeResumes s (nudgeNotice s) := by
  have hsame : NoticeResumes s s := ⟨Keeps.refl _ s, OnlyRequester.refl _ s⟩
  unfold nudgeNotice
  split
  · split
    · exact ⟨keeps_readConsumed s (by simp) (by simp), onlyRequester_readConsumed s⟩
    · exact ⟨by simp [Keeps, State.setNotice], OnlyRequester.refl _ s⟩
    · exact hsame
  · exact hsame

theorem drainReady_nudgeNotice (h : drainReady s = false) : drainReady (nudgeNotice s) = false := by
  unfold nudgeNotice
  split
  · split
    · exact drainReady_readConsumed s
    · exact h
    · exact h
  · exact h

/-- A NUDGE taken by a running notice unit is what the rule says. -/
theorem nudged_of_landed {u t : State} (hn : u.notice = s.notice) (hsetup : u.loadedSetup = s.loadedSetup)
    (hruns : noticeRuns u = true) (hl : Landed (nudgeNotice u) t) : NoticeNudged s t := by
  unfold NoticeNudged
  rw [← hn]
  by_cases hwait : u.notice.phase = .wait
  · rw [if_pos hwait]
    rw [nudgeNotice_wait hruns hwait] at hl
    refine ⟨hl.notice, ?_⟩
    rw [← hsetup]
    exact hl.requested (requested_readConsumed u)
  · rw [if_neg hwait]
    by_cases hroom : u.notice.phase = .room
    · rw [if_pos hroom]
      rw [nudgeNotice_room hruns hroom] at hl
      exact hl.notice
    · rw [if_neg hroom]
      rw [nudgeNotice_other hwait hroom] at hl
      exact hl.notice

end

/-! ## NUDGE at the order unit (R153) -/

section
variable {s : State}

theorem nudgeOrder_off (h : ¬(s.order.phase = .link ∧ s.engine.state = .running)) : nudgeOrder s = s := by
  unfold nudgeOrder
  rw [if_neg]
  rwa [orderRuns_iff]

theorem nudgeOrder_busy (h : s.order.phase = .link ∧ s.engine.state = .running) (hbusy : portBusy .orderUnit s = true) :
    nudgeOrder s = s.setOrder { s.order with nudgePending := true } := by
  unfold nudgeOrder
  rw [if_pos (by rwa [orderRuns_iff]), if_pos hbusy]

theorem nudgeOrder_free (h : s.order.phase = .link ∧ s.engine.state = .running) (hfree : ¬portBusy .orderUnit s = true) :
    nudgeOrder s = readLink (s.setOrder { s.order with pollTimer := none }) := by
  unfold nudgeOrder
  rw [if_pos (by rwa [orderRuns_iff]), if_neg hfree]

theorem keeps_nudgeOrder (s : State) : Keeps [.order, .port] s (nudgeOrder s) := by
  unfold nudgeOrder
  split
  · split
    · simp [Keeps, State.setOrder]
    · simp [Keeps, State.setOrder, readLink]
  · exact Keeps.refl _ s

theorem drainReady_nudgeOrder (h : drainReady s = false) : drainReady (nudgeOrder s) = false := by
  by_cases hlink : s.order.phase = .link ∧ s.engine.state = .running
  · refine drainReady_of_not_draining ?_
    rw [(keeps_nudgeOrder s).1 (by simp), hlink.2]
    exact EngineState.noConfusion
  · rwa [nudgeOrder_off hlink]

end

/-! ## NUDGE alone -/

/-- A NUDGE taken at both units, in whatever state engine control is. -/
theorem nudge_spec {w : Word} {s : State} (hw : w &&& 0x1F = 0x10) (hs : Settled s) : Answers (.nudge w) s fun t =>
    t.engine = storedEnables w s.engine ∧ t.irq = t.engine.interrupt ∧ Keeps [.engine, .irq, .port, .order, .notice] s t
    ∧ (if s.order.phase = .link ∧ s.engine.state = .running then
        if portBusy .orderUnit s then t.order = { s.order with nudgePending := true }
        else t.order = { s.order with pollTimer := none }
          ∧ Requested (readOf .linkRead (s.order.position.getD 0) 8) t
      else t.order = s.order)
    ∧ (s.engine.state = .running ∨ s.engine.state = .draining → NoticeNudged s t)
    ∧ (s.engine.state ≠ .running → s.engine.state ≠ .draining → t.notice = s.notice) := by
  have he := effectOf_nudge hw s
  have hready : drainReady (storeEnables w s) = false := hs.1
  have horder := keeps_nudgeOrder (storeEnables w s)
  have hnotice := noticeResumes_nudgeNotice (nudgeOrder (storeEnables w s))
  refine answers_landed he (drainReady_nudgeNotice (drainReady_nudgeOrder hready)) fun t hl => ?_
  have hu : (nudgeOrder (storeEnables w s)).engine = storedEnables w s.engine := horder.1 (by simp)
  have hun : (nudgeOrder (storeEnables w s)).notice = s.notice := horder.2.2.2.2.2.2.2.2.1 (by simp)
  have hto : t.order = (nudgeOrder (storeEnables w s)).order := hl.order.trans (hnotice.keeps.2.2.2.2.1 (by simp))
  refine ⟨hl.engine.trans ((hnotice.keeps.1 (by simp)).trans hu), hl.irq, ?_, ?_, fun hruns => ?_, fun h1 h2 => ?_⟩
  · have hstore : Keeps [.engine, .irq, .port, .order, .notice] s (storeEnables w s) := by
      simp [Keeps, storeEnables, State.setEngine]
    exact hl.keepsOf ((hstore.trans (horder.mono (by simp))).trans (hnotice.keeps.mono (by simp)))
  · rw [hto]
    by_cases hlink : s.order.phase = .link ∧ s.engine.state = .running
    · rw [if_pos hlink]
      by_cases hbusy : portBusy .orderUnit s = true
      · rw [if_pos hbusy, nudgeOrder_busy (s := storeEnables w s) hlink hbusy]
        rfl
      · rw [if_neg hbusy]
        have hfree := nudgeOrder_free (s := storeEnables w s) hlink hbusy
        refine ⟨by rw [hfree]; rfl, hl.requested (hnotice.port.requested Requester.noConfusion ?_)⟩
        rw [hfree]
        exact requested_portRequest (readOf .linkRead (s.order.position.getD 0) 8) _
    · rw [if_neg hlink, nudgeOrder_off (s := storeEnables w s) hlink]
      rfl
  · refine nudged_of_landed (u := nudgeOrder (storeEnables w s)) hun ?_ ?_ hl
    · unfold State.loadedSetup
      rw [hu]
    · rw [noticeRuns_iff, hu]
      exact hruns
  · have hoff : nudgeNotice (nudgeOrder (storeEnables w s)) = nudgeOrder (storeEnables w s) := by
      refine nudgeNotice_off ?_
      rw [noticeRuns_iff, hu, not_or]
      exact ⟨h1, h2⟩
    rw [hl.notice, hoff, hun]

/-! ## NUDGE after START (R171, R176) -/

/-- The part with another order unit and another notice unit. -/
def State.withUnits (o : OrderUnit) (n : NoticeUnit) (s : State) : State := { s with order := o, notice := n }

section
variable {s : State} (o : OrderUnit) (n : NoticeUnit)

theorem takeRace_withUnits (s : State) :
    takeRace (s.withUnits o n) = ((takeRace s).1, (takeRace s).2.withUnits o n) := by
  unfold takeRace
  cases h : s.races with
  | nil =>
    rw [show (s.withUnits o n).races = [] from h]
    rfl
  | cons b bs =>
    rw [show (s.withUnits o n).races = b :: bs from h]
    rfl

theorem pickRequester_withUnits (old : Requester → Bool) (rs : List Requester) (s : State) :
    pickRequester old rs (s.withUnits o n) = ((pickRequester old rs s).1, (pickRequester old rs s).2.withUnits o n) := by
  induction rs generalizing s with
  | nil => rfl
  | cons r rs ih =>
    cases rs with
    | nil => rfl
    | cons q rs =>
      unfold pickRequester
      by_cases hold : old r = true
      · rw [if_pos hold, if_pos hold]
      · rw [if_neg hold, if_neg hold, takeRace_withUnits]
        obtain ⟨b, s'⟩ := takeRace s
        cases b with
        | true => rfl
        | false => exact ih s'

theorem portIssue_withUnits (r : Requester) (s : State) : portIssue r (s.withUnits o n) = (portIssue r s).withUnits o n := by
  unfold portIssue
  cases h : s.port.waiting.get r with
  | none =>
    rw [show (s.withUnits o n).port.waiting.get r = none from h]
  | some tr =>
    rw [show (s.withUnits o n).port.waiting.get r = some tr from h]
    rfl

theorem portGrant_withUnits (before s : State) : portGrant before (s.withUnits o n) = (portGrant before s).withUnits o n := by
  unfold portGrant
  cases h : s.port.outstanding with
  | some tr =>
    rw [show (s.withUnits o n).port.outstanding = some tr from h]
  | none =>
    rw [show (s.withUnits o n).port.outstanding = none from h]
    dsimp only
    rw [show (s.withUnits o n).port = s.port from rfl, pickRequester_withUnits]
    obtain ⟨picked, s'⟩ := pickRequester (fun r => (before.port.waiting.get r).isSome)
      ((rotationAfter s.port.last).filter fun r => (s.port.waiting.get r).isSome) s
    cases picked with
    | none => rfl
    | some r => exact portIssue_withUnits o n r s'

/-- The end of an event in a running engine does not look at the order unit or the notice unit. -/
theorem settle_withUnits (before : State) (hrun : s.engine.state = .running) :
    settle before (s.withUnits o n) = (settle before s).withUnits o n := by
  have hready : drainReady s = false := drainReady_of_not_draining (by rw [hrun]; exact EngineState.noConfusion)
  have hready' : drainReady (s.withUnits o n) = false :=
    drainReady_of_not_draining (show s.engine.state ≠ .draining by rw [hrun]; exact EngineState.noConfusion)
  unfold settle
  rw [judgeDrain_of_not_ready hready, judgeDrain_of_not_ready hready', portGrant_withUnits]
  rfl

end

theorem phase_resumeService (v : Service) (s : State) : (resumeService v s).order.phase ≠ .link := by
  unfold resumeService
  split
  · exact OrderPhase.noConfusion
  · split
    · exact OrderPhase.noConfusion
    · exact OrderPhase.noConfusion
  · exact OrderPhase.noConfusion

/-- The order unit goes on in LINK by the link's read alone (R155). -/
theorem resumeOrder_of_link {s : State} (h : (resumeOrder s).order.phase = .link) : resumeOrder s = readLink s := by
  cases hservice : s.order.service with
  | some v =>
    rw [resumeOrder_service hservice] at h
    exact absurd h (phase_resumeService v s)
  | none =>
    cases hout : s.order.outcome with
    | some out =>
      rw [resumeOrder_outcome hservice hout] at h
      exact OrderPhase.noConfusion h
    | none =>
      obtain ⟨horder, -, -, hlink⟩ := resumeOrder_chain hservice hout
      rw [horder] at h
      exact hlink h

/-- The order unit gone on to the link has the link's read outstanding or waiting. -/
theorem portBusy_resumed {u : State} (h : (allResumed u).order.phase = .link) :
    portBusy .orderUnit (allResumed u) = true := by
  rw [resumed_order] at h
  have hrequested := requested_portRequest (readOf .linkRead ((resumeCollation u).order.position.getD 0) 8) (resumeCollation u)
  change Requested _ (readLink (resumeCollation u)) at hrequested
  rw [← resumeOrder_of_link h] at hrequested
  exact portBusy_of_requested ((noticeResumes_resumeNotice _).port.requested Requester.noConfusion hrequested)

theorem phase_judgeRoom {s : State} (h : s.notice.phase = .idle) : (judgeRoom s).notice.phase ≠ .wait := by
  cases ht : s.notice.table with
  | nil =>
    rw [judgeRoom_nil ht, h]
    exact NoticePhase.noConfusion
  | cons e rest =>
    by_cases hr : noticeRoom s = true
    · rw [judgeRoom_post ht hr]
      exact NoticePhase.noConfusion
    · rw [judgeRoom_full ht hr]
      exact NoticePhase.noConfusion

/-- The notice unit gone on waits for no timer. -/
theorem phase_resumeNotice {s : State} (hrun : s.engine.state = .running) : (resumeNotice s).notice.phase ≠ .wait := by
  cases hphase : s.notice.phase with
  | record =>
    cases hp : s.notice.post with
    | some p =>
      rw [resumeNotice_record hphase hp, portRequest_notice, hphase]
      exact NoticePhase.noConfusion
    | none =>
      unfold resumeNotice
      rw [hphase, hp]
      dsimp only
      rw [hphase]
      exact NoticePhase.noConfusion
  | count =>
    rw [resumeNotice_count hphase, portRequest_notice, hphase]
    exact NoticePhase.noConfusion
  | room =>
    rw [resumeNotice_read (.inl hphase)]
    exact NoticePhase.noConfusion
  | wait =>
    rw [resumeNotice_read (.inr hphase)]
    exact NoticePhase.noConfusion
  | idle =>
    rw [resumeNotice_idle hphase hrun]
    exact phase_judgeRoom hphase

/-- A NUDGE at a notice unit that waits for no timer is noted when a read of the count is under way (R164). -/
theorem nudgeNotice_noted {s : State} (hrun : s.engine.state = .running) (hwait : s.notice.phase ≠ .wait) (o : OrderUnit) :
    nudgeNotice (s.withUnits o s.notice) = s.withUnits o
      { s.notice with nudgePending := s.notice.nudgePending || s.notice.phase == .room } := by
  by_cases hroom : s.notice.phase = .room
  · rw [nudgeNotice_room (s := s.withUnits o s.notice) ((noticeRuns_iff _).2 (.inl hrun)) hroom, hroom]
    simp [State.withUnits, State.setNotice]
  · rw [nudgeNotice_other (s := s.withUnits o s.notice) hwait hroom, beq_eq_false_iff_ne.2 hroom, Bool.or_false]

/-- A NUDGE after START finds every read outstanding, and is noted (R153, R164). -/
theorem nudge_resumed {u : State} (hrun : u.engine.state = .running) : nudgeNotice (nudgeOrder (allResumed u)) =
    (allResumed u).withUnits
      { (allResumed u).order with
        nudgePending := (allResumed u).order.nudgePending || (allResumed u).order.phase == .link }
      { (allResumed u).notice with
        nudgePending := (allResumed u).notice.nudgePending || (allResumed u).notice.phase == .room } := by
  have hengine : (allResumed u).engine = u.engine := (resumed_keeps u).1 (by simp)
  have hrunning : (allResumed u).engine.state = .running := by rw [hengine, hrun]
  have hbusy := portBusy_resumed (u := u)
  have hwait : (allResumed u).notice.phase ≠ .wait := by
    refine phase_resumeNotice ?_
    rw [(orderResumes_resumeOrder _).keeps.1 (by simp), (collationResumes_resumeCollation u).keeps.1 (by simp), hrun]
  generalize allResumed u = p at *
  have horder : nudgeOrder p = p.withUnits
      { p.order with nudgePending := p.order.nudgePending || p.order.phase == .link } p.notice := by
    by_cases hlink : p.order.phase = .link
    · rw [nudgeOrder_busy ⟨hlink, hrunning⟩ (hbusy hlink), hlink]
      simp [State.withUnits, State.setOrder]
    · rw [nudgeOrder_off fun h => hlink h.1, beq_eq_false_iff_ne.2 hlink, Bool.or_false]
      rfl
  rw [horder]
  exact nudgeNotice_noted hrunning hwait _

/-! ## NUDGE beside INIT, START and STOP (R171) -/

/-- The word of a NUDGE alone has the enables of the word with the action beside it. -/
theorem effectOf_nudge_alone {w a : Word} (h : w &&& 0x1F = a) (ha : a &&& ~~~0x07 = 0x10) (s : State) :
    effectOf (.nudge (w &&& ~~~0x07)) s = some (nudgeNotice (nudgeOrder (storeEnables w s))) := by
  rw [effectOf_nudge ((low_without h 0x07).trans ha), storeEnables_without (high_of_low rfl)]

/-- An action ignored, with a NUDGE beside it, is a NUDGE. -/
theorem exec_nudge_beside {i : Instr} {w a : Word} {s : State} (h : w &&& 0x1F = a) (ha : a &&& ~~~0x07 = 0x10)
    (he : effectOf i s = some (nudgeNotice (nudgeOrder (storeEnables w s)))) :
    exec i s = exec (.nudge (w &&& ~~~0x07)) s := by
  rw [exec_of_effect he, exec_of_effect (effectOf_nudge_alone h ha s)]

/-- A NUDGE that meets an engine neither RUNNING nor DRAINING does nothing. -/
theorem nudge_off {s : State} (h1 : s.engine.state ≠ .running) (h2 : s.engine.state ≠ .draining) :
    nudgeNotice (nudgeOrder s) = s := by
  rw [nudgeOrder_off fun h => h1 h.2]
  refine nudgeNotice_off ?_
  rw [noticeRuns_iff, not_or]
  exact ⟨h1, h2⟩

theorem state_performInit (s : State) (h : s.engine.state = .halted) :
    (performInit s).engine.state = .loading ∨ (performInit s).engine.state = .halted := by
  unfold performInit
  rw [if_pos h]
  dsimp only
  split
  · exact .inl rfl
  · exact .inr rfl

theorem performStop_running {s : State} (h : s.engine.state = .running) : performStop s = beginDrain s := by
  unfold performStop
  rw [h]

theorem performStop_ignored {s : State} (h : s.engine.state = .halted ∨ s.engine.state = .draining) : performStop s = s := by
  unfold performStop
  rcases h with h | h <;> rw [h]

/-- A STOP in RUNNING begins the drain and judges it (R177). -/
theorem drain_begun {s : State} (h : s.engine.state = .running) : ∃ u, performStop s = judgeDrain u
    ∧ (u.engine = { s.engine with state := .draining } ∧ u.order = { s.order with pollTimer := none }
      ∧ u.notice = s.notice ∧ Keeps [.engine, .irq, .order, .cells] s u)
    ∧ (drainReady u = true ↔ NothingToDrain s) := by
  obtain ⟨u, hu, he, ho, hn, hp, hc, hsc, hcl, hpe, hcell⟩ := beginDrain_eq s
  refine ⟨u, (performStop_running h).trans hu, ⟨he, ho, hn, ?_⟩, ?_⟩
  · simp [Keeps, hn, hp, hc, hsc, hcl, hpe]
  · exact drainReady_begun (by rw [he]) (by rw [ho]) hp hc hsc fun c => by rw [hcell, transmit_asm]

/-- A STOP that ends a load, a fault or a drain with nothing left leaves the engine HALTED. -/
theorem state_performStop {s : State} (h : (s.engine.state = .running ∧ NothingToDrain s) ∨ s.engine.state = .loading
    ∨ s.engine.state = .faulted) : (performStop s).engine.state = .halted := by
  rcases h with ⟨hrun, hnothing⟩ | h | h
  · obtain ⟨u, hu, -, hbegun⟩ := drain_begun hrun
    rw [hu, judgeDrain, if_pos (hbegun.2 hnothing)]
    rfl
  · unfold performStop
    rw [h]
    rfl
  · unfold performStop
    rw [h]
    exact congrArg Engine.state (recover_spec s).1

/-- Settles O19: NUDGE alone at the two units; beside START it is noted, beside STOP the drain has begun, and beside an action
ignored it is alone. -/
theorem nudgeReadsAtOnce : Obligations.NudgeReadsAtOnce := by
  refine ⟨fun w s hw hs => nudge_spec hw hs, fun w s => ?_⟩
  intro alone nudge
  have hstore : storeEnables alone s = storeEnables w s := storeEnables_without (v := 0x10) (high_of_low rfl) s
  refine ⟨fun hw => ?_, fun hw => ?_, fun hw => ?_⟩
  · have halone : alone &&& 0x1F = 0x01 := low_without hw 0x10
    have he : effectOf (.init w) s = some (nudgeNotice (nudgeOrder (performInit (storeEnables w s)))) :=
      congrArg some (controlWrite_row (v := 0x01) hw rfl rfl rfl s)
    refine ⟨fun hstate => ?_, fun hstate => ?_⟩
    · have hoff : nudgeNotice (nudgeOrder (performInit (storeEnables w s))) = performInit (storeEnables w s) := by
        refine nudge_off ?_ ?_
        · rcases state_performInit (storeEnables w s) hstate with h | h <;> rw [h] <;> exact EngineState.noConfusion
        · rcases state_performInit (storeEnables w s) hstate with h | h <;> rw [h] <;> exact EngineState.noConfusion
      rw [exec_of_effect he, exec_of_effect (effectOf_init halone s), hstore, hoff]
    · rw [show performInit (storeEnables w s) = storeEnables w s from if_neg hstate] at he
      exact exec_nudge_beside hw rfl he
  · have halone : alone &&& 0x1F = 0x02 := low_without hw 0x10
    have he : effectOf (.start w) s = some (nudgeNotice (nudgeOrder (performStart (storeEnables w s)))) :=
      congrArg some (controlWrite_row (v := 0x02) hw rfl rfl rfl s)
    refine ⟨fun hstate hloaded => ?_, fun h => ?_⟩
    · have hstart := performStart_eq (s := storeEnables w s) hstate hloaded
      rw [hstart, nudge_resumed (u := started (storeEnables w s)) rfl] at he
      have hrunning : (allResumed (started (storeEnables w s))).engine.state = .running :=
        congrArg Engine.state ((resumed_keeps (started (storeEnables w s))).1 (by simp))
      refine ⟨_, exec_of_effect (effectOf_start halone s), ?_⟩
      have hready := drainReady_of_not_draining (s := allResumed (started (storeEnables w s)))
        (by rw [hrunning]; exact EngineState.noConfusion)
      rw [exec_of_effect he, hstore, hstart, settle_withUnits _ _ s hrunning, settle_order, settle_notice_of_running s hready]
      rfl
    · rw [performStart_ignored (s := storeEnables w s) h] at he
      exact exec_nudge_beside hw rfl he
  · have halone : alone &&& 0x1F = 0x04 := low_without hw 0x10
    have he : effectOf (.stop w) s = some (nudgeNotice (nudgeOrder (performStop (storeEnables w s)))) :=
      congrArg some (controlWrite_row (v := 0x04) hw rfl rfl rfl s)
    refine ⟨fun hstate hleft => ?_, fun h => ?_, fun h => ?_⟩
    · obtain ⟨u, hu, ⟨hengine, horder, hnotice, hkeeps⟩, hbegun⟩ := drain_begun (s := storeEnables w s) hstate
      have hready : drainReady u = false := eq_false_of_ne_true (mt hbegun.1 hleft)
      have hdraining : u.engine.state = .draining := by rw [hengine]
      rw [hu, judgeDrain_of_not_ready hready, nudgeOrder_off fun h => by simp [hdraining] at h] at he
      have hresumes := (noticeResumes_nudgeNotice u).keeps
      refine answers_landed he (drainReady_nudgeNotice hready) fun t hl => ⟨?_, hl.irq, ?_, ?_, ?_⟩
      · exact hl.engine.trans ((hresumes.1 (by simp)).trans hengine)
      · exact hl.order.trans ((hresumes.2.2.2.2.1 (by simp)).trans horder)
      · refine nudged_of_landed hnotice ?_ ((noticeRuns_iff _).2 (.inr hdraining)) hl
        unfold State.loadedSetup
        rw [hengine]
        rfl
      · have hstored : Keeps [.engine, .irq, .port, .order, .cells, .notice] s (storeEnables w s) := by
          simp [Keeps, storeEnables, State.setEngine]
        exact hl.keepsOf ((hstored.trans (hkeeps.mono (by simp))).trans (hresumes.mono (by simp)))
    · have hhalted := state_performStop (s := storeEnables w s) h
      have hoff : nudgeNotice (nudgeOrder (performStop (storeEnables w s))) = performStop (storeEnables w s) := by
        refine nudge_off ?_ ?_ <;> rw [hhalted] <;> exact EngineState.noConfusion
      rw [exec_of_effect he, exec_of_effect (effectOf_stop halone s), hstore, hoff]
    · rw [performStop_ignored (s := storeEnables w s) h] at he
      exact exec_nudge_beside hw rfl he

end Sys2Proof.Machine
end
